-- ==== Sys2Proof/Word.lean ====
section
/-! DEFINITION. The values the block works on: bytes, channel values, addresses, and the numbers of the
telemetry encoder. -/

namespace Sys2Proof

/-- A byte, 0..255 (00_scope.md R10). -/
abbrev Byte := BitVec 8

/-- A channel register of the channel register file: 11 bits, unsigned (10_state.md R21). -/
abbrev Chan := BitVec 11

/-- A network address: any type with decidable equality will do, the model takes the naturals
(00_scope.md R9 ADDR; assumption 16, DESIGN CHOICE). -/
abbrev Addr := Nat

/-- A real number as plain data (10_state.md R36). The rationals and their multiples of square roots are told exactly.
Any other real number the environment gives a name to: what its name stands for is open, an integer part and an endless
run of binary digits (`Config.realInt`, `Config.realBit`), which every real number has (assumption 38). -/
inductive RealLit where
  /-- a rational number -/
  | rat (q : Rat)
  /-- `q √n` -/
  | root (q : Rat) (n : Nat)
  /-- `q` times the real number named `k` -/
  | named (q : Rat) (k : Nat)
deriving DecidableEq, Repr, Inhabited

/-- A number as a TelemetryRecord carries it: a real number, or what a floating-point value may be instead (10_state.md
R36). NaN and the infinities are told apart only so that a record is kept as it came (43_telemetry_encoder.md R202). -/
inductive Num where
  | fin (x : RealLit)
  | nan
  | posInf
  | negInf
deriving DecidableEq, Repr, Inhabited

/-- `2 (a b + c d)`: the form of each sine of the derivation stage (43_telemetry_encoder.md R205, R208). -/
structure Cross where
  a : RealLit
  b : RealLit
  c : RealLit
  d : RealLit
deriving DecidableEq, Repr, Inhabited

/-- `const`, and each coefficient of `terms` times the square beside it: the form of each cosine of the derivation stage
(43_telemetry_encoder.md R205, R208). -/
structure Squares where
  const : Rat
  terms : List (Rat × RealLit)
deriving DecidableEq, Repr, Inhabited

/-- A real operand of the telemetry encoder, exact. The derivation stage (43_telemetry_encoder.md R205 to R208) leaves
the numbers of a record by square root, `atan2` and `asin` only, so these forms are all it needs: those of rational
numbers first, then those of any real numbers (assumption 10). -/
inductive RealNum where
  /-- a rational number -/
  | rat (q : Rat)
  /-- the square root of `r` (not finite for `r < 0`) -/
  | sqrt (r : Rat)
  /-- `atan2(y, x)` in radians, in (-pi, pi] (undefined, so not finite, for `y = x = 0`) -/
  | atan2 (y x : Rat)
  /-- `atan2(s, c)` in degrees, plus 360 if negative: a heading in [0, 360) (R205) -/
  | heading (s c : Rat)
  /-- `asin(t)` in radians (not finite outside [-1, 1]) -/
  | asin (t : Rat)
  /-- not a finite number: NaN, an infinity, or an undefined derivation (R202) -/
  | nonFinite
  /-- a real number of a record -/
  | lit (x : RealLit)
  /-- the square root of the sum of the squares of `xs` -/
  | norm (xs : List RealLit)
  /-- `atan2(y, x)` in radians, as `atan2` -/
  | angle (y : Cross) (x : Squares)
  /-- `atan2(s, c)` in degrees, as `heading` -/
  | turn (s : Cross) (c : Squares)
  /-- `asin(max(-1, min(1, t)))` in radians -/
  | asinOf (t : Cross)
deriving DecidableEq, Repr, Inhabited

end Sys2Proof
end

