-- ==== Sys2Proof/Config.lean ====
section
/-! DEFINITION. The constants the source fixes (00_scope.md R8), the parameters it leaves to configuration
(00_scope.md R9), and the opaque constants that stand for what a parameter's choice computes. -/

namespace Sys2Proof

/-! ### Constants (00_scope.md R8) -/

/-- SYNC, the frame sync byte. -/
def Config.sync : Byte := 0xC8#8
/-- POLY, the generator polynomial of CRC-8/DVB-S2, the x^8 term implicit. -/
def Config.poly : Byte := 0xD5#8
/-- CRC_INIT, the initial accumulator. -/
def Config.crcInit : Byte := 0x00#8
/-- CRC_XOROUT: "no final XOR". -/
def Config.crcXorOut : Byte := 0x00#8
/-- CH_MAX, the largest channel value. -/
def Config.chMax : Nat := 2047
/-- LEN_MAX, the largest value of the length byte. -/
def Config.lenMax : Nat := 255
/-- TICK_MS, the interval of the telemetry encoder. -/
def Config.tickMs : Nat := 100
/-- STATS_WINDOW_MS, the length of the statistics window. -/
def Config.statsWindowMs : Nat := 1000
/-- RPM_MAX_N, the largest number of rotor speeds in one record. -/
def Config.rpmMaxN : Nat := 19
/-- GPS_SATS, the fixed satellites byte. -/
def Config.gpsSats : Byte := 0x01#8
/-- RPM_SOURCE_ID, the fixed RPM source id. -/
def Config.rpmSourceId : Byte := 0x00#8
/-- CTL_REGISTER. -/
def Config.ctlRegister : Byte := 0x00#8
/-- CTL_UNREGISTER. -/
def Config.ctlUnregister : Byte := 0x01#8
/-- CTL_QUIT. -/
def Config.ctlQuit : Byte := 0xFF#8

/-! ### Parameters (00_scope.md R9)

A parameter whose value is a function cannot be a field of plain data: the parameter then holds which function is
meant, the default by name or one supplied by a realisation by a number, and an opaque constant below gives
what the supplied one computes (assumption 8). -/

/-- ROUND_TIES: the tie rule of `rnd` (43_telemetry_encoder.md R201). -/
inductive RoundTies where
  | halfToEven
  /-- another tie rule, number `k` of the realisation's: `Config.tieUp` -/
  | supplied (k : Nat)
deriving DecidableEq, Repr

/-- NUMERICS: the arithmetic of the telemetry encoder (43_telemetry_encoder.md R201). -/
inductive Numerics where
  | exactReals
  /-- another arithmetic (a floating-point one), number `k`: `Config.flScaled` and the constants after it -/
  | supplied (k : Nat)
deriving DecidableEq, Repr

/-- GEO_FN: position to latitude and longitude, supplied by the environment (43_telemetry_encoder.md R203). -/
inductive GeoFn where
  /-- the function that answers this pair for every position (95_test_vectors.md section 7, P4) -/
  | fixed (lat lon : RealNum)
  /-- any other function, number `k`: `Config.geoFn` -/
  | supplied (k : Nat)
deriving DecidableEq, Repr

/-- EULER_FN: quaternion to pitch, roll and yaw (43_telemetry_encoder.md R208). -/
inductive EulerFn where
  /-- the default of R208 -/
  | default
  /-- any other function, number `k`: `Config.eulerFn` -/
  | supplied (k : Nat)
deriving DecidableEq, Repr

/-- The parameters a rule reads. They are fixed for the life of the block: no operation changes one
(10_state.md R35, R38; 70_reset_and_hazards.md R341). The defaults are those of 00_scope.md R9. -/
structure Params where
  /-- AXIS_MAX, the plausibility bound on a channel value -/
  axisMax : Nat := 1983
  /-- CNT_W, the width in which event counters are shown; `none`: unbounded -/
  cntW : Option Nat := none
  /-- DEST_CAP, the capacity of the destination set; `none`: unbounded -/
  destCap : Option Nat := none
  roundTies : RoundTies := .halfToEven
  numerics : Numerics := .exactReals
  /-- R9 gives no default: the function is the environment's (assumption 11) -/
  geo : GeoFn := .supplied 0
  euler : EulerFn := .default
  /-- BARO_VS_BYTES, the size of the zero vertical-speed sub-field of BARO_ALT -/
  baroVsBytes : Nat := 1
  /-- READ_MAX, the most bytes one read on BS_RX returns; `none`: open, any number (assumption 27) -/
  readMax : Option Nat := none
  /-- RXBUF_CAP, the capacity of the receive buffer; `none`: unbounded (assumption 27) -/
  rxbufCap : Option Nat := none
  /-- STATS_REPORT_MS, the period of the statistics report; `none`: open, a report whenever the environment says
  (assumption 36) -/
  statsReportMs : Option Nat := none
  /-- READ_TIMEOUT, the time after which a read is answered with no byte; `none`: open (assumption 36) -/
  readTimeout : Option Nat := none
deriving DecidableEq, Repr

/-! ### What a supplied parameter computes: no body, so nothing can be proved of a value (assumption 8) -/

/-- Tie rule number `k`: whether the tie between `f` and `f + 1` goes up. -/
opaque Config.tieUp (k : Nat) (f : Int) : Bool
/-- Under arithmetic `k`: the product and sum `a * x + b` of a field's scaling, as that arithmetic gives it. DESIGN
CHOICE (assumption 35, unsafe): the result for a finite operand `x` is a finite number. 43_telemetry_encoder.md R202
speaks of operands that are not finite; of a product that overflows to an infinity no rule speaks. -/
opaque Config.flScaled (k : Nat) (x : RealNum) (a b : Rat) : Rat
/-- Under arithmetic `k`: `(alt - alt_start) * 10`, finite for finite operands (DESIGN CHOICE, as for
`Config.flScaled`: assumption 35). -/
opaque Config.flBaroDiff (k : Nat) (alt altStart : RealNum) : Rat
/-- Under arithmetic `k`: the ground speed in km/h of the horizontal velocity `(vx, vz)`. -/
opaque Config.flKph (k : Nat) (vx vz : RealLit) : RealNum
/-- Under arithmetic `k`: the magnitude in m/s of the velocity `(vx, vy, vz)`. -/
opaque Config.flMag3d (k : Nat) (vx vy vz : RealLit) : RealNum
/-- Under arithmetic `k`: `s` and `c` of the heading of the attitude `(qx, qy, qz, qw)`, not all zero (assumption 37). -/
opaque Config.flHeadingParts (k : Nat) (qx qy qz qw : RealLit) : Num × Num
/-- Under arithmetic `k`: `atan2(s, c) * 180 / pi`, in degrees; `none` where it is not finite (assumption 37). -/
opaque Config.flAtan2Deg (k : Nat) (s c : Num) : Option Rat
/-- Under arithmetic `k`: the default Euler angles (pitch, roll, yaw) of the attitude `(qx, qy, qz, qw)`. -/
opaque Config.flEuler (k : Nat) (qx qy qz qw : RealLit) : RealNum × RealNum × RealNum
/-- GEO_FN number `k`: (latitude, longitude) in degrees of the position `(x, y, z)`. -/
opaque Config.geoFn (k : Nat) (x y z : Num) : RealNum × RealNum
/-- EULER_FN number `k`: (pitch, roll, yaw) in radians of the attitude `(qx, qy, qz, qw)`. -/
opaque Config.eulerFn (k : Nat) (qx qy qz qw : Num) : RealNum × RealNum × RealNum

/-! ### Real numbers that only have a name (assumption 38) -/

/-- The integer part, rounded down, of the real number named `k`. -/
opaque Config.realInt (k : Nat) : Int
/-- Binary digit `i` of the rest of the real number named `k`, worth `2^-(i+1)`. -/
opaque Config.realBit (k i : Nat) : Bool

end Sys2Proof
end

