-- ==== Sys2Proof/Syntax.lean ====
section
/-! DEFINITION. The instructions: one constructor of `Instr` for each row of spec/opcode_table.json, the data
types their operands have, and the form in which the environment presents an instruction. -/

namespace Sys2Proof

/-- The frame types with a row of their own (30_encoding.md R100). -/
inductive FrameType where
  | gps | vario | batterySensor | baroAlt | airspeed | heartbeat | rpm | temp | voltages
  | videoTransmitter | linkStatistics | rcChannelsPacked | linkStatisticsRx | linkStatisticsTx
  | attitude | flightMode | deviceInfo | configRead | configWrite | radioId
deriving DecidableEq, Repr

/-- Position in metres, `y` the altitude (10_state.md R36). -/
structure Position where
  x : Num
  y : Num
  z : Num
deriving DecidableEq, Repr, Inhabited

/-- Attitude, a quaternion (10_state.md R36). -/
structure Attitude where
  qx : Num
  qy : Num
  qz : Num
  qw : Num
deriving DecidableEq, Repr, Inhabited

/-- Velocity in metres per second (10_state.md R36). -/
structure Velocity where
  vx : Num
  vy : Num
  vz : Num
deriving DecidableEq, Repr, Inhabited

/-- Battery: fraction remaining and voltage in volts (10_state.md R36). -/
structure Battery where
  pct : Num
  volt : Num
deriving DecidableEq, Repr, Inhabited

/-- TelemetryRecord (10_state.md R36). -/
structure TelemetryRecord where
  pos : Position
  att : Attitude
  vel : Velocity
  batt : Battery
  rpm : List Num
deriving DecidableEq, Repr, Inhabited

/-- The answer of `read(max)` on BS_RX: bytes, possibly none, or *closed* (10_state.md R45). -/
inductive ReadResult where
  | bytes (r : List Byte)
  | closed
deriving DecidableEq, Repr

/-- One constructor for each row of spec/opcode_table.json. A FRAME row's operands are the length byte and the
bytes that follow the type byte (30_encoding.md R90), a CTRL row's is the sender's address (R118), an OP row's
are those of its rule (R122). -/
inductive Instr where
  -- FRAME rows
  | gps (len : Byte) (rest : List Byte)
  | vario (len : Byte) (rest : List Byte)
  | batterySensor (len : Byte) (rest : List Byte)
  | baroAlt (len : Byte) (rest : List Byte)
  | airspeed (len : Byte) (rest : List Byte)
  | heartbeat (len : Byte) (rest : List Byte)
  | rpm (len : Byte) (rest : List Byte)
  | temp (len : Byte) (rest : List Byte)
  | voltages (len : Byte) (rest : List Byte)
  | videoTransmitter (len : Byte) (rest : List Byte)
  | linkStatistics (len : Byte) (rest : List Byte)
  | rcChannelsPacked (len : Byte) (rest : List Byte)
  | linkStatisticsRx (len : Byte) (rest : List Byte)
  | linkStatisticsTx (len : Byte) (rest : List Byte)
  | attitude (len : Byte) (rest : List Byte)
  | flightMode (len : Byte) (rest : List Byte)
  | deviceInfo (len : Byte) (rest : List Byte)
  | configRead (len : Byte) (rest : List Byte)
  | configWrite (len : Byte) (rest : List Byte)
  | radioId (len : Byte) (rest : List Byte)
  -- CTRL rows
  | register (sender : Addr)
  | unregister (sender : Addr)
  | quit (sender : Addr)
  -- OP rows invocable on CMD
  | crc8 (s : List Byte)
  | scan (buf : List Byte)
  | build (type : Byte) (payload : List Byte)
  | unpack (b : Vector Byte 22)
  | pack (c : Vector (BitVec 16) 16)
  | encGps (latDeg lonDeg kph headingDeg altM : RealNum)
  | encBattery (volt pct : RealNum)
  | encVario (vy : RealNum)
  | encBaroAlt (alt altStart : RealNum)
  | encAirspeed (mag3d : RealNum)
  | encAttitude (pitch roll yaw : RealNum)
  | encRpm (rpm : List RealNum)
  | encode (rec : TelemetryRecord) (altStart : RealNum)
  -- OP rows with a trigger of their own
  | rxTick (r : ReadResult)
  | dispatch (type : Byte) (payload : List Byte)
  | netIn (d : List Byte)
  | txWrite
  | telLoad (rec : TelemetryRecord)
  | telTick
  | ctlMsg (m : List Byte) (sender : Addr)
  | bcast (d : List Byte)
  | statsReport
  | stop
deriving DecidableEq, Repr

/-- The operations, by name (30_encoding.md R122). -/
inductive OpName where
  | crc8 | scan | build | unpack | pack
  | encGps | encBattery | encVario | encBaroAlt | encAirspeed | encAttitude | encRpm | encode
  | rxTick | dispatch | netIn | txWrite | telLoad | telTick | ctlMsg | bcast | statsReport | stop
deriving DecidableEq, Repr

/-- The operand that goes with an operation identifier. The spec gives an operation its operands and gives them
no bits: they travel beside the opid as typed data (assumption 5, DESIGN CHOICE). -/
inductive Operand where
  | none
  | bytes (s : List Byte)
  | closed
  | typed (type : Byte) (payload : List Byte)
  | chans (c : Vector (BitVec 16) 16)
  | bytes22 (b : Vector Byte 22)
  | reals (xs : List RealNum)
  | record (rec : TelemetryRecord)
  | recordFrom (rec : TelemetryRecord) (altStart : RealNum)
  | control (m : List Byte) (sender : Addr)
deriving DecidableEq, Repr

/-- An instruction as an interface presents it. -/
inductive Presented where
  /-- the bytes of one frame, read on BS_RX -/
  | frame (bytes : List Byte)
  /-- a control datagram and its sender, on CTL_IN -/
  | ctrl (m : List Byte) (sender : Addr)
  /-- an operation identifier with its operand, on CMD -/
  | cmd (opid : Byte) (operand : Operand)
  /-- the trigger of the operation with this identifier, at its own interface (30_encoding.md R122, the column
  "trigger otherwise") -/
  | event (opid : Byte) (operand : Operand)
deriving DecidableEq, Repr

/-- Why an instruction as presented is none: the decoder's rejections. -/
inductive Reject where
  /-- an opid that 30_encoding.md R122 does not list, or not for the port it is presented at -/
  | illegalOperation (opid : Byte)
  /-- an operand that is not of the operation's operand type (93_implementation_defined.md U17) -/
  | illTyped (opid : Byte)
deriving DecidableEq, Repr

end Sys2Proof
end

