-- ==== Sys2Proof/WellFormed.lean ====
section
/-! DEFINITION. Which instructions are well formed. Operands are typed, so only a frame can be ill formed. -/

namespace Sys2Proof

/-- The frame an instruction is, if it is one of the FRAME rows: its type, length byte, and the bytes after the
type byte. -/
def Instr.frame? : Instr → Option (FrameType × Byte × List Byte)
  | .gps len rest => some (.gps, len, rest)
  | .vario len rest => some (.vario, len, rest)
  | .batterySensor len rest => some (.batterySensor, len, rest)
  | .baroAlt len rest => some (.baroAlt, len, rest)
  | .airspeed len rest => some (.airspeed, len, rest)
  | .heartbeat len rest => some (.heartbeat, len, rest)
  | .rpm len rest => some (.rpm, len, rest)
  | .temp len rest => some (.temp, len, rest)
  | .voltages len rest => some (.voltages, len, rest)
  | .videoTransmitter len rest => some (.videoTransmitter, len, rest)
  | .linkStatistics len rest => some (.linkStatistics, len, rest)
  | .rcChannelsPacked len rest => some (.rcChannelsPacked, len, rest)
  | .linkStatisticsRx len rest => some (.linkStatisticsRx, len, rest)
  | .linkStatisticsTx len rest => some (.linkStatisticsTx, len, rest)
  | .attitude len rest => some (.attitude, len, rest)
  | .flightMode len rest => some (.flightMode, len, rest)
  | .deviceInfo len rest => some (.deviceInfo, len, rest)
  | .configRead len rest => some (.configRead, len, rest)
  | .configWrite len rest => some (.configWrite, len, rest)
  | .radioId len rest => some (.radioId, len, rest)
  | .register _ | .unregister _ | .quit _ => none
  | .crc8 _ | .scan _ | .build _ _ | .unpack _ | .pack _ => none
  | .encGps _ _ _ _ _ | .encBattery _ _ | .encVario _ | .encBaroAlt _ _ | .encAirspeed _ => none
  | .encAttitude _ _ _ | .encRpm _ | .encode _ _ => none
  | .rxTick _ | .dispatch _ _ | .netIn _ | .txWrite | .telLoad _ | .telTick | .ctlMsg _ _ => none
  | .bcast _ | .statsReport | .stop => none

/-- A frame is complete: after the type byte stand exactly the bytes its length byte announces, `L - 1` of them
(30_encoding.md R90, R91; for `L` of 0 or 1, R105 (b), none). Whether it is valid is judged when it is run. -/
def Instr.wf (i : Instr) : Bool :=
  match i.frame? with
  | some (_, len, rest) => rest.length == len.toNat - 1
  | none => true

end Sys2Proof
end

