-- ==== Sys2Proof/Decode.lean ====
section
/-! DEFINITION. The decoder and, after it, the encoder. Three code spaces (30_encoding.md): the frame header
(R90, R100), the control datagram (R118) and the operation identifier (R122). -/

namespace Sys2Proof

/-! ### The three tables -/

/-- The frame type table (30_encoding.md R100). -/
def frameTable : List (Byte × FrameType) :=
  [(0x02#8, .gps), (0x07#8, .vario), (0x08#8, .batterySensor), (0x09#8, .baroAlt), (0x0A#8, .airspeed),
   (0x0B#8, .heartbeat), (0x0C#8, .rpm), (0x0D#8, .temp), (0x0E#8, .voltages), (0x0F#8, .videoTransmitter),
   (0x14#8, .linkStatistics), (0x16#8, .rcChannelsPacked), (0x1C#8, .linkStatisticsRx),
   (0x1D#8, .linkStatisticsTx), (0x1E#8, .attitude), (0x21#8, .flightMode), (0x29#8, .deviceInfo),
   (0x2C#8, .configRead), (0x2D#8, .configWrite), (0x3A#8, .radioId)]

/-- The type byte of a frame type (30_encoding.md R100). -/
def FrameType.code : FrameType → Byte
  | .gps => 0x02#8
  | .vario => 0x07#8
  | .batterySensor => 0x08#8
  | .baroAlt => 0x09#8
  | .airspeed => 0x0A#8
  | .heartbeat => 0x0B#8
  | .rpm => 0x0C#8
  | .temp => 0x0D#8
  | .voltages => 0x0E#8
  | .videoTransmitter => 0x0F#8
  | .linkStatistics => 0x14#8
  | .rcChannelsPacked => 0x16#8
  | .linkStatisticsRx => 0x1C#8
  | .linkStatisticsTx => 0x1D#8
  | .attitude => 0x1E#8
  | .flightMode => 0x21#8
  | .deviceInfo => 0x29#8
  | .configRead => 0x2C#8
  | .configWrite => 0x2D#8
  | .radioId => 0x3A#8

/-- The frame type of a type byte; `none` for an unknown type (30_encoding.md R103). -/
def frameTypeOf (b : Byte) : Option FrameType := frameTable.lookup b

/-- The operation identifiers (30_encoding.md R122). -/
def opTable : List (Byte × OpName) :=
  [(0x01#8, .crc8), (0x02#8, .scan), (0x03#8, .build), (0x04#8, .unpack), (0x05#8, .pack),
   (0x10#8, .encGps), (0x11#8, .encBattery), (0x12#8, .encVario), (0x13#8, .encBaroAlt),
   (0x14#8, .encAirspeed), (0x15#8, .encAttitude), (0x16#8, .encRpm), (0x17#8, .encode),
   (0x20#8, .rxTick), (0x21#8, .dispatch), (0x22#8, .netIn), (0x23#8, .txWrite),
   (0x30#8, .telLoad), (0x31#8, .telTick), (0x40#8, .ctlMsg), (0x41#8, .bcast),
   (0x50#8, .statsReport), (0x5F#8, .stop)]

/-- The identifier of an operation (30_encoding.md R122). -/
def OpName.opid : OpName → Byte
  | .crc8 => 0x01#8
  | .scan => 0x02#8
  | .build => 0x03#8
  | .unpack => 0x04#8
  | .pack => 0x05#8
  | .encGps => 0x10#8
  | .encBattery => 0x11#8
  | .encVario => 0x12#8
  | .encBaroAlt => 0x13#8
  | .encAirspeed => 0x14#8
  | .encAttitude => 0x15#8
  | .encRpm => 0x16#8
  | .encode => 0x17#8
  | .rxTick => 0x20#8
  | .dispatch => 0x21#8
  | .netIn => 0x22#8
  | .txWrite => 0x23#8
  | .telLoad => 0x30#8
  | .telTick => 0x31#8
  | .ctlMsg => 0x40#8
  | .bcast => 0x41#8
  | .statsReport => 0x50#8
  | .stop => 0x5F#8

/-- The operation of an identifier; `none` where R122 lists none. -/
def opOf (opid : Byte) : Option OpName := opTable.lookup opid

/-- The column "invocable on CMD" of 30_encoding.md R122. -/
def OpName.invocable : OpName → Bool
  | .crc8 | .scan | .build | .unpack | .pack => true
  | .encGps | .encBattery | .encVario | .encBaroAlt | .encAirspeed | .encAttitude | .encRpm | .encode => true
  | .rxTick | .dispatch | .netIn | .txWrite | .telLoad | .telTick | .ctlMsg | .bcast => false
  | .statsReport | .stop => false

/-! ### Frames -/

/-- The instruction of a frame of type `t`. -/
def Instr.ofFrame (t : FrameType) (len : Byte) (rest : List Byte) : Instr :=
  match t with
  | .gps => .gps len rest
  | .vario => .vario len rest
  | .batterySensor => .batterySensor len rest
  | .baroAlt => .baroAlt len rest
  | .airspeed => .airspeed len rest
  | .heartbeat => .heartbeat len rest
  | .rpm => .rpm len rest
  | .temp => .temp len rest
  | .voltages => .voltages len rest
  | .videoTransmitter => .videoTransmitter len rest
  | .linkStatistics => .linkStatistics len rest
  | .rcChannelsPacked => .rcChannelsPacked len rest
  | .linkStatisticsRx => .linkStatisticsRx len rest
  | .linkStatisticsTx => .linkStatisticsTx len rest
  | .attitude => .attitude len rest
  | .flightMode => .flightMode len rest
  | .deviceInfo => .deviceInfo len rest
  | .configRead => .configRead len rest
  | .configWrite => .configWrite len rest
  | .radioId => .radioId len rest

/-- The bytes of a frame in stream order: sync, length, type, and the rest (30_encoding.md R90). -/
def frameBytes (t : FrameType) (len : Byte) (rest : List Byte) : List Byte :=
  Config.sync :: len :: t.code :: rest

/-- Bytes read on BS_RX that are one complete frame of a listed type are that type's instruction; any other
bytes, an unknown type included, are read by RX_TICK all the same (30_encoding.md R102, R103). -/
def decodeFrame (bytes : List Byte) : Instr :=
  match bytes with
  | sync :: len :: type :: rest =>
    if sync = Config.sync ∧ rest.length = len.toNat - 1 then
      match frameTypeOf type with
      | some t => Instr.ofFrame t len rest
      | none => .rxTick (.bytes bytes)
    else .rxTick (.bytes bytes)
  | _ => .rxTick (.bytes bytes)

/-! ### Control datagrams -/

/-- A control datagram: one byte with an opcode of 30_encoding.md R118, or a datagram that CTL_MSG ignores
(R105 (d)). -/
def decodeCtrl (m : List Byte) (a : Addr) : Instr :=
  match m with
  | [b] =>
    if b = Config.ctlRegister then .register a
    else if b = Config.ctlUnregister then .unregister a
    else if b = Config.ctlQuit then .quit a
    else .ctlMsg m a
  | _ => .ctlMsg m a

/-! ### Operations -/

/-- The instruction of an operation on an operand of its type. That DISPATCH has an instruction of its own, and takes a packet
of any length with a type byte, an InnerPacket's 254 bytes (10_state.md R37) or more, is the model's choice (DESIGN CHOICE,
assumption 24). -/
def instrOfOp (op : OpName) (x : Operand) : Option Instr :=
  match op, x with
  | .crc8, .bytes s => some (.crc8 s)
  | .scan, .bytes s => some (.scan s)
  | .build, .typed t p => some (.build t p)
  | .unpack, .bytes22 b => some (.unpack b)
  | .pack, .chans c => some (.pack c)
  | .encGps, .reals [lat, lon, kph, hdg, alt] => some (.encGps lat lon kph hdg alt)
  | .encBattery, .reals [volt, pct] => some (.encBattery volt pct)
  | .encVario, .reals [vy] => some (.encVario vy)
  | .encBaroAlt, .reals [alt, altStart] => some (.encBaroAlt alt altStart)
  | .encAirspeed, .reals [mag] => some (.encAirspeed mag)
  | .encAttitude, .reals [p, r, y] => some (.encAttitude p r y)
  | .encRpm, .reals xs => some (.encRpm xs)
  | .encode, .recordFrom rec altStart => some (.encode rec altStart)
  | .rxTick, .bytes r => some (.rxTick (.bytes r))
  | .rxTick, .closed => some (.rxTick .closed)
  | .dispatch, .typed t p => some (.dispatch t p)
  | .netIn, .bytes d => some (.netIn d)
  | .txWrite, .none => some .txWrite
  | .telLoad, .record rec => some (.telLoad rec)
  | .telTick, .none => some .telTick
  | .ctlMsg, .control m a => some (.ctlMsg m a)
  | .bcast, .bytes d => some (.bcast d)
  | .statsReport, .none => some .statsReport
  | .stop, .none => some .stop
  | _, _ => none

/-- An opid with its operand: decoded where the table lists the opid with `invocable = onCmd`, else
IllegalOperation (30_encoding.md R122, 60_exceptions.md R314). -/
def decodeOp (onCmd : Bool) (opid : Byte) (x : Operand) : Except Reject Instr :=
  match opOf opid with
  | none => .error (.illegalOperation opid)
  | some op =>
    if op.invocable = onCmd then
      match instrOfOp op x with
      | some i => .ok i
      | none => .error (.illTyped opid)
    else .error (.illegalOperation opid)

/-- The decoder: total, and rejecting by name. -/
def decode (p : Presented) : Except Reject Instr :=
  match p with
  | .frame bytes => .ok (decodeFrame bytes)
  | .ctrl m a => .ok (decodeCtrl m a)
  | .cmd opid x => decodeOp true opid x
  | .event opid x => decodeOp false opid x

/-! ### The encoder -/

/-- How the environment presents an instruction: written from the same tables. -/
def encode (i : Instr) : Presented :=
  match i with
  | .gps len rest => .frame (frameBytes .gps len rest)
  | .vario len rest => .frame (frameBytes .vario len rest)
  | .batterySensor len rest => .frame (frameBytes .batterySensor len rest)
  | .baroAlt len rest => .frame (frameBytes .baroAlt len rest)
  | .airspeed len rest => .frame (frameBytes .airspeed len rest)
  | .heartbeat len rest => .frame (frameBytes .heartbeat len rest)
  | .rpm len rest => .frame (frameBytes .rpm len rest)
  | .temp len rest => .frame (frameBytes .temp len rest)
  | .voltages len rest => .frame (frameBytes .voltages len rest)
  | .videoTransmitter len rest => .frame (frameBytes .videoTransmitter len rest)
  | .linkStatistics len rest => .frame (frameBytes .linkStatistics len rest)
  | .rcChannelsPacked len rest => .frame (frameBytes .rcChannelsPacked len rest)
  | .linkStatisticsRx len rest => .frame (frameBytes .linkStatisticsRx len rest)
  | .linkStatisticsTx len rest => .frame (frameBytes .linkStatisticsTx len rest)
  | .attitude len rest => .frame (frameBytes .attitude len rest)
  | .flightMode len rest => .frame (frameBytes .flightMode len rest)
  | .deviceInfo len rest => .frame (frameBytes .deviceInfo len rest)
  | .configRead len rest => .frame (frameBytes .configRead len rest)
  | .configWrite len rest => .frame (frameBytes .configWrite len rest)
  | .radioId len rest => .frame (frameBytes .radioId len rest)
  | .register a => .ctrl [Config.ctlRegister] a
  | .unregister a => .ctrl [Config.ctlUnregister] a
  | .quit a => .ctrl [Config.ctlQuit] a
  | .crc8 s => .cmd OpName.crc8.opid (.bytes s)
  | .scan buf => .cmd OpName.scan.opid (.bytes buf)
  | .build t p => .cmd OpName.build.opid (.typed t p)
  | .unpack b => .cmd OpName.unpack.opid (.bytes22 b)
  | .pack c => .cmd OpName.pack.opid (.chans c)
  | .encGps lat lon kph hdg alt => .cmd OpName.encGps.opid (.reals [lat, lon, kph, hdg, alt])
  | .encBattery volt pct => .cmd OpName.encBattery.opid (.reals [volt, pct])
  | .encVario vy => .cmd OpName.encVario.opid (.reals [vy])
  | .encBaroAlt alt altStart => .cmd OpName.encBaroAlt.opid (.reals [alt, altStart])
  | .encAirspeed mag => .cmd OpName.encAirspeed.opid (.reals [mag])
  | .encAttitude p r y => .cmd OpName.encAttitude.opid (.reals [p, r, y])
  | .encRpm xs => .cmd OpName.encRpm.opid (.reals xs)
  | .encode rec altStart => .cmd OpName.encode.opid (.recordFrom rec altStart)
  | .rxTick (.bytes r) => .event OpName.rxTick.opid (.bytes r)
  | .rxTick .closed => .event OpName.rxTick.opid .closed
  | .dispatch t p => .event OpName.dispatch.opid (.typed t p)
  | .netIn d => .event OpName.netIn.opid (.bytes d)
  | .txWrite => .event OpName.txWrite.opid .none
  | .telLoad rec => .event OpName.telLoad.opid (.record rec)
  | .telTick => .event OpName.telTick.opid .none
  | .ctlMsg m a => .event OpName.ctlMsg.opid (.control m a)
  | .bcast d => .event OpName.bcast.opid (.bytes d)
  | .statsReport => .event OpName.statsReport.opid .none
  | .stop => .event OpName.stop.opid .none

/-! ### The words of spec/opcode_table.json -/

/-- The zero record, the telemetry operand of zeros. -/
def zeroRecord : TelemetryRecord where
  pos := ⟨.fin (.rat 0), .fin (.rat 0), .fin (.rat 0)⟩
  att := ⟨.fin (.rat 0), .fin (.rat 0), .fin (.rat 0), .fin (.rat 0)⟩
  vel := ⟨.fin (.rat 0), .fin (.rat 0), .fin (.rat 0)⟩
  batt := ⟨.fin (.rat 0), .fin (.rat 0)⟩
  rpm := []

/-- The operand of zeros of an operation: what stands beside an opid whose table row has no operand bits
(assumption 5). -/
def zeroOperand : OpName → Operand
  | .crc8 | .scan | .rxTick | .netIn | .bcast => .bytes []
  | .build | .dispatch => .typed 0#8 []
  | .unpack => .bytes22 (Vector.replicate 22 0#8)
  | .pack => .chans (Vector.replicate 16 0#16)
  | .encGps => .reals [.rat 0, .rat 0, .rat 0, .rat 0, .rat 0]
  | .encBattery | .encBaroAlt => .reals [.rat 0, .rat 0]
  | .encVario | .encAirspeed => .reals [.rat 0]
  | .encAttitude => .reals [.rat 0, .rat 0, .rat 0]
  | .encRpm => .reals []
  | .encode => .recordFrom zeroRecord (.rat 0)
  | .telLoad => .record zeroRecord
  | .ctlMsg => .control [] 0
  | .txWrite | .telTick | .statsReport | .stop => .none

/-- The frame header of 24 bits `w`, big-endian (30_encoding.md R128: sync in bits 23:16, length in 15:8, type in
7:0), followed by as many zero bytes as its length byte announces. -/
def frameOfHeader (w : Nat) : List Byte :=
  let h := BitVec.ofNat 24 w
  let len := h.extractLsb' 8 8
  h.extractLsb' 16 8 :: len :: h.extractLsb' 0 8 :: List.replicate (len.toNat - 1) 0#8

/-- What an interface presents for a word of the opcode table: a frame header for 24 bits; for 8 bits an opid, or
where R122 lists none a control opcode from sender 0. The word 0x01 is both CRC8 and UNREGISTER: the opid is
taken (assumption 4, DESIGN CHOICE). -/
def presentedOfWord (nbits w : Nat) : Option Presented :=
  if nbits = 24 then some (.frame (frameOfHeader w))
  else if nbits = 8 then
    let b := BitVec.ofNat 8 w
    match opOf b with
    | some op => some (if op.invocable then .cmd b (zeroOperand op) else .event b (zeroOperand op))
    | none =>
      if b = Config.ctlRegister ∨ b = Config.ctlUnregister ∨ b = Config.ctlQuit then some (.ctrl [b] 0)
      else none
  else none

/-- The instruction the decoder reads from a word of spec/opcode_table.json. -/
def decodeTableWord (nbits w : Nat) : Option Instr :=
  (presentedOfWord nbits w).bind fun p => (decode p).toOption

end Sys2Proof
end

