-- ==== Sys2Proof/Machine/State.lean ====
section
/-! DEFINITION. The machine's state as plain data: every element of the tuple of 10_state.md R20, then the model's
own fields (the parameters, and the environment's part), the outputs, the reasons a step can stop, and reset. -/

namespace Sys2Proof.Machine

/-- The framer state FS (10_state.md R24): a function of RXBUF, not stored (`framerState`). -/
inductive FramerState where
  | awaitingSync
  | haveSyncNeedLength
  | haveLengthNeedBody
deriving DecidableEq, Repr

/-- RawFrameResult of SCAN (10_state.md R37): `CrcError` carries nothing. -/
inductive FrameResult where
  | ok (frame : List Byte)
  | crcError
deriving DecidableEq, Repr

/-- An entry of STATS: `Bytes(n)`, or the sentinel `Err` (10_state.md R33). -/
inductive StatEntry where
  | bytes (n : Nat)
  | err
deriving DecidableEq, Repr

/-- The environment's answer to a send on NET_TX (10_state.md R45). -/
inductive NetAnswer where
  | sent
  | unreachable
  | notConnected
deriving DecidableEq, Repr

/-- The environment's answer to a write on BS_TX (10_state.md R45). -/
inductive WriteAnswer where
  | accepted
  | closed
deriving DecidableEq, Repr

/-- The environment's answer to a send on BC_TX (10_state.md R45). -/
inductive SendAnswer where
  | sent
  | failed
deriving DecidableEq, Repr

/-- The two transmit queues (10_state.md R28). -/
inductive TxQueue where
  | net
  | tel
deriving DecidableEq, Repr

/-- What the environment draws for one BCAST: the order of the walk and the sends that fail
(20_memory.md R72, R77). -/
structure BcPlan where
  order : List Addr
  failed : List Addr
deriving DecidableEq, Repr

/-- A direction of the byte stream (60_exceptions.md R309). -/
inductive Direction where
  | rx
  | tx
deriving DecidableEq, Repr

/-- A field of a telemetry payload, as FieldOutOfRange names it (95_test_vectors.md section 5). -/
inductive FieldName where
  | lat | lon | speed | heading | alt
  | voltage | current | capacity | remaining
  | vspeed
  | pitch | roll | yaw
  | count
  | rpm (k : Nat)
deriving DecidableEq, Repr

/-- What FieldOutOfRange records: frame type, field name, and the rounded value, `none` where the operand is
not finite (60_exceptions.md R300, row 7). -/
structure FieldError where
  frame : FrameType
  field : FieldName
  value : Option Int
deriving DecidableEq, Repr

/-- A condition of class error or fatal, with the information it records (60_exceptions.md R300). The other
conditions of that table, IncompleteFrame, NotConnected and IllegalOperation, emit no event. -/
inductive Condition where
  | crcMismatch
  | payloadTooLarge (len : Nat)
  | channelOutOfRange (i : Nat) (value : Nat)
  | destinationUnreachable (dest : Option Addr)
  | streamClosed (direction : Direction)
  | fieldOutOfRange (e : FieldError)
  | rcLengthError (len : Nat)
  | axisRangeError (i : Nat) (value : Nat)
  | emptyDatagram
deriving DecidableEq, Repr

/-- The result of an operation invoked on CMD. -/
inductive Result where
  /-- CRC8 -/
  | crc (b : Byte)
  /-- SCAN -/
  | scanned (frames : List FrameResult) (consumed : Nat)
  /-- BUILD -/
  | frame (f : List Byte)
  /-- UNPACK -/
  | channels (ch : Vector (BitVec 16) 16)
  /-- PACK -/
  | packed (b : Vector Byte 22)
  /-- an ENC_* operation -/
  | payload (p : List Byte)
  /-- ENC_RPM of no rotor: "no frame" -/
  | noFrame
  /-- ENCODE -/
  | pairs (out : List (Byte × List Byte))
deriving DecidableEq, Repr

/-- What the block emits on an output interface (10_state.md R45). A send is kept with its answer. -/
inductive Output where
  | netTx (pkt : List Byte) (ans : NetAnswer)
  | bsTx (frame : List Byte) (ans : WriteAnswer)
  | chOut (c : Vector Chan 16) (mask : BitVec 16) (first : Bool)
  | bcTx (dest : Addr) (d : List Byte) (ans : SendAnswer)
  /-- STAT_OUT: `bytes_per_window`, `errors_per_window`, `crc_errors_total` -/
  | statOut (bytes errors total : Nat)
  /-- ERR_OUT: `(code, opid, info)` (60_exceptions.md R300) -/
  | errOut (code : Nat) (opid : Byte) (info : Condition)
  /-- CMD: the result of the operation `opid` -/
  | result (opid : Byte) (r : Result)
deriving DecidableEq, Repr

/-- One line of the environment's schedule (30_encoding.md R126). -/
inductive Stimulus where
  /-- an instruction is presented at its interface: the lines RX, RXCLOSE, NET, TXW, TEL, CTL, BC, STATS, STOP,
  and an invocation on CMD -/
  | present (p : Presented)
  /-- TICK: `now` advances to NEXT_TICK, TEL_TICK runs -/
  | tick
  /-- NOW: `now` advances to this value -/
  | now (ms : Nat)
  /-- SHUTDOWN: the shutdown signal is presented, STOP runs -/
  | shutdown
  /-- the shutdown signal alone: STOP runs later, at a line STOP (60_exceptions.md R319; assumption 26) -/
  | signal
  /-- the reporting period is over: `now` advances to its end, STATS_REPORT runs (60_exceptions.md R327;
  assumption 36) -/
  | period
  /-- a read on BS_RX times out: `now` advances by READ_TIMEOUT, RX_TICK runs with no byte (60_exceptions.md R328;
  assumption 36) -/
  | timeout
  /-- the reset event (70_reset_and_hazards.md R340) -/
  | reset
deriving DecidableEq, Repr

/-- The machine faults with one of these. No condition of 60_exceptions.md R300 is a fault of the block (R302). -/
inductive Fault where
  /-- Raised by a NOW line that would set `now` back: "a decreasing `now` is outside the model"
  (70_reset_and_hazards.md R346, 93_implementation_defined.md U22). Safe: the machine stops where the spec says nothing. -/
  | clockWentBack (now given : Nat)
deriving DecidableEq, Repr

/-- The machine refuses with one of these. -/
inductive Refusal where
  /-- Raised by exec for an instruction that has no meaning yet. Safe. -/
  | notModelled (mnemonic : String)
  /-- Raised by step for an opid that is not invocable on CMD, or that has no trigger of its own where one is
  presented: IllegalOperation, "refused; no state changes, no result" (60_exceptions.md R302, R314). Safe. -/
  | illegalOperation (opid : Byte)
  /-- Raised by step for an operand that is not of the operation's type: `refuse`, "such a call is ill-typed and
  has no rule" (93_implementation_defined.md U17). Safe. -/
  | illTyped (opid : Byte)
deriving DecidableEq, Repr

/-- The state. The first seventeen fields are the tuple of 10_state.md R20, in its order; the rest are the model's
own. A field without a reset value in R20 resets to zeros (assumption 3, DESIGN CHOICE, unsafe). -/
structure State where
  /-- RXBUF, index 0 the oldest byte (R27) -/
  rxbuf : List Byte
  /-- CRC_ERR_CNT (R26) -/
  crcErrCnt : Nat
  /-- TXQ_NET, head first (R28) -/
  txqNet : List (List Byte)
  /-- TXQ_TEL, head first (R28) -/
  txqTel : List (List Byte)
  /-- LAST_REC (R29); not read while `lastValid` is false -/
  lastRec : TelemetryRecord
  /-- LAST_VALID (R29) -/
  lastValid : Bool
  /-- ALT_START in metres (R30); not read while `altStartValid` is false -/
  altStart : RealLit
  /-- ALT_START_VALID (R30) -/
  altStartValid : Bool
  /-- NEXT_TICK in ms (R31) -/
  nextTick : Nat
  /-- CH[0..15] (R21); not read while `chValid` is false -/
  ch : Vector Chan 16
  /-- CH_VALID (R21) -/
  chValid : Bool
  /-- DEST, a set: strictly rising (R32; assumption 17) -/
  dest : List Addr
  /-- STATS, front first: (time, entry) (R33) -/
  stats : List (Nat × StatEntry)
  /-- HALT (R25) -/
  halt : Bool
  /-- RX_CLOSED (R25) -/
  rxClosed : Bool
  /-- TX_CLOSED (R25) -/
  txClosed : Bool
  /-- STOPPED (R25) -/
  stopped : Bool
  /-- the parameters (00_scope.md R9); no step writes them -/
  params : Params
  /-- the TIME input, ms (60_exceptions.md R325) -/
  now : Nat
  /-- the end of the current reporting period, ms; not read while STATS_REPORT_MS is open (60_exceptions.md R327;
  assumption 36) -/
  nextReport : Nat
  /-- the environment's schedule, next line first (assumption 1) -/
  stimulus : List Stimulus
  /-- the answers to the next sends on NET_TX; `sent` when none is left (assumption 18) -/
  netAnswers : List NetAnswer
  /-- the queues the next TX_WRITEs take from; `net` when none is left (assumption 18) -/
  txPicks : List TxQueue
  /-- the answers to the next writes on BS_TX; `accepted` when none is left (assumption 18) -/
  txAnswers : List WriteAnswer
  /-- the draws for the next BCASTs; when none is left every send is `sent`, in rising order (assumption 18) -/
  bcPlans : List BcPlan
  /-- the shutdown signal is presented and not yet consumed (assumption 26) -/
  shutdown : Bool
  /-- what the block has emitted, oldest first (assumption 19) -/
  out : List Output
deriving DecidableEq, Repr

/-- The machine right after reset, the clock of the environment at 0 (10_state.md R53, 70_reset_and_hazards.md
R342; assumptions 3, 7, 8). -/
def State.reset : State where
  rxbuf := []
  crcErrCnt := 0
  txqNet := []
  txqTel := []
  lastRec := zeroRecord
  lastValid := false
  altStart := .rat 0
  altStartValid := false
  nextTick := 100
  ch := Vector.replicate 16 0#11
  chValid := false
  dest := []
  stats := []
  halt := false
  rxClosed := false
  txClosed := false
  stopped := false
  params := {}
  now := 0
  nextReport := 0
  stimulus := []
  netAnswers := []
  txPicks := []
  txAnswers := []
  bcPlans := []
  shutdown := false
  out := []

end Sys2Proof.Machine
end

