-- ==== Sys2Proof/Machine/Flags.lean ====
section
/-! DEFINITION. Status: the framer state, when an operation is enabled, the change mask, and the values status reads
show. The four sticky flags and three valid bits are fields of State; the block has no condition codes
(10_state.md R25). -/

namespace Sys2Proof.Machine

/-- FS, a function of the fill of RXBUF (10_state.md R24). -/
def framerState (s : State) : FramerState :=
  match s.rxbuf with
  | [] => .awaitingSync
  | [_] => .haveSyncNeedLength
  | _ :: _ :: _ => .haveLengthNeedBody

/-! ### Preconditions: the column "can be held off by" of 60_exceptions.md R318 -/

/-- "While `STOPPED = 1` no operation of any agent starts" (10_state.md R25). -/
def State.running (s : State) : Bool := !s.stopped

/-- RX_TICK and DISPATCH, the operations of agent RX: held off by STOPPED and RX_CLOSED (44_router_bridge.md R251, R266,
60_exceptions.md R309). -/
def State.rxEnabled (s : State) : Bool := !s.stopped && !s.rxClosed

/-- TX_WRITE: a queue is non-empty; held off by STOPPED and TX_CLOSED (44_router_bridge.md R264, R266). -/
def State.txEnabled (s : State) : Bool :=
  !s.stopped && !s.txClosed && !(s.txqNet.isEmpty && s.txqTel.isEmpty)

/-- CTL_MSG and BCAST: held off by STOPPED and HALT (44_router_bridge.md R271, R277). -/
def State.broadcasting (s : State) : Bool := !s.stopped && !s.halt

/-- TEL_TICK: due when `now >= NEXT_TICK`; held off by STOPPED (43_telemetry_encoder.md R230). -/
def State.tickDue (s : State) : Bool := !s.stopped && decide (s.nextTick ≤ s.now)

/-- STATS_REPORT: the reporting period is over, or STATS_REPORT_MS is open; held off by STOPPED (44_router_bridge.md
R283; assumption 36). -/
def State.reportDue (s : State) : Bool :=
  !s.stopped &&
    match s.params.statsReportMs with
    | none => true
    | some _ => decide (s.nextReport ≤ s.now)

/-- STOP: the shutdown signal or a closed stream; held off by nothing, done once (60_exceptions.md R316). -/
def State.stopEnabled (s : State) : Bool := !s.stopped && (s.shutdown || s.rxClosed || s.txClosed)

/-! ### Values -/

/-- The change mask of CH_OUT: all ones for the first set, else bit `i` set iff channel `i` differs from the
previous set (44_router_bridge.md R255). -/
def changeMask (first : Bool) (cur prev : Vector Chan 16) : BitVec 16 :=
  if first then 0xFFFF#16 else BitVec.ofFnLE fun i : Fin 16 => decide (cur[i] ≠ prev[i])

/-- CRC_ERR_CNT as a status read shows it: modulo `2^CNT_W` in a realisation of CNT_W bits (10_state.md R26). -/
def State.crcErrShown (s : State) : Nat :=
  match s.params.cntW with
  | none => s.crcErrCnt
  | some w => s.crcErrCnt % 2 ^ w

/-- `bytes_per_window` of a window (44_router_bridge.md R282). -/
def bytesPerWindow (w : List (Nat × StatEntry)) : Nat :=
  (w.map fun e => match e.2 with | .bytes n => n | .err => 0).sum

/-- `errors_per_window` of a window (44_router_bridge.md R282). -/
def errorsPerWindow (w : List (Nat × StatEntry)) : Nat :=
  (w.filter fun e => e.2 = .err).length

end Sys2Proof.Machine
end

