-- ==== Sys2Proof/Machine/Reals.lean ====
section
/-! DEFINITION. Exact arithmetic on the quantities of the derivation stage, which rational numbers leave by square root,
`atan2` and `asin`, and on real numbers of any kind (43_telemetry_encoder.md R201 to R208, 10_state.md R36). -/

namespace Sys2Proof.Machine

/-! ### Exact square roots -/

/-- The bits below bit `i` of the integer square root of `n`, on top of the root `r` found so far. -/
def isqrtBits (n : Nat) : Nat → Nat → Nat
  | 0, r => r
  | i + 1, r =>
    let t := r + 2 ^ i
    if t * t ≤ n then isqrtBits n i t else isqrtBits n i r

/-- The integer square root, rounded down. -/
def isqrt (n : Nat) : Nat := isqrtBits n (n.log2 / 2 + 1) 0

/-- The rational square root of `r`, if it has one. -/
def ratSqrt? (r : Rat) : Option Rat :=
  let n := isqrt r.num.toNat
  let d := isqrt r.den
  if 0 ≤ r ∧ n * n = r.num.toNat ∧ d * d = r.den then some ((n : Rat) / d) else none

/-! ### Brackets: rational bounds of the other quantities of rational numbers, as close as asked

`atanSmall P n d` and what is built on it are integers at scale `2^P`, within `10^4 (P + 5) + 2` units of the exact value;
the bracket allows `2^64 + 2^16 P` units, at `P = p + 64`, and `ratBracket_holds` proves that it is enough. -/

/-- The tail, from term `i`, of the arctangent series `t/1 - t y²/3 + t y⁴/5 ...`, `t` being the power reached. -/
def atanSeries (P y2 : Nat) : Nat → Nat → Nat → Int
  | 0, _, _ => 0
  | fuel + 1, i, t => (t / (2 * i + 1) : Nat) - atanSeries P y2 fuel (i + 1) ((t * y2) >>> P)

/-- `2^P atan(n/d)` for `0 <= n/d <= 1/2`. -/
def atanSmall (P n d : Nat) : Int :=
  let y := (n <<< P) / d
  atanSeries P ((y * y) >>> P) (P / 2 + 2) 0 y

/-- `2^P atan(n/d)` for `0 <= n/d <= 1`: above a half, `atan x = atan (1/2) + atan ((2x-1)/(2+x))`. -/
def atanUnit (P n d : Nat) : Int :=
  if 2 * n ≤ d then atanSmall P n d else atanSmall P 1 2 + atanSmall P (2 * n - d) (2 * d + n)

/-- `2^P pi`, by Machin's formula. -/
def piFix (P : Nat) : Int := 4 * (4 * atanSmall P 1 5 - atanSmall P 1 239)

/-- `2^P atan(n/d)` for `n, d >= 0`, not both 0. -/
def atanPos (P n d : Nat) : Int :=
  if n ≤ d then atanUnit P n d else piFix P / 2 - atanUnit P d n

/-- `2^P atan2(y, x)`, in (-pi, pi], for `y`, `x` not both 0. -/
def atan2Fix (P : Nat) (y x : Rat) : Int :=
  let n := y.num.natAbs * x.den
  let d := x.num.natAbs * y.den
  let a := atanPos P n d
  if 0 ≤ x then (if 0 ≤ y then a else -a)
  else if 0 ≤ y then piFix P - a
  else a - piFix P

/-- `2^P asin(t)` for `-1 <= t <= 1`: `asin t = 2 atan (t / (1 + sqrt (1 - t²)))`. -/
def asinFix (P : Nat) (t : Rat) : Int :=
  let c := isqrt (((1 - t * t) * 4 ^ P).floor.toNat)
  let n := ((t.num.natAbs <<< P) / t.den : Nat)
  let a := 2 * atanPos P n (2 ^ P + c)
  if 0 ≤ t then a else -a

/-- A rational interval that holds the finite number `x`, of the forms of rational numbers: the narrower the larger `p`,
and a point for a rational and a rational square root. -/
def ratBracket (x : RealNum) (p : Nat) : Rat × Rat :=
  let P := p + 64
  let scale : Rat := 2 ^ P
  let slack : Int := 2 ^ 64 + 2 ^ 16 * P
  let around (v : Int) : Rat × Rat := (((v - slack : Int) : Rat) / scale, ((v + slack : Int) : Rat) / scale)
  match x with
  | .rat q => (q, q)
  | .sqrt r =>
    match ratSqrt? r with
    | some q => (q, q)
    | none =>
      let v := isqrt ((r * 4 ^ P).floor.toNat)
      ((v : Rat) / scale, ((v + 1 : Nat) : Rat) / scale)
  | .atan2 y x => around (atan2Fix P y x)
  | .heading s c =>
    let turn := atan2Fix P s c * 2 ^ P * 180 / piFix P
    around (if s < 0 then turn + 360 * 2 ^ P else turn)
  | .asin t => around (asinFix P t)
  | .nonFinite | .lit _ | .norm _ | .angle _ _ | .turn _ _ | .asinOf _ => (0, 0)

/-! ### Real numbers

Each is known by its enclosures, rational intervals that hold it and close on it. One told exactly, a rational or a multiple
of a square root, is known by its square as well, by which the signs of what the derivation stage makes of such numbers are
found (assumption 38). -/

/-- Whether a number is told exactly. -/
def isExact (x : RealLit) : Bool :=
  match x with
  | .rat _ | .root _ _ => true
  | .named _ _ => false

/-- `r x`. -/
def scaleLit (r : Rat) (x : RealLit) : RealLit :=
  match x with
  | .rat q => .rat (r * q)
  | .root q n => .root (r * q) n
  | .named q k => .named (r * q) k

/-- The square of a number told exactly. -/
def squareLit (x : RealLit) : Rat :=
  match x with
  | .rat q => q * q
  | .root q n => q * q * n
  | .named _ _ => 0

/-- `x |x|` of a number told exactly: it has the sign of `x` and grows with it. -/
def signedSquare (x : RealLit) : Rat :=
  match x with
  | .rat q => q * |q|
  | .root q n => q * |q| * n
  | .named _ _ => 0

/-! ### Enclosures -/

/-- The interval of `a x + b`. -/
def scaleBracket (a b : Rat) (i : Rat × Rat) : Rat × Rat :=
  if 0 ≤ a then (a * i.1 + b, a * i.2 + b) else (a * i.2 + b, a * i.1 + b)

/-- The interval of a sum. -/
def addBracket (i j : Rat × Rat) : Rat × Rat := (i.1 + j.1, i.2 + j.2)

/-- The interval of a product. -/
def mulBracket (i j : Rat × Rat) : Rat × Rat :=
  (min (min (i.1 * j.1) (i.1 * j.2)) (min (i.2 * j.1) (i.2 * j.2)),
   max (max (i.1 * j.1) (i.1 * j.2)) (max (i.2 * j.1) (i.2 * j.2)))

/-- The interval from `m` to `m + 1` at scale `2^P`. -/
def gridBracket (m : Int) (P : Nat) : Rat × Rat := ((m : Rat) / 2 ^ P, ((m + 1 : Int) : Rat) / 2 ^ P)

/-- The real number of integer part `i` and binary digits `bit`, down to digit `P`, as an integer at scale `2^P`. -/
def truncOf (i : Int) (bit : Nat → Bool) : Nat → Int
  | 0 => i
  | P + 1 => 2 * truncOf i bit P + (if bit P then 1 else 0)

/-- The real number named `k`, down to its binary digit `P`, as an integer at scale `2^P`. -/
def realTrunc (k P : Nat) : Int := truncOf (Config.realInt k) (Config.realBit k) P

/-- The enclosure of a number at scale `2^P`. -/
def litEnclose (x : RealLit) (P : Nat) : Rat × Rat :=
  match x with
  | .rat q => (q, q)
  | .root q n =>
    match ratSqrt? n with
    | some m => (q * m, q * m)
    | none => scaleBracket q 0 (gridBracket (isqrt (n * 4 ^ P)) P)
  | .named q k => scaleBracket q 0 (gridBracket (realTrunc k P) P)

/-- The enclosure of a sum of squares, each with its coefficient. -/
def sumEnclose (terms : List (Rat × RealLit)) (P : Nat) : Rat × Rat :=
  terms.foldr (fun t i => addBracket (scaleBracket t.1 0 (mulBracket (litEnclose t.2 P) (litEnclose t.2 P))) i) (0, 0)

/-- A sum of squares of numbers told exactly. -/
def sumExact (terms : List (Rat × RealLit)) : Rat := (terms.map fun t => t.1 * squareLit t.2).sum

/-! ### The sign of an enclosed number -/

/-- `some ()` if `p` holds of a number from `n` on. The recursion has its least fixed point for its meaning, and a search
that never ends is `none`: so `none` says that there is no such number (`everFrom_isSome`). -/
def everFrom (p : Nat → Bool) (n : Nat) : Option Unit := if p n then some () else everFrom p (n + 1)
partial_fixpoint

/-- Whether `p` holds of some number. -/
def ever (p : Nat → Bool) : Bool := (everFrom p 0).isSome

/-- The sign of the number enclosed by `f`, if one of the precisions `p`, `2p`, `4p` ... tells it. -/
def trySign (f : Nat → Rat × Rat) : Nat → Nat → Option SignType
  | 0, _ => none
  | fuel + 1, p =>
    let i := f p
    if 0 < i.1 then some .pos
    else if i.2 < 0 then some .neg
    else if i.1 = 0 ∧ i.2 = 0 then some .zero
    else trySign f fuel (2 * p)

/-- The sign of the number enclosed by `f`: it is positive if some enclosure lies above 0, negative if some lies below, and
else it is 0. The precisions from 64 to 8192 are tried first. -/
def signBy (f : Nat → Rat × Rat) : SignType :=
  match trySign f 8 64 with
  | some s => s
  | none =>
    if ever fun p => decide (0 < (f p).1) then .pos
    else if ever fun p => decide ((f p).2 < 0) then .neg
    else .zero

/-! ### Sines and cosines -/

/-- `2 (a b + c d)`, each of the products by its enclosures. -/
def crossEnclose (y : Cross) (P : Nat) : Rat × Rat :=
  scaleBracket 2 0 (addBracket (mulBracket (litEnclose y.a P) (litEnclose y.b P))
    (mulBracket (litEnclose y.c P) (litEnclose y.d P)))

/-- Whether all four numbers are told exactly. -/
def crossExact (y : Cross) : Bool := isExact y.a && isExact y.b && isExact y.c && isExact y.d

/-- Whether all the numbers are told exactly. -/
def squaresExact (x : Squares) : Bool := x.terms.all fun t => isExact t.2

/-- The value of a cosine of numbers told exactly. -/
def squaresValue (x : Squares) : Rat := x.const + sumExact x.terms

/-- The enclosure of a cosine, a point where its numbers are told exactly. -/
def squaresEnclose (x : Squares) (P : Nat) : Rat × Rat :=
  if squaresExact x then (squaresValue x, squaresValue x) else addBracket (x.const, x.const) (sumEnclose x.terms P)

/-- The sign of a rational number. -/
def ratSign (q : Rat) : SignType := if q < 0 then .neg else if q = 0 then .zero else .pos

/-- The sign of `2 (a b + c d)`: of numbers told exactly, that of the sum of the signed squares of the products. -/
def crossSign (y : Cross) : SignType :=
  if crossExact y then ratSign (signedSquare y.a * signedSquare y.b + signedSquare y.c * signedSquare y.d)
  else signBy (crossEnclose y)

/-- The sign of a cosine. -/
def squaresSign (x : Squares) : SignType :=
  if squaresExact x then ratSign (squaresValue x) else signBy (squaresEnclose x)

/-- Whether a number is 0. -/
def isZero (x : RealLit) : Bool := decide (crossSign ⟨x, .rat 1, .rat 0, .rat 0⟩ = .zero)

/-- Whether an operand is a finite number (43_telemetry_encoder.md R202). -/
def isFinite (x : RealNum) : Bool :=
  match x with
  | .rat _ => true
  | .sqrt r => decide (0 ≤ r)
  | .atan2 y x => !(decide (y = 0) && decide (x = 0))
  | .heading s c => !(decide (s = 0) && decide (c = 0))
  | .asin t => decide (-1 ≤ t) && decide (t ≤ 1)
  | .nonFinite => false
  | .lit _ | .norm _ | .asinOf _ => true
  | .angle y x | .turn y x => !(decide (crossSign y = .zero) && decide (squaresSign x = .zero))

/-! ### Brackets of real numbers -/

/-- The interval of the size of a number of sign `sg`. -/
def sizeBracket (sg : SignType) (i : Rat × Rat) : Rat × Rat :=
  match sg with
  | .zero => (0, 0)
  | .pos => (max 0 i.1, i.2)
  | .neg => (max 0 (-i.2), -i.1)

/-- The scale of the enclosures that a bracket at precision `p` is made from. -/
def fineScale (p : Nat) : Nat := 2 * (p + 64)

/-- The interval of the angle of `(|x|, |y|)`, in the first quarter, `form` being that of an angle of rational numbers. -/
def quarterBracket (form : Rat → Rat → RealNum) (sy sx : SignType) (y x : Rat × Rat) (p : Nat) : Rat × Rat :=
  if sy = .zero then ratBracket (form 0 1) p
  else if sx = .zero then ratBracket (form 1 0) p
  else ((ratBracket (form y.1 x.2) p).1, (ratBracket (form y.2 x.1) p).2)

/-- The interval of the angle of `(x, |y|)`, in the first half of a turn. -/
def halfBracket (form : Rat → Rat → RealNum) (sy sx : SignType) (y x : Rat × Rat) (p : Nat) : Rat × Rat :=
  let i := quarterBracket form sy sx y x p
  if sx = .neg then addBracket (ratBracket (form 0 (-1)) p) (scaleBracket (-1) 0 i) else i

/-- `halfBracket` of a sine and a cosine, whose signs are found first. -/
def angleBracket (form : Rat → Rat → RealNum) (y : Cross) (x : Squares) (p : Nat) : Rat × Rat :=
  halfBracket form (crossSign y) (squaresSign x) (sizeBracket (crossSign y) (crossEnclose y (fineScale p)))
    (sizeBracket (squaresSign x) (squaresEnclose x (fineScale p))) p

/-- `t` taken to -1 or 1 where it is outside. -/
def clampOne (t : Rat) : Rat := max (-1) (min 1 t)

/-- A rational interval that holds the finite number `x`, the narrower the larger `p`. -/
def bracket (x : RealNum) (p : Nat) : Rat × Rat :=
  match x with
  | .rat _ | .sqrt _ | .atan2 _ _ | .heading _ _ | .asin _ | .nonFinite => ratBracket x p
  | .lit x => litEnclose x (fineScale p)
  | .norm xs =>
    let i := sumEnclose (xs.map fun x => (1, x)) (fineScale p)
    ((ratBracket (.sqrt (max 0 i.1)) p).1, (ratBracket (.sqrt (max 0 i.2)) p).2)
  | .angle y x =>
    if crossSign y = .neg then scaleBracket (-1) 0 (angleBracket .atan2 y x p) else angleBracket .atan2 y x p
  | .turn y x =>
    if crossSign y = .neg then scaleBracket (-1) 360 (angleBracket .heading y x p) else angleBracket .heading y x p
  | .asinOf t =>
    let i := crossEnclose t (fineScale p)
    ((ratBracket (.asin (clampOne i.1)) p).1, (ratBracket (.asin (clampOne i.2)) p).2)

end Sys2Proof.Machine
end

