-- ==== Sys2Proof/Machine/Operands.lean ====
section
/-! DEFINITION. The numeric operands of the telemetry encoder: rounding, the range check, and the split into big-endian
bytes (43_telemetry_encoder.md R201 to R204, 30_encoding.md R120). -/

namespace Sys2Proof.Machine

/-! ### rnd (43_telemetry_encoder.md R201) -/

/-- Whether the tie between `f` and `f + 1` goes up, under ROUND_TIES. -/
def tieUp (t : RoundTies) (f : Int) : Bool :=
  match t with
  | .halfToEven => f % 2 != 0
  | .supplied k => Config.tieUp k f

/-- `rnd(x)`: the integer nearest to `x`, a tie by ROUND_TIES. -/
def rnd (t : RoundTies) (x : Rat) : Int :=
  let f := x.floor
  let r := x - (f : Rat)
  if r < 1 / 2 then f
  else if 1 / 2 < r then f + 1
  else if tieUp t f then f + 1
  else f

/-! ### rnd of an enclosed number -/

/-- The first of the precisions `p`, `2p`, `4p` ... at which the number is enclosed within 1, or the last one tried. -/
def narrow (f : Nat → Rat × Rat) : Nat → Nat → Nat
  | 0, p => p
  | fuel + 1, p => if (f p).2 - (f p).1 ≤ 1 then p else narrow f fuel (2 * p)

/-- From the integer `z` up, at most `k` steps: past every half `z + 1/2` that the number enclosed by `f` is above, and past
one that it is on if the tie goes up. -/
def climb (t : RoundTies) (f : Nat → Rat × Rat) : Nat → Int → Int
  | 0, z => z
  | k + 1, z =>
    match signBy fun p => scaleBracket 1 (-(z + 1 / 2)) (f p) with
    | .pos => climb t f k (z + 1)
    | .neg => z
    | .zero => if tieUp t z then z + 1 else z

/-- `rnd` of the number enclosed by `f`: it lies between the roundings of the ends of an enclosure. -/
def rndEnclosed (t : RoundTies) (f : Nat → Rat × Rat) : Int :=
  let i := f (narrow f 8 64)
  climb t f (rnd t i.2 - rnd t i.1).toNat (rnd t i.1)

/-- `rnd(a * x + b)` in exact arithmetic, for a finite `x`. -/
def rndExact (t : RoundTies) (x : RealNum) (a b : Rat) : Int := rndEnclosed t fun p => scaleBracket a b (bracket x p)

/-- `rnd((x - x₀) * 10)` in exact arithmetic, for finite operands. -/
def rndDiffExact (t : RoundTies) (x x₀ : RealNum) : Int :=
  rndEnclosed t fun p => scaleBracket 10 0 (addBracket (bracket x p) (scaleBracket (-1) 0 (bracket x₀ p)))

/-- `rnd(a * x + b)`, the integer of a field; `none` where `x` is not finite (43_telemetry_encoder.md R201, R202).
With `a = 1` and `b = 0` there is no product, and `x` itself is rounded whatever the arithmetic. -/
def rndScaled (P : Params) (x : RealNum) (a b : Rat) : Option Int :=
  if isFinite x then
    match P.numerics with
    | .exactReals => some (rndExact P.roundTies x a b)
    | .supplied k =>
      if a = 1 ∧ b = 0 then some (rndExact P.roundTies x 1 0)
      else some (rnd P.roundTies (Config.flScaled k x a b))
  else none

/-- `rnd((alt - alt_start) * 10)` (43_telemetry_encoder.md R214). -/
def rndBaroDiff (P : Params) (alt altStart : RealNum) : Option Int :=
  if isFinite alt && isFinite altStart then
    match P.numerics with
    | .exactReals => some (rndDiffExact P.roundTies alt altStart)
    | .supplied k => some (rnd P.roundTies (Config.flBaroDiff k alt altStart))
  else none

/-! ### The range check (43_telemetry_encoder.md R204) -/

/-- `fit_uN(z)`: the N-bit pattern of `z` when `0 <= z <= 2^N - 1`. -/
def fitU (n : Nat) (z : Int) : Option (BitVec n) :=
  if 0 ≤ z ∧ z ≤ 2 ^ n - 1 then some (BitVec.ofInt n z) else none

/-- `fit_iN(z)`: `tc_N(z)` when `-2^(N-1) <= z <= 2^(N-1) - 1`. -/
def fitI (n : Nat) (z : Int) : Option (BitVec n) :=
  if -2 ^ (n - 1) ≤ z ∧ z ≤ 2 ^ (n - 1) - 1 then some (BitVec.ofInt n z) else none

/-- A field's rounded value, range-checked: FieldOutOfRange with the value, or *non-finite*. -/
def checkField (n : Nat) (fit : Int → Option (BitVec n)) (frame : FrameType) (field : FieldName)
    (z : Option Int) : Except FieldError (BitVec n) :=
  match z with
  | none => .error ⟨frame, field, none⟩
  | some z =>
    match fit z with
    | some u => .ok u
    | none => .error ⟨frame, field, some z⟩

/-- An unsigned field `rnd(a * x + b)` of `n` bits. -/
def fieldU (P : Params) (n : Nat) (frame : FrameType) (field : FieldName) (x : RealNum) (a b : Rat) :
    Except FieldError (BitVec n) :=
  checkField n (fitU n) frame field (rndScaled P x a b)

/-- A signed field `rnd(a * x + b)` of `n` bits. -/
def fieldI (P : Params) (n : Nat) (frame : FrameType) (field : FieldName) (x : RealNum) (a b : Rat) :
    Except FieldError (BitVec n) :=
  checkField n (fitI n) frame field (rndScaled P x a b)

/-! ### Bytes (20_memory.md R62, 30_encoding.md R120) -/

/-- `be_N(u)`: the `m = N/8` bytes of `u`, most significant first. -/
def beBytes (m : Nat) (u : BitVec (8 * m)) : List Byte :=
  (List.range m).map fun j => u.extractLsb' (8 * (m - 1 - j)) 8

/-- A real number of a record as an operand. -/
def ofLit (x : RealLit) : RealNum :=
  match x with
  | .rat q => .rat q
  | .root _ _ | .named _ _ => .lit x

/-- A record's number as an operand. -/
def ofNum (x : Num) : RealNum :=
  match x with
  | .fin x => ofLit x
  | .nan | .posInf | .negInf => .nonFinite

end Sys2Proof.Machine
end

