-- ==== Sys2Proof/Machine/Ops.lean ====
section
/-! DEFINITION. The named operations over the state: emitting, raising a condition, the queues, the destination
set, the statistics window, the environment's answers, time and reset. -/

namespace Sys2Proof.Machine

/-! ### Outputs and conditions -/

/-- `emit P(v)` (00_scope.md R12). -/
def State.emit (s : State) (o : Output) : State := { s with out := s.out ++ [o] }

/-- The code of a condition (60_exceptions.md R300). -/
def conditionCode : Condition → Nat
  | .crcMismatch => 1
  | .payloadTooLarge _ => 3
  | .channelOutOfRange _ _ => 4
  | .destinationUnreachable _ => 5
  | .streamClosed _ => 6
  | .fieldOutOfRange _ => 7
  | .rcLengthError _ => 8
  | .axisRangeError _ _ => 9
  | .emptyDatagram => 10

/-- Taking an exception, the one shared operation (60_exceptions.md R320): "Raising a condition saves no state and
transfers control nowhere"; exactly one event `(code, opid, info)` goes to ERR_OUT, `op` being the operation that
detected it (R300). The state changes a condition's own rule names are made by the operation that raises it. There
is no return operation (R321). -/
def State.raise (s : State) (op : OpName) (c : Condition) : State :=
  s.emit (.errOut (conditionCode c) op.opid c)

/-- The result of an operation invoked on CMD. -/
def State.answer (s : State) (op : OpName) (r : Result) : State := s.emit (.result op.opid r)

/-! ### The statistics window (44_router_bridge.md R280, R281) -/

/-- Eviction: while the front entry is more than 1000 ms old, remove it. -/
def evict (now : Nat) (w : List (Nat × StatEntry)) : List (Nat × StatEntry) :=
  w.dropWhile fun e => decide (now - e.1 > Config.statsWindowMs)

/-- `stats_push(e)`: append `(now, e)`, then evict. -/
def State.statsPush (s : State) (e : StatEntry) : State :=
  { s with stats := evict s.now (s.stats ++ [(s.now, e)]) }

/-! ### The destination set (10_state.md R32) -/

/-- `DEST ∪ {a}` on the strictly rising list. -/
def destInsert (a : Addr) : List Addr → List Addr
  | [] => [a]
  | b :: l => if a < b then a :: b :: l else if a = b then b :: l else b :: destInsert a l

/-- `DEST \ {a}`. -/
def destErase (a : Addr) (l : List Addr) : List Addr := l.filter (· ≠ a)

/-- Whether a new address still fits in DEST_CAP (44_router_bridge.md R272). -/
def State.destHasRoom (s : State) : Bool :=
  match s.params.destCap with
  | none => true
  | some cap => decide (s.dest.length < cap)

/-- The order of one BCAST's walk: each member once, first those the environment's draw names, in its order, then
the others (20_memory.md R77). -/
def walkOrder (plan : BcPlan) (dest : List Addr) : List Addr :=
  (plan.order.filter (· ∈ dest)).dedup ++ dest.filter (· ∉ plan.order)

/-! ### The environment's answers (10_state.md R45; assumption 18) -/

/-- The next answer of NET_TX. -/
def State.netAnswer (s : State) : NetAnswer := s.netAnswers.headD .sent

/-- Send a packet on NET_TX and take its answer. -/
def State.sendNet (s : State) (pkt : List Byte) : State :=
  { s with netAnswers := s.netAnswers.tail }.emit (.netTx pkt s.netAnswer)

/-- The next answer of BS_TX. -/
def State.writeAnswer (s : State) : WriteAnswer := s.txAnswers.headD .accepted

/-- Write a frame on BS_TX and take its answer. -/
def State.writeFrame (s : State) (f : List Byte) : State :=
  { s with txAnswers := s.txAnswers.tail }.emit (.bsTx f s.writeAnswer)

/-- The draw for the next BCAST. -/
def State.bcPlan (s : State) : BcPlan := s.bcPlans.headD ⟨[], []⟩

/-- The queue TX_WRITE takes from: the environment's choice if that queue is non-empty, else the other
(20_memory.md R74). -/
def State.txChoice (s : State) : TxQueue :=
  match s.txPicks.headD .net with
  | .net => if s.txqNet.isEmpty then .tel else .net
  | .tel => if s.txqTel.isEmpty then .net else .tel

/-! ### Reads (00_scope.md R9 READ_MAX and RXBUF_CAP; assumption 27) -/

/-- How many of the `n` bytes waiting on BS_RX one read returns: at most READ_MAX, and at most what a buffer of RXBUF_CAP
bytes takes beside the 256 a scan may leave; at least one, as READ_MAX is (10_state.md R27). -/
def readSize (P : Params) (n : Nat) : Nat :=
  min n (max 1 (min (P.readMax.getD n) ((P.rxbufCap.map (· - 256)).getD n)))

/-- What a read leaves waits for the next read, which follows: "every byte is scanned once, in order"
(70_reset_and_hazards.md R346). -/
def State.unread (s : State) (rest : List Byte) : State :=
  match rest with
  | [] => s
  | b :: bs => { s with stimulus := .present (.event OpName.rxTick.opid (.bytes (b :: bs))) :: s.stimulus }

/-! ### The transmit queues (10_state.md R28) -/

/-- `TXQ_NET.append(f)`. -/
def State.enqueueNet (s : State) (f : List Byte) : State := { s with txqNet := s.txqNet ++ [f] }

/-- `TXQ_TEL.append(f)`. -/
def State.enqueueTel (s : State) (f : List Byte) : State := { s with txqTel := s.txqTel ++ [f] }

/-- The head frame of a queue. -/
def State.headOf (s : State) (q : TxQueue) : Option (List Byte) :=
  match q with
  | .net => s.txqNet.head?
  | .tel => s.txqTel.head?

/-- Remove the head frame of a queue; the environment's choice is used up. -/
def State.dequeue (s : State) (q : TxQueue) : State :=
  match q with
  | .net => { s with txqNet := s.txqNet.tail, txPicks := s.txPicks.tail }
  | .tel => { s with txqTel := s.txqTel.tail, txPicks := s.txPicks.tail }

/-! ### Time and reset -/

/-- The line NOW: `now` is non-decreasing (60_exceptions.md R325). -/
def State.advanceTo (s : State) (ms : Nat) : Host.Outcome State Fault Refusal :=
  if s.now ≤ ms then .next { s with now := ms } else .fault (.clockWentBack s.now ms)

/-- The reset event: every element of 10_state.md R20 takes its reset value, NEXT_TICK relative to `now`, as is the
reporting period; the parameters and the environment's part stay as they are, and nothing is emitted
(70_reset_and_hazards.md R340, R341; assumption 36). -/
def State.resetEvent (s : State) : State :=
  { State.reset with
    nextTick := s.now + Config.tickMs
    params := s.params
    now := s.now
    nextReport := s.now + s.params.statsReportMs.getD 0
    stimulus := s.stimulus
    netAnswers := s.netAnswers
    txPicks := s.txPicks
    txAnswers := s.txAnswers
    bcPlans := s.bcPlans
    shutdown := s.shutdown
    out := s.out }

end Sys2Proof.Machine
end

