-- ==== Sys2Proof/Machine/Crc.lean ====
section
/-! DEFINITION. The CRC Engine (40_crc.md): operation CRC8. -/

namespace Sys2Proof.Machine

/-- One inner iteration: shift left, dropping the bit shifted out; if the high bit was set, XOR with the polynomial
(40_crc.md R141, R142). -/
def crcStep (a : Byte) : Byte := (a <<< 1) ^^^ (if a.msb then Config.poly else 0#8)

/-- One input byte: XOR into the accumulator, then eight iterations (40_crc.md R141). -/
def crcByte (acc b : Byte) : Byte := crcStep^[8] (acc ^^^ b)

/-- The run of the engine on `s` from the accumulator `acc` (40_crc.md R144 (a)). -/
def crcFrom (acc : Byte) (s : List Byte) : Byte := s.foldl crcByte acc

/-- `crc8(s)` (40_crc.md R141). -/
def crc8 (s : List Byte) : Byte := crcFrom Config.crcInit s ^^^ Config.crcXorOut

/-- The bit-serial form of one iteration: bit 0 becomes the feedback, and the taps at bits 2, 4, 6, 7 add it
(40_crc.md R142). -/
def crcTapStep (a : Byte) : Byte :=
  let f := a.getLsbD 7
  BitVec.ofFnLE fun i : Fin 8 =>
    match i with
    | 0 => f
    | 1 => a.getLsbD 0
    | 2 => a.getLsbD 1 ^^ f
    | 3 => a.getLsbD 2
    | 4 => a.getLsbD 3 ^^ f
    | 5 => a.getLsbD 4
    | 6 => a.getLsbD 5 ^^ f
    | 7 => a.getLsbD 6 ^^ f

/-- CRC8 on CMD (40_crc.md R141): no state, no errors. -/
def execCrc8 (bytes : List Byte) (s : State) : Host.Outcome State Fault Refusal :=
  .next (if s.running then s.answer .crc8 (.crc (crc8 bytes)) else s)

end Sys2Proof.Machine
end

