-- ==== Sys2Proof/Machine/FrameCodec.lean ====
section
/-! DEFINITION. The Frame Codec (41_frame_codec.md): operations SCAN and BUILD, and the synchroniser in its
byte-serial form. -/

namespace Sys2Proof.Machine

/-! ### SCAN -/

/-- Judging a complete candidate (41_frame_codec.md R155): a length byte below 2 is `CrcError`; else the CRC over
indices 2 to `L` is compared with the byte at `L + 1`. -/
def judge (cand : List Byte) : FrameResult :=
  let len := (cand.getD 1 0#8).toNat
  if len < 2 then .crcError
  else if crc8 ((cand.drop 2).take (len - 1)) = cand.getD (len + 1) 0#8 then .ok cand
  else .crcError

/-- The loop of SCAN on the bytes from the scan cursor on: the results, and the leftover
(41_frame_codec.md R153). Bytes before the next sync byte are garbage (R151); at a sync byte, fewer than two bytes
behind it, or fewer than the announced `L + 2`, stop the scan there (R152); else the candidate is judged and jumped
over, valid or not (R157). -/
def scanLoop : Nat → List Byte → List FrameResult × List Byte
  | 0, rest => ([], rest)
  | fuel + 1, rest =>
    match rest.dropWhile (· ≠ Config.sync) with
    | [] => ([], [])
    | [b₀] => ([], [b₀])
    | [b₀, b₁] => ([], [b₀, b₁])
    | b₀ :: b₁ :: b₂ :: more =>
      let at_ := b₀ :: b₁ :: b₂ :: more
      let n := b₁.toNat + 2
      if at_.length < n then ([], at_)
      else
        let next := scanLoop fuel (at_.drop n)
        (judge (at_.take n) :: next.1, next.2)

/-- The bytes SCAN leaves unconsumed: an incomplete candidate, or none (41_frame_codec.md R160). Every pass but the
last takes at least two bytes (R159), so the fuel does not run out. -/
def scanLeft (buf : List Byte) : List Byte := (scanLoop (buf.length + 1) buf).2

/-- `scan(buf)`: the results in stream order, and `consumed` (41_frame_codec.md R150). -/
def scan (buf : List Byte) : List FrameResult × Nat :=
  ((scanLoop (buf.length + 1) buf).1, buf.length - (scanLeft buf).length)

/-- SCAN on CMD (41_frame_codec.md R150): a pure function of its argument. -/
def execScan (buf : List Byte) (s : State) : Host.Outcome State Fault Refusal :=
  .next (if s.running then s.answer .scan (.scanned (scan buf).1 (scan buf).2) else s)

/-! ### BUILD -/

/-- `build(type, payload)`, or PayloadTooLarge with the payload's length (41_frame_codec.md R165). -/
def build (type : Byte) (payload : List Byte) : Except Nat (List Byte) :=
  if payload.length + 2 > Config.lenMax then .error payload.length
  else
    let body := type :: payload
    .ok (Config.sync :: BitVec.ofNat 8 (payload.length + 2) :: (body ++ [crc8 body]))

/-- BUILD on CMD (41_frame_codec.md R165, 60_exceptions.md R304). -/
def execBuild (type : Byte) (payload : List Byte) (s : State) : Host.Outcome State Fault Refusal :=
  .next (if s.running then
    match build type payload with
    | .ok f => s.answer .build (.frame f)
    | .error n => s.raise .build (.payloadTooLarge n)
  else s)

/-! ### Pseudo-operations (30_encoding.md R127) -/

/-- `valid(f)`. -/
def validFrame (f : List Byte) : Bool :=
  let len := (f.getD 1 0#8).toNat
  decide (2 ≤ len) && decide (f.length = len + 2) && decide (f.head? = some Config.sync) &&
    decide (crc8 ((f.drop 2).take (len - 1)) = f.getD (len + 1) 0#8)

/-- `inner(f)`: the strip of sync, length and crc (30_encoding.md R93). -/
def inner (f : List Byte) : List Byte := (f.drop 2).dropLast

/-- An incomplete candidate, or nothing: what RXBUF is after a receive tick (41_frame_codec.md R160). -/
def leftoverForm (buf : List Byte) : Bool :=
  match buf with
  | [] => true
  | [b₀] => decide (b₀ = Config.sync)
  | b₀ :: b₁ :: more => decide (b₀ = Config.sync) && (more.isEmpty || decide (more.length < b₁.toNat))

/-! ### The synchroniser byte by byte (41_frame_codec.md R162) -/

/-- One byte into the machine whose only state is the buffer: the results it emits and the new buffer. -/
def serialStep (buf : List Byte) (b : Byte) : List FrameResult × List Byte :=
  match buf with
  | [] => ([], if b = Config.sync then [b] else [])
  | [b₀] => ([], [b₀, b])
  | b₀ :: len :: more =>
    let buf' := b₀ :: len :: (more ++ [b])
    if 1 ≤ len.toNat ∧ buf'.length = len.toNat + 2 then ([judge buf'], [])
    else if len.toNat = 0 then ([judge [b₀, len]], if b = Config.sync then [b] else [])
    else ([], buf')

/-- The machine run over bytes in arrival order. -/
def serialRun (buf : List Byte) : List Byte → List FrameResult × List Byte
  | [] => ([], buf)
  | b :: bs =>
    let now := serialStep buf b
    let later := serialRun now.2 bs
    (now.1 ++ later.1, later.2)

end Sys2Proof.Machine
end

