-- ==== Sys2Proof/Machine/ChannelCodec.lean ====
section
/-! DEFINITION. The Channel Bit-Packer/Unpacker (42_channel_codec.md): operations UNPACK and PACK. -/

namespace Sys2Proof.Machine

/-! ### UNPACK -/

/-- `V`, the little-endian integer of the bytes: the sum of `b[j] << 8j` (20_memory.md R63). -/
def bitSpace (bytes : List Byte) : Nat := (bytes.zipIdx.map fun e => e.1.toNat <<< (8 * e.2)).sum

/-- `unpack(b)`: channel `i` is `(V >> 11i) & 0x7FF`, in a container of 16 bits (42_channel_codec.md R182). -/
def unpack (b : Vector Byte 22) : Vector (BitVec 16) 16 :=
  let v := bitSpace b.toList
  Vector.ofFn fun i => BitVec.ofNat 16 ((v >>> (11 * i.val)) &&& 0x7FF)

/-- The stepwise form's gathering of a channel: while fewer than 11 bits are there, the next byte goes above them
(42_channel_codec.md R183); at most two more bytes are needed. -/
def gather (bytes : List Byte) : Nat → Nat → Nat → Nat → Nat
  | 0, _, v, _ => v
  | fuel + 1, j, v, have_ =>
    if have_ < 11 then gather bytes fuel (j + 1) (v ||| ((bytes.getD (j + 1) 0#8).toNat <<< have_)) (have_ + 8)
    else v

/-- `unpack` in the stepwise form of the source's wording, the cursor at `11 i` (42_channel_codec.md R183). -/
def unpackStepwise (b : Vector Byte 22) : Vector (BitVec 16) 16 :=
  Vector.ofFn fun i =>
    let cursor := 11 * i.val
    let srcShift := cursor &&& 7
    let first := (b.toList.getD (cursor >>> 3) 0#8).toNat >>> srcShift
    BitVec.ofNat 16 (gather b.toList 2 (cursor >>> 3) first (8 - srcShift) &&& 0x7FF)

/-- UNPACK on CMD (42_channel_codec.md R182): never fails, does not touch CH. -/
def execUnpack (b : Vector Byte 22) (s : State) : Host.Outcome State Fault Refusal :=
  .next (if s.running then s.answer .unpack (.channels (unpack b)) else s)

/-! ### PACK -/

/-- The lowest index whose value exceeds `bound`, with the value (42_channel_codec.md R186, 44_router_bridge.md
R255). -/
def firstOver (bound : Nat) (vals : List Nat) : Option (Nat × Nat) :=
  (vals.zipIdx.find? fun e => decide (e.1 > bound)).map fun e => (e.2, e.1)

/-- `V`, the OR of `c[i] << 11i` into zeros (42_channel_codec.md R186). -/
def laneSpace (c : List (BitVec 16)) : Nat := c.zipIdx.foldl (fun v e => v ||| (e.1.toNat <<< (11 * e.2))) 0

/-- `pack(c)`, or ChannelOutOfRange with the lowest offending index and its value (42_channel_codec.md R186). -/
def pack (c : Vector (BitVec 16) 16) : Except (Nat × Nat) (Vector Byte 22) :=
  match firstOver Config.chMax (c.toList.map (·.toNat)) with
  | some e => .error e
  | none =>
    let v := laneSpace c.toList
    .ok (Vector.ofFn fun j => BitVec.ofNat 8 (v >>> (8 * j.val)))

/-- PACK on CMD (42_channel_codec.md R186, 60_exceptions.md R305). -/
def execPack (c : Vector (BitVec 16) 16) (s : State) : Host.Outcome State Fault Refusal :=
  .next (if s.running then
    match pack c with
    | .ok b => s.answer .pack (.packed b)
    | .error e => s.raise .pack (.channelOutOfRange e.1 e.2)
  else s)

end Sys2Proof.Machine
end

