-- ==== Sys2Proof/Machine/Telemetry.lean ====
section
/-! DEFINITION. The Telemetry Encoder (43_telemetry_encoder.md): the derivation stage, the ENC_* operations, ENCODE,
TEL_LOAD and TEL_TICK. -/

namespace Sys2Proof.Machine

/-! ### The derivation stage -/

/-- `(lat_deg, lon_deg) = GEO_FN(pos)` (43_telemetry_encoder.md R203). -/
def geoOf (P : Params) (p : Position) : RealNum × RealNum :=
  match P.geo with
  | .fixed lat lon => (lat, lon)
  | .supplied k => Config.geoFn k p.x p.y p.z

/-- The end of the heading (43_telemetry_encoder.md R205): `h`, an angle in degrees taken in (-180, 180] as `atan2` gives
it, 360 more if negative. -/
def headingTurn (h : Rat) : Rat :=
  let h := h + 360 * ((180 - h) / 360).floor
  if h < 0 then h + 360 else h

/-- `s` and `c` of the heading under arithmetic `k` (43_telemetry_encoder.md R205): both 0 for the zero quaternion, in which
every product is 0 (R202). -/
def headingParts (k : Nat) (qx qy qz qw : RealLit) : Num × Num :=
  if isZero qx && isZero qy && isZero qz && isZero qw then (.fin (.rat 0), .fin (.rat 0)) else Config.flHeadingParts k qx qy qz qw

/-- Whether a number is 0. -/
def isZeroNum (x : Num) : Bool :=
  match x with
  | .fin x => isZero x
  | .nan | .posInf | .negInf => false

/-- The heading of `s` and `c` under arithmetic `k`: undefined where both are 0 (43_telemetry_encoder.md R205;
assumption 37). -/
def headingBy (k : Nat) (s c : Num) : RealNum :=
  if isZeroNum s && isZeroNum c then .nonFinite
  else
    match Config.flAtan2Deg k s c with
    | some h => .rat (headingTurn h)
    | none => .nonFinite

/-- The heading of real numbers, exact: `atan2(s, c)` in degrees, with `s = 2 (qz qx + qw qy)` and
`c = qw² + qz² - qx² - qy²` (43_telemetry_encoder.md R205). -/
def headingExact (qx qy qz qw : RealLit) : RealNum :=
  match qx, qy, qz, qw with
  | .rat qx, .rat qy, .rat qz, .rat qw =>
    .heading (2 * (qz * qx + qw * qy)) (qw * qw + qz * qz - qx * qx - qy * qy)
  | _, _, _, _ => .turn ⟨qz, qx, qw, qy⟩ ⟨0, [(1, qw), (1, qz), (-1, qx), (-1, qy)]⟩

/-- The heading of an attitude in degrees, in [0, 360); undefined where `s = c = 0`
(43_telemetry_encoder.md R205). -/
def headingOf (P : Params) (att : Attitude) : RealNum :=
  match att.qx, att.qy, att.qz, att.qw with
  | .fin qx, .fin qy, .fin qz, .fin qw =>
    match P.numerics with
    | .exactReals => headingExact qx qy qz qw
    | .supplied k => headingBy k (headingParts k qx qy qz qw).1 (headingParts k qx qy qz qw).2
  | _, _, _, _ => .nonFinite

/-- The square root of the sum of the squares, exact: that of a rational number where all of them are told exactly. -/
def normExact (xs : List RealLit) : RealNum :=
  if xs.all isExact then .sqrt (xs.map squareLit).sum else .norm xs

/-- `kph = 3.6 * sqrt(vx² + vz²)` (43_telemetry_encoder.md R206). -/
def kphOf (P : Params) (v : Velocity) : RealNum :=
  match v.vx, v.vz with
  | .fin vx, .fin vz =>
    match P.numerics with
    | .exactReals => normExact [scaleLit (36 / 10) vx, scaleLit (36 / 10) vz]
    | .supplied k => Config.flKph k vx vz
  | _, _ => .nonFinite

/-- `mag3d = sqrt(vx² + vy² + vz²)` (43_telemetry_encoder.md R207). -/
def mag3dOf (P : Params) (v : Velocity) : RealNum :=
  match v.vx, v.vy, v.vz with
  | .fin vx, .fin vy, .fin vz =>
    match P.numerics with
    | .exactReals => normExact [vx, vy, vz]
    | .supplied k => Config.flMag3d k vx vy vz
  | _, _, _ => .nonFinite

/-- The default EULER_FN: (pitch, roll, yaw) in radians of the remapped quaternion `(qx, qz, qy, -qw)`
(43_telemetry_encoder.md R208). -/
def eulerDefault (qx qy qz qw : RealLit) : RealNum × RealNum × RealNum :=
  match qx, qz, qy, scaleLit (-1) qw with
  | .rat x, .rat y, .rat z, .rat w =>
    (.asin (clampOne (2 * (w * y - z * x))),
     .atan2 (2 * (w * x + y * z)) (1 - 2 * (x * x + y * y)),
     .atan2 (2 * (w * z + x * y)) (1 - 2 * (y * y + z * z)))
  | x, y, z, w =>
    (.asinOf ⟨w, y, scaleLit (-1) z, x⟩,
     .angle ⟨w, x, y, z⟩ ⟨1, [(-2, x), (-2, y)]⟩,
     .angle ⟨w, z, x, y⟩ ⟨1, [(-2, y), (-2, z)]⟩)

/-- `(pitch, roll, yaw) = EULER_FN(att)` (43_telemetry_encoder.md R208). -/
def eulerOf (P : Params) (att : Attitude) : RealNum × RealNum × RealNum :=
  match P.euler with
  | .supplied k => Config.eulerFn k att.qx att.qy att.qz att.qw
  | .default =>
    match att.qx, att.qy, att.qz, att.qw with
    | .fin qx, .fin qy, .fin qz, .fin qw =>
      match P.numerics with
      | .exactReals => eulerDefault qx qy qz qw
      | .supplied k => Config.flEuler k qx qy qz qw
    | _, _, _, _ => (.nonFinite, .nonFinite, .nonFinite)

/-! ### The scaling stage: payload bytes, or the first field in payload order that fails -/

/-- `enc_gps` (43_telemetry_encoder.md R210, 30_encoding.md R111). -/
def encGps (P : Params) (latDeg lonDeg kph headingDeg altM : RealNum) : Except FieldError (List Byte) := do
  let lat ← fieldI P 32 .gps .lat latDeg 10000000 0
  let lon ← fieldI P 32 .gps .lon lonDeg 10000000 0
  let spd ← fieldU P 16 .gps .speed kph 10 0
  let hdg ← fieldU P 16 .gps .heading headingDeg 100 0
  let alt ← fieldU P 16 .gps .alt altM 1 1000
  return beBytes 4 lat ++ beBytes 4 lon ++ beBytes 2 spd ++ beBytes 2 hdg ++ beBytes 2 alt ++ [Config.gpsSats]

/-- `enc_battery` (43_telemetry_encoder.md R212, 30_encoding.md R112): current and capacity are always 0,
whatever the arithmetic. -/
def encBattery (P : Params) (volt pct : RealNum) : Except FieldError (List Byte) := do
  let v ← fieldI P 16 .batterySensor .voltage volt 10 0
  let i ← checkField 16 (fitI 16) .batterySensor .current (some (rnd P.roundTies (0 * 10)))
  let c ← checkField 24 (fitU 24) .batterySensor .capacity (some (rnd P.roundTies 0))
  let r ← fieldU P 8 .batterySensor .remaining pct 100 0
  return beBytes 2 v ++ beBytes 2 i ++ beBytes 3 c ++ [r]

/-- `enc_vario` (43_telemetry_encoder.md R213, 30_encoding.md R113). -/
def encVario (P : Params) (vy : RealNum) : Except FieldError (List Byte) := do
  let v ← fieldI P 16 .vario .vspeed vy 100 0
  return beBytes 2 v

/-- The integer of the BARO_ALT field before its range check: `d`, clamped at 0, or above 0x7FFF the escape
`0x8000 | min(rnd(alt), 0x7FFF)`, whose negative altitude has no encoding (43_telemetry_encoder.md R214). -/
def baroValue (d m : Int) : Except FieldError (BitVec 16) :=
  let d := if d < 0 then 0 else d
  if d > 0x7FFF then
    if m < 0 then .error ⟨.baroAlt, .alt, some m⟩
    else .ok (0x8000#16 ||| BitVec.ofInt 16 (min m 0x7FFF))
  else .ok (BitVec.ofInt 16 d)

/-- `enc_baro_alt` (43_telemetry_encoder.md R214, 30_encoding.md R114). -/
def encBaroAlt (P : Params) (alt altStart : RealNum) : Except FieldError (List Byte) :=
  match rndBaroDiff P alt altStart, rndScaled P alt 1 0 with
  | some diff, some m => do
    let v ← baroValue (diff + 10000) m
    return beBytes 2 v ++ List.replicate P.baroVsBytes 0#8
  | _, _ => .error ⟨.baroAlt, .alt, none⟩

/-- `enc_airspeed` (43_telemetry_encoder.md R215, 30_encoding.md R115). -/
def encAirspeed (P : Params) (mag3d : RealNum) : Except FieldError (List Byte) := do
  let v ← fieldU P 16 .airspeed .speed mag3d 36 0
  return beBytes 2 v

/-- `enc_attitude` (43_telemetry_encoder.md R216, 30_encoding.md R116). -/
def encAttitude (P : Params) (pitch roll yaw : RealNum) : Except FieldError (List Byte) := do
  let p ← fieldI P 16 .attitude .pitch pitch 10000 0
  let r ← fieldI P 16 .attitude .roll roll 10000 0
  let y ← fieldI P 16 .attitude .yaw yaw 10000 0
  return beBytes 2 p ++ beBytes 2 r ++ beBytes 2 y

/-- The rotor fields from rotor `k` on, in input order. -/
def encRotors (P : Params) (k : Nat) : List RealNum → Except FieldError (List Byte)
  | [] => .ok []
  | x :: xs => do
    let v ← fieldU P 24 .rpm (.rpm k) x 1 0
    let more ← encRotors P (k + 1) xs
    return beBytes 3 v ++ more

/-- `enc_rpm`: `none` is "no frame" (43_telemetry_encoder.md R218, 30_encoding.md R117). -/
def encRpm (P : Params) (rpm : List RealNum) : Except FieldError (Option (List Byte)) :=
  if rpm.length > Config.rpmMaxN then .error ⟨.rpm, .count, some rpm.length⟩
  else if rpm.isEmpty then .ok none
  else do
    let fields ← encRotors P 0 rpm
    return some (Config.rpmSourceId :: fields)

/-! ### The whole record -/

/-- The seven attempts of ENCODE, in its order: the operation, the frame type, and what it gives
(43_telemetry_encoder.md R225). -/
def encodeItems (P : Params) (rec : TelemetryRecord) (altStart : RealNum) :
    List (OpName × FrameType × Except FieldError (Option (List Byte))) :=
  let geo := geoOf P rec.pos
  let ang := eulerOf P rec.att
  [(.encGps, .gps, (encGps P geo.1 geo.2 (kphOf P rec.vel) (headingOf P rec.att) (ofNum rec.pos.y)).map some),
   (.encBattery, .batterySensor, (encBattery P (ofNum rec.batt.volt) (ofNum rec.batt.pct)).map some),
   (.encVario, .vario, (encVario P (ofNum rec.vel.vy)).map some),
   (.encBaroAlt, .baroAlt, (encBaroAlt P (ofNum rec.pos.y) altStart).map some),
   (.encAirspeed, .airspeed, (encAirspeed P (mag3dOf P rec.vel)).map some),
   (.encAttitude, .attitude, (encAttitude P ang.1 ang.2.1 ang.2.2).map some),
   (.encRpm, .rpm, encRpm P (rec.rpm.map ofNum))]

/-- The pairs of ENCODE: those attempts that gave a payload (43_telemetry_encoder.md R225). -/
def encodePairs (P : Params) (rec : TelemetryRecord) (altStart : RealNum) : List (Byte × List Byte) :=
  (encodeItems P rec altStart).filterMap fun e =>
    match e.2.2 with
    | .ok (some p) => some (e.2.1.code, p)
    | .ok none => none
    | .error _ => none

/-- The errors of ENCODE, one for each frame type left out, with the operation that met it
(43_telemetry_encoder.md R225, 60_exceptions.md R319). -/
def encodeErrors (P : Params) (rec : TelemetryRecord) (altStart : RealNum) : List (OpName × FieldError) :=
  (encodeItems P rec altStart).filterMap fun e =>
    match e.2.2 with
    | .ok _ => none
    | .error err => some (e.1, err)

/-- One event on ERR_OUT for each error, in order. -/
def State.raiseFields (s : State) (errs : List (OpName × FieldError)) : State :=
  { s with out := s.out ++ errs.map fun e => .errOut (conditionCode (.fieldOutOfRange e.2)) e.1.opid (.fieldOutOfRange e.2) }

/-! ### The operations on CMD -/

/-- What an ENC_* operation does on CMD: its payload, or FieldOutOfRange (60_exceptions.md R310). -/
def State.answerPayload (s : State) (op : OpName) (r : Except FieldError (List Byte)) : State :=
  match r with
  | .ok p => s.answer op (.payload p)
  | .error e => s.raise op (.fieldOutOfRange e)

/-- ENC_GPS (43_telemetry_encoder.md R210). -/
def execEncGps (latDeg lonDeg kph headingDeg altM : RealNum) (s : State) : Host.Outcome State Fault Refusal :=
  .next (if s.running then s.answerPayload .encGps (encGps s.params latDeg lonDeg kph headingDeg altM) else s)

/-- ENC_BATTERY (43_telemetry_encoder.md R212). -/
def execEncBattery (volt pct : RealNum) (s : State) : Host.Outcome State Fault Refusal :=
  .next (if s.running then s.answerPayload .encBattery (encBattery s.params volt pct) else s)

/-- ENC_VARIO (43_telemetry_encoder.md R213). -/
def execEncVario (vy : RealNum) (s : State) : Host.Outcome State Fault Refusal :=
  .next (if s.running then s.answerPayload .encVario (encVario s.params vy) else s)

/-- ENC_BARO_ALT (43_telemetry_encoder.md R214). -/
def execEncBaroAlt (alt altStart : RealNum) (s : State) : Host.Outcome State Fault Refusal :=
  .next (if s.running then s.answerPayload .encBaroAlt (encBaroAlt s.params alt altStart) else s)

/-- ENC_AIRSPEED (43_telemetry_encoder.md R215). -/
def execEncAirspeed (mag3d : RealNum) (s : State) : Host.Outcome State Fault Refusal :=
  .next (if s.running then s.answerPayload .encAirspeed (encAirspeed s.params mag3d) else s)

/-- ENC_ATTITUDE (43_telemetry_encoder.md R216). -/
def execEncAttitude (pitch roll yaw : RealNum) (s : State) : Host.Outcome State Fault Refusal :=
  .next (if s.running then s.answerPayload .encAttitude (encAttitude s.params pitch roll yaw) else s)

/-- ENC_RPM (43_telemetry_encoder.md R218): an empty list gives no frame. -/
def execEncRpm (rpm : List RealNum) (s : State) : Host.Outcome State Fault Refusal :=
  .next (if s.running then
    match encRpm s.params rpm with
    | .ok (some p) => s.answer .encRpm (.payload p)
    | .ok none => s.answer .encRpm .noFrame
    | .error e => s.raise .encRpm (.fieldOutOfRange e)
  else s)

/-- ENCODE (43_telemetry_encoder.md R225): the failing frame types are reported, the others are the result. -/
def execEncode (rec : TelemetryRecord) (altStart : RealNum) (s : State) : Host.Outcome State Fault Refusal :=
  .next (if s.running then
    (s.raiseFields (encodeErrors s.params rec altStart)).answer .encode (.pairs (encodePairs s.params rec altStart))
  else s)

/-! ### TEL_LOAD and TEL_TICK -/

/-- TEL_LOAD: the record replaces the last one; the first finite altitude is latched
(43_telemetry_encoder.md R228). -/
def State.loadRecord (s : State) (rec : TelemetryRecord) : State :=
  let t := { s with lastRec := rec, lastValid := true }
  match rec.pos.y with
  | .fin y => if s.altStartValid then t else { t with altStart := y, altStartValid := true }
  | .nan | .posInf | .negInf => t

/-- TEL_LOAD (43_telemetry_encoder.md R228). -/
def execTelLoad (rec : TelemetryRecord) (s : State) : Host.Outcome State Fault Refusal :=
  .next (if s.running then s.loadRecord rec else s)

/-- `TXQ_TEL.append(build(t, p))`. BUILD fails only where BARO_VS_BYTES makes a payload too long (assumption 13). -/
def State.queueTelemetry (s : State) (pair : Byte × List Byte) : State :=
  match build pair.1 pair.2 with
  | .ok f => s.enqueueTel f
  | .error n => s.raise .build (.payloadTooLarge n)

/-- What a due tick does: the schedule moves by 100 ms, and the last record is encoded and queued, if there is one
(43_telemetry_encoder.md R230). -/
def State.tick (s : State) : State :=
  let t := { s with nextTick := s.nextTick + Config.tickMs }
  if s.lastValid && s.altStartValid then
    (encodePairs s.params s.lastRec (ofLit s.altStart)).foldl State.queueTelemetry
      (t.raiseFields (encodeErrors s.params s.lastRec (ofLit s.altStart)))
  else t

/-- TEL_TICK (43_telemetry_encoder.md R230). -/
def execTelTick (s : State) : Host.Outcome State Fault Refusal :=
  .next (if s.tickDue then s.tick else s)

end Sys2Proof.Machine
end

