-- ==== Sys2Proof/Machine/Bridge.lean ====
section
/-! DEFINITION. The Stream Bridge (44_router_bridge.md sections 1 to 3 and 5): operations RX_TICK, DISPATCH, NET_IN,
TX_WRITE and STATS_REPORT. -/

namespace Sys2Proof.Machine

/-! ### DISPATCH -/

/-- What DISPATCH does with the unpacked set of an RC frame: refuse it whole if a value exceeds AXIS_MAX, else emit it
with its change mask and make it the previous set (44_router_bridge.md R257). -/
def State.acceptChannels (s : State) (c : Vector (BitVec 16) 16) : State :=
  match firstOver s.params.axisMax (c.toList.map (·.toNat)) with
  | some e => s.raise .dispatch (.axisRangeError e.1 e.2)
  | none =>
    let cur : Vector Chan 16 := c.map (·.setWidth 11)
    let first := !s.chValid
    { s.emit (.chOut cur (changeMask first cur s.ch) first) with ch := cur, chValid := true }

/-- The effect of DISPATCH on the InnerPacket `type ‖ payload` (44_router_bridge.md R255). -/
def State.dispatchPacket (s : State) (type : Byte) (payload : List Byte) : State :=
  if type = FrameType.rcChannelsPacked.code then
    if h : payload.length = 22 then s.acceptChannels (unpack ⟨payload.toArray, by simpa using h⟩)
    else s.raise .dispatch (.rcLengthError payload.length)
  else s

/-- DISPATCH (44_router_bridge.md R255): an operation of the receive direction, so none once RX_CLOSED is set
(20_memory.md R71, 60_exceptions.md R309; assumption 24). Presented on its own, `type ‖ payload` may be longer than the 254
bytes of an InnerPacket (10_state.md R37), and R255 is applied to it all the same (DESIGN CHOICE, assumption 24). -/
def execDispatch (type : Byte) (payload : List Byte) (s : State) : Host.Outcome State Fault Refusal :=
  .next (if s.rxEnabled then s.dispatchPacket type payload else s)

/-! ### RX_TICK -/

/-- Forwarding one InnerPacket: sent on NET_TX; `unreachable` is an event, `notConnected` is ignored
(44_router_bridge.md R253, 60_exceptions.md R306, R307). -/
def State.forward (s : State) (pkt : List Byte) : State :=
  match s.netAnswer with
  | .sent => s.sendNet pkt
  | .unreachable => (s.sendNet pkt).raise .rxTick (.destinationUnreachable none)
  | .notConnected => s.sendNet pkt

/-- What RX_TICK does with one result of SCAN (44_router_bridge.md R251, R254). An `Ok` frame has at least a type
byte, so the packet is never empty. -/
def State.rxResult (s : State) (r : FrameResult) : State :=
  match r with
  | .ok f =>
    let s' := s.forward (inner f)
    match inner f with
    | type :: payload => s'.dispatchPacket type payload
    | [] => s'
  | .crcError =>
    ({ s with crcErrCnt := s.crcErrCnt + 1 }.statsPush .err).raise .rxTick .crcMismatch

/-- The bytes of a read enter RXBUF and the window (44_router_bridge.md R251). -/
def State.appendRead (s : State) (r : List Byte) : State :=
  let t := { s with rxbuf := s.rxbuf ++ r }
  if r.length > 0 then t.statsPush (.bytes r.length) else t

/-- SCAN of RXBUF, the trim, and the results in order (44_router_bridge.md R251). -/
def State.scanRxbuf (s : State) : State :=
  let res := scan s.rxbuf
  res.1.foldl State.rxResult { s with rxbuf := s.rxbuf.drop res.2 }

/-- The effect of RX_TICK on the answer of a read, whose bytes are those of `r` that one read returns
(44_router_bridge.md R251, 60_exceptions.md R309; assumption 27). -/
def State.receive (s : State) (r : ReadResult) : State :=
  match r with
  | .closed => { s with rxClosed := true }.raise .rxTick (.streamClosed .rx)
  | .bytes r =>
    let k := readSize s.params r.length
    ((s.unread (r.drop k)).appendRead (r.take k)).scanRxbuf

/-- RX_TICK (44_router_bridge.md R251). -/
def execRxTick (r : ReadResult) (s : State) : Host.Outcome State Fault Refusal :=
  .next (if s.rxEnabled then s.receive r else s)

/-! ### The return direction -/

/-- NET_IN: the datagram is an InnerPacket; the frame built from it is queued
(44_router_bridge.md R260, R261, R262). -/
def State.netDatagram (s : State) (d : List Byte) : State :=
  match d with
  | [] => s.raise .netIn .emptyDatagram
  | type :: payload =>
    match build type payload with
    | .ok f => s.enqueueNet f
    | .error n => s.raise .build (.payloadTooLarge n)

/-- NET_IN (44_router_bridge.md R260). -/
def execNetIn (d : List Byte) (s : State) : Host.Outcome State Fault Refusal :=
  .next (if s.running then s.netDatagram d else s)

/-- TX_WRITE: the head of the chosen queue is removed and written whole; *closed* closes the direction
(44_router_bridge.md R264, 60_exceptions.md R309). -/
def State.writeHead (s : State) : State :=
  match s.headOf s.txChoice with
  | none => s
  | some f =>
    let t := (s.dequeue s.txChoice).writeFrame f
    match s.writeAnswer with
    | .accepted => t
    | .closed => { t with txClosed := true }.raise .txWrite (.streamClosed .tx)

/-- TX_WRITE (44_router_bridge.md R264). -/
def execTxWrite (s : State) : Host.Outcome State Fault Refusal :=
  .next (if s.txEnabled then s.writeHead else s)

/-! ### The statistics report -/

/-- STATS_REPORT: evict, then emit the triple; the next reporting period begins (44_router_bridge.md R282, R283). -/
def State.reportStats (s : State) : State :=
  let w := evict s.now s.stats
  { s with stats := w, nextReport := s.nextReport + s.params.statsReportMs.getD 0 }.emit (.statOut (bytesPerWindow w) (errorsPerWindow w) s.crcErrShown)

/-- STATS_REPORT (44_router_bridge.md R283). -/
def execStatsReport (s : State) : Host.Outcome State Fault Refusal :=
  .next (if s.reportDue then s.reportStats else s)

end Sys2Proof.Machine
end

