-- ==== Sys2Proof/Machine/Frames.lean ====
section
/-! DEFINITION. The FRAME rows: what the block does with a frame of each type when the byte-stream source delivers
it (30_encoding.md R100, the last column). Every one is read by RX_TICK, judged, and counted or forwarded; only
RC_CHANNELS_PACKED is unpacked as well. The frames the block itself produces are the ENC_* operations' business. -/

namespace Sys2Proof.Machine

/-- A frame of type `t` is read on BS_RX: RX_TICK on exactly its bytes (44_router_bridge.md R251; assumption 6). -/
def receiveFrame (t : FrameType) (len : Byte) (rest : List Byte) (s : State) : Host.Outcome State Fault Refusal :=
  .next (if s.rxEnabled then s.receive (.bytes (frameBytes t len rest)) else s)

/-- GPS (0x02): forwarded opaquely (the block produces GPS frames by ENC_GPS) (30_encoding.md R100). -/
def execFrameGps (len : Byte) (rest : List Byte) (s : State) : Host.Outcome State Fault Refusal :=
  receiveFrame .gps len rest s

/-- VARIO (0x07): forwarded (30_encoding.md R100). -/
def execFrameVario (len : Byte) (rest : List Byte) (s : State) : Host.Outcome State Fault Refusal :=
  receiveFrame .vario len rest s

/-- BATTERY_SENSOR (0x08): forwarded (30_encoding.md R100). -/
def execFrameBatterySensor (len : Byte) (rest : List Byte) (s : State) : Host.Outcome State Fault Refusal :=
  receiveFrame .batterySensor len rest s

/-- BARO_ALT (0x09): forwarded (30_encoding.md R100). -/
def execFrameBaroAlt (len : Byte) (rest : List Byte) (s : State) : Host.Outcome State Fault Refusal :=
  receiveFrame .baroAlt len rest s

/-- AIRSPEED (0x0A): forwarded (30_encoding.md R100). -/
def execFrameAirspeed (len : Byte) (rest : List Byte) (s : State) : Host.Outcome State Fault Refusal :=
  receiveFrame .airspeed len rest s

/-- HEARTBEAT (0x0B): forwarded (30_encoding.md R100). -/
def execFrameHeartbeat (len : Byte) (rest : List Byte) (s : State) : Host.Outcome State Fault Refusal :=
  receiveFrame .heartbeat len rest s

/-- RPM (0x0C): forwarded (30_encoding.md R100). -/
def execFrameRpm (len : Byte) (rest : List Byte) (s : State) : Host.Outcome State Fault Refusal :=
  receiveFrame .rpm len rest s

/-- TEMP (0x0D): forwarded (30_encoding.md R100). -/
def execFrameTemp (len : Byte) (rest : List Byte) (s : State) : Host.Outcome State Fault Refusal :=
  receiveFrame .temp len rest s

/-- VOLTAGES (0x0E): forwarded (30_encoding.md R100). -/
def execFrameVoltages (len : Byte) (rest : List Byte) (s : State) : Host.Outcome State Fault Refusal :=
  receiveFrame .voltages len rest s

/-- VIDEO_TRANSMITTER (0x0F): forwarded (30_encoding.md R100). -/
def execFrameVideoTransmitter (len : Byte) (rest : List Byte) (s : State) : Host.Outcome State Fault Refusal :=
  receiveFrame .videoTransmitter len rest s

/-- LINK_STATISTICS (0x14): forwarded (30_encoding.md R100). -/
def execFrameLinkStatistics (len : Byte) (rest : List Byte) (s : State) : Host.Outcome State Fault Refusal :=
  receiveFrame .linkStatistics len rest s

/-- RC_CHANNELS_PACKED (0x16): forwarded, and unpacked by DISPATCH (30_encoding.md R100). -/
def execFrameRcChannelsPacked (len : Byte) (rest : List Byte) (s : State) : Host.Outcome State Fault Refusal :=
  receiveFrame .rcChannelsPacked len rest s

/-- LINK_STATISTICS_RX (0x1C): forwarded (30_encoding.md R100). -/
def execFrameLinkStatisticsRx (len : Byte) (rest : List Byte) (s : State) : Host.Outcome State Fault Refusal :=
  receiveFrame .linkStatisticsRx len rest s

/-- LINK_STATISTICS_TX (0x1D): forwarded (30_encoding.md R100). -/
def execFrameLinkStatisticsTx (len : Byte) (rest : List Byte) (s : State) : Host.Outcome State Fault Refusal :=
  receiveFrame .linkStatisticsTx len rest s

/-- ATTITUDE (0x1E): forwarded (30_encoding.md R100). -/
def execFrameAttitude (len : Byte) (rest : List Byte) (s : State) : Host.Outcome State Fault Refusal :=
  receiveFrame .attitude len rest s

/-- FLIGHT_MODE (0x21): forwarded (30_encoding.md R100). -/
def execFrameFlightMode (len : Byte) (rest : List Byte) (s : State) : Host.Outcome State Fault Refusal :=
  receiveFrame .flightMode len rest s

/-- DEVICE_INFO (0x29): forwarded (30_encoding.md R100). -/
def execFrameDeviceInfo (len : Byte) (rest : List Byte) (s : State) : Host.Outcome State Fault Refusal :=
  receiveFrame .deviceInfo len rest s

/-- CONFIG_READ (0x2C): forwarded (30_encoding.md R100). -/
def execFrameConfigRead (len : Byte) (rest : List Byte) (s : State) : Host.Outcome State Fault Refusal :=
  receiveFrame .configRead len rest s

/-- CONFIG_WRITE (0x2D): forwarded (30_encoding.md R100). -/
def execFrameConfigWrite (len : Byte) (rest : List Byte) (s : State) : Host.Outcome State Fault Refusal :=
  receiveFrame .configWrite len rest s

/-- RADIO_ID (0x3A): forwarded (30_encoding.md R100). -/
def execFrameRadioId (len : Byte) (rest : List Byte) (s : State) : Host.Outcome State Fault Refusal :=
  receiveFrame .radioId len rest s

end Sys2Proof.Machine
end

