-- ==== Sys2Proof/Machine/Broadcaster.lean ====
section
/-! DEFINITION. The channel router/broadcaster (44_router_bridge.md section 4): CTL_MSG with its opcodes REGISTER,
UNREGISTER and QUIT, and BCAST. -/

namespace Sys2Proof.Machine

/-- REGISTER: the sender's address joins DEST; a new one has no effect where DEST_CAP is reached
(44_router_bridge.md R272). -/
def State.registerDest (s : State) (a : Addr) : State :=
  if a ∈ s.dest ∨ s.destHasRoom then { s with dest := destInsert a s.dest } else s

/-- UNREGISTER: the sender's address leaves DEST (44_router_bridge.md R273). -/
def State.unregisterDest (s : State) (a : Addr) : State := { s with dest := destErase a s.dest }

/-- QUIT: HALT is set (44_router_bridge.md R274). -/
def State.quitBroadcast (s : State) : State := { s with halt := true }

/-- CTL_MSG: the four-way choice on the datagram (44_router_bridge.md R271, R275). -/
def State.control (s : State) (m : List Byte) (a : Addr) : State :=
  match m with
  | [b] =>
    if b = Config.ctlRegister then s.registerDest a
    else if b = Config.ctlUnregister then s.unregisterDest a
    else if b = Config.ctlQuit then s.quitBroadcast
    else s
  | _ => s

/-- REGISTER (30_encoding.md R118, 44_router_bridge.md R272). -/
def execRegister (a : Addr) (s : State) : Host.Outcome State Fault Refusal :=
  .next (if s.broadcasting then s.registerDest a else s)

/-- UNREGISTER (30_encoding.md R118, 44_router_bridge.md R273). -/
def execUnregister (a : Addr) (s : State) : Host.Outcome State Fault Refusal :=
  .next (if s.broadcasting then s.unregisterDest a else s)

/-- QUIT (30_encoding.md R118, 44_router_bridge.md R274): from any sender. -/
def execQuit (_a : Addr) (s : State) : Host.Outcome State Fault Refusal :=
  .next (if s.broadcasting then s.quitBroadcast else s)

/-- CTL_MSG (44_router_bridge.md R271). -/
def execCtlMsg (m : List Byte) (a : Addr) (s : State) : Host.Outcome State Fault Refusal :=
  .next (if s.broadcasting then s.control m a else s)

/-- One send of a BCAST: the datagram unmodified; a failed destination is removed and reported
(44_router_bridge.md R277, R278). -/
def State.bcSend (plan : BcPlan) (d : List Byte) (s : State) (a : Addr) : State :=
  if a ∈ plan.failed then
    { s.emit (.bcTx a d .failed) with dest := destErase a s.dest }.raise .bcast (.destinationUnreachable (some a))
  else s.emit (.bcTx a d .sent)

/-- BCAST: the walk over the set as it stands at the start (44_router_bridge.md R277). -/
def State.broadcast (s : State) (d : List Byte) : State :=
  (walkOrder s.bcPlan s.dest).foldl (State.bcSend s.bcPlan d) { s with bcPlans := s.bcPlans.tail }

/-- BCAST (44_router_bridge.md R277). -/
def execBcast (d : List Byte) (s : State) : Host.Outcome State Fault Refusal :=
  .next (if s.broadcasting then s.broadcast d else s)

end Sys2Proof.Machine
end

