-- ==== Sys2Proof/Machine/System.lean ====
section
/-! DEFINITION. STOP, the one terminal transition (60_exceptions.md R316). -/

namespace Sys2Proof.Machine

/-- STOP: "`STOPPED <- 1`. Nothing else is written"; a presented shutdown signal is consumed (60_exceptions.md R316,
R318). -/
def State.stopBlock (s : State) : State := { s with stopped := true, shutdown := false }

/-- STOP (60_exceptions.md R316). -/
def execStop (s : State) : Host.Outcome State Fault Refusal :=
  .next (if s.stopEnabled then s.stopBlock else s)

end Sys2Proof.Machine
end

