-- ==== Sys2Proof/Machine/Dispatch.lean ====
section
/-! DEFINITION. One arm for each constructor of Instr: a direct call of its meaning. -/

namespace Sys2Proof.Machine

def exec (i : Instr) (s : State) : Host.Outcome State Fault Refusal :=
  match i with
  | .gps len rest => Sys2Proof.Machine.execFrameGps len rest s
  | .vario len rest => Sys2Proof.Machine.execFrameVario len rest s
  | .batterySensor len rest => Sys2Proof.Machine.execFrameBatterySensor len rest s
  | .baroAlt len rest => Sys2Proof.Machine.execFrameBaroAlt len rest s
  | .airspeed len rest => Sys2Proof.Machine.execFrameAirspeed len rest s
  | .heartbeat len rest => Sys2Proof.Machine.execFrameHeartbeat len rest s
  | .rpm len rest => Sys2Proof.Machine.execFrameRpm len rest s
  | .temp len rest => Sys2Proof.Machine.execFrameTemp len rest s
  | .voltages len rest => Sys2Proof.Machine.execFrameVoltages len rest s
  | .videoTransmitter len rest => Sys2Proof.Machine.execFrameVideoTransmitter len rest s
  | .linkStatistics len rest => Sys2Proof.Machine.execFrameLinkStatistics len rest s
  | .rcChannelsPacked len rest => Sys2Proof.Machine.execFrameRcChannelsPacked len rest s
  | .linkStatisticsRx len rest => Sys2Proof.Machine.execFrameLinkStatisticsRx len rest s
  | .linkStatisticsTx len rest => Sys2Proof.Machine.execFrameLinkStatisticsTx len rest s
  | .attitude len rest => Sys2Proof.Machine.execFrameAttitude len rest s
  | .flightMode len rest => Sys2Proof.Machine.execFrameFlightMode len rest s
  | .deviceInfo len rest => Sys2Proof.Machine.execFrameDeviceInfo len rest s
  | .configRead len rest => Sys2Proof.Machine.execFrameConfigRead len rest s
  | .configWrite len rest => Sys2Proof.Machine.execFrameConfigWrite len rest s
  | .radioId len rest => Sys2Proof.Machine.execFrameRadioId len rest s
  | .register sender => Sys2Proof.Machine.execRegister sender s
  | .unregister sender => Sys2Proof.Machine.execUnregister sender s
  | .quit sender => Sys2Proof.Machine.execQuit sender s
  | .crc8 bytes => Sys2Proof.Machine.execCrc8 bytes s
  | .scan buf => Sys2Proof.Machine.execScan buf s
  | .build type payload => Sys2Proof.Machine.execBuild type payload s
  | .unpack b => Sys2Proof.Machine.execUnpack b s
  | .pack c => Sys2Proof.Machine.execPack c s
  | .encGps lat lon kph hdg alt => Sys2Proof.Machine.execEncGps lat lon kph hdg alt s
  | .encBattery volt pct => Sys2Proof.Machine.execEncBattery volt pct s
  | .encVario vy => Sys2Proof.Machine.execEncVario vy s
  | .encBaroAlt alt altStart => Sys2Proof.Machine.execEncBaroAlt alt altStart s
  | .encAirspeed mag => Sys2Proof.Machine.execEncAirspeed mag s
  | .encAttitude pitch roll yaw => Sys2Proof.Machine.execEncAttitude pitch roll yaw s
  | .encRpm rpm => Sys2Proof.Machine.execEncRpm rpm s
  | .encode rec altStart => Sys2Proof.Machine.execEncode rec altStart s
  | .rxTick r => Sys2Proof.Machine.execRxTick r s
  | .dispatch type payload => Sys2Proof.Machine.execDispatch type payload s
  | .netIn d => Sys2Proof.Machine.execNetIn d s
  | .txWrite => Sys2Proof.Machine.execTxWrite s
  | .telLoad rec => Sys2Proof.Machine.execTelLoad rec s
  | .telTick => Sys2Proof.Machine.execTelTick s
  | .ctlMsg m sender => Sys2Proof.Machine.execCtlMsg m sender s
  | .bcast d => Sys2Proof.Machine.execBcast d s
  | .statsReport => Sys2Proof.Machine.execStatsReport s
  | .stop => Sys2Proof.Machine.execStop s

end Sys2Proof.Machine
end

