-- ==== Sys2Proof/Machine/Fetch.lean ====
section
/-! DEFINITION. What one line of the environment's schedule does (30_encoding.md R126), and where a word of the opcode
table is placed so that it runs next. -/

namespace Sys2Proof.Machine

/-- An instruction as presented: decoded and run, or refused by name. -/
def runPresented (p : Presented) (s : State) : Host.Outcome State Fault Refusal :=
  match decode p with
  | .ok i => exec i s
  | .error (.illegalOperation opid) => .refused (.illegalOperation opid)
  | .error (.illTyped opid) => .refused (.illTyped opid)

/-- The line TICK: "now advances to NEXT_TICK; TEL_TICK runs"; after STOP nothing changes (30_encoding.md R126). -/
def runTick (s : State) : Host.Outcome State Fault Refusal :=
  if s.running then exec .telTick { s with now := max s.now s.nextTick } else .next s

/-- The line SHUTDOWN: "the shutdown signal is presented; STOP runs"; after STOP nothing changes
(30_encoding.md R126). -/
def runShutdown (s : State) : Host.Outcome State Fault Refusal :=
  if s.running then exec .stop { s with shutdown := true } else .next s

/-- The shutdown signal is presented, and STOP is enabled; other operations may run before it (60_exceptions.md R318,
R319). -/
def runSignal (s : State) : Host.Outcome State Fault Refusal :=
  .next (if s.running then { s with shutdown := true } else s)

/-- The reporting period is over: STATS_REPORT runs at its end (60_exceptions.md R327; assumption 36). -/
def runPeriod (s : State) : Host.Outcome State Fault Refusal :=
  if s.running then
    exec .statsReport { s with now := if s.params.statsReportMs.isSome then max s.now s.nextReport else s.now }
  else .next s

/-- A read times out: it is answered with no byte after READ_TIMEOUT (60_exceptions.md R328; assumption 36). -/
def runTimeout (s : State) : Host.Outcome State Fault Refusal :=
  if s.rxEnabled then exec (.rxTick (.bytes [])) { s with now := s.now + s.params.readTimeout.getD 0 } else .next s

/-- One line, already taken off the schedule. -/
def runLine (line : Stimulus) (s : State) : Host.Outcome State Fault Refusal :=
  match line with
  | .present p => runPresented p s
  | .tick => runTick s
  | .now ms => s.advanceTo ms
  | .shutdown => runShutdown s
  | .signal => runSignal s
  | .period => runPeriod s
  | .timeout => runTimeout s
  | .reset => .next s.resetEvent

/-- One step: the next line of the schedule. With no line left nothing happens: "an agent with no pending event does
nothing" (60_exceptions.md R317). -/
def stepLine (s : State) : Host.Outcome State Fault Refusal :=
  match s.stimulus with
  | [] => .next s
  | line :: rest => runLine line { s with stimulus := rest }

/-- The line that presents `p`. TEL_TICK is presented by the line TICK and STOP by the line SHUTDOWN, which bring the
trigger with them (30_encoding.md R126). -/
def lineOf (p : Presented) : Stimulus :=
  match p with
  | .event opid .none =>
    if opid = OpName.telTick.opid then .tick
    else if opid = OpName.stop.opid then .shutdown
    else .present p
  | p => .present p

/-- The schedule holds the one line that presents the table's word; for TX_WRITE, whose trigger is a queued frame, a
frame is queued if none is (44_router_bridge.md R264). A word the decoder refuses leaves the schedule empty. -/
def placeWord (s : State) (nbits w : Nat) : State :=
  match presentedOfWord nbits w with
  | none => { s with stimulus := [] }
  | some p =>
    let t := { s with stimulus := [lineOf p] }
    if p = .event OpName.txWrite.opid .none ∧ s.txqNet = [] ∧ s.txqTel = [] then
      t.enqueueNet [0xC8#8, 0x02#8, 0x00#8, 0x00#8]
    else t

end Sys2Proof.Machine
end

