-- ==== Sys2Proof/Machine/Step.lean ====
section
/-! DEFINITION. One step of the machine, and the placing of a word of the opcode table where it is fetched next. -/

namespace Sys2Proof.Machine

/-- One step: the next line of the environment's schedule (assumption 1). -/
def step (s : State) : Host.Outcome State Fault Refusal := stepLine s

/-- `s` with the instruction of a word of spec/opcode_table.json where the next step takes it from
(assumption 1). -/
def State.withFetchWord (s : State) (nbits w : Nat) : State := placeWord s nbits w

end Sys2Proof.Machine
end

