-- ==== Sys2Proof/Safety.lean ====
section
/-! DEFINITION. What claims are stated in terms of: the canonical form of the block's storage, the reset state, the end
of a run, and what a run may never change. -/

namespace Sys2Proof.Machine

/-- The entries of STATS: in order of time, none later than `now`, and no `Bytes 0` (10_state.md R33). -/
def statsWf (now : Nat) (w : List (Nat × StatEntry)) : Bool :=
  decide ((w.map (·.1)).Pairwise (· ≤ ·)) && w.all (fun e => decide (e.1 ≤ now)) &&
    w.all (fun e => decide (e.2 ≠ .bytes 0))

/-- DEST as a set: strictly rising, and within DEST_CAP (10_state.md R32, 44_router_bridge.md R272). -/
def destWf (cap : Option Nat) (dest : List Addr) : Bool :=
  decide (dest.Pairwise (· < ·)) &&
    match cap with
    | none => true
    | some n => decide (dest.length ≤ n)

/-- CH holds an accepted set whenever it is valid (44_router_bridge.md R257). -/
def channelsWf (axisMax : Nat) (chValid : Bool) (ch : Vector Chan 16) : Bool :=
  !chValid || ch.toList.all fun v => decide (v.toNat ≤ axisMax)

/-- The canonical form of the block's storage, the "memory" of 20_memory.md: RXBUF is a leftover of SCAN
(41_frame_codec.md R160), both queues hold valid frames (10_state.md R28), DEST is a set, STATS is a window, CH holds
an accepted set. -/
def Memory.wf (s : State) : Bool :=
  leftoverForm s.rxbuf && s.txqNet.all validFrame && s.txqTel.all validFrame &&
    destWf s.params.destCap s.dest && statsWf s.now s.stats && channelsWf s.params.axisMax s.chValid s.ch

/-- `ResetState` (70_reset_and_hazards.md R342): the named premise for claims about the block. LAST_REC, ALT_START and CH
are left out: they "hold no value". -/
def ResetState (s : State) : Prop :=
  s.rxbuf = [] ∧ s.crcErrCnt = 0 ∧ s.txqNet = [] ∧ s.txqTel = [] ∧ s.lastValid = false ∧
    s.altStartValid = false ∧ s.chValid = false ∧ s.dest = [] ∧ s.stats = [] ∧ s.halt = false ∧
    s.rxClosed = false ∧ s.txClosed = false ∧ s.stopped = false ∧ s.nextTick = s.now + 100

/-- A run over as *Quiescent* (70_reset_and_hazards.md R345): no further event, both queues empty, no tick due. That "no
further event" is "no further line of the schedule" is the model's choice (DESIGN CHOICE, assumption 39): a shutdown signal
presented and not yet consumed by STOP stands in `shutdown`, not in the schedule, and such a run is called Quiescent. -/
def Quiescent (s : State) : Prop :=
  s.stimulus = [] ∧ s.txqNet = [] ∧ s.txqTel = [] ∧ s.now < s.nextTick

/-- The seventeen elements of 10_state.md R20 agree. -/
def SameBlock (s t : State) : Prop :=
  t.rxbuf = s.rxbuf ∧ t.crcErrCnt = s.crcErrCnt ∧ t.txqNet = s.txqNet ∧ t.txqTel = s.txqTel ∧
    t.lastRec = s.lastRec ∧ t.lastValid = s.lastValid ∧ t.altStart = s.altStart ∧
    t.altStartValid = s.altStartValid ∧ t.nextTick = s.nextTick ∧ t.ch = s.ch ∧ t.chValid = s.chValid ∧
    t.dest = s.dest ∧ t.stats = s.stats ∧ t.halt = s.halt ∧ t.rxClosed = s.rxClosed ∧
    t.txClosed = s.txClosed ∧ t.stopped = s.stopped

/-- The state of the broadcaster agrees: DEST, HALT, and the environment's draws for it. -/
def SameBroadcaster (s t : State) : Prop := t.dest = s.dest ∧ t.halt = s.halt ∧ t.bcPlans = s.bcPlans

/-- The state of the bridge and the telemetry encoder agrees. -/
def SameBridge (s t : State) : Prop :=
  t.rxbuf = s.rxbuf ∧ t.crcErrCnt = s.crcErrCnt ∧ t.txqNet = s.txqNet ∧ t.txqTel = s.txqTel ∧
    t.lastRec = s.lastRec ∧ t.lastValid = s.lastValid ∧ t.altStart = s.altStart ∧
    t.altStartValid = s.altStartValid ∧ t.nextTick = s.nextTick ∧ t.ch = s.ch ∧ t.chValid = s.chValid ∧
    t.stats = s.stats ∧ t.rxClosed = s.rxClosed ∧ t.txClosed = s.txClosed ∧ t.stopped = s.stopped

/-- `v` is the real number that `x` stands for; the one named `k` is where its integer part and binary digits lead
(10_state.md R36). -/
def IsReal (x : RealLit) (v : ℝ) : Prop :=
  match x with
  | .rat q => v = q
  | .root q n => v = q * Real.sqrt n
  | .named q k => ∃ u : ℝ, v = q * u ∧
      ∀ P : Nat, (realTrunc k P : ℝ) / 2 ^ P ≤ u ∧ u ≤ ((realTrunc k P : ℝ) + 1) / 2 ^ P

/-- `v` is the sum of the squares of the numbers, each times its coefficient. -/
def IsSum (terms : List (Rat × RealLit)) (v : ℝ) : Prop :=
  match terms with
  | [] => v = 0
  | t :: terms => ∃ a b : ℝ, IsReal t.2 a ∧ IsSum terms b ∧ v = t.1 * (a * a) + b

/-- `v` is the sine `y`. -/
def IsCross (y : Cross) (v : ℝ) : Prop :=
  ∃ a b c d : ℝ, IsReal y.a a ∧ IsReal y.b b ∧ IsReal y.c c ∧ IsReal y.d d ∧ v = 2 * (a * b + c * d)

/-- `v` is the cosine `x`. -/
def IsSquares (x : Squares) (v : ℝ) : Prop := ∃ b : ℝ, IsSum x.terms b ∧ v = x.const + b

/-- `v` is the angle of the direction `(x, y)`, in radians: `atan2(y, x)`, undefined where both are 0. -/
def IsAngle (y x v : ℝ) : Prop := ¬(y = 0 ∧ x = 0) ∧ v = Complex.arg ⟨x, y⟩

/-- `v` is the heading of `s` and `c`: `atan2(s, c)` in degrees, 360 more if negative (43_telemetry_encoder.md R205). -/
def IsHeading (s c v : ℝ) : Prop :=
  ∃ θ, IsAngle s c θ ∧ v = if θ * 180 / Real.pi < 0 then θ * 180 / Real.pi + 360 else θ * 180 / Real.pi

/-- `v` is the real number that the operand `x` stands for: `asin`, `sqrt` and `atan2` in radians, a heading in degrees,
360 more if negative (43_telemetry_encoder.md R205 to R208). -/
def IsValue (x : RealNum) (v : ℝ) : Prop :=
  match x with
  | .rat q => v = q
  | .sqrt r => 0 ≤ r ∧ v = Real.sqrt r
  | .atan2 y x => IsAngle y x v
  | .heading s c => IsHeading s c v
  | .asin t => -1 ≤ t ∧ t ≤ 1 ∧ v = Real.arcsin t
  | .nonFinite => False
  | .lit x => IsReal x v
  | .norm xs => ∃ u, IsSum (xs.map fun x => (1, x)) u ∧ v = Real.sqrt u
  | .angle y x => ∃ a b, IsCross y a ∧ IsSquares x b ∧ IsAngle a b v
  | .turn s c => ∃ a b, IsCross s a ∧ IsSquares c b ∧ IsHeading a b v
  | .asinOf t => ∃ a, IsCross t a ∧ v = Real.arcsin (max (-1) (min 1 a))

/-- `z` is `rnd(v)`: the integer nearest to `v`, and on a tie between `f` and `f + 1` the one that ROUND_TIES says
(43_telemetry_encoder.md R201). -/
def IsRnd (t : RoundTies) (v : ℝ) (z : Int) : Prop :=
  |(z : ℝ) - v| ≤ 1 / 2 ∧ ∀ f : Int, v = f + 1 / 2 → z = if tieUp t f then f + 1 else f

/-- The packets an output trace holds on NET_TX, in order. -/
def packetsSent (out : List Output) : List (List Byte) :=
  out.filterMap fun o => match o with | .netTx pkt _ => some pkt | _ => none

/-- The sends an output trace holds on BC_TX, in order: destination, datagram, answer. -/
def broadcastsSent (out : List Output) : List (Addr × List Byte × SendAnswer) :=
  out.filterMap fun o => match o with | .bcTx a d ans => some (a, d, ans) | _ => none

end Sys2Proof.Machine
end

