-- ==== Sys2Proof/Certificates/Slice0/Obligations.lean ====
section
/-! DEFINITION. The statements. First the words they are written in: each is a transcription of the spec's text, apart
from the model's own definition of the same thing, so that a statement compares the two. -/

open Sys2Proof Sys2Proof.Machine

namespace Sys2Proof.Claims

/-- `s` with these outputs emitted after all earlier ones. -/
def emits (s : State) (os : List Output) : State := { s with out := s.out ++ os }

/-- One inner iteration of the rule for CRC8 (40_crc.md R141). -/
def crcIteration (a : Byte) : Byte := if a.getLsbD 7 then (a <<< 1) ^^^ 0xD5#8 else a <<< 1

/-- The rule for CRC8 (40_crc.md R141). -/
def crcOfRule (s : List Byte) : Byte := s.foldl (fun acc b => crcIteration^[8] (acc ^^^ b)) 0x00#8

/-- The table `T` (40_crc.md R143), row by row. -/
def crcTable : List Byte :=
  [0x00#8, 0xD5#8, 0x7F#8, 0xAA#8, 0xFE#8, 0x2B#8, 0x81#8, 0x54#8, 0x29#8, 0xFC#8, 0x56#8, 0x83#8, 0xD7#8, 0x02#8, 0xA8#8, 0x7D#8] ++
  [0x52#8, 0x87#8, 0x2D#8, 0xF8#8, 0xAC#8, 0x79#8, 0xD3#8, 0x06#8, 0x7B#8, 0xAE#8, 0x04#8, 0xD1#8, 0x85#8, 0x50#8, 0xFA#8, 0x2F#8] ++
  [0xA4#8, 0x71#8, 0xDB#8, 0x0E#8, 0x5A#8, 0x8F#8, 0x25#8, 0xF0#8, 0x8D#8, 0x58#8, 0xF2#8, 0x27#8, 0x73#8, 0xA6#8, 0x0C#8, 0xD9#8] ++
  [0xF6#8, 0x23#8, 0x89#8, 0x5C#8, 0x08#8, 0xDD#8, 0x77#8, 0xA2#8, 0xDF#8, 0x0A#8, 0xA0#8, 0x75#8, 0x21#8, 0xF4#8, 0x5E#8, 0x8B#8] ++
  [0x9D#8, 0x48#8, 0xE2#8, 0x37#8, 0x63#8, 0xB6#8, 0x1C#8, 0xC9#8, 0xB4#8, 0x61#8, 0xCB#8, 0x1E#8, 0x4A#8, 0x9F#8, 0x35#8, 0xE0#8] ++
  [0xCF#8, 0x1A#8, 0xB0#8, 0x65#8, 0x31#8, 0xE4#8, 0x4E#8, 0x9B#8, 0xE6#8, 0x33#8, 0x99#8, 0x4C#8, 0x18#8, 0xCD#8, 0x67#8, 0xB2#8] ++
  [0x39#8, 0xEC#8, 0x46#8, 0x93#8, 0xC7#8, 0x12#8, 0xB8#8, 0x6D#8, 0x10#8, 0xC5#8, 0x6F#8, 0xBA#8, 0xEE#8, 0x3B#8, 0x91#8, 0x44#8] ++
  [0x6B#8, 0xBE#8, 0x14#8, 0xC1#8, 0x95#8, 0x40#8, 0xEA#8, 0x3F#8, 0x42#8, 0x97#8, 0x3D#8, 0xE8#8, 0xBC#8, 0x69#8, 0xC3#8, 0x16#8] ++
  [0xEF#8, 0x3A#8, 0x90#8, 0x45#8, 0x11#8, 0xC4#8, 0x6E#8, 0xBB#8, 0xC6#8, 0x13#8, 0xB9#8, 0x6C#8, 0x38#8, 0xED#8, 0x47#8, 0x92#8] ++
  [0xBD#8, 0x68#8, 0xC2#8, 0x17#8, 0x43#8, 0x96#8, 0x3C#8, 0xE9#8, 0x94#8, 0x41#8, 0xEB#8, 0x3E#8, 0x6A#8, 0xBF#8, 0x15#8, 0xC0#8] ++
  [0x4B#8, 0x9E#8, 0x34#8, 0xE1#8, 0xB5#8, 0x60#8, 0xCA#8, 0x1F#8, 0x62#8, 0xB7#8, 0x1D#8, 0xC8#8, 0x9C#8, 0x49#8, 0xE3#8, 0x36#8] ++
  [0x19#8, 0xCC#8, 0x66#8, 0xB3#8, 0xE7#8, 0x32#8, 0x98#8, 0x4D#8, 0x30#8, 0xE5#8, 0x4F#8, 0x9A#8, 0xCE#8, 0x1B#8, 0xB1#8, 0x64#8] ++
  [0x72#8, 0xA7#8, 0x0D#8, 0xD8#8, 0x8C#8, 0x59#8, 0xF3#8, 0x26#8, 0x5B#8, 0x8E#8, 0x24#8, 0xF1#8, 0xA5#8, 0x70#8, 0xDA#8, 0x0F#8] ++
  [0x20#8, 0xF5#8, 0x5F#8, 0x8A#8, 0xDE#8, 0x0B#8, 0xA1#8, 0x74#8, 0x09#8, 0xDC#8, 0x76#8, 0xA3#8, 0xF7#8, 0x22#8, 0x88#8, 0x5D#8] ++
  [0xD6#8, 0x03#8, 0xA9#8, 0x7C#8, 0x28#8, 0xFD#8, 0x57#8, 0x82#8, 0xFF#8, 0x2A#8, 0x80#8, 0x55#8, 0x01#8, 0xD4#8, 0x7E#8, 0xAB#8] ++
  [0x84#8, 0x51#8, 0xFB#8, 0x2E#8, 0x7A#8, 0xAF#8, 0x05#8, 0xD0#8, 0xAD#8, 0x78#8, 0xD2#8, 0x07#8, 0x53#8, 0x86#8, 0x2C#8, 0xF9#8]

/-- The frame of a type and a payload of at most 253 bytes (41_frame_codec.md R165). -/
def frameOf (type : Byte) (payload : List Byte) : List Byte :=
  0xC8#8 :: BitVec.ofNat 8 (payload.length + 2) :: type :: (payload ++ [crc8 (type :: payload)])

/-- The results of scanning reads one after another, what one scan leaves being put before the next read
(41_frame_codec.md R153, R161), and what the last scan leaves. -/
def scanReads (left : List Byte) : List (List Byte) → List FrameResult × List Byte
  | [] => ([], left)
  | r :: rs =>
    let buf := left ++ r
    let later := scanReads (buf.drop (scan buf).2) rs
    ((scan buf).1 ++ later.1, later.2)

/-- Bit `k` of the channel bit space (20_memory.md R63). -/
def bitOf (b : Vector Byte 22) (k : Nat) : Bool := (b.toList.getD (k / 8) 0#8).getLsbD (k % 8)

/-- The little-endian integer of bytes (42_channel_codec.md R182). -/
def littleEndian : List Byte → Nat
  | [] => 0
  | b :: bs => b.toNat + 256 * littleEndian bs

/-- Channel `i` of a payload (42_channel_codec.md R182). -/
def channelOf (payload : List Byte) (i : Nat) : Nat := littleEndian payload / 2 ^ (11 * i) % 2048

/-- The bytes of an integer, most significant first, two's complement (20_memory.md R62, 30_encoding.md R120). -/
def bytesOf (n : Nat) (z : Int) : List Byte :=
  (List.range n).map fun j => BitVec.ofInt 8 (z / 2 ^ (8 * (n - 1 - j)))

/-- The first field, in payload order, that is not finite or not in its range, with its name, its range and its value
given (43_telemetry_encoder.md R202, R204; 60_exceptions.md R319). -/
def firstBad (t : FrameType) : List (FieldName × Int × Int × Option Int) → Option FieldError
  | [] => none
  | (n, _, _, none) :: _ => some ⟨t, n, none⟩
  | (n, lo, hi, some z) :: r => if lo ≤ z ∧ z ≤ hi then firstBad t r else some ⟨t, n, some z⟩

/-- What an ENC_* operation does: its payload, or FieldOutOfRange (43_telemetry_encoder.md R200, R204). -/
def encoded (s : State) (opid : Byte) (bad : Option FieldError) (payload : List Byte) : State :=
  match bad with
  | none => emits s [.result opid (.payload payload)]
  | some e => emits s [.errOut 7 opid (.fieldOutOfRange e)]

/-- The seven attempts of ENCODE in its order: opid, frame type, and what the encoder gives
(43_telemetry_encoder.md R225). -/
def attempts (P : Params) (rec : TelemetryRecord) (altStart : RealNum) :
    List (Byte × Byte × Except FieldError (Option (List Byte))) :=
  [(0x10#8, 0x02#8, (encGps P (geoOf P rec.pos).1 (geoOf P rec.pos).2 (kphOf P rec.vel) (headingOf P rec.att)
      (ofNum rec.pos.y)).map some),
   (0x11#8, 0x08#8, (encBattery P (ofNum rec.batt.volt) (ofNum rec.batt.pct)).map some),
   (0x12#8, 0x07#8, (encVario P (ofNum rec.vel.vy)).map some),
   (0x13#8, 0x09#8, (encBaroAlt P (ofNum rec.pos.y) altStart).map some),
   (0x14#8, 0x0A#8, (encAirspeed P (mag3dOf P rec.vel)).map some),
   (0x15#8, 0x1E#8, (encAttitude P (eulerOf P rec.att).1 (eulerOf P rec.att).2.1 (eulerOf P rec.att).2.2).map some),
   (0x16#8, 0x0C#8, encRpm P (rec.rpm.map ofNum))]

/-- The pairs: the attempts that gave a payload. -/
def pairsOf (l : List (Byte × Byte × Except FieldError (Option (List Byte)))) : List (Byte × List Byte) :=
  l.filterMap fun e => match e.2.2 with | .ok (some p) => some (e.2.1, p) | _ => none

/-- The events: one for each attempt that failed. -/
def eventsOf (l : List (Byte × Byte × Except FieldError (Option (List Byte)))) : List Output :=
  l.filterMap fun e => match e.2.2 with | .error err => some (.errOut 7 e.1 (.fieldOutOfRange err)) | .ok _ => none

/-- DISPATCH of `type ‖ payload` (44_router_bridge.md R255). -/
def dispatched (s : State) (type : Byte) (payload : List Byte) : State :=
  if type ≠ 0x16#8 then s
  else if payload.length ≠ 22 then emits s [.errOut 8 0x21#8 (.rcLengthError payload.length)]
  else
    match (List.range 16).find? fun i => decide (s.params.axisMax < channelOf payload i) with
    | some i => emits s [.errOut 9 0x21#8 (.axisRangeError i (channelOf payload i))]
    | none =>
      let set : Vector Chan 16 := Vector.ofFn fun i => BitVec.ofNat 11 (channelOf payload i)
      { s with
        ch := set
        chValid := true
        out := s.out ++ [.chOut set (changeMask (!s.chValid) set s.ch) (!s.chValid)] }

/-- A send on NET_TX with its answer (44_router_bridge.md R253). -/
def forwarded (s : State) (pkt : List Byte) : State :=
  { s with
    netAnswers := s.netAnswers.tail
    out := s.out ++ .netTx pkt (s.netAnswers.headD .sent) ::
      (if s.netAnswers.headD .sent = .unreachable then [.errOut 5 0x20#8 (.destinationUnreachable none)] else []) }

/-- A read of `n` bytes keeps READ_MAX, and fits in RXBUF_CAP beside the 256 bytes a scan may leave (00_scope.md R9,
10_state.md R27). -/
def fits (P : Params) (n : Nat) : Prop :=
  (∀ m, P.readMax = some m → n ≤ m) ∧ ∀ c, P.rxbufCap = some c → 256 + n ≤ c

/-- `(pitch, roll, yaw)` have the values of the default decomposition of 43_telemetry_encoder.md R208, of the remapped
quaternion `(x, y, z, w)`: an angle is undefined where its two arguments are 0. -/
def eulerValues (e : RealNum × RealNum × RealNum) (x y z w : ℝ) : Prop :=
  (∀ v, IsValue e.1 v ↔ v = Real.arcsin (max (-1) (min 1 (2 * (w * y - z * x))))) ∧
  (∀ v, IsValue e.2.1 v ↔ IsAngle (2 * (w * x + y * z)) (1 - 2 * (x * x + y * y)) v) ∧
  ∀ v, IsValue e.2.2 v ↔ IsAngle (2 * (w * z + x * y)) (1 - 2 * (y * y + z * z)) v

/-- What RX_TICK does with one result (44_router_bridge.md R251, R253, R254). -/
def handled (s : State) (r : FrameResult) : State :=
  match r with
  | .crcError =>
    { s with
      crcErrCnt := s.crcErrCnt + 1
      stats := evict s.now (s.stats ++ [(s.now, .err)])
      out := s.out ++ [.errOut 1 0x20#8 .crcMismatch] }
  | .ok f =>
    match (f.drop 2).dropLast with
    | [] => forwarded s []
    | type :: payload => dispatched (forwarded s (type :: payload)) type payload

/-- The packet a result of SCAN sends on NET_TX (44_router_bridge.md R253). -/
def packetOf (r : FrameResult) : Option (List Byte) :=
  match r with
  | .ok f => some ((f.drop 2).dropLast)
  | .crcError => none

/-- The operations of the broadcaster (20_memory.md R71, agents CTL and BC). -/
def isBroadcaster (i : Instr) : Bool :=
  match i with
  | .register _ | .unregister _ | .quit _ | .ctlMsg _ _ | .bcast _ => true
  | _ => false

/-- For each condition its code and the operations that detect it (60_exceptions.md R300). -/
def raisedBy (info : Condition) : Nat × List Byte :=
  match info with
  | .crcMismatch => (1, [0x20#8])
  | .payloadTooLarge _ => (3, [0x03#8])
  | .channelOutOfRange _ _ => (4, [0x05#8])
  | .destinationUnreachable none => (5, [0x20#8])
  | .destinationUnreachable (some _) => (5, [0x41#8])
  | .streamClosed .rx => (6, [0x20#8])
  | .streamClosed .tx => (6, [0x23#8])
  | .fieldOutOfRange e =>
    (7, match e.frame with
      | .gps => [0x10#8]
      | .batterySensor => [0x11#8]
      | .vario => [0x12#8]
      | .baroAlt => [0x13#8]
      | .airspeed => [0x14#8]
      | .attitude => [0x15#8]
      | .rpm => [0x16#8]
      | _ => [])
  | .rcLengthError _ => (8, [0x21#8])
  | .axisRangeError _ _ => (9, [0x21#8])
  | .emptyDatagram => (10, [0x22#8])

end Sys2Proof.Claims

open Sys2Proof.Claims

/-! ### Encoding and the step -/

/-- 30_encoding.md R90, R118, R122: no operand of any instruction is lost between the encoder and the decoder. -/
def Obligations.DecodeEncode : Prop := ∀ i : Instr, i.wf = true → decode (encode i) = .ok i

/-- 30_encoding.md R90, R102, R103, R105, R118, R122: what decodes is well formed, and each instruction is presented in one
way, but for bytes that are no complete frame of a listed type, which RX_TICK reads, and control datagrams other than the
three opcodes, which CTL_MSG ignores (log entry 34). -/
def Obligations.EachPresentationOneMeaning : Prop :=
  ∀ (p : Presented) (i : Instr), decode p = .ok i → i.wf = true ∧
    (p = encode i ∨
      (∃ bytes, p = .frame bytes ∧ i = .rxTick (.bytes bytes) ∧
        ∀ (t : FrameType) (len : Byte) (rest : List Byte), rest.length = len.toNat - 1 →
          bytes ≠ 0xC8#8 :: len :: t.code :: rest) ∨
      (∃ m a, p = .ctrl m a ∧ i = .ctlMsg m a ∧ m ≠ [0x00#8] ∧ m ≠ [0x01#8] ∧ m ≠ [0xFF#8]))

/-- Words written out from 30_encoding.md R90, R100, R118, R122 and R128. That the type byte of a frame is looked up and
the rest kept is R103; the operand of zeros beside an opid is log entry 5. -/
def Obligations.WordsDecode : Prop :=
  decode (.frame [0xC8#8, 0x04#8, 0x07#8, 0x00#8, 0xFA#8, 0xF1#8]) = .ok (.vario 0x04#8 [0x00#8, 0xFA#8, 0xF1#8]) ∧
  decode (.frame [0xC8#8, 0x02#8, 0x0B#8, 0x83#8]) = .ok (.heartbeat 0x02#8 [0x83#8]) ∧
  decodeTableWord 24 0xC80216 = some (.rcChannelsPacked 0x02#8 [0x00#8]) ∧
  decodeTableWord 24 0xC8033A = some (.radioId 0x03#8 [0x00#8, 0x00#8]) ∧
  (∀ a, decode (.ctrl [0x00#8] a) = .ok (.register a)) ∧
  (∀ a, decode (.ctrl [0x01#8] a) = .ok (.unregister a)) ∧
  (∀ a, decode (.ctrl [0xFF#8] a) = .ok (.quit a)) ∧
  (∀ t p, decode (.cmd 0x03#8 (.typed t p)) = .ok (.build t p)) ∧
  (∀ b, decode (.cmd 0x04#8 (.bytes22 b)) = .ok (.unpack b)) ∧
  (∀ c, decode (.cmd 0x05#8 (.chans c)) = .ok (.pack c)) ∧
  (∀ v p, decode (.cmd 0x11#8 (.reals [v, p])) = .ok (.encBattery v p)) ∧
  (∀ rec a, decode (.cmd 0x17#8 (.recordFrom rec a)) = .ok (.encode rec a)) ∧
  (∀ d, decode (.event 0x22#8 (.bytes d)) = .ok (.netIn d)) ∧
  decode (.event 0x20#8 .closed) = .ok (.rxTick .closed) ∧
  (∀ rec, decode (.event 0x30#8 (.record rec)) = .ok (.telLoad rec)) ∧
  (∀ m a, decode (.event 0x40#8 (.control m a)) = .ok (.ctlMsg m a)) ∧
  decode (.event 0x5F#8 .none) = .ok .stop ∧
  ∀ b : Byte, frameTypeOf b = none ↔
    b ∉ [0x02#8, 0x07#8, 0x08#8, 0x09#8, 0x0A#8, 0x0B#8, 0x0C#8, 0x0D#8, 0x0E#8, 0x0F#8, 0x14#8, 0x16#8, 0x1C#8, 0x1D#8,
      0x1E#8, 0x21#8, 0x29#8, 0x2C#8, 0x2D#8, 0x3A#8]

/-- 60_exceptions.md R314: an opid not marked invocable is refused; 93_implementation_defined.md U17: so is an operand not
of the operation's type. A refusal has no next state. -/
def Obligations.CmdRefusals : Prop :=
  ∀ (s : State) (opid : Byte) (x : Operand) (rest : List Stimulus), s.stimulus = .present (.cmd opid x) :: rest →
    (opid ∉ [0x01#8, 0x02#8, 0x03#8, 0x04#8, 0x05#8, 0x10#8, 0x11#8, 0x12#8, 0x13#8, 0x14#8, 0x15#8, 0x16#8, 0x17#8] →
      step s = .refused (.illegalOperation opid)) ∧
    (opid ∈ [0x01#8, 0x02#8, 0x03#8, 0x04#8, 0x05#8, 0x10#8, 0x11#8, 0x12#8, 0x13#8, 0x14#8, 0x15#8, 0x16#8, 0x17#8] →
      (∀ i, decode (.cmd opid x) ≠ .ok i) → step s = .refused (.illTyped opid))

/-- A step takes the next line of the schedule; where it presents an instruction, the step is exec of it (log entries 1
and 2; 30_encoding.md R126). -/
def Obligations.StepRunsDecoded : Prop :=
  ∀ (s : State) (p : Presented) (i : Instr) (rest : List Stimulus),
    s.stimulus = .present p :: rest → decode p = .ok i → step s = exec i { s with stimulus := rest }

/-- The other lines (30_encoding.md R126; 60_exceptions.md R317, R319, R325, R327, R328; log entries 23, 26, 28, 36). -/
def Obligations.StepOtherLines : Prop :=
  ∀ s : State,
    (s.stimulus = [] → step s = .next s) ∧
    (∀ rest, s.stimulus = .tick :: rest → s.stopped = false →
      step s = exec .telTick { s with stimulus := rest, now := max s.now s.nextTick }) ∧
    (∀ rest ms, s.stimulus = .now ms :: rest → s.now ≤ ms → step s = .next { s with stimulus := rest, now := ms }) ∧
    (∀ rest ms, s.stimulus = .now ms :: rest → ms < s.now → step s = .fault (.clockWentBack s.now ms)) ∧
    (∀ rest, s.stimulus = .shutdown :: rest → s.stopped = false →
      step s = .next { s with stimulus := rest, stopped := true, shutdown := false }) ∧
    (∀ rest, s.stimulus = .signal :: rest → s.stopped = false →
      step s = .next { s with stimulus := rest, shutdown := true }) ∧
    (∀ rest, s.stimulus = .period :: rest → s.stopped = false →
      (s.params.statsReportMs = none → step s = exec .statsReport { s with stimulus := rest }) ∧
      (∀ p, s.params.statsReportMs = some p →
        step s = exec .statsReport { s with stimulus := rest, now := max s.now s.nextReport })) ∧
    (∀ rest, s.stimulus = .timeout :: rest → s.stopped = false → s.rxClosed = false →
      step s = exec (.rxTick (.bytes []))
        { s with stimulus := rest, now := s.now + s.params.readTimeout.getD 0 }) ∧
    (∀ line rest, s.stimulus = line :: rest → s.stopped = true →
      line ∈ [.tick, .shutdown, .signal, .period, .timeout] → step s = .next { s with stimulus := rest }) ∧
    (∀ rest, s.stimulus = .timeout :: rest → s.rxClosed = true → step s = .next { s with stimulus := rest })

/-- 70_reset_and_hazards.md R340, R341, R342: the reset event, from any state. The environment's part keeps its values
(log entry 33); the reporting period begins anew (log entry 36). -/
def Obligations.ResetEvent : Prop :=
  ∀ (s : State) (rest : List Stimulus), s.stimulus = .reset :: rest →
    ∃ t, step s = .next t ∧ ResetState t ∧ t.out = s.out ∧ t.params = s.params ∧ t.now = s.now ∧ t.stimulus = rest ∧
      t.netAnswers = s.netAnswers ∧ t.txPicks = s.txPicks ∧ t.txAnswers = s.txAnswers ∧ t.bcPlans = s.bcPlans ∧
      t.shutdown = s.shutdown ∧ t.nextReport = s.now + s.params.statsReportMs.getD 0

/-- The model's reset state is the spec's `ResetState` (70_reset_and_hazards.md R342), in canonical form, with the default
parameters of 00_scope.md R9 and the framer awaiting sync (10_state.md R53). The clock at 0 is log entry 7; nothing is
said of the three elements that hold no value (log entry 3). -/
def Obligations.ResetIsResetState : Prop :=
  ResetState State.reset ∧ Memory.wf State.reset = true ∧ framerState State.reset = .awaitingSync ∧
    State.reset.params.axisMax = 1983 ∧ State.reset.params.cntW = none ∧ State.reset.params.destCap = none ∧
    State.reset.params.roundTies = .halfToEven ∧ State.reset.params.numerics = .exactReals ∧
    State.reset.params.euler = .default ∧ State.reset.params.baroVsBytes = 1 ∧ State.reset.params.readMax = none ∧
    State.reset.params.rxbufCap = none ∧ State.reset.params.statsReportMs = none ∧ State.reset.params.readTimeout = none

/-- No condition is a fault of the machine and only a presentation that decodes to nothing is a refusal. All three clauses
rest on the model's choices: that exec answers a next state where an operation is held off, and has no step in
60_exceptions.md R302, is log entry 25; that a refused presentation, an event opid without a trigger among them, is a
refusal of the step is log entry 22; that the clock going back, which the spec puts outside the model (R325), is the one
fault is log entry 23. -/
def Obligations.WhereStepsStop : Prop :=
  (∀ (i : Instr) (s : State), ∃ t, exec i s = .next t) ∧
  (∀ (s : State) (f : Fault), step s = .fault f ↔
    ∃ ms rest, s.stimulus = .now ms :: rest ∧ ms < s.now ∧ f = .clockWentBack s.now ms) ∧
  (∀ (s : State) (r : Refusal), step s = .refused r ↔
    ∃ p rest opid, s.stimulus = .present p :: rest ∧
      (decode p = .error (.illegalOperation opid) ∧ r = .illegalOperation opid ∨
        decode p = .error (.illTyped opid) ∧ r = .illTyped opid))

/-! ### The CRC Engine -/

/-- 40_crc.md R141. -/
def Obligations.Crc8Runs : Prop :=
  ∀ (b : List Byte) (s : State), s.stopped = false →
    decode (.cmd 0x01#8 (.bytes b)) = .ok (.crc8 b) ∧
      exec (.crc8 b) s = .next (emits s [.result 0x01#8 (.crc (crcOfRule b))])

/-- 40_crc.md R142, R143: the shift register with its taps, the linear byte update, and the table. -/
def Obligations.CrcStepAndTable : Prop :=
  (∀ (a : Byte) (k : Nat), k < 8 → (crcStep a).getLsbD k =
    [a.getLsbD 7, a.getLsbD 0, a.getLsbD 1 ^^ a.getLsbD 7, a.getLsbD 2, a.getLsbD 3 ^^ a.getLsbD 7, a.getLsbD 4,
      a.getLsbD 5 ^^ a.getLsbD 7, a.getLsbD 6 ^^ a.getLsbD 7].getD k false) ∧
  (∀ a : Byte, crcStep a = crcIteration a ∧ crcTapStep a = crcStep a) ∧
  (∀ a b : Byte, crcStep^[8] (a ^^^ b) = crc8 [a ^^^ b]) ∧
  (∀ x : Byte, crc8 [x] =
    (List.range 8).foldl (fun v k => if x.getLsbD k then v ^^^ crc8 [1#8 <<< k] else v) 0x00#8) ∧
  (List.range 8).map (fun k => crc8 [1#8 <<< k]) =
    [0xD5#8, 0x7F#8, 0xFE#8, 0x29#8, 0x52#8, 0xA4#8, 0x9D#8, 0xEF#8] ∧
  (∀ x : Byte, crcTable[x.toNat]? = some (crc8 [x])) ∧
  ∀ s : List Byte, crc8 s = s.foldl (fun acc b => crcTable.getD (acc ^^^ b).toNat 0x00#8) 0x00#8

/-- 40_crc.md R144 (a) to (f). -/
def Obligations.CrcLaws : Prop :=
  (∀ a b : List Byte, crc8 (a ++ b) = crcFrom (crc8 a) b) ∧
  (∀ m : List Byte, crc8 (m ++ [crc8 m]) = 0x00#8) ∧
  (∀ f : List Byte, validFrame f = true → crc8 (f.drop 2) = 0x00#8) ∧
  (∀ m : List Byte, crc8 (0x00#8 :: m) = crc8 m) ∧
  (∃ m : List Byte, crc8 (m ++ [0x00#8]) ≠ crc8 m) ∧
  (∀ a b : List Byte, a.length = b.length → crc8 (List.zipWith (· ^^^ ·) a b) = crc8 a ^^^ crc8 b) ∧
  (∀ (m : List Byte) (i k : Nat), i < m.length → k < 8 → crc8 (m.set i (m.getD i 0x00#8 ^^^ (1#8 <<< k))) ≠ crc8 m) ∧
  (∀ (f : List Byte) (i k : Nat), validFrame f = true → 2 ≤ i → i < f.length → k < 8 →
    validFrame (f.set i (f.getD i 0x00#8 ^^^ (1#8 <<< k))) = false) ∧
  Function.Bijective (fun x : Byte => crc8 [x]) ∧
  ∀ (p : List Byte) (x y : Byte), x ≠ y → crc8 (p ++ [x]) ≠ crc8 (p ++ [y])

/-! ### The Frame Codec -/

/-- 41_frame_codec.md R150. -/
def Obligations.ScanRuns : Prop :=
  ∀ (buf : List Byte) (s : State), s.stopped = false →
    decode (.cmd 0x02#8 (.bytes buf)) = .ok (.scan buf) ∧
      exec (.scan buf) s = .next (emits s [.result 0x02#8 (.scanned (scan buf).1 (scan buf).2)]) ∧
      (scan buf).2 ≤ buf.length

/-- 41_frame_codec.md R153 and R155: the four ways a pass of the loop ends, and the judgement. -/
def Obligations.ScanAlgorithm : Prop :=
  (∀ buf : List Byte, 0xC8#8 ∉ buf → scan buf = ([], buf.length)) ∧
  (∀ g tail : List Byte, 0xC8#8 ∉ g → tail.length < 2 → scan (g ++ 0xC8#8 :: tail) = ([], g.length)) ∧
  (∀ (g : List Byte) (len : Byte) (more : List Byte), 0xC8#8 ∉ g → more.length < len.toNat →
    scan (g ++ 0xC8#8 :: len :: more) = ([], g.length)) ∧
  (∀ (g : List Byte) (len : Byte) (body after : List Byte), 0xC8#8 ∉ g → body.length = len.toNat →
    body ++ after ≠ [] →
    scan (g ++ 0xC8#8 :: len :: (body ++ after)) =
      (judge (0xC8#8 :: len :: body) :: (scan after).1, g.length + (len.toNat + 2) + (scan after).2)) ∧
  (∀ (len : Byte) (body : List Byte), body.length = len.toNat → len.toNat < 2 →
    judge (0xC8#8 :: len :: body) = .crcError) ∧
  (∀ (len : Byte) (checked : List Byte) (crc : Byte), checked.length + 1 = len.toNat → 2 ≤ len.toNat →
    judge (0xC8#8 :: len :: (checked ++ [crc])) =
      if crc8 checked = crc then .ok (0xC8#8 :: len :: (checked ++ [crc])) else .crcError)

/-- 41_frame_codec.md R159 and R160, and the framer state they leave (10_state.md R24). R160's "at most `L + 1`" is not
claimed: the leftover `C8 00` has two bytes. -/
def Obligations.ScanLeftover : Prop :=
  ∀ buf : List Byte,
    (scan buf).1.length ≤ buf.length / 2 ∧
    ((scan buf).2 = buf.length ∨ buf[(scan buf).2]? = some 0xC8#8) ∧
    (buf.drop (scan buf).2 = [] ∨ buf.drop (scan buf).2 = [0xC8#8] ∨
      (∃ len, buf.drop (scan buf).2 = [0xC8#8, len]) ∨
      ∃ len more, buf.drop (scan buf).2 = 0xC8#8 :: len :: more ∧ 1 ≤ more.length ∧ more.length < len.toNat) ∧
    (buf.drop (scan buf).2).length ≤ 256 ∧
    scan (buf.drop (scan buf).2) = ([], 0) ∧
    ∀ s : State, s.rxbuf = buf.drop (scan buf).2 →
      (framerState s = .awaitingSync ↔ s.rxbuf.length = 0) ∧
      (framerState s = .haveSyncNeedLength ↔ s.rxbuf.length = 1) ∧
      (framerState s = .haveLengthNeedBody ↔ 2 ≤ s.rxbuf.length)

/-- 41_frame_codec.md R161: for two pieces, and for a stream cut into any reads. -/
def Obligations.ScanCutIndependent : Prop :=
  (∀ a b : List Byte, scan (a ++ b) =
    ((scan a).1 ++ (scan (a.drop (scan a).2 ++ b)).1, (scan a).2 + (scan (a.drop (scan a).2 ++ b)).2)) ∧
  ∀ reads : List (List Byte), scanReads [] reads =
    ((scan reads.flatten).1, reads.flatten.drop (scan reads.flatten).2)

/-- 41_frame_codec.md R162. -/
def Obligations.SerialMachineIsScan : Prop :=
  ∀ bytes : List Byte, serialRun [] bytes = ((scan bytes).1, bytes.drop (scan bytes).2) ∧
    serialRun [] bytes = scanReads [] (bytes.map fun b => [b])

/-- 41_frame_codec.md R163 and R167. A payload may hold any byte, 0xC8 among them; garbage that holds one may hide a
frame. -/
def Obligations.BuiltFramesScan : Prop :=
  (∀ fs : List (Byte × List Byte), (∀ f ∈ fs, f.2.length ≤ 253) →
    scan (fs.map fun f => frameOf f.1 f.2).flatten =
      (fs.map fun f => .ok (frameOf f.1 f.2), (fs.map fun f => f.2.length + 4).sum)) ∧
  (∀ (t : Byte) (p : List Byte), p.length ≤ 253 →
    build t p = .ok (frameOf t p) ∧ scan (frameOf t p) = ([.ok (frameOf t p)], p.length + 4)) ∧
  (∀ (t : Byte) (p : List Byte) (x : Byte) (u : Byte) (q : List Byte), p.length ≤ 253 → q.length ≤ 253 →
    x ≠ crc8 (t :: p) →
    scan ((frameOf t p).dropLast ++ [x] ++ frameOf u q) =
      ([.crcError, .ok (frameOf u q)], p.length + 4 + (q.length + 4))) ∧
  (∀ (t : Byte) (p : List Byte) (n : Nat), p.length ≤ 253 → n < p.length + 4 →
    scan ((frameOf t p).take n) = ([], 0)) ∧
  ∃ g : List Byte, 0xC8#8 ∈ g ∧ scan (g ++ frameOf 0x0B#8 []) = ([], 0)

/-- 41_frame_codec.md R165. -/
def Obligations.BuildRuns : Prop :=
  ∀ (t : Byte) (p : List Byte) (s : State), s.stopped = false →
    decode (.cmd 0x03#8 (.typed t p)) = .ok (.build t p) ∧
    (p.length + 2 ≤ 255 → exec (.build t p) s = .next (emits s [.result 0x03#8 (.frame
      ([0xC8#8, BitVec.ofNat 8 (p.length + 2)] ++ [t] ++ p ++ [crc8 ([t] ++ p)]))])) ∧
    (255 < p.length + 2 → exec (.build t p) s = .next (emits s [.errOut 3 0x03#8 (.payloadTooLarge p.length)]))

/-- 41_frame_codec.md R168. -/
def Obligations.ScanThenBuild : Prop :=
  ∀ (buf f : List Byte), .ok f ∈ (scan buf).1 →
    ∃ t p, f.drop 2 = t :: p ++ f.drop (f.length - 1) ∧ build t p = .ok f ∧
      ∀ s : State, s.stopped = false → exec (.netIn (t :: p)) s = .next { s with txqNet := s.txqNet ++ [f] }

/-! ### The Channel Bit-Packer/Unpacker -/

/-- 42_channel_codec.md R182 and 30_encoding.md R110. -/
def Obligations.UnpackRuns : Prop :=
  ∀ b : Vector Byte 22,
    (∀ s : State, s.stopped = false →
      decode (.cmd 0x04#8 (.bytes22 b)) = .ok (.unpack b) ∧
        exec (.unpack b) s = .next (emits s [.result 0x04#8 (.channels (unpack b))])) ∧
    (∀ i : Fin 16, (unpack b)[i].toNat = channelOf b.toList i) ∧
    (∀ (i : Fin 16) (k : Nat), (unpack b)[i].getLsbD k = (decide (k < 11) && bitOf b (11 * i.val + k)))

/-- 42_channel_codec.md R183 (the stepwise form) and R184 (one line per channel). -/
def Obligations.UnpackForms : Prop :=
  (∀ b : Vector Byte 22, unpackStepwise b = unpack b) ∧
  ∀ b : Vector Byte 22,
    ((unpack b)[0]).toNat = ((b[0]).toNat ||| ((b[1]).toNat <<< 8)) &&& 0x7FF ∧
    ((unpack b)[1]).toNat = (((b[1]).toNat >>> 3) ||| ((b[2]).toNat <<< 5)) &&& 0x7FF ∧
    ((unpack b)[2]).toNat = (((b[2]).toNat >>> 6) ||| ((b[3]).toNat <<< 2) ||| ((b[4]).toNat <<< 10)) &&& 0x7FF ∧
    ((unpack b)[3]).toNat = (((b[4]).toNat >>> 1) ||| ((b[5]).toNat <<< 7)) &&& 0x7FF ∧
    ((unpack b)[4]).toNat = (((b[5]).toNat >>> 4) ||| ((b[6]).toNat <<< 4)) &&& 0x7FF ∧
    ((unpack b)[5]).toNat = (((b[6]).toNat >>> 7) ||| ((b[7]).toNat <<< 1) ||| ((b[8]).toNat <<< 9)) &&& 0x7FF ∧
    ((unpack b)[6]).toNat = (((b[8]).toNat >>> 2) ||| ((b[9]).toNat <<< 6)) &&& 0x7FF ∧
    ((unpack b)[7]).toNat = (((b[9]).toNat >>> 5) ||| ((b[10]).toNat <<< 3)) &&& 0x7FF ∧
    ((unpack b)[8]).toNat = ((b[11]).toNat ||| ((b[12]).toNat <<< 8)) &&& 0x7FF ∧
    ((unpack b)[9]).toNat = (((b[12]).toNat >>> 3) ||| ((b[13]).toNat <<< 5)) &&& 0x7FF ∧
    ((unpack b)[10]).toNat = (((b[13]).toNat >>> 6) ||| ((b[14]).toNat <<< 2) ||| ((b[15]).toNat <<< 10)) &&& 0x7FF ∧
    ((unpack b)[11]).toNat = (((b[15]).toNat >>> 1) ||| ((b[16]).toNat <<< 7)) &&& 0x7FF ∧
    ((unpack b)[12]).toNat = (((b[16]).toNat >>> 4) ||| ((b[17]).toNat <<< 4)) &&& 0x7FF ∧
    ((unpack b)[13]).toNat = (((b[17]).toNat >>> 7) ||| ((b[18]).toNat <<< 1) ||| ((b[19]).toNat <<< 9)) &&& 0x7FF ∧
    ((unpack b)[14]).toNat = (((b[19]).toNat >>> 2) ||| ((b[20]).toNat <<< 6)) &&& 0x7FF ∧
    ((unpack b)[15]).toNat = (((b[20]).toNat >>> 5) ||| ((b[21]).toNat <<< 3)) &&& 0x7FF

/-- 42_channel_codec.md R186. -/
def Obligations.PackRuns : Prop :=
  ∀ (chans : Vector (BitVec 16) 16) (s : State), s.stopped = false →
    decode (.cmd 0x05#8 (.chans chans)) = .ok (.pack chans) ∧
    ((∀ i : Fin 16, chans[i].toNat ≤ 2047) →
      ∃ b : Vector Byte 22, exec (.pack chans) s = .next (emits s [.result 0x05#8 (.packed b)]) ∧
        littleEndian b.toList = ((List.finRange 16).map fun i => chans[i].toNat * 2 ^ (11 * i.val)).sum) ∧
    (∀ i : Fin 16, 2047 < chans[i].toNat → (∀ j : Fin 16, j < i → chans[j].toNat ≤ 2047) →
      exec (.pack chans) s = .next (emits s [.errOut 4 0x05#8 (.channelOutOfRange i.val chans[i].toNat)]))

/-- 42_channel_codec.md R187. -/
def Obligations.PackUnrolled : Prop :=
  ∀ (chans : Vector (BitVec 16) 16) (b : Vector Byte 22), (∀ i : Fin 16, chans[i].toNat ≤ 2047) → pack chans = .ok b →
    (b[0]).toNat = (chans[0]).toNat &&& 0xFF ∧
    (b[1]).toNat = (((chans[0]).toNat >>> 8) ||| ((chans[1]).toNat <<< 3)) &&& 0xFF ∧
    (b[2]).toNat = (((chans[1]).toNat >>> 5) ||| ((chans[2]).toNat <<< 6)) &&& 0xFF ∧
    (b[3]).toNat = ((chans[2]).toNat >>> 2) &&& 0xFF ∧
    (b[4]).toNat = (((chans[2]).toNat >>> 10) ||| ((chans[3]).toNat <<< 1)) &&& 0xFF ∧
    (b[5]).toNat = (((chans[3]).toNat >>> 7) ||| ((chans[4]).toNat <<< 4)) &&& 0xFF ∧
    (b[6]).toNat = (((chans[4]).toNat >>> 4) ||| ((chans[5]).toNat <<< 7)) &&& 0xFF ∧
    (b[7]).toNat = ((chans[5]).toNat >>> 1) &&& 0xFF ∧
    (b[8]).toNat = (((chans[5]).toNat >>> 9) ||| ((chans[6]).toNat <<< 2)) &&& 0xFF ∧
    (b[9]).toNat = (((chans[6]).toNat >>> 6) ||| ((chans[7]).toNat <<< 5)) &&& 0xFF ∧
    (b[10]).toNat = ((chans[7]).toNat >>> 3) &&& 0xFF ∧
    (b[11]).toNat = (chans[8]).toNat &&& 0xFF ∧
    (b[12]).toNat = (((chans[8]).toNat >>> 8) ||| ((chans[9]).toNat <<< 3)) &&& 0xFF ∧
    (b[13]).toNat = (((chans[9]).toNat >>> 5) ||| ((chans[10]).toNat <<< 6)) &&& 0xFF ∧
    (b[14]).toNat = ((chans[10]).toNat >>> 2) &&& 0xFF ∧
    (b[15]).toNat = (((chans[10]).toNat >>> 10) ||| ((chans[11]).toNat <<< 1)) &&& 0xFF ∧
    (b[16]).toNat = (((chans[11]).toNat >>> 7) ||| ((chans[12]).toNat <<< 4)) &&& 0xFF ∧
    (b[17]).toNat = (((chans[12]).toNat >>> 4) ||| ((chans[13]).toNat <<< 7)) &&& 0xFF ∧
    (b[18]).toNat = ((chans[13]).toNat >>> 1) &&& 0xFF ∧
    (b[19]).toNat = (((chans[13]).toNat >>> 9) ||| ((chans[14]).toNat <<< 2)) &&& 0xFF ∧
    (b[20]).toNat = (((chans[14]).toNat >>> 6) ||| ((chans[15]).toNat <<< 5)) &&& 0xFF ∧
    (b[21]).toNat = ((chans[15]).toNat >>> 3) &&& 0xFF

/-- 42_channel_codec.md R189. -/
def Obligations.ChannelRoundTrip : Prop :=
  (∀ chans : Vector (BitVec 16) 16, (∀ i : Fin 16, chans[i].toNat ≤ 2047) →
    ∃ b, pack chans = .ok b ∧ unpack b = chans) ∧
  ∀ b : Vector Byte 22, pack (unpack b) = .ok b

/-- 42_channel_codec.md R190. -/
def Obligations.LaneIndependence : Prop :=
  (∀ (c₁ c₂ : Vector (BitVec 16) 16) (b₁ b₂ : Vector Byte 22) (i : Fin 16),
    pack c₁ = .ok b₁ → pack c₂ = .ok b₂ → (∀ j : Fin 16, j ≠ i → c₁[j] = c₂[j]) →
    ∀ k, k < 176 → (k < 11 * i.val ∨ 11 * i.val + 10 < k) → bitOf b₁ k = bitOf b₂ k) ∧
  ∀ (b₁ b₂ : Vector Byte 22) (j : Fin 22), (∀ j' : Fin 22, j' ≠ j → b₁[j'] = b₂[j']) →
    ((List.finRange 16).filter fun i => decide ((unpack b₁)[i] ≠ (unpack b₂)[i])).length ≤ 2

/-! ### The Telemetry Encoder -/

/-- 43_telemetry_encoder.md R201: the laws every tie rule satisfies, half-to-even, and that the rounding of a rational is
the one that `IsRnd` says for every real number. -/
def Obligations.RndLaws : Prop :=
  (∀ (t : RoundTies) (z : Int), rnd t z = z) ∧
  (∀ (t : RoundTies) (x : Rat), |(rnd t x : Rat) - x| ≤ 1 / 2) ∧
  (∀ (t : RoundTies) (x y : Rat), x ≤ y → rnd t x ≤ rnd t y) ∧
  (∀ f : Int, Even (rnd .halfToEven ((f : Rat) + 1 / 2))) ∧
  ∀ (t : RoundTies) (x : Rat) (z : Int), IsRnd t x z ↔ z = rnd t x

/-- What a field's integer is (43_telemetry_encoder.md R201, R202), where the quantities of the derivation stage come
from (R203, R205, R206, R207, R208), and what a number that is not finite makes of them (R202). The arithmetic other
than exact is the parameter's, open, its products finite (log entries 8, 35), and in the heading leaves the steps of
R205 as they are (log entry 37): under every arithmetic it is in [0, 360), and undefined for the zero quaternion.
Every operand, whatever real number it stands for, is rounded as `rnd` says, ties by the tie rule, and is finite just where
it stands for one; R208's default is read over exact reals (log entry 12). A real number is a rational, a multiple of a
square root, or one that has only a name, of which nothing is known (log entry 38), and each stands for one real number. -/
def Obligations.FieldIntegers : Prop :=
  ∀ P : Params,
    (∀ x a b, isFinite x = false → rndScaled P x a b = none) ∧
    (∀ x a b, isFinite x = true → ∃ z, rndScaled P x a b = some z) ∧
    (∀ x, isFinite x = true ↔ ∃ v, IsValue x v) ∧
    (∀ q, rndScaled P (.rat q) 1 0 = some (rnd P.roundTies q)) ∧
    (∀ x v, IsValue x v → ∃ z, rndScaled P x 1 0 = some z ∧ IsRnd P.roundTies v z) ∧
    (isFinite .nonFinite = false ∧ isFinite (.atan2 0 0) = false ∧ isFinite (.heading 0 0) = false ∧
      (∀ r < 0, isFinite (.sqrt r) = false) ∧ ∀ q, isFinite (.rat q) = true) ∧
    (P.numerics = .exactReals →
      (∀ q a b, rndScaled P (.rat q) a b = some (rnd P.roundTies (a * q + b))) ∧
      (∀ q q₀, rndBaroDiff P (.rat q) (.rat q₀) = some (rnd P.roundTies ((q - q₀) * 10))) ∧
      (∀ x v a b, IsValue x v → ∃ z, rndScaled P x a b = some z ∧ IsRnd P.roundTies ((a : ℝ) * v + b) z) ∧
      (∀ x x₀ v v₀, IsValue x v → IsValue x₀ v₀ → ∃ z, rndBaroDiff P x x₀ = some z ∧
        IsRnd P.roundTies ((v - v₀) * 10) z) ∧
      (∀ (qx qy qz qw : RealLit) (x y z w : ℝ), IsReal qx x → IsReal qy y → IsReal qz z → IsReal qw w →
        (∀ v, IsValue (headingOf P ⟨.fin qx, .fin qy, .fin qz, .fin qw⟩) v ↔
          IsHeading (2 * (z * x + w * y)) (w * w + z * z - x * x - y * y) v) ∧
        (P.euler = .default → eulerValues (eulerOf P ⟨.fin qx, .fin qy, .fin qz, .fin qw⟩) x z y (-w))) ∧
      ∀ (lx ly lz : RealLit) (x y z : ℝ), IsReal lx x → IsReal ly y → IsReal lz z →
        (∀ (m : Sys2Proof.Num) v, IsValue (kphOf P ⟨.fin lx, m, .fin lz⟩) v ↔ v = 3.6 * Real.sqrt (x * x + z * z)) ∧
        ∀ v, IsValue (mag3dOf P ⟨.fin lx, .fin ly, .fin lz⟩) v ↔ v = Real.sqrt (x * x + y * y + z * z)) ∧
    (∀ k, P.numerics = .supplied k →
      (∀ x a b, isFinite x = true → ¬(a = 1 ∧ b = 0) →
        rndScaled P x a b = some (rnd P.roundTies (Config.flScaled k x a b))) ∧
      (∀ x x₀, isFinite x = true → isFinite x₀ = true →
        rndBaroDiff P x x₀ = some (rnd P.roundTies (Config.flBaroDiff k x x₀))) ∧
      (∀ (vx vy vz : RealLit) (v : Sys2Proof.Num), kphOf P ⟨.fin vx, v, .fin vz⟩ = Config.flKph k vx vz ∧
        mag3dOf P ⟨.fin vx, .fin vy, .fin vz⟩ = Config.flMag3d k vx vy vz) ∧
      ∀ qx qy qz qw : RealLit,
        headingOf P ⟨.fin qx, .fin qy, .fin qz, .fin qw⟩ =
          (if isZero qx = true ∧ isZero qy = true ∧ isZero qz = true ∧ isZero qw = true then .nonFinite
          else if isZeroNum (Config.flHeadingParts k qx qy qz qw).1 = true ∧
            isZeroNum (Config.flHeadingParts k qx qy qz qw).2 = true then .nonFinite
          else
            match Config.flAtan2Deg k (Config.flHeadingParts k qx qy qz qw).1 (Config.flHeadingParts k qx qy qz qw).2 with
            | some h => .rat (headingTurn h)
            | none => .nonFinite) ∧
        (P.euler = .default → eulerOf P ⟨.fin qx, .fin qy, .fin qz, .fin qw⟩ = Config.flEuler k qx qy qz qw)) ∧
    (∀ h : Rat, (-180 < h → h ≤ 180 → headingTurn h = if h < 0 then h + 360 else h) ∧
      0 ≤ headingTurn h ∧ headingTurn h < 360 ∧ ∃ n : Int, headingTurn h = h + 360 * n) ∧
    (∀ q v, IsValue (headingOf P q) v → 0 ≤ v ∧ v < 360) ∧
    (∀ qx qy qz qw : RealLit, IsReal qx 0 → IsReal qy 0 → IsReal qz 0 → IsReal qw 0 →
      isFinite (headingOf P ⟨.fin qx, .fin qy, .fin qz, .fin qw⟩) = false) ∧
    (∀ k, P.euler = .supplied k → ∀ q : Attitude, eulerOf P q = Config.eulerFn k q.qx q.qy q.qz q.qw) ∧
    (∀ lat lon, P.geo = .fixed lat lon → ∀ p : Position, geoOf P p = (lat, lon)) ∧
    (∀ k, P.geo = .supplied k → ∀ p : Position, geoOf P p = Config.geoFn k p.x p.y p.z) ∧
    (∀ x : RealLit, ∃! v : ℝ, IsReal x v) ∧
    (∀ x : Sys2Proof.Num, isZeroNum x = true ↔ ∃ r, x = .fin r ∧ IsReal r 0) ∧
    (∀ x v, IsValue (ofLit x) v ↔ IsReal x v) ∧
    (∀ x : Sys2Proof.Num, ofNum x = match x with | .fin x => ofLit x | .nan | .posInf | .negInf => .nonFinite) ∧
    (∀ q : Attitude, (∃ x ∈ [q.qx, q.qy, q.qz, q.qw], ∀ r, x ≠ .fin r) → isFinite (headingOf P q) = false ∧
      (P.euler = .default → isFinite (eulerOf P q).1 = false ∧ isFinite (eulerOf P q).2.1 = false ∧
        isFinite (eulerOf P q).2.2 = false)) ∧
    ∀ v : Velocity,
      ((∃ x ∈ [v.vx, v.vz], ∀ r, x ≠ .fin r) → isFinite (kphOf P v) = false) ∧
      ((∃ x ∈ [v.vx, v.vy, v.vz], ∀ r, x ≠ .fin r) → isFinite (mag3dOf P v) = false)

/-- 43_telemetry_encoder.md R210. -/
def Obligations.EncGpsRuns : Prop :=
  ∀ (lat lon kph heading alt : RealNum) (s : State), s.stopped = false →
    decode (.cmd 0x10#8 (.reals [lat, lon, kph, heading, alt])) = .ok (.encGps lat lon kph heading alt) ∧
    exec (.encGps lat lon kph heading alt) s =
      .next (encoded s 0x10#8
        (firstBad .gps
          [(.lat, -2147483648, 2147483647, rndScaled s.params lat 10000000 0),
           (.lon, -2147483648, 2147483647, rndScaled s.params lon 10000000 0),
           (.speed, 0, 65535, rndScaled s.params kph 10 0),
           (.heading, 0, 65535, rndScaled s.params heading 100 0),
           (.alt, 0, 65535, rndScaled s.params alt 1 1000)])
        (bytesOf 4 ((rndScaled s.params lat 10000000 0).getD 0) ++
          bytesOf 4 ((rndScaled s.params lon 10000000 0).getD 0) ++
          bytesOf 2 ((rndScaled s.params kph 10 0).getD 0) ++
          bytesOf 2 ((rndScaled s.params heading 100 0).getD 0) ++
          bytesOf 2 ((rndScaled s.params alt 1 1000).getD 0) ++ [0x01#8]))

/-- 43_telemetry_encoder.md R212. -/
def Obligations.EncBatteryRuns : Prop :=
  ∀ (volt pct : RealNum) (s : State), s.stopped = false →
    decode (.cmd 0x11#8 (.reals [volt, pct])) = .ok (.encBattery volt pct) ∧
    exec (.encBattery volt pct) s =
      .next (encoded s 0x11#8
        (firstBad .batterySensor
          [(.voltage, -32768, 32767, rndScaled s.params volt 10 0),
           (.remaining, 0, 255, rndScaled s.params pct 100 0)])
        (bytesOf 2 ((rndScaled s.params volt 10 0).getD 0) ++ [0x00#8, 0x00#8, 0x00#8, 0x00#8, 0x00#8] ++
          bytesOf 1 ((rndScaled s.params pct 100 0).getD 0)))

/-- 43_telemetry_encoder.md R213. -/
def Obligations.EncVarioRuns : Prop :=
  ∀ (vy : RealNum) (s : State), s.stopped = false →
    decode (.cmd 0x12#8 (.reals [vy])) = .ok (.encVario vy) ∧
    exec (.encVario vy) s =
      .next (encoded s 0x12#8 (firstBad .vario [(.vspeed, -32768, 32767, rndScaled s.params vy 100 0)])
        (bytesOf 2 ((rndScaled s.params vy 100 0).getD 0)))

/-- 43_telemetry_encoder.md R214. That a non-finite operand is reported under the field name `alt`, whichever of the two
it is, is log entry 30. -/
def Obligations.EncBaroAltRuns : Prop :=
  ∀ (alt altStart : RealNum) (s : State), s.stopped = false →
    decode (.cmd 0x13#8 (.reals [alt, altStart])) = .ok (.encBaroAlt alt altStart) ∧
    ((isFinite alt = false ∨ isFinite altStart = false) →
      exec (.encBaroAlt alt altStart) s = .next (encoded s 0x13#8 (some ⟨.baroAlt, .alt, none⟩) [])) ∧
    (isFinite alt = true → isFinite altStart = true →
      ∃ z m, rndBaroDiff s.params alt altStart = some z ∧ rndScaled s.params alt 1 0 = some m ∧
        (z + 10000 ≤ 0x7FFF → exec (.encBaroAlt alt altStart) s = .next (encoded s 0x13#8 none
          (bytesOf 2 (max 0 (z + 10000)) ++ List.replicate s.params.baroVsBytes 0x00#8))) ∧
        (0x7FFF < z + 10000 → 0 ≤ m → exec (.encBaroAlt alt altStart) s = .next (encoded s 0x13#8 none
          (bytesOf 2 (0x8000 + min m 0x7FFF) ++ List.replicate s.params.baroVsBytes 0x00#8))) ∧
        (0x7FFF < z + 10000 → m < 0 → exec (.encBaroAlt alt altStart) s =
          .next (encoded s 0x13#8 (some ⟨.baroAlt, .alt, some m⟩) [])))

/-- 43_telemetry_encoder.md R215. -/
def Obligations.EncAirspeedRuns : Prop :=
  ∀ (mag : RealNum) (s : State), s.stopped = false →
    decode (.cmd 0x14#8 (.reals [mag])) = .ok (.encAirspeed mag) ∧
    exec (.encAirspeed mag) s =
      .next (encoded s 0x14#8 (firstBad .airspeed [(.speed, 0, 65535, rndScaled s.params mag 36 0)])
        (bytesOf 2 ((rndScaled s.params mag 36 0).getD 0)))

/-- 43_telemetry_encoder.md R216. -/
def Obligations.EncAttitudeRuns : Prop :=
  ∀ (pitch roll yaw : RealNum) (s : State), s.stopped = false →
    decode (.cmd 0x15#8 (.reals [pitch, roll, yaw])) = .ok (.encAttitude pitch roll yaw) ∧
    exec (.encAttitude pitch roll yaw) s =
      .next (encoded s 0x15#8
        (firstBad .attitude
          [(.pitch, -32768, 32767, rndScaled s.params pitch 10000 0),
           (.roll, -32768, 32767, rndScaled s.params roll 10000 0),
           (.yaw, -32768, 32767, rndScaled s.params yaw 10000 0)])
        (bytesOf 2 ((rndScaled s.params pitch 10000 0).getD 0) ++ bytesOf 2 ((rndScaled s.params roll 10000 0).getD 0) ++
          bytesOf 2 ((rndScaled s.params yaw 10000 0).getD 0)))

/-- 43_telemetry_encoder.md R218. -/
def Obligations.EncRpmRuns : Prop :=
  ∀ (rpm : List RealNum) (s : State), s.stopped = false →
    decode (.cmd 0x16#8 (.reals rpm)) = .ok (.encRpm rpm) ∧
    (19 < rpm.length → exec (.encRpm rpm) s =
      .next (emits s [.errOut 7 0x16#8 (.fieldOutOfRange ⟨.rpm, .count, some rpm.length⟩)])) ∧
    (rpm = [] → exec (.encRpm rpm) s = .next (emits s [.result 0x16#8 .noFrame])) ∧
    (1 ≤ rpm.length → rpm.length ≤ 19 → exec (.encRpm rpm) s =
      .next (encoded s 0x16#8
        (firstBad .rpm (rpm.zipIdx.map fun e => (.rpm e.2, 0, 16777215, rndScaled s.params e.1 1 0)))
        (0x00#8 :: (rpm.map fun x => bytesOf 3 ((rndScaled s.params x 1 0).getD 0)).flatten)))

/-- 43_telemetry_encoder.md R225. That an event carries its encoder's opid, and that the result comes after the events,
is the model's (log entries 20 and 29). -/
def Obligations.EncodeRuns : Prop :=
  ∀ (rec : TelemetryRecord) (altStart : RealNum) (s : State), s.stopped = false →
    decode (.cmd 0x17#8 (.recordFrom rec altStart)) = .ok (.encode rec altStart) ∧
    exec (.encode rec altStart) s = .next (emits s
      (eventsOf (attempts s.params rec altStart) ++
        [.result 0x17#8 (.pairs (pairsOf (attempts s.params rec altStart)))])) ∧
    (pairsOf (attempts s.params rec altStart)).length + (eventsOf (attempts s.params rec altStart)).length ≤ 7 ∧
    ((pairsOf (attempts s.params rec altStart)).map (·.1)).Sublist
      [0x02#8, 0x08#8, 0x07#8, 0x09#8, 0x0A#8, 0x1E#8, 0x0C#8]

/-- One record, the source's example (43_telemetry_encoder.md R236), whatever GEO_FN returns, and the headings of quarter
turns about the vertical axis (R205), among them those of √½ in 95_test_vectors.md Q2 and Q4, the zero quaternion's
undefined (R202). The zero angles rest on R208's default as the model reads it (log entry 12). -/
def Obligations.RecordExample : Prop :=
  ∀ s : State, s.stopped = false → s.params.numerics = .exactReals → s.params.euler = .default →
    s.params.baroVsBytes = 1 →
    let r₀ : TelemetryRecord :=
      ⟨⟨.fin (.rat 0), .fin (.rat 100), .fin (.rat 0)⟩, ⟨.fin (.rat 0), .fin (.rat 0), .fin (.rat 0), .fin (.rat 1)⟩, ⟨.fin (.rat 0), .fin (.rat 0), .fin (.rat 0)⟩,
        ⟨.fin (.rat (1 / 2)), .fin (.rat (111 / 10))⟩, []⟩
    (∃ gps errs, exec (.encode r₀ (.rat 100)) s = .next (emits s (errs ++ [.result 0x17#8 (.pairs (gps ++
      [(0x08#8, [0x00#8, 0x6F#8, 0x00#8, 0x00#8, 0x00#8, 0x00#8, 0x00#8, 0x32#8]), (0x07#8, [0x00#8, 0x00#8]),
       (0x09#8, [0x27#8, 0x10#8, 0x00#8]), (0x0A#8, [0x00#8, 0x00#8]),
       (0x1E#8, [0x00#8, 0x00#8, 0x00#8, 0x00#8, 0x00#8, 0x00#8])]))])) ∧
      ∀ zlat zlon, rndScaled s.params (geoOf s.params r₀.pos).1 10000000 0 = some zlat →
        rndScaled s.params (geoOf s.params r₀.pos).2 10000000 0 = some zlon →
        -2147483648 ≤ zlat → zlat ≤ 2147483647 → -2147483648 ≤ zlon → zlon ≤ 2147483647 →
        errs = [] ∧ gps = [(0x02#8, bytesOf 4 zlat ++ bytesOf 4 zlon ++
          [0x00#8, 0x00#8, 0x00#8, 0x00#8, 0x04#8, 0x4C#8, 0x01#8])]) ∧
    rndScaled s.params (headingOf s.params ⟨.fin (.rat 0), .fin (.rat 0), .fin (.rat 0), .fin (.rat 1)⟩) 100 0 = some 0 ∧
    rndScaled s.params (headingOf s.params ⟨.fin (.rat 0), .fin (.rat 1), .fin (.rat 0), .fin (.rat 1)⟩) 100 0 = some 9000 ∧
    rndScaled s.params (headingOf s.params ⟨.fin (.rat 0), .fin (.rat 1), .fin (.rat 0), .fin (.rat 0)⟩) 100 0 = some 18000 ∧
    rndScaled s.params (headingOf s.params ⟨.fin (.rat 0), .fin (.rat 1), .fin (.rat 0), .fin (.rat (-1))⟩) 100 0 = some 27000 ∧
    rndScaled s.params (headingOf s.params ⟨.fin (.rat 0), .fin (.rat 0), .fin (.rat 0), .fin (.rat 0)⟩) 100 0 = none ∧
    rndScaled s.params (headingOf s.params ⟨.fin (.rat 0), .fin (.root (1 / 2) 2), .fin (.rat 0), .fin (.root (1 / 2) 2)⟩) 100 0 =
      some 9000 ∧
    rndScaled s.params (headingOf s.params ⟨.fin (.rat 0), .fin (.root (-1 / 2) 2), .fin (.rat 0), .fin (.root (1 / 2) 2)⟩) 100 0 =
      some 27000

/-- 43_telemetry_encoder.md R228. -/
def Obligations.TelLoadRuns : Prop :=
  ∀ (rec : TelemetryRecord) (s : State), s.stopped = false →
    decode (.event 0x30#8 (.record rec)) = .ok (.telLoad rec) ∧
    (∀ y, rec.pos.y = .fin y → s.altStartValid = false → exec (.telLoad rec) s =
      .next { s with lastRec := rec, lastValid := true, altStart := y, altStartValid := true }) ∧
    ((s.altStartValid = true ∨ ∀ y, rec.pos.y ≠ .fin y) → exec (.telLoad rec) s =
      .next { s with lastRec := rec, lastValid := true })

/-- 43_telemetry_encoder.md R230, first for every BARO_VS_BYTES under which BUILD cannot fail, the default 1 among them, then
for every BARO_VS_BYTES: the BARO_ALT payload is then too long for a frame, its frame is left out and BUILD's event
follows the encoders' (log entry 13). That events carry their encoder's opid, or BUILD's, is log entry 20. -/
def Obligations.TelTickRuns : Prop :=
  ∀ s : State, s.stopped = false → s.nextTick ≤ s.now →
    ((s.lastValid = false ∨ s.altStartValid = false) →
      exec .telTick s = .next { s with nextTick := s.nextTick + 100 }) ∧
    (s.lastValid = true → s.altStartValid = true →
      ∃ pairs events, pairs = pairsOf (attempts s.params s.lastRec (ofLit s.altStart)) ∧
        events = eventsOf (attempts s.params s.lastRec (ofLit s.altStart)) ∧
        (s.params.baroVsBytes ≤ 251 → exec .telTick s = .next
          { s with
            nextTick := s.nextTick + 100
            txqTel := s.txqTel ++ pairs.map fun e => frameOf e.1 e.2
            out := s.out ++ events }) ∧
        (251 < s.params.baroVsBytes → exec .telTick s = .next
          { s with
            nextTick := s.nextTick + 100
            txqTel := s.txqTel ++ (pairs.filter fun e => decide (e.1 ≠ 0x09#8)).map fun e => frameOf e.1 e.2
            out := s.out ++ events ++ (pairs.filter fun e => decide (e.1 = 0x09#8)).map fun _ =>
              .errOut 3 0x03#8 (.payloadTooLarge (2 + s.params.baroVsBytes)) }))

/-- 43_telemetry_encoder.md R230 and 60_exceptions.md R326: overdue ticks are taken one by one, and at `now` exactly
`floor((now - t) / 100)` have been, `t` being the time of reset. That a TEL_TICK not due answers the same state is the
model's (log entry 25). -/
def Obligations.TickSchedule : Prop :=
  ∀ (s : State) (t : Nat), s.stopped = false → s.nextTick = t + 100 → t ≤ s.now →
    (∀ k, k < (s.now - t) / 100 → exec .telTick (State.tick^[k] s) = .next (State.tick^[k + 1] s)) ∧
    exec .telTick (State.tick^[(s.now - t) / 100] s) = .next (State.tick^[(s.now - t) / 100] s) ∧
    (State.tick^[(s.now - t) / 100] s).nextTick = s.nextTick + 100 * ((s.now - t) / 100)

/-! ### The Stream Bridge -/

/-- 60_exceptions.md R309, with R316. That STOP also takes the shutdown signal is the model's (log entry 26), as are the
pick and the answer of a write, held in State with a default when none is left (log entry 18), that the frame of a write
answered closed is gone (log entry 31), that a held-off operation answers the same state (log entry 25), and that DISPATCH,
presented on its own, is one of the receive direction (log entry 24). -/
def Obligations.StreamsClosed : Prop :=
  ∀ s : State,
    (s.stopped = false → s.rxClosed = false → exec (.rxTick .closed) s = .next
      { s with rxClosed := true, out := s.out ++ [.errOut 6 0x20#8 (.streamClosed .rx)] }) ∧
    (s.stopped = false → s.txClosed = false → s.txAnswers.headD .accepted = .closed → ∀ f q,
      (s.txqNet = f :: q → (s.txPicks.headD .net = .net ∨ s.txqTel = []) → exec .txWrite s = .next
        { s with txqNet := q, txPicks := s.txPicks.tail, txAnswers := s.txAnswers.tail, txClosed := true,
                 out := s.out ++ [.bsTx f .closed, .errOut 6 0x23#8 (.streamClosed .tx)] }) ∧
      (s.txqTel = f :: q → (s.txPicks.headD .net = .tel ∨ s.txqNet = []) → exec .txWrite s = .next
        { s with txqTel := q, txPicks := s.txPicks.tail, txAnswers := s.txAnswers.tail, txClosed := true,
                 out := s.out ++ [.bsTx f .closed, .errOut 6 0x23#8 (.streamClosed .tx)] })) ∧
    (s.rxClosed = true → (∀ r, exec (.rxTick r) s = .next s) ∧ ∀ t p, exec (.dispatch t p) s = .next s) ∧
    (s.txClosed = true → exec .txWrite s = .next s) ∧
    (s.stopped = false → (s.rxClosed = true ∨ s.txClosed = true) →
      exec .stop s = .next { s with stopped := true, shutdown := false })

/-- 44_router_bridge.md R251, R253, R254, for each answer of the read. Of `r`, the bytes waiting, one read returns the
first `k`: all of them where they keep READ_MAX and fit in RXBUF_CAP, as R251 has it; else as many as keep both, at least
one, and the next line of the schedule reads the rest (log entry 27). That the answers of NET_TX stand in State with a
default when none is left is log entry 18. -/
def Obligations.RxTickRuns : Prop :=
  ∀ s : State, s.stopped = false → s.rxClosed = false →
    decode (.event 0x20#8 .closed) = .ok (.rxTick .closed) ∧
    exec (.rxTick .closed) s = .next
      { s with rxClosed := true, out := s.out ++ [.errOut 6 0x20#8 (.streamClosed .rx)] } ∧
    ∀ r : List Byte, decode (.event 0x20#8 (.bytes r)) = .ok (.rxTick (.bytes r)) ∧
      ∃ k, exec (.rxTick (.bytes r)) s = .next ((scan (s.rxbuf ++ r.take k)).1.foldl handled
          { s with
            rxbuf := (s.rxbuf ++ r.take k).drop (scan (s.rxbuf ++ r.take k)).2
            stats := if r = [] then s.stats else evict s.now (s.stats ++ [(s.now, .bytes k)])
            stimulus := if k = r.length then s.stimulus
              else .present (.event 0x20#8 (.bytes (r.drop k))) :: s.stimulus }) ∧
        (fits s.params r.length → k = r.length) ∧ k ≤ r.length ∧ (r ≠ [] → 1 ≤ k) ∧
        (∀ m, s.params.readMax = some m → 1 ≤ m → k ≤ m) ∧
        (∀ c, s.params.rxbufCap = some c → 257 ≤ c → s.rxbuf.length ≤ 256 → (s.rxbuf ++ r.take k).length ≤ c) ∧
        (k < r.length → (∃ m, s.params.readMax = some m ∧ m ≤ k) ∨ ∃ c, s.params.rxbufCap = some c ∧ c ≤ 256 + k)

/-- 30_encoding.md R100, 44_router_bridge.md R253: a valid frame of any listed type, read where no incomplete candidate
stands before it, is forwarded and dispatched; every frame is read as RX_TICK reads its bytes (log entry 6), and where one read
does not take the whole of it, as RxTickRuns says (log entry 27). -/
def Obligations.FrameRowsRun : Prop :=
  (∀ (t : FrameType) (len : Byte) (rest : List Byte) (s : State),
    exec (Instr.ofFrame t len rest) s = exec (.rxTick (.bytes (0xC8#8 :: len :: t.code :: rest))) s) ∧
  (∀ (t : FrameType) (payload : List Byte) (s : State), s.stopped = false → s.rxClosed = false → s.rxbuf = [] →
    payload.length ≤ 253 → fits s.params (payload.length + 4) →
    exec (Instr.ofFrame t (BitVec.ofNat 8 (payload.length + 2)) (payload ++ [crc8 (t.code :: payload)])) s = .next
      (dispatched (forwarded { s with stats := evict s.now (s.stats ++ [(s.now, .bytes (payload.length + 4))]) }
        (t.code :: payload)) t.code payload)) ∧
  (∀ (t : FrameType) (payload : List Byte) (s : State), t ≠ .rcChannelsPacked → dispatched s t.code payload = s)

/-- 60_exceptions.md R301, 44_router_bridge.md R254, 30_encoding.md R105: a complete frame of any listed type that is not
valid is dropped and counted. That a FRAME instruction is one read of exactly the frame's bytes, and that with a length
byte of 0 or 1 it is the three bytes sync, length and type, is log entry 6; where READ_MAX or RXBUF_CAP cut the read,
RxTickRuns says what happens (log entry 27). -/
def Obligations.CorruptFrameCounted : Prop :=
  ∀ (t : FrameType) (len : Byte) (rest : List Byte) (s : State), s.stopped = false → s.rxClosed = false →
    s.rxbuf = [] → rest.length = len.toNat - 1 → fits s.params (rest.length + 3) →
    (len.toNat < 2 ∨ crc8 (t.code :: rest.dropLast) ≠ rest.getLastD 0x00#8) →
    exec (Instr.ofFrame t len rest) s = .next
      { s with
        crcErrCnt := s.crcErrCnt + 1
        stats := evict s.now (evict s.now (s.stats ++ [(s.now, .bytes (rest.length + 3))]) ++ [(s.now, .err)])
        out := s.out ++ [.errOut 1 0x20#8 .crcMismatch] }

/-- 20_memory.md R73, for the bytes `read` that the tick reads: all of `r` where they keep READ_MAX and fit in RXBUF_CAP,
else a first part of them (log entry 27). -/
def Obligations.StreamOrder : Prop :=
  ∀ (s t : State) (r : List Byte), s.stopped = false → s.rxClosed = false →
    exec (.rxTick (.bytes r)) s = .next t →
    ∃ read, read <+: r ∧ (r ≠ [] → read ≠ []) ∧ (fits s.params r.length → read = r) ∧
      packetsSent t.out = packetsSent s.out ++ (scan (s.rxbuf ++ read)).1.filterMap packetOf ∧
      t.crcErrCnt = s.crcErrCnt + (scan (s.rxbuf ++ read)).1.count .crcError ∧
      t.rxbuf = (s.rxbuf ++ read).drop (scan (s.rxbuf ++ read)).2

/-- 20_memory.md R67: how the stream is cut into reads shows in the statistics window only; and two reads that keep READ_MAX
and fit in RXBUF_CAP differ so from the one read of a realisation without the two (93_implementation_defined.md U1). -/
def Obligations.ReadsCutIndependent : Prop :=
  ∀ (s : State) (a b : List Byte), s.stopped = false → s.rxClosed = false →
    (fits s.params (a ++ b).length →
      ∃ t₁ t₂ u, exec (.rxTick (.bytes a)) s = .next t₁ ∧ exec (.rxTick (.bytes b)) t₁ = .next t₂ ∧
        exec (.rxTick (.bytes (a ++ b))) s = .next u ∧ t₂ = { u with stats := t₂.stats }) ∧
    (fits s.params a.length → fits s.params b.length →
      ∃ t₁ t₂ u, exec (.rxTick (.bytes a)) s = .next t₁ ∧ exec (.rxTick (.bytes b)) t₁ = .next t₂ ∧
        exec (.rxTick (.bytes (a ++ b))) { s with params := { s.params with readMax := none, rxbufCap := none } } =
          .next u ∧
        t₂ = { u with stats := t₂.stats, params := s.params })

/-- 44_router_bridge.md R255 to R258. That DISPATCH may be presented on its own, with a packet of any length,
and is then held off as RX_TICK is, is log entry 24, and that it then answers the same state log entry 25. -/
def Obligations.DispatchRuns : Prop :=
  (∀ (type : Byte) (payload : List Byte) (s : State),
    decode (.event 0x21#8 (.typed type payload)) = .ok (.dispatch type payload) ∧
    (s.stopped = false → s.rxClosed = false → exec (.dispatch type payload) s = .next (dispatched s type payload)) ∧
    (s.rxClosed = true → exec (.dispatch type payload) s = .next s)) ∧
  ∀ (first : Bool) (cur prev : Vector Chan 16) (i : Fin 16),
    (changeMask first cur prev).getLsbD i = (first || decide (cur[i] ≠ prev[i]))

/-- 44_router_bridge.md R260 (with R261 and R262). That the event carries BUILD's opid is the model's reading of
60_exceptions.md R300 (log entry 20). -/
def Obligations.NetInRuns : Prop :=
  ∀ s : State, s.stopped = false →
    exec (.netIn []) s = .next (emits s [.errOut 10 0x22#8 .emptyDatagram]) ∧
    (∀ (t : Byte) (p : List Byte), decode (.event 0x22#8 (.bytes (t :: p))) = .ok (.netIn (t :: p)) ∧
      (p.length ≤ 253 → exec (.netIn (t :: p)) s = .next { s with txqNet := s.txqNet ++ [frameOf t p] }) ∧
      (253 < p.length → exec (.netIn (t :: p)) s = .next (emits s [.errOut 3 0x03#8 (.payloadTooLarge p.length)])))

/-- 44_router_bridge.md R264: the environment picks a queue; where it is empty the other is taken. That the picks and
answers stand in State, with a default when none is left, is the model's (log entry 18), and that the frame of a write
answered closed is gone (log entry 31). -/
def Obligations.TxWriteRuns : Prop :=
  ∀ (s : State) (f : List Byte) (q : List (List Byte)), s.stopped = false → s.txClosed = false →
    (s.txqNet = f :: q → (s.txPicks.headD .net = .net ∨ s.txqTel = []) →
      (s.txAnswers.headD .accepted = .accepted → exec .txWrite s = .next
        { s with txqNet := q, txPicks := s.txPicks.tail, txAnswers := s.txAnswers.tail,
                 out := s.out ++ [.bsTx f .accepted] }) ∧
      (s.txAnswers.headD .accepted = .closed → exec .txWrite s = .next
        { s with txqNet := q, txPicks := s.txPicks.tail, txAnswers := s.txAnswers.tail, txClosed := true,
                 out := s.out ++ [.bsTx f .closed, .errOut 6 0x23#8 (.streamClosed .tx)] })) ∧
    (s.txqTel = f :: q → (s.txPicks.headD .net = .tel ∨ s.txqNet = []) →
      (s.txAnswers.headD .accepted = .accepted → exec .txWrite s = .next
        { s with txqTel := q, txPicks := s.txPicks.tail, txAnswers := s.txAnswers.tail,
                 out := s.out ++ [.bsTx f .accepted] }) ∧
      (s.txAnswers.headD .accepted = .closed → exec .txWrite s = .next
        { s with txqTel := q, txPicks := s.txPicks.tail, txAnswers := s.txAnswers.tail, txClosed := true,
                 out := s.out ++ [.bsTx f .closed, .errOut 6 0x23#8 (.streamClosed .tx)] }))

/-- 44_router_bridge.md R281, R282, R283, for a window in order of time; the counter as 10_state.md R26 shows it (log
entry 14). That with a given STATS_REPORT_MS a report runs once the period is over, and the next period begins at its
end, is log entry 36. -/
def Obligations.StatsReportRuns : Prop :=
  ∀ s : State, s.stopped = false → (s.stats.map (·.1)).Pairwise (· ≤ ·) →
    (∀ p, s.params.statsReportMs = some p → s.nextReport ≤ s.now) →
    decode (.event 0x50#8 .none) = .ok .statsReport ∧
    ∃ w, w = s.stats.filter (fun e => decide (s.now ≤ e.1 + 1000)) ∧
      exec .statsReport s = .next
        { s with
          stats := w
          nextReport := (match s.params.statsReportMs with | none => s.nextReport | some p => s.nextReport + p)
          out := s.out ++ [.statOut (w.map fun e => match e.2 with | .bytes n => n | .err => 0).sum
            (w.countP fun e => decide (e.2 = .err))
            (match s.params.cntW with | none => s.crcErrCnt | some k => s.crcErrCnt % 2 ^ k)] }

/-! ### The channel router/broadcaster -/

/-- 44_router_bridge.md R272, R273. That a new sender has no effect where DEST_CAP is reached is R272 as the model reads it
(log entry 15). -/
def Obligations.RegisterUnregisterRun : Prop :=
  ∀ (a : Addr) (s : State), s.stopped = false → s.halt = false →
    (∃ d, exec (.register a) s = .next { s with dest := d } ∧
      ∀ x, x ∈ d ↔ x ∈ s.dest ∨ (x = a ∧ ∀ cap, s.params.destCap = some cap → s.dest.length < cap)) ∧
    (a ∈ s.dest → s.dest.Pairwise (· < ·) → exec (.register a) s = .next s) ∧
    (∃ d, exec (.unregister a) s = .next { s with dest := d } ∧ ∀ x, x ∈ d ↔ x ∈ s.dest ∧ x ≠ a) ∧
    (a ∉ s.dest → exec (.unregister a) s = .next s)

/-- 44_router_bridge.md R271, R274, R275. That a held-off operation answers the same state is the model's (log entry 25). -/
def Obligations.ControlDatagrams : Prop :=
  ∀ (a : Addr) (s : State), s.stopped = false → s.halt = false →
    exec (.quit a) s = .next { s with halt := true } ∧
    (∀ i, isBroadcaster i = true → exec i { s with halt := true } = .next { s with halt := true }) ∧
    exec (.ctlMsg [0x00#8] a) s = exec (.register a) s ∧
    exec (.ctlMsg [0x01#8] a) s = exec (.unregister a) s ∧
    exec (.ctlMsg [0xFF#8] a) s = exec (.quit a) s ∧
    (∀ m, m ≠ [0x00#8] → m ≠ [0x01#8] → m ≠ [0xFF#8] → exec (.ctlMsg m a) s = .next s)

/-- 44_router_bridge.md R277, R278; 20_memory.md R77: every member once, in some order; and any order may be drawn. That
the draw stands in State is the model's (log entry 18). -/
def Obligations.BcastRuns : Prop :=
  (∀ (d : List Byte) (s : State), s.stopped = false → s.halt = false → s.dest.Nodup →
    decode (.event 0x41#8 (.bytes d)) = .ok (.bcast d) ∧
    ∃ walk : List Addr, walk.Perm s.dest ∧ exec (.bcast d) s = .next
      { s with
        bcPlans := s.bcPlans.tail
        dest := s.dest.filter (fun a => decide (a ∉ s.bcPlan.failed))
        out := s.out ++ walk.flatMap fun a =>
          if a ∈ s.bcPlan.failed then
            [.bcTx a d .failed, .errOut 5 0x41#8 (.destinationUnreachable (some a))]
          else [.bcTx a d .sent] }) ∧
  ∀ (d : List Byte) (s : State) (walk failed : List Addr), s.stopped = false → s.halt = false → s.dest.Nodup →
    walk.Perm s.dest → s.bcPlan = ⟨walk, failed⟩ →
    ∃ t, exec (.bcast d) s = .next t ∧
      broadcastsSent t.out = broadcastsSent s.out ++
        walk.map fun a => (a, d, if a ∈ failed then .failed else .sent)

/-! ### Shutdown, and the whole machine -/

/-- 60_exceptions.md R316, R318. That the shutdown signal is a field of State that STOP clears is the model's (log entry
26), and that a STOP that nothing requests answers the same state (log entry 25). Other operations may run between the
signal and STOP (R319): StepOtherLines. -/
def Obligations.StopRuns : Prop :=
  ∀ s : State, s.stopped = false →
    decode (.event 0x5F#8 .none) = .ok .stop ∧
    ((s.shutdown = true ∨ s.rxClosed = true ∨ s.txClosed = true) →
      exec .stop s = .next { s with stopped := true, shutdown := false }) ∧
    (s.shutdown = false → s.rxClosed = false → s.txClosed = false → exec .stop s = .next s)

/-- 10_state.md R25, 60_exceptions.md R302, R318: after STOP nothing but reset changes the block, and an operation whose
precondition fails changes nothing (log entries 21, 25, 36), DISPATCH presented on its own among them (log entry 24). -/
def Obligations.HeldOffChangesNothing : Prop :=
  (∀ (i : Instr) (s : State), s.stopped = true → exec i s = .next s) ∧
  (∀ s t : State, s.stopped = true → s.stimulus.head? ≠ some .reset → step s = .next t →
    SameBlock s t ∧ t.out = s.out) ∧
  (∀ (i : Instr) (s : State), s.halt = true → isBroadcaster i = true → exec i s = .next s) ∧
  (∀ (t : FrameType) (len : Byte) (rest : List Byte) (s : State), s.rxClosed = true →
    exec (Instr.ofFrame t len rest) s = .next s) ∧
  (∀ (r : ReadResult) (t : Byte) (p : List Byte) (s : State), s.rxClosed = true →
    exec (.rxTick r) s = .next s ∧ exec (.dispatch t p) s = .next s) ∧
  (∀ s : State, s.txClosed = true → exec .txWrite s = .next s) ∧
  (∀ s : State, s.txqNet = [] → s.txqTel = [] → exec .txWrite s = .next s) ∧
  (∀ s : State, s.now < s.nextTick → exec .telTick s = .next s) ∧
  (∀ (s : State) (p : Nat), s.params.statsReportMs = some p → s.now < s.nextReport → exec .statsReport s = .next s)

/-- The canonical form of the block's storage is kept by every step: RXBUF is empty or an incomplete candidate
(41_frame_codec.md R160), queued frames are valid (10_state.md R28), DEST is a set within its capacity (R32), STATS is in
order of time (R33), CH holds an accepted set (44_router_bridge.md R257). -/
def Obligations.CanonicalFormKept : Prop :=
  ∀ s t : State, Memory.wf s = true → step s = .next t → Memory.wf t = true

/-- What no step does but reset: clear a sticky flag (10_state.md R25), lower the counter (R26), change ALT_START once taken
(R30), move the tick by other than 100 (R31), remove a destination but by UNREGISTER from its own address or a failed send
(44_router_bridge.md R272); and what no step at all does: change a parameter (70_reset_and_hazards.md R341), take back an
output, set the clock back (60_exceptions.md R325). -/
def Obligations.WholeMachineRules : Prop :=
  ∀ s t : State, step s = .next t →
    (t.params = s.params ∧ s.out <+: t.out ∧ s.now ≤ t.now) ∧
    (s.stimulus.head? ≠ some .reset →
      (s.halt = true → t.halt = true) ∧ (s.rxClosed = true → t.rxClosed = true) ∧
      (s.txClosed = true → t.txClosed = true) ∧ (s.stopped = true → t.stopped = true) ∧
      (s.lastValid = true → t.lastValid = true) ∧ (s.chValid = true → t.chValid = true) ∧
      s.crcErrCnt ≤ t.crcErrCnt ∧
      (s.altStartValid = true → t.altStartValid = true ∧ t.altStart = s.altStart) ∧
      (t.nextTick = s.nextTick ∨ t.nextTick = s.nextTick + 100) ∧
      ∀ x ∈ s.dest, x ∉ t.dest → ∃ p, s.stimulus.head? = some (.present p) ∧
        (decode p = .ok (.unregister x) ∨ decode p = .ok (.ctlMsg [0x01#8] x) ∨
          ∃ d, decode p = .ok (.bcast d) ∧ x ∈ s.bcPlan.failed))

/-- 60_exceptions.md R300: every event a step puts on ERR_OUT has the code of its condition and the opid of the operation
that detects it (the innermost one: log entry 20). -/
def Obligations.ErrorEvents : Prop :=
  ∀ (s t : State) (code : Nat) (opid : Byte) (info : Condition), step s = .next t →
    .errOut code opid info ∈ t.out.drop s.out.length →
    code = (raisedBy info).1 ∧ opid ∈ (raisedBy info).2

/-- 70_reset_and_hazards.md R342, 93_implementation_defined.md U15: while its valid bit is 0 no rule reads LAST_REC,
ALT_START or CH, so the values they have at reset (log entry 3, the model's choice) never show. -/
def Obligations.UnvaluedNeverRead : Prop :=
  ∀ (s t : State) (r : TelemetryRecord) (a : RealLit) (c : Vector Chan 16), step s = .next t →
    ∃ r' a' c',
      step { s with
        lastRec := if s.lastValid then s.lastRec else r
        altStart := if s.altStartValid then s.altStart else a
        ch := if s.chValid then s.ch else c } = .next
      { t with
        lastRec := if t.lastValid then t.lastRec else r'
        altStart := if t.altStartValid then t.altStart else a'
        ch := if t.chValid then t.ch else c' }

/-- 44_router_bridge.md, opening: the bridge and the broadcaster share no state. -/
def Obligations.BroadcasterIndependent : Prop :=
  (∀ (i : Instr) (s t : State), isBroadcaster i = true → exec i s = .next t → SameBridge s t) ∧
  (∀ (i : Instr) (s t : State) (d : List Addr) (h : Bool) (p : List BcPlan), isBroadcaster i = false →
    exec i s = .next t → SameBroadcaster s t ∧
      exec i { s with dest := d, halt := h, bcPlans := p } = .next { t with dest := d, halt := h, bcPlans := p }) ∧
  ∀ (i : Instr) (s t u v : State), isBroadcaster i = true → exec i s = .next t → exec i u = .next v →
    SameBroadcaster s u → s.stopped = u.stopped → s.params.destCap = u.params.destCap →
    SameBroadcaster t v ∧ t.out.drop s.out.length = v.out.drop u.out.length
end

