-- ==== Sys2Proof/Laws/State.lean ====
section
/-! SUPPORT. For each update of State, what it leaves in each field. -/

namespace Sys2Proof.Machine

@[simp] theorem State.emit_rxbuf (s : State) (o : Output) :
    (s.emit o).rxbuf = s.rxbuf := rfl
@[simp] theorem State.emit_crcErrCnt (s : State) (o : Output) :
    (s.emit o).crcErrCnt = s.crcErrCnt := rfl
@[simp] theorem State.emit_txqNet (s : State) (o : Output) :
    (s.emit o).txqNet = s.txqNet := rfl
@[simp] theorem State.emit_txqTel (s : State) (o : Output) :
    (s.emit o).txqTel = s.txqTel := rfl
@[simp] theorem State.emit_lastRec (s : State) (o : Output) :
    (s.emit o).lastRec = s.lastRec := rfl
@[simp] theorem State.emit_lastValid (s : State) (o : Output) :
    (s.emit o).lastValid = s.lastValid := rfl
@[simp] theorem State.emit_altStart (s : State) (o : Output) :
    (s.emit o).altStart = s.altStart := rfl
@[simp] theorem State.emit_altStartValid (s : State) (o : Output) :
    (s.emit o).altStartValid = s.altStartValid := rfl
@[simp] theorem State.emit_nextTick (s : State) (o : Output) :
    (s.emit o).nextTick = s.nextTick := rfl
@[simp] theorem State.emit_ch (s : State) (o : Output) :
    (s.emit o).ch = s.ch := rfl
@[simp] theorem State.emit_chValid (s : State) (o : Output) :
    (s.emit o).chValid = s.chValid := rfl
@[simp] theorem State.emit_dest (s : State) (o : Output) :
    (s.emit o).dest = s.dest := rfl
@[simp] theorem State.emit_stats (s : State) (o : Output) :
    (s.emit o).stats = s.stats := rfl
@[simp] theorem State.emit_halt (s : State) (o : Output) :
    (s.emit o).halt = s.halt := rfl
@[simp] theorem State.emit_rxClosed (s : State) (o : Output) :
    (s.emit o).rxClosed = s.rxClosed := rfl
@[simp] theorem State.emit_txClosed (s : State) (o : Output) :
    (s.emit o).txClosed = s.txClosed := rfl
@[simp] theorem State.emit_stopped (s : State) (o : Output) :
    (s.emit o).stopped = s.stopped := rfl
@[simp] theorem State.emit_params (s : State) (o : Output) :
    (s.emit o).params = s.params := rfl
@[simp] theorem State.emit_now (s : State) (o : Output) :
    (s.emit o).now = s.now := rfl
@[simp] theorem State.emit_nextReport (s : State) (o : Output) :
    (s.emit o).nextReport = s.nextReport := rfl
@[simp] theorem State.emit_stimulus (s : State) (o : Output) :
    (s.emit o).stimulus = s.stimulus := rfl
@[simp] theorem State.emit_netAnswers (s : State) (o : Output) :
    (s.emit o).netAnswers = s.netAnswers := rfl
@[simp] theorem State.emit_txPicks (s : State) (o : Output) :
    (s.emit o).txPicks = s.txPicks := rfl
@[simp] theorem State.emit_txAnswers (s : State) (o : Output) :
    (s.emit o).txAnswers = s.txAnswers := rfl
@[simp] theorem State.emit_bcPlans (s : State) (o : Output) :
    (s.emit o).bcPlans = s.bcPlans := rfl
@[simp] theorem State.emit_shutdown (s : State) (o : Output) :
    (s.emit o).shutdown = s.shutdown := rfl
@[simp] theorem State.emit_out (s : State) (o : Output) :
    (s.emit o).out = s.out ++ [o] := rfl

@[simp] theorem State.raise_rxbuf (s : State) (op : OpName) (c : Condition) :
    (s.raise op c).rxbuf = s.rxbuf := rfl
@[simp] theorem State.raise_crcErrCnt (s : State) (op : OpName) (c : Condition) :
    (s.raise op c).crcErrCnt = s.crcErrCnt := rfl
@[simp] theorem State.raise_txqNet (s : State) (op : OpName) (c : Condition) :
    (s.raise op c).txqNet = s.txqNet := rfl
@[simp] theorem State.raise_txqTel (s : State) (op : OpName) (c : Condition) :
    (s.raise op c).txqTel = s.txqTel := rfl
@[simp] theorem State.raise_lastRec (s : State) (op : OpName) (c : Condition) :
    (s.raise op c).lastRec = s.lastRec := rfl
@[simp] theorem State.raise_lastValid (s : State) (op : OpName) (c : Condition) :
    (s.raise op c).lastValid = s.lastValid := rfl
@[simp] theorem State.raise_altStart (s : State) (op : OpName) (c : Condition) :
    (s.raise op c).altStart = s.altStart := rfl
@[simp] theorem State.raise_altStartValid (s : State) (op : OpName) (c : Condition) :
    (s.raise op c).altStartValid = s.altStartValid := rfl
@[simp] theorem State.raise_nextTick (s : State) (op : OpName) (c : Condition) :
    (s.raise op c).nextTick = s.nextTick := rfl
@[simp] theorem State.raise_ch (s : State) (op : OpName) (c : Condition) :
    (s.raise op c).ch = s.ch := rfl
@[simp] theorem State.raise_chValid (s : State) (op : OpName) (c : Condition) :
    (s.raise op c).chValid = s.chValid := rfl
@[simp] theorem State.raise_dest (s : State) (op : OpName) (c : Condition) :
    (s.raise op c).dest = s.dest := rfl
@[simp] theorem State.raise_stats (s : State) (op : OpName) (c : Condition) :
    (s.raise op c).stats = s.stats := rfl
@[simp] theorem State.raise_halt (s : State) (op : OpName) (c : Condition) :
    (s.raise op c).halt = s.halt := rfl
@[simp] theorem State.raise_rxClosed (s : State) (op : OpName) (c : Condition) :
    (s.raise op c).rxClosed = s.rxClosed := rfl
@[simp] theorem State.raise_txClosed (s : State) (op : OpName) (c : Condition) :
    (s.raise op c).txClosed = s.txClosed := rfl
@[simp] theorem State.raise_stopped (s : State) (op : OpName) (c : Condition) :
    (s.raise op c).stopped = s.stopped := rfl
@[simp] theorem State.raise_params (s : State) (op : OpName) (c : Condition) :
    (s.raise op c).params = s.params := rfl
@[simp] theorem State.raise_now (s : State) (op : OpName) (c : Condition) :
    (s.raise op c).now = s.now := rfl
@[simp] theorem State.raise_nextReport (s : State) (op : OpName) (c : Condition) :
    (s.raise op c).nextReport = s.nextReport := rfl
@[simp] theorem State.raise_stimulus (s : State) (op : OpName) (c : Condition) :
    (s.raise op c).stimulus = s.stimulus := rfl
@[simp] theorem State.raise_netAnswers (s : State) (op : OpName) (c : Condition) :
    (s.raise op c).netAnswers = s.netAnswers := rfl
@[simp] theorem State.raise_txPicks (s : State) (op : OpName) (c : Condition) :
    (s.raise op c).txPicks = s.txPicks := rfl
@[simp] theorem State.raise_txAnswers (s : State) (op : OpName) (c : Condition) :
    (s.raise op c).txAnswers = s.txAnswers := rfl
@[simp] theorem State.raise_bcPlans (s : State) (op : OpName) (c : Condition) :
    (s.raise op c).bcPlans = s.bcPlans := rfl
@[simp] theorem State.raise_shutdown (s : State) (op : OpName) (c : Condition) :
    (s.raise op c).shutdown = s.shutdown := rfl
@[simp] theorem State.raise_out (s : State) (op : OpName) (c : Condition) :
    (s.raise op c).out = s.out ++ [.errOut (conditionCode c) op.opid c] := rfl

@[simp] theorem State.answer_rxbuf (s : State) (op : OpName) (r : Result) :
    (s.answer op r).rxbuf = s.rxbuf := rfl
@[simp] theorem State.answer_crcErrCnt (s : State) (op : OpName) (r : Result) :
    (s.answer op r).crcErrCnt = s.crcErrCnt := rfl
@[simp] theorem State.answer_txqNet (s : State) (op : OpName) (r : Result) :
    (s.answer op r).txqNet = s.txqNet := rfl
@[simp] theorem State.answer_txqTel (s : State) (op : OpName) (r : Result) :
    (s.answer op r).txqTel = s.txqTel := rfl
@[simp] theorem State.answer_lastRec (s : State) (op : OpName) (r : Result) :
    (s.answer op r).lastRec = s.lastRec := rfl
@[simp] theorem State.answer_lastValid (s : State) (op : OpName) (r : Result) :
    (s.answer op r).lastValid = s.lastValid := rfl
@[simp] theorem State.answer_altStart (s : State) (op : OpName) (r : Result) :
    (s.answer op r).altStart = s.altStart := rfl
@[simp] theorem State.answer_altStartValid (s : State) (op : OpName) (r : Result) :
    (s.answer op r).altStartValid = s.altStartValid := rfl
@[simp] theorem State.answer_nextTick (s : State) (op : OpName) (r : Result) :
    (s.answer op r).nextTick = s.nextTick := rfl
@[simp] theorem State.answer_ch (s : State) (op : OpName) (r : Result) :
    (s.answer op r).ch = s.ch := rfl
@[simp] theorem State.answer_chValid (s : State) (op : OpName) (r : Result) :
    (s.answer op r).chValid = s.chValid := rfl
@[simp] theorem State.answer_dest (s : State) (op : OpName) (r : Result) :
    (s.answer op r).dest = s.dest := rfl
@[simp] theorem State.answer_stats (s : State) (op : OpName) (r : Result) :
    (s.answer op r).stats = s.stats := rfl
@[simp] theorem State.answer_halt (s : State) (op : OpName) (r : Result) :
    (s.answer op r).halt = s.halt := rfl
@[simp] theorem State.answer_rxClosed (s : State) (op : OpName) (r : Result) :
    (s.answer op r).rxClosed = s.rxClosed := rfl
@[simp] theorem State.answer_txClosed (s : State) (op : OpName) (r : Result) :
    (s.answer op r).txClosed = s.txClosed := rfl
@[simp] theorem State.answer_stopped (s : State) (op : OpName) (r : Result) :
    (s.answer op r).stopped = s.stopped := rfl
@[simp] theorem State.answer_params (s : State) (op : OpName) (r : Result) :
    (s.answer op r).params = s.params := rfl
@[simp] theorem State.answer_now (s : State) (op : OpName) (r : Result) :
    (s.answer op r).now = s.now := rfl
@[simp] theorem State.answer_nextReport (s : State) (op : OpName) (r : Result) :
    (s.answer op r).nextReport = s.nextReport := rfl
@[simp] theorem State.answer_stimulus (s : State) (op : OpName) (r : Result) :
    (s.answer op r).stimulus = s.stimulus := rfl
@[simp] theorem State.answer_netAnswers (s : State) (op : OpName) (r : Result) :
    (s.answer op r).netAnswers = s.netAnswers := rfl
@[simp] theorem State.answer_txPicks (s : State) (op : OpName) (r : Result) :
    (s.answer op r).txPicks = s.txPicks := rfl
@[simp] theorem State.answer_txAnswers (s : State) (op : OpName) (r : Result) :
    (s.answer op r).txAnswers = s.txAnswers := rfl
@[simp] theorem State.answer_bcPlans (s : State) (op : OpName) (r : Result) :
    (s.answer op r).bcPlans = s.bcPlans := rfl
@[simp] theorem State.answer_shutdown (s : State) (op : OpName) (r : Result) :
    (s.answer op r).shutdown = s.shutdown := rfl
@[simp] theorem State.answer_out (s : State) (op : OpName) (r : Result) :
    (s.answer op r).out = s.out ++ [.result op.opid r] := rfl

@[simp] theorem State.raiseFields_rxbuf (s : State) (errs : List (OpName × FieldError)) :
    (s.raiseFields errs).rxbuf = s.rxbuf := rfl
@[simp] theorem State.raiseFields_crcErrCnt (s : State) (errs : List (OpName × FieldError)) :
    (s.raiseFields errs).crcErrCnt = s.crcErrCnt := rfl
@[simp] theorem State.raiseFields_txqNet (s : State) (errs : List (OpName × FieldError)) :
    (s.raiseFields errs).txqNet = s.txqNet := rfl
@[simp] theorem State.raiseFields_txqTel (s : State) (errs : List (OpName × FieldError)) :
    (s.raiseFields errs).txqTel = s.txqTel := rfl
@[simp] theorem State.raiseFields_lastRec (s : State) (errs : List (OpName × FieldError)) :
    (s.raiseFields errs).lastRec = s.lastRec := rfl
@[simp] theorem State.raiseFields_lastValid (s : State) (errs : List (OpName × FieldError)) :
    (s.raiseFields errs).lastValid = s.lastValid := rfl
@[simp] theorem State.raiseFields_altStart (s : State) (errs : List (OpName × FieldError)) :
    (s.raiseFields errs).altStart = s.altStart := rfl
@[simp] theorem State.raiseFields_altStartValid (s : State) (errs : List (OpName × FieldError)) :
    (s.raiseFields errs).altStartValid = s.altStartValid := rfl
@[simp] theorem State.raiseFields_nextTick (s : State) (errs : List (OpName × FieldError)) :
    (s.raiseFields errs).nextTick = s.nextTick := rfl
@[simp] theorem State.raiseFields_ch (s : State) (errs : List (OpName × FieldError)) :
    (s.raiseFields errs).ch = s.ch := rfl
@[simp] theorem State.raiseFields_chValid (s : State) (errs : List (OpName × FieldError)) :
    (s.raiseFields errs).chValid = s.chValid := rfl
@[simp] theorem State.raiseFields_dest (s : State) (errs : List (OpName × FieldError)) :
    (s.raiseFields errs).dest = s.dest := rfl
@[simp] theorem State.raiseFields_stats (s : State) (errs : List (OpName × FieldError)) :
    (s.raiseFields errs).stats = s.stats := rfl
@[simp] theorem State.raiseFields_halt (s : State) (errs : List (OpName × FieldError)) :
    (s.raiseFields errs).halt = s.halt := rfl
@[simp] theorem State.raiseFields_rxClosed (s : State) (errs : List (OpName × FieldError)) :
    (s.raiseFields errs).rxClosed = s.rxClosed := rfl
@[simp] theorem State.raiseFields_txClosed (s : State) (errs : List (OpName × FieldError)) :
    (s.raiseFields errs).txClosed = s.txClosed := rfl
@[simp] theorem State.raiseFields_stopped (s : State) (errs : List (OpName × FieldError)) :
    (s.raiseFields errs).stopped = s.stopped := rfl
@[simp] theorem State.raiseFields_params (s : State) (errs : List (OpName × FieldError)) :
    (s.raiseFields errs).params = s.params := rfl
@[simp] theorem State.raiseFields_now (s : State) (errs : List (OpName × FieldError)) :
    (s.raiseFields errs).now = s.now := rfl
@[simp] theorem State.raiseFields_nextReport (s : State) (errs : List (OpName × FieldError)) :
    (s.raiseFields errs).nextReport = s.nextReport := rfl
@[simp] theorem State.raiseFields_stimulus (s : State) (errs : List (OpName × FieldError)) :
    (s.raiseFields errs).stimulus = s.stimulus := rfl
@[simp] theorem State.raiseFields_netAnswers (s : State) (errs : List (OpName × FieldError)) :
    (s.raiseFields errs).netAnswers = s.netAnswers := rfl
@[simp] theorem State.raiseFields_txPicks (s : State) (errs : List (OpName × FieldError)) :
    (s.raiseFields errs).txPicks = s.txPicks := rfl
@[simp] theorem State.raiseFields_txAnswers (s : State) (errs : List (OpName × FieldError)) :
    (s.raiseFields errs).txAnswers = s.txAnswers := rfl
@[simp] theorem State.raiseFields_bcPlans (s : State) (errs : List (OpName × FieldError)) :
    (s.raiseFields errs).bcPlans = s.bcPlans := rfl
@[simp] theorem State.raiseFields_shutdown (s : State) (errs : List (OpName × FieldError)) :
    (s.raiseFields errs).shutdown = s.shutdown := rfl
@[simp] theorem State.raiseFields_out (s : State) (errs : List (OpName × FieldError)) :
    (s.raiseFields errs).out = s.out ++ errs.map fun e => .errOut (conditionCode (.fieldOutOfRange e.2)) e.1.opid (.fieldOutOfRange e.2) := rfl

@[simp] theorem State.statsPush_rxbuf (s : State) (e : StatEntry) :
    (s.statsPush e).rxbuf = s.rxbuf := rfl
@[simp] theorem State.statsPush_crcErrCnt (s : State) (e : StatEntry) :
    (s.statsPush e).crcErrCnt = s.crcErrCnt := rfl
@[simp] theorem State.statsPush_txqNet (s : State) (e : StatEntry) :
    (s.statsPush e).txqNet = s.txqNet := rfl
@[simp] theorem State.statsPush_txqTel (s : State) (e : StatEntry) :
    (s.statsPush e).txqTel = s.txqTel := rfl
@[simp] theorem State.statsPush_lastRec (s : State) (e : StatEntry) :
    (s.statsPush e).lastRec = s.lastRec := rfl
@[simp] theorem State.statsPush_lastValid (s : State) (e : StatEntry) :
    (s.statsPush e).lastValid = s.lastValid := rfl
@[simp] theorem State.statsPush_altStart (s : State) (e : StatEntry) :
    (s.statsPush e).altStart = s.altStart := rfl
@[simp] theorem State.statsPush_altStartValid (s : State) (e : StatEntry) :
    (s.statsPush e).altStartValid = s.altStartValid := rfl
@[simp] theorem State.statsPush_nextTick (s : State) (e : StatEntry) :
    (s.statsPush e).nextTick = s.nextTick := rfl
@[simp] theorem State.statsPush_ch (s : State) (e : StatEntry) :
    (s.statsPush e).ch = s.ch := rfl
@[simp] theorem State.statsPush_chValid (s : State) (e : StatEntry) :
    (s.statsPush e).chValid = s.chValid := rfl
@[simp] theorem State.statsPush_dest (s : State) (e : StatEntry) :
    (s.statsPush e).dest = s.dest := rfl
@[simp] theorem State.statsPush_stats (s : State) (e : StatEntry) :
    (s.statsPush e).stats = evict s.now (s.stats ++ [(s.now, e)]) := rfl
@[simp] theorem State.statsPush_halt (s : State) (e : StatEntry) :
    (s.statsPush e).halt = s.halt := rfl
@[simp] theorem State.statsPush_rxClosed (s : State) (e : StatEntry) :
    (s.statsPush e).rxClosed = s.rxClosed := rfl
@[simp] theorem State.statsPush_txClosed (s : State) (e : StatEntry) :
    (s.statsPush e).txClosed = s.txClosed := rfl
@[simp] theorem State.statsPush_stopped (s : State) (e : StatEntry) :
    (s.statsPush e).stopped = s.stopped := rfl
@[simp] theorem State.statsPush_params (s : State) (e : StatEntry) :
    (s.statsPush e).params = s.params := rfl
@[simp] theorem State.statsPush_now (s : State) (e : StatEntry) :
    (s.statsPush e).now = s.now := rfl
@[simp] theorem State.statsPush_nextReport (s : State) (e : StatEntry) :
    (s.statsPush e).nextReport = s.nextReport := rfl
@[simp] theorem State.statsPush_stimulus (s : State) (e : StatEntry) :
    (s.statsPush e).stimulus = s.stimulus := rfl
@[simp] theorem State.statsPush_netAnswers (s : State) (e : StatEntry) :
    (s.statsPush e).netAnswers = s.netAnswers := rfl
@[simp] theorem State.statsPush_txPicks (s : State) (e : StatEntry) :
    (s.statsPush e).txPicks = s.txPicks := rfl
@[simp] theorem State.statsPush_txAnswers (s : State) (e : StatEntry) :
    (s.statsPush e).txAnswers = s.txAnswers := rfl
@[simp] theorem State.statsPush_bcPlans (s : State) (e : StatEntry) :
    (s.statsPush e).bcPlans = s.bcPlans := rfl
@[simp] theorem State.statsPush_shutdown (s : State) (e : StatEntry) :
    (s.statsPush e).shutdown = s.shutdown := rfl
@[simp] theorem State.statsPush_out (s : State) (e : StatEntry) :
    (s.statsPush e).out = s.out := rfl

@[simp] theorem State.sendNet_rxbuf (s : State) (pkt : List Byte) :
    (s.sendNet pkt).rxbuf = s.rxbuf := rfl
@[simp] theorem State.sendNet_crcErrCnt (s : State) (pkt : List Byte) :
    (s.sendNet pkt).crcErrCnt = s.crcErrCnt := rfl
@[simp] theorem State.sendNet_txqNet (s : State) (pkt : List Byte) :
    (s.sendNet pkt).txqNet = s.txqNet := rfl
@[simp] theorem State.sendNet_txqTel (s : State) (pkt : List Byte) :
    (s.sendNet pkt).txqTel = s.txqTel := rfl
@[simp] theorem State.sendNet_lastRec (s : State) (pkt : List Byte) :
    (s.sendNet pkt).lastRec = s.lastRec := rfl
@[simp] theorem State.sendNet_lastValid (s : State) (pkt : List Byte) :
    (s.sendNet pkt).lastValid = s.lastValid := rfl
@[simp] theorem State.sendNet_altStart (s : State) (pkt : List Byte) :
    (s.sendNet pkt).altStart = s.altStart := rfl
@[simp] theorem State.sendNet_altStartValid (s : State) (pkt : List Byte) :
    (s.sendNet pkt).altStartValid = s.altStartValid := rfl
@[simp] theorem State.sendNet_nextTick (s : State) (pkt : List Byte) :
    (s.sendNet pkt).nextTick = s.nextTick := rfl
@[simp] theorem State.sendNet_ch (s : State) (pkt : List Byte) :
    (s.sendNet pkt).ch = s.ch := rfl
@[simp] theorem State.sendNet_chValid (s : State) (pkt : List Byte) :
    (s.sendNet pkt).chValid = s.chValid := rfl
@[simp] theorem State.sendNet_dest (s : State) (pkt : List Byte) :
    (s.sendNet pkt).dest = s.dest := rfl
@[simp] theorem State.sendNet_stats (s : State) (pkt : List Byte) :
    (s.sendNet pkt).stats = s.stats := rfl
@[simp] theorem State.sendNet_halt (s : State) (pkt : List Byte) :
    (s.sendNet pkt).halt = s.halt := rfl
@[simp] theorem State.sendNet_rxClosed (s : State) (pkt : List Byte) :
    (s.sendNet pkt).rxClosed = s.rxClosed := rfl
@[simp] theorem State.sendNet_txClosed (s : State) (pkt : List Byte) :
    (s.sendNet pkt).txClosed = s.txClosed := rfl
@[simp] theorem State.sendNet_stopped (s : State) (pkt : List Byte) :
    (s.sendNet pkt).stopped = s.stopped := rfl
@[simp] theorem State.sendNet_params (s : State) (pkt : List Byte) :
    (s.sendNet pkt).params = s.params := rfl
@[simp] theorem State.sendNet_now (s : State) (pkt : List Byte) :
    (s.sendNet pkt).now = s.now := rfl
@[simp] theorem State.sendNet_nextReport (s : State) (pkt : List Byte) :
    (s.sendNet pkt).nextReport = s.nextReport := rfl
@[simp] theorem State.sendNet_stimulus (s : State) (pkt : List Byte) :
    (s.sendNet pkt).stimulus = s.stimulus := rfl
@[simp] theorem State.sendNet_netAnswers (s : State) (pkt : List Byte) :
    (s.sendNet pkt).netAnswers = s.netAnswers.tail := rfl
@[simp] theorem State.sendNet_txPicks (s : State) (pkt : List Byte) :
    (s.sendNet pkt).txPicks = s.txPicks := rfl
@[simp] theorem State.sendNet_txAnswers (s : State) (pkt : List Byte) :
    (s.sendNet pkt).txAnswers = s.txAnswers := rfl
@[simp] theorem State.sendNet_bcPlans (s : State) (pkt : List Byte) :
    (s.sendNet pkt).bcPlans = s.bcPlans := rfl
@[simp] theorem State.sendNet_shutdown (s : State) (pkt : List Byte) :
    (s.sendNet pkt).shutdown = s.shutdown := rfl
@[simp] theorem State.sendNet_out (s : State) (pkt : List Byte) :
    (s.sendNet pkt).out = s.out ++ [.netTx pkt s.netAnswer] := rfl

@[simp] theorem State.writeFrame_rxbuf (s : State) (f : List Byte) :
    (s.writeFrame f).rxbuf = s.rxbuf := rfl
@[simp] theorem State.writeFrame_crcErrCnt (s : State) (f : List Byte) :
    (s.writeFrame f).crcErrCnt = s.crcErrCnt := rfl
@[simp] theorem State.writeFrame_txqNet (s : State) (f : List Byte) :
    (s.writeFrame f).txqNet = s.txqNet := rfl
@[simp] theorem State.writeFrame_txqTel (s : State) (f : List Byte) :
    (s.writeFrame f).txqTel = s.txqTel := rfl
@[simp] theorem State.writeFrame_lastRec (s : State) (f : List Byte) :
    (s.writeFrame f).lastRec = s.lastRec := rfl
@[simp] theorem State.writeFrame_lastValid (s : State) (f : List Byte) :
    (s.writeFrame f).lastValid = s.lastValid := rfl
@[simp] theorem State.writeFrame_altStart (s : State) (f : List Byte) :
    (s.writeFrame f).altStart = s.altStart := rfl
@[simp] theorem State.writeFrame_altStartValid (s : State) (f : List Byte) :
    (s.writeFrame f).altStartValid = s.altStartValid := rfl
@[simp] theorem State.writeFrame_nextTick (s : State) (f : List Byte) :
    (s.writeFrame f).nextTick = s.nextTick := rfl
@[simp] theorem State.writeFrame_ch (s : State) (f : List Byte) :
    (s.writeFrame f).ch = s.ch := rfl
@[simp] theorem State.writeFrame_chValid (s : State) (f : List Byte) :
    (s.writeFrame f).chValid = s.chValid := rfl
@[simp] theorem State.writeFrame_dest (s : State) (f : List Byte) :
    (s.writeFrame f).dest = s.dest := rfl
@[simp] theorem State.writeFrame_stats (s : State) (f : List Byte) :
    (s.writeFrame f).stats = s.stats := rfl
@[simp] theorem State.writeFrame_halt (s : State) (f : List Byte) :
    (s.writeFrame f).halt = s.halt := rfl
@[simp] theorem State.writeFrame_rxClosed (s : State) (f : List Byte) :
    (s.writeFrame f).rxClosed = s.rxClosed := rfl
@[simp] theorem State.writeFrame_txClosed (s : State) (f : List Byte) :
    (s.writeFrame f).txClosed = s.txClosed := rfl
@[simp] theorem State.writeFrame_stopped (s : State) (f : List Byte) :
    (s.writeFrame f).stopped = s.stopped := rfl
@[simp] theorem State.writeFrame_params (s : State) (f : List Byte) :
    (s.writeFrame f).params = s.params := rfl
@[simp] theorem State.writeFrame_now (s : State) (f : List Byte) :
    (s.writeFrame f).now = s.now := rfl
@[simp] theorem State.writeFrame_nextReport (s : State) (f : List Byte) :
    (s.writeFrame f).nextReport = s.nextReport := rfl
@[simp] theorem State.writeFrame_stimulus (s : State) (f : List Byte) :
    (s.writeFrame f).stimulus = s.stimulus := rfl
@[simp] theorem State.writeFrame_netAnswers (s : State) (f : List Byte) :
    (s.writeFrame f).netAnswers = s.netAnswers := rfl
@[simp] theorem State.writeFrame_txPicks (s : State) (f : List Byte) :
    (s.writeFrame f).txPicks = s.txPicks := rfl
@[simp] theorem State.writeFrame_txAnswers (s : State) (f : List Byte) :
    (s.writeFrame f).txAnswers = s.txAnswers.tail := rfl
@[simp] theorem State.writeFrame_bcPlans (s : State) (f : List Byte) :
    (s.writeFrame f).bcPlans = s.bcPlans := rfl
@[simp] theorem State.writeFrame_shutdown (s : State) (f : List Byte) :
    (s.writeFrame f).shutdown = s.shutdown := rfl
@[simp] theorem State.writeFrame_out (s : State) (f : List Byte) :
    (s.writeFrame f).out = s.out ++ [.bsTx f s.writeAnswer] := rfl

@[simp] theorem State.enqueueNet_rxbuf (s : State) (f : List Byte) :
    (s.enqueueNet f).rxbuf = s.rxbuf := rfl
@[simp] theorem State.enqueueNet_crcErrCnt (s : State) (f : List Byte) :
    (s.enqueueNet f).crcErrCnt = s.crcErrCnt := rfl
@[simp] theorem State.enqueueNet_txqNet (s : State) (f : List Byte) :
    (s.enqueueNet f).txqNet = s.txqNet ++ [f] := rfl
@[simp] theorem State.enqueueNet_txqTel (s : State) (f : List Byte) :
    (s.enqueueNet f).txqTel = s.txqTel := rfl
@[simp] theorem State.enqueueNet_lastRec (s : State) (f : List Byte) :
    (s.enqueueNet f).lastRec = s.lastRec := rfl
@[simp] theorem State.enqueueNet_lastValid (s : State) (f : List Byte) :
    (s.enqueueNet f).lastValid = s.lastValid := rfl
@[simp] theorem State.enqueueNet_altStart (s : State) (f : List Byte) :
    (s.enqueueNet f).altStart = s.altStart := rfl
@[simp] theorem State.enqueueNet_altStartValid (s : State) (f : List Byte) :
    (s.enqueueNet f).altStartValid = s.altStartValid := rfl
@[simp] theorem State.enqueueNet_nextTick (s : State) (f : List Byte) :
    (s.enqueueNet f).nextTick = s.nextTick := rfl
@[simp] theorem State.enqueueNet_ch (s : State) (f : List Byte) :
    (s.enqueueNet f).ch = s.ch := rfl
@[simp] theorem State.enqueueNet_chValid (s : State) (f : List Byte) :
    (s.enqueueNet f).chValid = s.chValid := rfl
@[simp] theorem State.enqueueNet_dest (s : State) (f : List Byte) :
    (s.enqueueNet f).dest = s.dest := rfl
@[simp] theorem State.enqueueNet_stats (s : State) (f : List Byte) :
    (s.enqueueNet f).stats = s.stats := rfl
@[simp] theorem State.enqueueNet_halt (s : State) (f : List Byte) :
    (s.enqueueNet f).halt = s.halt := rfl
@[simp] theorem State.enqueueNet_rxClosed (s : State) (f : List Byte) :
    (s.enqueueNet f).rxClosed = s.rxClosed := rfl
@[simp] theorem State.enqueueNet_txClosed (s : State) (f : List Byte) :
    (s.enqueueNet f).txClosed = s.txClosed := rfl
@[simp] theorem State.enqueueNet_stopped (s : State) (f : List Byte) :
    (s.enqueueNet f).stopped = s.stopped := rfl
@[simp] theorem State.enqueueNet_params (s : State) (f : List Byte) :
    (s.enqueueNet f).params = s.params := rfl
@[simp] theorem State.enqueueNet_now (s : State) (f : List Byte) :
    (s.enqueueNet f).now = s.now := rfl
@[simp] theorem State.enqueueNet_nextReport (s : State) (f : List Byte) :
    (s.enqueueNet f).nextReport = s.nextReport := rfl
@[simp] theorem State.enqueueNet_stimulus (s : State) (f : List Byte) :
    (s.enqueueNet f).stimulus = s.stimulus := rfl
@[simp] theorem State.enqueueNet_netAnswers (s : State) (f : List Byte) :
    (s.enqueueNet f).netAnswers = s.netAnswers := rfl
@[simp] theorem State.enqueueNet_txPicks (s : State) (f : List Byte) :
    (s.enqueueNet f).txPicks = s.txPicks := rfl
@[simp] theorem State.enqueueNet_txAnswers (s : State) (f : List Byte) :
    (s.enqueueNet f).txAnswers = s.txAnswers := rfl
@[simp] theorem State.enqueueNet_bcPlans (s : State) (f : List Byte) :
    (s.enqueueNet f).bcPlans = s.bcPlans := rfl
@[simp] theorem State.enqueueNet_shutdown (s : State) (f : List Byte) :
    (s.enqueueNet f).shutdown = s.shutdown := rfl
@[simp] theorem State.enqueueNet_out (s : State) (f : List Byte) :
    (s.enqueueNet f).out = s.out := rfl

@[simp] theorem State.enqueueTel_rxbuf (s : State) (f : List Byte) :
    (s.enqueueTel f).rxbuf = s.rxbuf := rfl
@[simp] theorem State.enqueueTel_crcErrCnt (s : State) (f : List Byte) :
    (s.enqueueTel f).crcErrCnt = s.crcErrCnt := rfl
@[simp] theorem State.enqueueTel_txqNet (s : State) (f : List Byte) :
    (s.enqueueTel f).txqNet = s.txqNet := rfl
@[simp] theorem State.enqueueTel_txqTel (s : State) (f : List Byte) :
    (s.enqueueTel f).txqTel = s.txqTel ++ [f] := rfl
@[simp] theorem State.enqueueTel_lastRec (s : State) (f : List Byte) :
    (s.enqueueTel f).lastRec = s.lastRec := rfl
@[simp] theorem State.enqueueTel_lastValid (s : State) (f : List Byte) :
    (s.enqueueTel f).lastValid = s.lastValid := rfl
@[simp] theorem State.enqueueTel_altStart (s : State) (f : List Byte) :
    (s.enqueueTel f).altStart = s.altStart := rfl
@[simp] theorem State.enqueueTel_altStartValid (s : State) (f : List Byte) :
    (s.enqueueTel f).altStartValid = s.altStartValid := rfl
@[simp] theorem State.enqueueTel_nextTick (s : State) (f : List Byte) :
    (s.enqueueTel f).nextTick = s.nextTick := rfl
@[simp] theorem State.enqueueTel_ch (s : State) (f : List Byte) :
    (s.enqueueTel f).ch = s.ch := rfl
@[simp] theorem State.enqueueTel_chValid (s : State) (f : List Byte) :
    (s.enqueueTel f).chValid = s.chValid := rfl
@[simp] theorem State.enqueueTel_dest (s : State) (f : List Byte) :
    (s.enqueueTel f).dest = s.dest := rfl
@[simp] theorem State.enqueueTel_stats (s : State) (f : List Byte) :
    (s.enqueueTel f).stats = s.stats := rfl
@[simp] theorem State.enqueueTel_halt (s : State) (f : List Byte) :
    (s.enqueueTel f).halt = s.halt := rfl
@[simp] theorem State.enqueueTel_rxClosed (s : State) (f : List Byte) :
    (s.enqueueTel f).rxClosed = s.rxClosed := rfl
@[simp] theorem State.enqueueTel_txClosed (s : State) (f : List Byte) :
    (s.enqueueTel f).txClosed = s.txClosed := rfl
@[simp] theorem State.enqueueTel_stopped (s : State) (f : List Byte) :
    (s.enqueueTel f).stopped = s.stopped := rfl
@[simp] theorem State.enqueueTel_params (s : State) (f : List Byte) :
    (s.enqueueTel f).params = s.params := rfl
@[simp] theorem State.enqueueTel_now (s : State) (f : List Byte) :
    (s.enqueueTel f).now = s.now := rfl
@[simp] theorem State.enqueueTel_nextReport (s : State) (f : List Byte) :
    (s.enqueueTel f).nextReport = s.nextReport := rfl
@[simp] theorem State.enqueueTel_stimulus (s : State) (f : List Byte) :
    (s.enqueueTel f).stimulus = s.stimulus := rfl
@[simp] theorem State.enqueueTel_netAnswers (s : State) (f : List Byte) :
    (s.enqueueTel f).netAnswers = s.netAnswers := rfl
@[simp] theorem State.enqueueTel_txPicks (s : State) (f : List Byte) :
    (s.enqueueTel f).txPicks = s.txPicks := rfl
@[simp] theorem State.enqueueTel_txAnswers (s : State) (f : List Byte) :
    (s.enqueueTel f).txAnswers = s.txAnswers := rfl
@[simp] theorem State.enqueueTel_bcPlans (s : State) (f : List Byte) :
    (s.enqueueTel f).bcPlans = s.bcPlans := rfl
@[simp] theorem State.enqueueTel_shutdown (s : State) (f : List Byte) :
    (s.enqueueTel f).shutdown = s.shutdown := rfl
@[simp] theorem State.enqueueTel_out (s : State) (f : List Byte) :
    (s.enqueueTel f).out = s.out := rfl

@[simp] theorem State.quitBroadcast_rxbuf (s : State) :
    (s.quitBroadcast).rxbuf = s.rxbuf := rfl
@[simp] theorem State.quitBroadcast_crcErrCnt (s : State) :
    (s.quitBroadcast).crcErrCnt = s.crcErrCnt := rfl
@[simp] theorem State.quitBroadcast_txqNet (s : State) :
    (s.quitBroadcast).txqNet = s.txqNet := rfl
@[simp] theorem State.quitBroadcast_txqTel (s : State) :
    (s.quitBroadcast).txqTel = s.txqTel := rfl
@[simp] theorem State.quitBroadcast_lastRec (s : State) :
    (s.quitBroadcast).lastRec = s.lastRec := rfl
@[simp] theorem State.quitBroadcast_lastValid (s : State) :
    (s.quitBroadcast).lastValid = s.lastValid := rfl
@[simp] theorem State.quitBroadcast_altStart (s : State) :
    (s.quitBroadcast).altStart = s.altStart := rfl
@[simp] theorem State.quitBroadcast_altStartValid (s : State) :
    (s.quitBroadcast).altStartValid = s.altStartValid := rfl
@[simp] theorem State.quitBroadcast_nextTick (s : State) :
    (s.quitBroadcast).nextTick = s.nextTick := rfl
@[simp] theorem State.quitBroadcast_ch (s : State) :
    (s.quitBroadcast).ch = s.ch := rfl
@[simp] theorem State.quitBroadcast_chValid (s : State) :
    (s.quitBroadcast).chValid = s.chValid := rfl
@[simp] theorem State.quitBroadcast_dest (s : State) :
    (s.quitBroadcast).dest = s.dest := rfl
@[simp] theorem State.quitBroadcast_stats (s : State) :
    (s.quitBroadcast).stats = s.stats := rfl
@[simp] theorem State.quitBroadcast_halt (s : State) :
    (s.quitBroadcast).halt = true := rfl
@[simp] theorem State.quitBroadcast_rxClosed (s : State) :
    (s.quitBroadcast).rxClosed = s.rxClosed := rfl
@[simp] theorem State.quitBroadcast_txClosed (s : State) :
    (s.quitBroadcast).txClosed = s.txClosed := rfl
@[simp] theorem State.quitBroadcast_stopped (s : State) :
    (s.quitBroadcast).stopped = s.stopped := rfl
@[simp] theorem State.quitBroadcast_params (s : State) :
    (s.quitBroadcast).params = s.params := rfl
@[simp] theorem State.quitBroadcast_now (s : State) :
    (s.quitBroadcast).now = s.now := rfl
@[simp] theorem State.quitBroadcast_nextReport (s : State) :
    (s.quitBroadcast).nextReport = s.nextReport := rfl
@[simp] theorem State.quitBroadcast_stimulus (s : State) :
    (s.quitBroadcast).stimulus = s.stimulus := rfl
@[simp] theorem State.quitBroadcast_netAnswers (s : State) :
    (s.quitBroadcast).netAnswers = s.netAnswers := rfl
@[simp] theorem State.quitBroadcast_txPicks (s : State) :
    (s.quitBroadcast).txPicks = s.txPicks := rfl
@[simp] theorem State.quitBroadcast_txAnswers (s : State) :
    (s.quitBroadcast).txAnswers = s.txAnswers := rfl
@[simp] theorem State.quitBroadcast_bcPlans (s : State) :
    (s.quitBroadcast).bcPlans = s.bcPlans := rfl
@[simp] theorem State.quitBroadcast_shutdown (s : State) :
    (s.quitBroadcast).shutdown = s.shutdown := rfl
@[simp] theorem State.quitBroadcast_out (s : State) :
    (s.quitBroadcast).out = s.out := rfl

@[simp] theorem State.unregisterDest_rxbuf (s : State) (a : Addr) :
    (s.unregisterDest a).rxbuf = s.rxbuf := rfl
@[simp] theorem State.unregisterDest_crcErrCnt (s : State) (a : Addr) :
    (s.unregisterDest a).crcErrCnt = s.crcErrCnt := rfl
@[simp] theorem State.unregisterDest_txqNet (s : State) (a : Addr) :
    (s.unregisterDest a).txqNet = s.txqNet := rfl
@[simp] theorem State.unregisterDest_txqTel (s : State) (a : Addr) :
    (s.unregisterDest a).txqTel = s.txqTel := rfl
@[simp] theorem State.unregisterDest_lastRec (s : State) (a : Addr) :
    (s.unregisterDest a).lastRec = s.lastRec := rfl
@[simp] theorem State.unregisterDest_lastValid (s : State) (a : Addr) :
    (s.unregisterDest a).lastValid = s.lastValid := rfl
@[simp] theorem State.unregisterDest_altStart (s : State) (a : Addr) :
    (s.unregisterDest a).altStart = s.altStart := rfl
@[simp] theorem State.unregisterDest_altStartValid (s : State) (a : Addr) :
    (s.unregisterDest a).altStartValid = s.altStartValid := rfl
@[simp] theorem State.unregisterDest_nextTick (s : State) (a : Addr) :
    (s.unregisterDest a).nextTick = s.nextTick := rfl
@[simp] theorem State.unregisterDest_ch (s : State) (a : Addr) :
    (s.unregisterDest a).ch = s.ch := rfl
@[simp] theorem State.unregisterDest_chValid (s : State) (a : Addr) :
    (s.unregisterDest a).chValid = s.chValid := rfl
@[simp] theorem State.unregisterDest_dest (s : State) (a : Addr) :
    (s.unregisterDest a).dest = destErase a s.dest := rfl
@[simp] theorem State.unregisterDest_stats (s : State) (a : Addr) :
    (s.unregisterDest a).stats = s.stats := rfl
@[simp] theorem State.unregisterDest_halt (s : State) (a : Addr) :
    (s.unregisterDest a).halt = s.halt := rfl
@[simp] theorem State.unregisterDest_rxClosed (s : State) (a : Addr) :
    (s.unregisterDest a).rxClosed = s.rxClosed := rfl
@[simp] theorem State.unregisterDest_txClosed (s : State) (a : Addr) :
    (s.unregisterDest a).txClosed = s.txClosed := rfl
@[simp] theorem State.unregisterDest_stopped (s : State) (a : Addr) :
    (s.unregisterDest a).stopped = s.stopped := rfl
@[simp] theorem State.unregisterDest_params (s : State) (a : Addr) :
    (s.unregisterDest a).params = s.params := rfl
@[simp] theorem State.unregisterDest_now (s : State) (a : Addr) :
    (s.unregisterDest a).now = s.now := rfl
@[simp] theorem State.unregisterDest_nextReport (s : State) (a : Addr) :
    (s.unregisterDest a).nextReport = s.nextReport := rfl
@[simp] theorem State.unregisterDest_stimulus (s : State) (a : Addr) :
    (s.unregisterDest a).stimulus = s.stimulus := rfl
@[simp] theorem State.unregisterDest_netAnswers (s : State) (a : Addr) :
    (s.unregisterDest a).netAnswers = s.netAnswers := rfl
@[simp] theorem State.unregisterDest_txPicks (s : State) (a : Addr) :
    (s.unregisterDest a).txPicks = s.txPicks := rfl
@[simp] theorem State.unregisterDest_txAnswers (s : State) (a : Addr) :
    (s.unregisterDest a).txAnswers = s.txAnswers := rfl
@[simp] theorem State.unregisterDest_bcPlans (s : State) (a : Addr) :
    (s.unregisterDest a).bcPlans = s.bcPlans := rfl
@[simp] theorem State.unregisterDest_shutdown (s : State) (a : Addr) :
    (s.unregisterDest a).shutdown = s.shutdown := rfl
@[simp] theorem State.unregisterDest_out (s : State) (a : Addr) :
    (s.unregisterDest a).out = s.out := rfl

@[simp] theorem State.stopBlock_rxbuf (s : State) :
    (s.stopBlock).rxbuf = s.rxbuf := rfl
@[simp] theorem State.stopBlock_crcErrCnt (s : State) :
    (s.stopBlock).crcErrCnt = s.crcErrCnt := rfl
@[simp] theorem State.stopBlock_txqNet (s : State) :
    (s.stopBlock).txqNet = s.txqNet := rfl
@[simp] theorem State.stopBlock_txqTel (s : State) :
    (s.stopBlock).txqTel = s.txqTel := rfl
@[simp] theorem State.stopBlock_lastRec (s : State) :
    (s.stopBlock).lastRec = s.lastRec := rfl
@[simp] theorem State.stopBlock_lastValid (s : State) :
    (s.stopBlock).lastValid = s.lastValid := rfl
@[simp] theorem State.stopBlock_altStart (s : State) :
    (s.stopBlock).altStart = s.altStart := rfl
@[simp] theorem State.stopBlock_altStartValid (s : State) :
    (s.stopBlock).altStartValid = s.altStartValid := rfl
@[simp] theorem State.stopBlock_nextTick (s : State) :
    (s.stopBlock).nextTick = s.nextTick := rfl
@[simp] theorem State.stopBlock_ch (s : State) :
    (s.stopBlock).ch = s.ch := rfl
@[simp] theorem State.stopBlock_chValid (s : State) :
    (s.stopBlock).chValid = s.chValid := rfl
@[simp] theorem State.stopBlock_dest (s : State) :
    (s.stopBlock).dest = s.dest := rfl
@[simp] theorem State.stopBlock_stats (s : State) :
    (s.stopBlock).stats = s.stats := rfl
@[simp] theorem State.stopBlock_halt (s : State) :
    (s.stopBlock).halt = s.halt := rfl
@[simp] theorem State.stopBlock_rxClosed (s : State) :
    (s.stopBlock).rxClosed = s.rxClosed := rfl
@[simp] theorem State.stopBlock_txClosed (s : State) :
    (s.stopBlock).txClosed = s.txClosed := rfl
@[simp] theorem State.stopBlock_stopped (s : State) :
    (s.stopBlock).stopped = true := rfl
@[simp] theorem State.stopBlock_params (s : State) :
    (s.stopBlock).params = s.params := rfl
@[simp] theorem State.stopBlock_now (s : State) :
    (s.stopBlock).now = s.now := rfl
@[simp] theorem State.stopBlock_nextReport (s : State) :
    (s.stopBlock).nextReport = s.nextReport := rfl
@[simp] theorem State.stopBlock_stimulus (s : State) :
    (s.stopBlock).stimulus = s.stimulus := rfl
@[simp] theorem State.stopBlock_netAnswers (s : State) :
    (s.stopBlock).netAnswers = s.netAnswers := rfl
@[simp] theorem State.stopBlock_txPicks (s : State) :
    (s.stopBlock).txPicks = s.txPicks := rfl
@[simp] theorem State.stopBlock_txAnswers (s : State) :
    (s.stopBlock).txAnswers = s.txAnswers := rfl
@[simp] theorem State.stopBlock_bcPlans (s : State) :
    (s.stopBlock).bcPlans = s.bcPlans := rfl
@[simp] theorem State.stopBlock_shutdown (s : State) :
    (s.stopBlock).shutdown = false := rfl
@[simp] theorem State.stopBlock_out (s : State) :
    (s.stopBlock).out = s.out := rfl

@[simp] theorem State.dequeue_rxbuf (s : State) (q : TxQueue) :
    (s.dequeue q).rxbuf = s.rxbuf := by cases q <;> rfl
@[simp] theorem State.dequeue_crcErrCnt (s : State) (q : TxQueue) :
    (s.dequeue q).crcErrCnt = s.crcErrCnt := by cases q <;> rfl
@[simp] theorem State.dequeue_txqNet (s : State) (q : TxQueue) :
    (s.dequeue q).txqNet = match q with | .net => s.txqNet.tail | .tel => s.txqNet := by cases q <;> rfl
@[simp] theorem State.dequeue_txqTel (s : State) (q : TxQueue) :
    (s.dequeue q).txqTel = match q with | .net => s.txqTel | .tel => s.txqTel.tail := by cases q <;> rfl
@[simp] theorem State.dequeue_lastRec (s : State) (q : TxQueue) :
    (s.dequeue q).lastRec = s.lastRec := by cases q <;> rfl
@[simp] theorem State.dequeue_lastValid (s : State) (q : TxQueue) :
    (s.dequeue q).lastValid = s.lastValid := by cases q <;> rfl
@[simp] theorem State.dequeue_altStart (s : State) (q : TxQueue) :
    (s.dequeue q).altStart = s.altStart := by cases q <;> rfl
@[simp] theorem State.dequeue_altStartValid (s : State) (q : TxQueue) :
    (s.dequeue q).altStartValid = s.altStartValid := by cases q <;> rfl
@[simp] theorem State.dequeue_nextTick (s : State) (q : TxQueue) :
    (s.dequeue q).nextTick = s.nextTick := by cases q <;> rfl
@[simp] theorem State.dequeue_ch (s : State) (q : TxQueue) :
    (s.dequeue q).ch = s.ch := by cases q <;> rfl
@[simp] theorem State.dequeue_chValid (s : State) (q : TxQueue) :
    (s.dequeue q).chValid = s.chValid := by cases q <;> rfl
@[simp] theorem State.dequeue_dest (s : State) (q : TxQueue) :
    (s.dequeue q).dest = s.dest := by cases q <;> rfl
@[simp] theorem State.dequeue_stats (s : State) (q : TxQueue) :
    (s.dequeue q).stats = s.stats := by cases q <;> rfl
@[simp] theorem State.dequeue_halt (s : State) (q : TxQueue) :
    (s.dequeue q).halt = s.halt := by cases q <;> rfl
@[simp] theorem State.dequeue_rxClosed (s : State) (q : TxQueue) :
    (s.dequeue q).rxClosed = s.rxClosed := by cases q <;> rfl
@[simp] theorem State.dequeue_txClosed (s : State) (q : TxQueue) :
    (s.dequeue q).txClosed = s.txClosed := by cases q <;> rfl
@[simp] theorem State.dequeue_stopped (s : State) (q : TxQueue) :
    (s.dequeue q).stopped = s.stopped := by cases q <;> rfl
@[simp] theorem State.dequeue_params (s : State) (q : TxQueue) :
    (s.dequeue q).params = s.params := by cases q <;> rfl
@[simp] theorem State.dequeue_now (s : State) (q : TxQueue) :
    (s.dequeue q).now = s.now := by cases q <;> rfl
@[simp] theorem State.dequeue_nextReport (s : State) (q : TxQueue) :
    (s.dequeue q).nextReport = s.nextReport := by cases q <;> rfl
@[simp] theorem State.dequeue_stimulus (s : State) (q : TxQueue) :
    (s.dequeue q).stimulus = s.stimulus := by cases q <;> rfl
@[simp] theorem State.dequeue_netAnswers (s : State) (q : TxQueue) :
    (s.dequeue q).netAnswers = s.netAnswers := by cases q <;> rfl
@[simp] theorem State.dequeue_txPicks (s : State) (q : TxQueue) :
    (s.dequeue q).txPicks = s.txPicks.tail := by cases q <;> rfl
@[simp] theorem State.dequeue_txAnswers (s : State) (q : TxQueue) :
    (s.dequeue q).txAnswers = s.txAnswers := by cases q <;> rfl
@[simp] theorem State.dequeue_bcPlans (s : State) (q : TxQueue) :
    (s.dequeue q).bcPlans = s.bcPlans := by cases q <;> rfl
@[simp] theorem State.dequeue_shutdown (s : State) (q : TxQueue) :
    (s.dequeue q).shutdown = s.shutdown := by cases q <;> rfl
@[simp] theorem State.dequeue_out (s : State) (q : TxQueue) :
    (s.dequeue q).out = s.out := by cases q <;> rfl

@[simp] theorem State.unread_rxbuf (s : State) (rest : List Byte) :
    (s.unread rest).rxbuf = s.rxbuf := by cases rest <;> rfl
@[simp] theorem State.unread_crcErrCnt (s : State) (rest : List Byte) :
    (s.unread rest).crcErrCnt = s.crcErrCnt := by cases rest <;> rfl
@[simp] theorem State.unread_txqNet (s : State) (rest : List Byte) :
    (s.unread rest).txqNet = s.txqNet := by cases rest <;> rfl
@[simp] theorem State.unread_txqTel (s : State) (rest : List Byte) :
    (s.unread rest).txqTel = s.txqTel := by cases rest <;> rfl
@[simp] theorem State.unread_lastRec (s : State) (rest : List Byte) :
    (s.unread rest).lastRec = s.lastRec := by cases rest <;> rfl
@[simp] theorem State.unread_lastValid (s : State) (rest : List Byte) :
    (s.unread rest).lastValid = s.lastValid := by cases rest <;> rfl
@[simp] theorem State.unread_altStart (s : State) (rest : List Byte) :
    (s.unread rest).altStart = s.altStart := by cases rest <;> rfl
@[simp] theorem State.unread_altStartValid (s : State) (rest : List Byte) :
    (s.unread rest).altStartValid = s.altStartValid := by cases rest <;> rfl
@[simp] theorem State.unread_nextTick (s : State) (rest : List Byte) :
    (s.unread rest).nextTick = s.nextTick := by cases rest <;> rfl
@[simp] theorem State.unread_ch (s : State) (rest : List Byte) :
    (s.unread rest).ch = s.ch := by cases rest <;> rfl
@[simp] theorem State.unread_chValid (s : State) (rest : List Byte) :
    (s.unread rest).chValid = s.chValid := by cases rest <;> rfl
@[simp] theorem State.unread_dest (s : State) (rest : List Byte) :
    (s.unread rest).dest = s.dest := by cases rest <;> rfl
@[simp] theorem State.unread_stats (s : State) (rest : List Byte) :
    (s.unread rest).stats = s.stats := by cases rest <;> rfl
@[simp] theorem State.unread_halt (s : State) (rest : List Byte) :
    (s.unread rest).halt = s.halt := by cases rest <;> rfl
@[simp] theorem State.unread_rxClosed (s : State) (rest : List Byte) :
    (s.unread rest).rxClosed = s.rxClosed := by cases rest <;> rfl
@[simp] theorem State.unread_txClosed (s : State) (rest : List Byte) :
    (s.unread rest).txClosed = s.txClosed := by cases rest <;> rfl
@[simp] theorem State.unread_stopped (s : State) (rest : List Byte) :
    (s.unread rest).stopped = s.stopped := by cases rest <;> rfl
@[simp] theorem State.unread_params (s : State) (rest : List Byte) :
    (s.unread rest).params = s.params := by cases rest <;> rfl
@[simp] theorem State.unread_now (s : State) (rest : List Byte) :
    (s.unread rest).now = s.now := by cases rest <;> rfl
@[simp] theorem State.unread_nextReport (s : State) (rest : List Byte) :
    (s.unread rest).nextReport = s.nextReport := by cases rest <;> rfl
@[simp] theorem State.unread_netAnswers (s : State) (rest : List Byte) :
    (s.unread rest).netAnswers = s.netAnswers := by cases rest <;> rfl
@[simp] theorem State.unread_txPicks (s : State) (rest : List Byte) :
    (s.unread rest).txPicks = s.txPicks := by cases rest <;> rfl
@[simp] theorem State.unread_txAnswers (s : State) (rest : List Byte) :
    (s.unread rest).txAnswers = s.txAnswers := by cases rest <;> rfl
@[simp] theorem State.unread_bcPlans (s : State) (rest : List Byte) :
    (s.unread rest).bcPlans = s.bcPlans := by cases rest <;> rfl
@[simp] theorem State.unread_shutdown (s : State) (rest : List Byte) :
    (s.unread rest).shutdown = s.shutdown := by cases rest <;> rfl
@[simp] theorem State.unread_out (s : State) (rest : List Byte) :
    (s.unread rest).out = s.out := by cases rest <;> rfl

end Sys2Proof.Machine
end

