-- ==== Sys2Proof/Laws/Numbers.lean ====
section
/-! SUPPORT. The integer square root, headings, numbers told exactly, the range checks, and a field's bytes. -/

namespace Sys2Proof.Machine

theorem isqrtBits_spec (n i r : Nat) (h₁ : r * r ≤ n) (h₂ : n < (r + 2 ^ i) * (r + 2 ^ i)) :
    isqrtBits n i r * isqrtBits n i r ≤ n ∧ n < (isqrtBits n i r + 1) * (isqrtBits n i r + 1) := by
  induction i generalizing r with
  | zero => exact ⟨h₁, by simpa [isqrtBits] using h₂⟩
  | succ i ih =>
    unfold isqrtBits
    simp only
    by_cases ht : (r + 2 ^ i) * (r + 2 ^ i) ≤ n
    · rw [if_pos ht]
      exact ih _ ht (by rwa [Nat.add_assoc, ← Nat.two_mul, ← Nat.pow_succ'])
    · rw [if_neg ht]
      exact ih _ h₁ (by omega)

/-- The integer square root, rounded down. -/
theorem isqrt_spec (n : Nat) : isqrt n * isqrt n ≤ n ∧ n < (isqrt n + 1) * (isqrt n + 1) := by
  refine isqrtBits_spec n _ 0 (Nat.zero_le _) ?_
  have h := Nat.lt_log2_self (n := n)
  rw [Nat.zero_add, ← Nat.pow_add]
  exact h.trans_le (Nat.pow_le_pow_right (by decide) (by omega))

/-- A field's value is in range, or it is reported. -/
theorem checkField_fitU (n : Nat) (t : FrameType) (f : FieldName) (z : Int) :
    checkField n (fitU n) t f (some z) =
      if 0 ≤ z ∧ z ≤ 2 ^ n - 1 then .ok (BitVec.ofInt n z) else .error ⟨t, f, some z⟩ := by
  unfold checkField fitU
  by_cases h : 0 ≤ z ∧ z ≤ 2 ^ n - 1
  · simp only [if_pos h]
  · simp only [if_neg h]

theorem checkField_fitI (n : Nat) (t : FrameType) (f : FieldName) (z : Int) :
    checkField n (fitI n) t f (some z) =
      if -2 ^ (n - 1) ≤ z ∧ z ≤ 2 ^ (n - 1) - 1 then .ok (BitVec.ofInt n z) else .error ⟨t, f, some z⟩ := by
  unfold checkField fitI
  by_cases h : -2 ^ (n - 1) ≤ z ∧ z ≤ 2 ^ (n - 1) - 1
  · simp only [if_pos h]
  · simp only [if_neg h]

@[simp] theorem checkField_none (n : Nat) (fit : Int → Option (BitVec n)) (t : FrameType) (f : FieldName) :
    checkField n fit t f none = .error ⟨t, f, none⟩ := rfl

/-- The bytes of a pattern that came from an integer (30_encoding.md R120). -/
theorem beBytes_ofInt (m : Nat) (z : Int) :
    beBytes m (BitVec.ofInt (8 * m) z) = (List.range m).map fun j => BitVec.ofInt 8 (z / 2 ^ (8 * (m - 1 - j))) := by
  unfold beBytes
  refine List.map_congr_left fun j hj => ?_
  rw [List.mem_range] at hj
  apply BitVec.eq_of_toNat_eq
  rw [BitVec.extractLsb'_toNat, BitVec.toNat_ofInt, BitVec.toNat_ofInt, Nat.shiftRight_eq_div_pow]
  obtain ⟨q, hq⟩ : ∃ q, 8 * m = 8 * (m - 1 - j) + (8 + 8 * q) := ⟨j, by omega⟩
  generalize 8 * (m - 1 - j) = a at hq
  have hA : (2 : Int) ^ a ≠ 0 := by positivity
  have e : z % ↑(2 ^ (8 * m)) / (2 : Int) ^ a = z / 2 ^ a - 2 ^ 8 * (2 ^ (8 * q) * (z / 2 ^ (8 * m))) := by
    rw [Int.emod_def, Int.sub_eq_add_neg, show (-(↑(2 ^ (8 * m)) * (z / ↑(2 ^ (8 * m)))) : Int) =
      2 ^ a * (-(2 ^ 8 * (2 ^ (8 * q) * (z / 2 ^ (8 * m))))) by push_cast; rw [hq, pow_add, pow_add]; ring,
      Int.add_mul_ediv_left _ _ hA]
    rfl
  have h0 : 0 ≤ z % ↑(2 ^ (8 * m)) := Int.emod_nonneg _ (by positivity)
  zify
  rw [Int.toNat_of_nonneg h0, Int.toNat_of_nonneg (Int.emod_nonneg _ (by norm_num)), e, Int.sub_mul_emod_self_left]

theorem beBytes_length (m : Nat) (u : BitVec (8 * m)) : (beBytes m u).length = m := by simp [beBytes]

theorem rndScaled_isSome (P : Params) (x : RealNum) (a b : Rat) : (rndScaled P x a b).isSome = isFinite x := by
  unfold rndScaled
  cases isFinite x
  · rfl
  · simp only [if_true]
    split
    · rfl
    · split <;> rfl

theorem rndScaled_none (P : Params) (x : RealNum) (a b : Rat) (h : isFinite x = false) : rndScaled P x a b = none := by
  simp [rndScaled, h]

/-- Without a product the operand is rounded, whatever the arithmetic (43_telemetry_encoder.md R201). -/
theorem rndScaled_one_zero (P : Params) (x : RealNum) (h : isFinite x = true) :
    rndScaled P x 1 0 = some (rndExact P.roundTies x 1 0) := by
  unfold rndScaled
  rw [if_pos h]
  split
  · rfl
  · exact if_pos ⟨rfl, rfl⟩

/-! ### Rational values -/

theorem isqrt_sq (n : Nat) : isqrt (n * n) = n := by
  obtain ⟨h₁, h₂⟩ := isqrt_spec (n * n)
  have a := Nat.mul_self_le_mul_self_iff.mp h₁
  have b := Nat.mul_self_lt_mul_self_iff.mp h₂
  omega

theorem ratSqrt?_some {r q : Rat} (h : ratSqrt? r = some q) : 0 ≤ q ∧ q * q = r := by
  unfold ratSqrt? at h
  simp only at h
  split at h
  · rename_i hc
    obtain ⟨h0, hn, hd⟩ := hc
    obtain rfl := Option.some.inj h
    refine ⟨by positivity, ?_⟩
    have hn' : ((isqrt r.num.toNat : Rat) * isqrt r.num.toNat) = r.num := by
      rw [← Nat.cast_mul, hn, ← Int.cast_natCast, Int.toNat_of_nonneg (Rat.num_nonneg.mpr h0)]
    have hd' : ((isqrt r.den : Rat) * isqrt r.den) = r.den := by rw [← Nat.cast_mul, hd]
    rw [div_mul_div_comm, hn', hd', Rat.num_div_den]
  · cases h

theorem ratSqrt?_sq (q : Rat) (h : 0 ≤ q) : ratSqrt? (q * q) = some q := by
  have hn : (q * q).num.toNat = q.num.toNat * q.num.toNat := by
    rw [Rat.mul_self_num, Int.toNat_mul (Rat.num_nonneg.mpr h) (Rat.num_nonneg.mpr h)]
  unfold ratSqrt?
  simp only [hn, Rat.mul_self_den, isqrt_sq]
  rw [if_pos ⟨mul_self_nonneg q, trivial, trivial⟩, ← Int.cast_natCast, Int.toNat_of_nonneg (Rat.num_nonneg.mpr h),
    Rat.num_div_den]

/-- The angle of a direction given by its angle. -/
theorem arg_polar {x y r θ : ℝ} (hr : 0 < r) (hθ : θ ∈ Set.Ioc (-Real.pi) Real.pi) (hx : x = r * Real.cos θ)
    (hy : y = r * Real.sin θ) : Complex.arg ⟨x, y⟩ = θ := by
  rw [← Complex.arg_mul_cos_add_sin_mul_I hr hθ]
  congr 1
  apply Complex.ext
  · simp [hx, Complex.cos_ofReal_re, Complex.sin_ofReal_im, Complex.mul_re]
  · simp [hy, Complex.cos_ofReal_im, Complex.sin_ofReal_re, Complex.mul_im]

/-- The angle of a heading is negative just where its sine is. -/
theorem isHeading_iff (s c v : ℝ) : IsHeading s c v ↔
    ¬(s = 0 ∧ c = 0) ∧ v = Complex.arg ⟨c, s⟩ * 180 / Real.pi + if s < 0 then 360 else 0 := by
  have h : Complex.arg ⟨c, s⟩ * 180 / Real.pi < 0 ↔ s < 0 := by
    rw [div_lt_iff₀ Real.pi_pos, zero_mul, mul_neg_iff]
    simp [Complex.arg_neg_iff, not_lt.mpr]
  constructor
  · rintro ⟨_, ⟨h0, rfl⟩, rfl⟩
    refine ⟨h0, ?_⟩
    simp only [h]
    split <;> simp
  · rintro ⟨h0, rfl⟩
    refine ⟨_, ⟨h0, rfl⟩, ?_⟩
    simp only [h]
    split <;> simp

theorem isValue_heading (s c : Rat) (v : ℝ) : IsValue (.heading s c) v ↔
    ¬(s = 0 ∧ c = 0) ∧ v = Complex.arg ⟨c, s⟩ * 180 / Real.pi + if s < 0 then 360 else 0 := by
  show IsHeading s c v ↔ _
  rw [isHeading_iff]
  simp [Rat.cast_eq_zero]

/-- The heading a turn ends in: the same direction, in [0, 360), and the rule's step where the angle is `atan2`'s. -/
theorem headingTurn_spec (h : Rat) :
    (-180 < h → h ≤ 180 → headingTurn h = if h < 0 then h + 360 else h) ∧
      0 ≤ headingTurn h ∧ headingTurn h < 360 ∧ ∃ n : Int, headingTurn h = h + 360 * n := by
  have e : ((180 - h) / 360).floor = ⌊(180 - h) / 360⌋ := rfl
  have h1 := Int.floor_le ((180 - h) / 360)
  have h2 := Int.lt_floor_add_one ((180 - h) / 360)
  have e' : headingTurn h = if h + 360 * (⌊(180 - h) / 360⌋ : Rat) < 0 then h + 360 * (⌊(180 - h) / 360⌋ : Rat) + 360
      else h + 360 * (⌊(180 - h) / 360⌋ : Rat) := by simp only [headingTurn, e]
  rw [e']
  refine ⟨fun a b => ?_, ?_, ?_, ?_⟩
  · have : ⌊(180 - h) / 360⌋ = 0 := Int.floor_eq_zero_iff.mpr ⟨by linarith, by linarith⟩
    simp [this]
  · split <;> linarith
  · split <;> linarith
  · split
    · exact ⟨⌊(180 - h) / 360⌋ + 1, by push_cast; ring⟩
    · exact ⟨_, rfl⟩

/-! ### Real numbers told exactly -/

theorem squareLit_value {x : RealLit} {v : ℝ} (hx : isExact x = true) (h : IsReal x v) : v * v = squareLit x := by
  cases x with
  | rat q => obtain rfl : v = q := h; simp [squareLit]
  | root q n =>
    obtain rfl : v = q * Real.sqrt n := h
    have := Real.mul_self_sqrt (Nat.cast_nonneg (α := ℝ) n)
    simp only [squareLit]
    push_cast
    linear_combination (q : ℝ) * q * this
  | named => cases hx

theorem signedSquare_value {x : RealLit} {v : ℝ} (hx : isExact x = true) (h : IsReal x v) :
    v * |v| = signedSquare x := by
  cases x with
  | rat q => obtain rfl : v = q := h; simp [signedSquare]
  | root q n =>
    obtain rfl : v = q * Real.sqrt n := h
    have := Real.mul_self_sqrt (Nat.cast_nonneg (α := ℝ) n)
    rw [abs_mul, abs_of_nonneg (Real.sqrt_nonneg _)]
    simp only [signedSquare]
    push_cast
    linear_combination (q : ℝ) * |(q : ℝ)| * this
  | named => cases hx

theorem sumExact_value {terms : List (Rat × RealLit)} {v : ℝ} (hx : terms.all (fun t => isExact t.2) = true)
    (h : IsSum terms v) : v = sumExact terms := by
  induction terms generalizing v with
  | nil => simpa [sumExact, IsSum] using h
  | cons t terms ih =>
    obtain ⟨a, b, ha, hb, rfl⟩ := h
    simp only [List.all_cons, Bool.and_eq_true] at hx
    rw [squareLit_value hx.1 ha, ih hx.2 hb]
    simp [sumExact]

theorem squaresValue_value {x : Squares} {v : ℝ} (hx : squaresExact x = true) (h : IsSquares x v) :
    v = squaresValue x := by
  obtain ⟨b, hb, rfl⟩ := h
  rw [sumExact_value hx hb]
  simp [squaresValue]

/-- `x |x|` grows with `x`. -/
theorem signed_square_sum (u w : ℝ) :
    (u * |u| + w * |w| = 0 ↔ u + w = 0) ∧ (u * |u| + w * |w| < 0 ↔ u + w < 0) := by
  have key : ∀ a b : ℝ, a < b → a * |a| < b * |b| := by
    intro a b hab
    rcases le_total 0 a with ha | ha
    · rw [abs_of_nonneg ha, abs_of_nonneg (ha.trans hab.le)]; nlinarith
    · rw [abs_of_nonpos ha]
      rcases le_total 0 b with hb | hb
      · rw [abs_of_nonneg hb]
        rcases eq_or_lt_of_le hb with rfl | hb'
        · nlinarith
        · nlinarith [mul_pos hb' hb']
      · rw [abs_of_nonpos hb]; nlinarith
  have e : w * |w| = -((-w) * |-w|) := by rw [abs_neg]; ring
  rw [e]
  rcases lt_trichotomy u (-w) with h | h | h
  · have := key _ _ h
    exact ⟨⟨fun _ => by linarith, fun _ => by linarith⟩, ⟨fun _ => by linarith, fun _ => by linarith⟩⟩
  · subst h
    constructor <;> constructor <;> intro _ <;> simp_all
  · have := key _ _ h
    exact ⟨⟨fun _ => by linarith, fun _ => by linarith⟩, ⟨fun _ => by linarith, fun _ => by linarith⟩⟩

/-- The sign of a sine of numbers told exactly. -/
theorem crossExact_sign {y : Cross} {v : ℝ} (hy : crossExact y = true) (h : IsCross y v) :
    let f := signedSquare y.a * signedSquare y.b + signedSquare y.c * signedSquare y.d
    (f = 0 ↔ v = 0) ∧ (f < 0 ↔ v < 0) := by
  obtain ⟨a, b, c, d, ha, hb, hc, hd, rfl⟩ := h
  simp only [crossExact, Bool.and_eq_true] at hy
  obtain ⟨⟨⟨ea, eb⟩, ec⟩, ed⟩ := hy
  have e : ((signedSquare y.a * signedSquare y.b + signedSquare y.c * signedSquare y.d : Rat) : ℝ) =
      (a * b) * |a * b| + (c * d) * |c * d| := by
    push_cast
    rw [← signedSquare_value ea ha, ← signedSquare_value eb hb, ← signedSquare_value ec hc, ← signedSquare_value ed hd,
      abs_mul, abs_mul]
    ring
  obtain ⟨h₁, h₂⟩ := signed_square_sum (a * b) (c * d)
  rw [← e] at h₁ h₂
  refine ⟨?_, ?_⟩
  · rw [← Rat.cast_eq_zero (α := ℝ), h₁]; constructor <;> intro _ <;> linarith
  · rw [← Rat.cast_lt_zero (K := ℝ), h₂]; constructor <;> intro _ <;> linarith

theorem clampOne_cast (t : Rat) : ((clampOne t : Rat) : ℝ) = max (-1) (min 1 (t : ℝ)) := by simp [clampOne]

theorem clampOne_mem (t : Rat) : -1 ≤ clampOne t ∧ clampOne t ≤ 1 :=
  ⟨le_max_left _ _, max_le (by norm_num) (min_le_left _ _)⟩

/-! ### Operands with a rational value -/

@[simp] theorem scaleBracket_point (a b q : Rat) : scaleBracket a b (q, q) = (a * q + b, a * q + b) := by
  unfold scaleBracket
  split <;> rfl

/-- A number enclosed by itself is rounded as it is. -/
theorem rndEnclosed_point (t : RoundTies) (f : Nat → Rat × Rat) (q : Rat) (h : ∀ p, f p = (q, q)) :
    rndEnclosed t f = rnd t q := by
  simp [rndEnclosed, h, climb]

/-- A rational operand in exact arithmetic. -/
theorem rndScaled_rat (P : Params) (h : P.numerics = .exactReals) (q a b : Rat) :
    rndScaled P (.rat q) a b = some (rnd P.roundTies (a * q + b)) := by
  simp only [rndScaled, isFinite, h, rndExact, if_true]
  exact congrArg some (rndEnclosed_point _ _ _ fun p => scaleBracket_point a b q)

/-- The square root of a square in exact arithmetic. -/
theorem rndScaled_sqrt_sq (P : Params) (h : P.numerics = .exactReals) (q a b : Rat) (hq : 0 ≤ q) :
    rndScaled P (.sqrt (q * q)) a b = some (rnd P.roundTies (a * q + b)) := by
  simp only [rndScaled, isFinite, h, rndExact, mul_self_nonneg, decide_true, if_true]
  rw [rndEnclosed_point _ _ (a * q + b) fun p => by simp [bracket, ratBracket, ratSqrt?_sq q hq]]

end Sys2Proof.Machine
end

