-- ==== Sys2Proof/Laws/Brackets.lean ====
section
/-! SUPPORT. The brackets of the exact arithmetic hold the numbers they are asked for: bounds of the computed arctangent, of
pi, of the angle of a direction and of the arcsine (assumption 10). -/

namespace Sys2Proof.Machine

/-! ### The arctangent series -/

/-- The arctangent without its first `i` terms, with the sign of the next one. -/
noncomputable def atanTail : Nat → ℝ → ℝ
  | 0, x => Real.arctan x
  | i + 1, x => x ^ (2 * i + 1) / ((2 * i + 1 : Nat) : ℝ) - atanTail i x

theorem atanTail_hasDerivAt (i : Nat) (x : ℝ) : HasDerivAt (atanTail i) (x ^ (2 * i) / (1 + x ^ 2)) x := by
  have hx : (1 + x ^ 2 : ℝ) ≠ 0 := by positivity
  induction i with
  | zero => simpa [atanTail] using Real.hasDerivAt_arctan x
  | succ i ih =>
    have h := (((hasDerivAt_pow (2 * i + 1) x).div_const ((2 * i + 1 : Nat) : ℝ)).sub ih)
    have hi : ((2 * i + 1 : Nat) : ℝ) ≠ 0 := by positivity
    have e : ((2 * i + 1 : Nat) : ℝ) * x ^ (2 * i + 1 - 1) / ((2 * i + 1 : Nat) : ℝ) - x ^ (2 * i) / (1 + x ^ 2) =
        x ^ (2 * (i + 1)) / (1 + x ^ 2) := by
      rw [Nat.add_sub_cancel, mul_div_cancel_left₀ _ hi]; field_simp; ring
    rw [e] at h
    exact h

theorem atanTail_nonneg (i : Nat) {x : ℝ} (hx : 0 ≤ x) : 0 ≤ atanTail i x := by
  have hm : Monotone (atanTail i) := monotone_of_deriv_nonneg (fun y => (atanTail_hasDerivAt i y).differentiableAt) fun y => by
    rw [(atanTail_hasDerivAt i y).deriv]
    have : 0 ≤ y ^ (2 * i) := by rw [pow_mul]; positivity
    positivity
  have h0 : atanTail i 0 = 0 := by
    clear hm hx
    induction i with
    | zero => simp [atanTail]
    | succ i ih => simp [atanTail, ih]
  rw [← h0]; exact hm hx

theorem atanTail_le (i : Nat) {x : ℝ} (hx : 0 ≤ x) : atanTail i x ≤ x ^ (2 * i + 1) := by
  have h : atanTail i x ≤ x ^ (2 * i + 1) / ((2 * i + 1 : Nat) : ℝ) := by
    have := atanTail_nonneg (i + 1) hx
    unfold atanTail at this; linarith
  refine h.trans (div_le_self (by positivity) ?_)
  exact_mod_cast Nat.le_add_left 1 (2 * i)

/-- Division of naturals loses less than one. -/
theorem nat_div_bounds (n d : Nat) (hd : 0 < d) : (n : ℝ) / d - 1 ≤ (n / d : Nat) ∧ ((n / d : Nat) : ℝ) ≤ n / d :=
  ⟨by
    have h := Nat.lt_div_mul_add (a := n) hd
    have h' : (n : ℝ) < (n / d : Nat) * d + d := by exact_mod_cast h
    have hd' : (0 : ℝ) < d := by exact_mod_cast hd
    rw [sub_le_iff_le_add, div_le_iff₀ hd']; nlinarith, Nat.cast_div_le⟩

/-- The series, from a power `t` that is the exact one `S x^(2i+1)` to within 3, each next power being to within 3 again:
within 4 for each term, and the tail that is left out. -/
theorem atanSeries_near (P y2 : Nat) (S x : ℝ) (hS : S = 2 ^ P) (hx : 0 ≤ x) (hx2 : x ≤ 1 / 2)
    (hy : (y2 : ℝ) ≤ x ^ 2 * S ∧ x ^ 2 * S - 2 ≤ y2) (fuel i t : Nat)
    (ht : (t : ℝ) ≤ S * x ^ (2 * i + 1) ∧ S * x ^ (2 * i + 1) - 3 ≤ t) :
    |(atanSeries P y2 fuel i t : ℝ) - S * atanTail i x| ≤ 4 * fuel + S * x ^ (2 * (i + fuel) + 1) := by
  have hS0 : 0 < S := by rw [hS]; positivity
  induction fuel generalizing i t with
  | zero =>
    have h₁ := atanTail_nonneg i hx
    have h₂ := atanTail_le i hx
    simp only [atanSeries, Int.cast_zero, zero_sub, abs_neg, Nat.cast_zero, mul_zero, zero_add, Nat.add_zero]
    rw [abs_of_nonneg (by positivity)]
    exact mul_le_mul_of_nonneg_left h₂ hS0.le
  | succ fuel ih =>
    have ht0 : (0 : ℝ) ≤ t := Nat.cast_nonneg _
    -- the next power
    have hp : x ^ (2 * (i + 1) + 1) = x ^ (2 * i + 1) * x ^ 2 := by ring
    have hq : x ^ 2 ≤ 1 / 4 := by nlinarith
    have hu : x ^ (2 * i + 1) ≤ 1 / 2 := by
      rw [pow_succ, pow_mul]
      have : (x ^ 2) ^ i ≤ 1 := pow_le_one₀ (by positivity) (by linarith)
      nlinarith [pow_nonneg (sq_nonneg x) i]
    have hnext := nat_div_bounds (t * y2) (2 ^ P) (by positivity)
    rw [← Nat.shiftRight_eq_div_pow] at hnext
    push_cast at hnext
    rw [← hS] at hnext
    have hty₁ : (t : ℝ) * y2 / S ≤ S * x ^ (2 * i + 1) * x ^ 2 := by
      rw [div_le_iff₀ hS0]
      calc (t : ℝ) * y2 ≤ (S * x ^ (2 * i + 1)) * (x ^ 2 * S) := mul_le_mul ht.1 hy.1 (Nat.cast_nonneg _) (by positivity)
        _ = _ := by ring
    have hty₂ : S * x ^ (2 * i + 1) * x ^ 2 - 2 ≤ (t : ℝ) * y2 / S := by
      rw [le_div_iff₀ hS0]
      have h₁ : (t : ℝ) * (x ^ 2 * S - 2) ≤ t * y2 := mul_le_mul_of_nonneg_left hy.2 ht0
      have h₂ : (S * x ^ (2 * i + 1) - 3) * (x ^ 2 * S) ≤ t * (x ^ 2 * S) :=
        mul_le_mul_of_nonneg_right ht.2 (by positivity)
      have h₃ : (t : ℝ) ≤ S / 2 := ht.1.trans (by nlinarith)
      nlinarith
    have hl := ih (i + 1) ((t * y2) >>> P) ⟨by rw [hp, ← mul_assoc]; exact hnext.2.trans hty₁, by
      rw [hp, ← mul_assoc]; linarith [hnext.1]⟩
    -- this term
    have hd := nat_div_bounds t (2 * i + 1) (by omega)
    have hi : (1 : ℝ) ≤ ((2 * i + 1 : Nat) : ℝ) := by exact_mod_cast Nat.le_add_left 1 (2 * i)
    have hi0 : (0 : ℝ) < ((2 * i + 1 : Nat) : ℝ) := by linarith
    have e₁ : (t : ℝ) / ((2 * i + 1 : Nat) : ℝ) ≤ S * x ^ (2 * i + 1) / ((2 * i + 1 : Nat) : ℝ) :=
      div_le_div_of_nonneg_right ht.1 hi0.le
    have e₂ : S * x ^ (2 * i + 1) / ((2 * i + 1 : Nat) : ℝ) - 3 ≤ (t : ℝ) / ((2 * i + 1 : Nat) : ℝ) := by
      rw [sub_le_iff_le_add, div_le_iff₀ hi0, add_mul, div_mul_cancel₀ _ hi0.ne']
      nlinarith [ht.2]
    have hT : S * atanTail i x = S * x ^ (2 * i + 1) / ((2 * i + 1 : Nat) : ℝ) - S * atanTail (i + 1) x := by
      rw [atanTail]; ring
    have hidx : 2 * (i + 1 + fuel) + 1 = 2 * (i + (fuel + 1)) + 1 := by ring
    rw [hidx] at hl
    rw [atanSeries, hT, Int.cast_sub, Int.cast_natCast]
    rw [abs_le] at hl ⊢
    push_cast at hl hd e₁ e₂ ⊢
    constructor <;> linarith [hl.1, hl.2, hd.1, hd.2]

/-- What a computed arctangent is off by at most, in units of `2^-P`. -/
def atanErr (P : Nat) : ℝ := 2 * P + 10

/-- The arctangent of a ratio, within `atanErr`. -/
theorem atanSmall_near (P n d : Nat) (hd : 0 < d) (h : 2 * n ≤ d) :
    |(atanSmall P n d : ℝ) - 2 ^ P * Real.arctan ((n : ℝ) / d)| ≤ atanErr P := by
  have hd' : (0 : ℝ) < d := by exact_mod_cast hd
  obtain ⟨S, hS⟩ : ∃ S : ℝ, S = 2 ^ P := ⟨_, rfl⟩
  have hS0 : 0 < S := by rw [hS]; positivity
  obtain ⟨x, hx⟩ : ∃ x : ℝ, x = (n : ℝ) / d := ⟨_, rfl⟩
  have hx0 : 0 ≤ x := by rw [hx]; positivity
  have hx2 : x ≤ 1 / 2 := by
    rw [hx, div_le_iff₀ hd']
    have : (2 * n : ℝ) ≤ d := by exact_mod_cast h
    linarith
  have hy := nat_div_bounds (n <<< P) d hd
  rw [Nat.shiftLeft_eq] at hy
  push_cast at hy
  have e : (n : ℝ) * 2 ^ P / d = x * S := by rw [hx, hS]; ring
  rw [e] at hy
  have hq := nat_div_bounds ((n * 2 ^ P / d) * (n * 2 ^ P / d)) (2 ^ P) (by positivity)
  rw [← Nat.shiftRight_eq_div_pow] at hq
  simp only [Nat.cast_mul (n * 2 ^ P / d), Nat.cast_pow, Nat.cast_ofNat, ← hS] at hq
  obtain ⟨Y, hY⟩ : ∃ Y : ℝ, Y = ((n * 2 ^ P / d : Nat) : ℝ) := ⟨_, rfl⟩
  rw [← hY] at hy hq
  have hY0 : 0 ≤ Y := by rw [hY]; positivity
  have q₁ : Y * Y / S ≤ x ^ 2 * S := by
    rw [div_le_iff₀ hS0]
    calc Y * Y ≤ (x * S) * (x * S) := mul_le_mul hy.2 hy.2 hY0 (by positivity)
      _ = _ := by ring
  have q₂ : x ^ 2 * S - 1 ≤ Y * Y / S := by
    rw [le_div_iff₀ hS0]
    rcases le_total (x * S) 1 with h1 | h1
    · nlinarith [mul_nonneg hx0 hS0.le, mul_nonneg hY0 hY0]
    · nlinarith [mul_nonneg hx0 hS0.le]
  have hser := atanSeries_near P ((n * 2 ^ P / d * (n * 2 ^ P / d)) >>> P) S x hS hx0 hx2
    ⟨hq.2.trans q₁, by linarith [hq.1]⟩ (P / 2 + 2) 0 (n * 2 ^ P / d)
    ⟨by rw [← hY]; simpa [mul_comm] using hy.2, by rw [← hY]; have := hy.1; simp only [Nat.mul_zero, zero_add, pow_one]; nlinarith⟩
  have htail : S * x ^ (2 * (0 + (P / 2 + 2)) + 1) ≤ 1 := by
    have h₁ : x ^ (2 * (0 + (P / 2 + 2)) + 1) ≤ (1 / 2) ^ (2 * (0 + (P / 2 + 2)) + 1) := pow_le_pow_left₀ hx0 hx2 _
    have h₂ : (1 / 2 : ℝ) ^ (2 * (0 + (P / 2 + 2)) + 1) ≤ (1 / 2) ^ P :=
      pow_le_pow_of_le_one (by norm_num) (by norm_num) (by omega)
    calc S * x ^ (2 * (0 + (P / 2 + 2)) + 1) ≤ S * (1 / 2) ^ P := mul_le_mul_of_nonneg_left (h₁.trans h₂) hS0.le
      _ = 1 := by rw [hS, ← mul_pow]; norm_num
  have hN : (4 : ℝ) * ((P / 2 + 2 : Nat) : ℝ) ≤ 2 * P + 8 := by
    have : ((4 * (P / 2 + 2) : Nat) : ℝ) ≤ ((2 * P + 8 : Nat) : ℝ) := by exact_mod_cast (by omega)
    push_cast at this ⊢; linarith
  unfold atanSmall atanErr
  simp only [Nat.shiftLeft_eq]
  rw [← hx, ← hS]
  refine hser.trans ?_
  linarith

/-! ### Arctangents and pi -/

theorem atanErr_nonneg (P : Nat) : 0 ≤ atanErr P := by unfold atanErr; positivity

theorem atanUnit_near (P n d : Nat) (hd : 0 < d) (h : n ≤ d) :
    |(atanUnit P n d : ℝ) - 2 ^ P * Real.arctan ((n : ℝ) / d)| ≤ 2 * atanErr P := by
  have hE := atanErr_nonneg P
  unfold atanUnit
  split
  · rename_i h2
    exact (atanSmall_near P n d hd h2).trans (by linarith)
  · rename_i h2
    have h₁ := atanSmall_near P 1 2 (by omega) (by omega)
    have h₂ := atanSmall_near P (2 * n - d) (2 * d + n) (by omega) (by omega)
    have hd' : (0 : ℝ) < d := by exact_mod_cast hd
    have hn : (0 : ℝ) ≤ n := Nat.cast_nonneg _
    have hnd : (n : ℝ) ≤ d := by exact_mod_cast h
    have hsub : ((2 * n - d : Nat) : ℝ) = 2 * n - d := by rw [Nat.cast_sub (by omega)]; push_cast; ring
    have hadd : Real.arctan ((n : ℝ) / d) =
        Real.arctan (((1 : Nat) : ℝ) / ((2 : Nat) : ℝ)) + Real.arctan (((2 * n - d : Nat) : ℝ) / ((2 * d + n : Nat) : ℝ)) := by
      rw [hsub]; push_cast
      have hden : (0 : ℝ) < 2 * d + n := by linarith
      rw [Real.arctan_add]
      · congr 1
        have e : (1 : ℝ) - 1 / 2 * ((2 * n - d) / (2 * d + n)) = 5 * d / (2 * (2 * d + n)) := by
          field_simp; ring
        rw [e]; field_simp; ring
      · rw [div_mul_div_comm, div_lt_one (by positivity)]; linarith
    rw [hadd, Int.cast_add]
    rw [abs_le] at h₁ h₂ ⊢
    constructor <;> linarith [h₁.1, h₁.2, h₂.1, h₂.2]

theorem piFix_near (P : Nat) : |(piFix P : ℝ) - 2 ^ P * Real.pi| ≤ 20 * atanErr P := by
  have h₁ := atanSmall_near P 1 5 (by omega) (by omega)
  have h₂ := atanSmall_near P 1 239 (by omega) (by omega)
  have hm := Real.four_mul_arctan_inv_5_sub_arctan_inv_239
  have hpi : Real.pi = 4 * (4 * Real.arctan (((1 : Nat) : ℝ) / ((5 : Nat) : ℝ)) - Real.arctan (((1 : Nat) : ℝ) / ((239 : Nat) : ℝ))) := by
    push_cast; rw [one_div, one_div, hm]; ring
  rw [hpi]; unfold piFix
  push_cast at h₁ h₂ ⊢
  rw [abs_le] at h₁ h₂ ⊢
  constructor <;> linarith [h₁.1, h₁.2, h₂.1, h₂.2]

/-- The direction `(d, n)` of the first quadrant, its angle `φ`, and that angle computed. -/
theorem atanPos_near (P n d : Nat) (h : ¬(n = 0 ∧ d = 0)) :
    ∃ r φ : ℝ, 0 < r ∧ 0 ≤ φ ∧ φ ≤ Real.pi / 2 ∧ (d : ℝ) = r * Real.cos φ ∧ (n : ℝ) = r * Real.sin φ ∧
      (0 < d → φ = Real.arctan ((n : ℝ) / d)) ∧
      |(atanPos P n d : ℝ) - 2 ^ P * φ| ≤ 12 * atanErr P + 1 := by
  have hE := atanErr_nonneg P
  have polar : ∀ a b : ℝ, 0 < b → b = Real.sqrt (a ^ 2 + b ^ 2) * Real.cos (Real.arctan (a / b)) ∧
      a = Real.sqrt (a ^ 2 + b ^ 2) * Real.sin (Real.arctan (a / b)) ∧ 0 < Real.sqrt (a ^ 2 + b ^ 2) := by
    intro a b hb
    have hs : Real.sqrt (a ^ 2 + b ^ 2) = b * Real.sqrt (1 + (a / b) ^ 2) := by
      rw [show a ^ 2 + b ^ 2 = b ^ 2 * (1 + (a / b) ^ 2) by field_simp; ring, Real.sqrt_mul (by positivity), Real.sqrt_sq hb.le]
    have hw : Real.sqrt (1 + (a / b) ^ 2) ≠ 0 := (Real.sqrt_pos.mpr (by positivity)).ne'
    refine ⟨?_, ?_, Real.sqrt_pos.mpr (by positivity)⟩
    · rw [hs, Real.cos_arctan]; field_simp
    · rw [hs, Real.sin_arctan]; field_simp
  unfold atanPos
  split
  · rename_i hnd
    have hd : 0 < d := by omega
    have hd' : (0 : ℝ) < d := by exact_mod_cast hd
    obtain ⟨p₁, p₂, p₃⟩ := polar n d hd'
    refine ⟨_, _, p₃, Real.arctan_nonneg.mpr (by positivity), (Real.arctan_lt_pi_div_two _).le, p₁, p₂, fun _ => rfl, ?_⟩
    exact (atanUnit_near P n d hd hnd).trans (by linarith)
  · rename_i hnd
    have hn : 0 < n := by omega
    have hn' : (0 : ℝ) < n := by exact_mod_cast hn
    obtain ⟨p₁, p₂, p₃⟩ := polar d n hn'
    refine ⟨_, Real.pi / 2 - Real.arctan ((d : ℝ) / n), p₃, ?_, ?_, ?_, ?_, ?_, ?_⟩
    · linarith [Real.arctan_lt_pi_div_two ((d : ℝ) / n)]
    · linarith [Real.arctan_nonneg.mpr (show (0 : ℝ) ≤ d / n by positivity)]
    · rw [Real.cos_pi_div_two_sub]; exact p₂
    · rw [Real.sin_pi_div_two_sub]; exact p₁
    · intro hd
      have hd' : (0 : ℝ) < d := by exact_mod_cast hd
      rw [← Real.arctan_inv_of_pos (by positivity), inv_div]
    · have h₁ := atanUnit_near P d n hn (by omega)
      have h₂ := piFix_near P
      have h₃ : (piFix P : ℝ) / 2 - 1 ≤ ((piFix P / 2 : Int) : ℝ) ∧ ((piFix P / 2 : Int) : ℝ) ≤ (piFix P : ℝ) / 2 := by
        have e : 2 * (piFix P / 2) ≤ piFix P ∧ piFix P ≤ 2 * (piFix P / 2) + 1 := by omega
        have e₁ : ((2 * (piFix P / 2) : Int) : ℝ) ≤ (piFix P : ℝ) := by exact_mod_cast e.1
        have e₂ : (piFix P : ℝ) ≤ ((2 * (piFix P / 2) + 1 : Int) : ℝ) := by exact_mod_cast e.2
        rw [Int.cast_mul] at e₁; rw [Int.cast_add, Int.cast_mul] at e₂
        norm_num at e₁ e₂
        constructor <;> linarith
      rw [Int.cast_sub]
      rw [abs_le] at h₁ h₂ ⊢
      constructor <;> linarith [h₁.1, h₁.2, h₂.1, h₂.2, h₃.1, h₃.2]

/-- The angle of a direction. -/
theorem atan2Fix_near (P : Nat) (y x : Rat) (h : ¬(y = 0 ∧ x = 0)) :
    |(atan2Fix P y x : ℝ) - 2 ^ P * Complex.arg ⟨x, y⟩| ≤ 33 * atanErr P := by
  have hE : 10 ≤ atanErr P := by unfold atanErr; linarith [Nat.cast_nonneg (α := ℝ) P]
  have hπ := Real.pi_pos
  obtain ⟨r, φ, hr, h0, h1, hc, hs, -, hn⟩ := atanPos_near P (y.num.natAbs * x.den) (x.num.natAbs * y.den) (by
    rintro ⟨hy, hx⟩
    rcases Nat.mul_eq_zero.mp hy with hy | hy
    · rcases Nat.mul_eq_zero.mp hx with hx | hx
      · exact h ⟨Rat.num_eq_zero.mp (Int.natAbs_eq_zero.mp hy), Rat.num_eq_zero.mp (Int.natAbs_eq_zero.mp hx)⟩
      · exact y.den_nz hx
    · exact x.den_nz hy)
  have habs : ∀ q : Rat, ((q.num.natAbs : Nat) : ℝ) = |(q : ℝ)| * q.den := by
    intro q
    have e : (q : ℝ) = (q.num : ℝ) / q.den := Rat.cast_def q
    have hd : (0 : ℝ) < q.den := by exact_mod_cast q.den_pos
    rw [e, abs_div, abs_of_pos hd, div_mul_cancel₀ _ hd.ne', ← Int.cast_abs, Int.abs_eq_natAbs, Int.cast_natCast]
  obtain ⟨k, hk⟩ : ∃ k : ℝ, k = (x.den : ℝ) * y.den := ⟨_, rfl⟩
  have hk0 : 0 < k := by
    rw [hk]; exact mul_pos (by exact_mod_cast x.den_pos) (by exact_mod_cast y.den_pos)
  have hc' : |(x : ℝ)| = r / k * Real.cos φ := by
    rw [div_mul_eq_mul_div, eq_div_iff hk0.ne', ← hc, hk]; push_cast [habs]; ring
  have hs' : |(y : ℝ)| = r / k * Real.sin φ := by
    rw [div_mul_eq_mul_div, eq_div_iff hk0.ne', ← hs, hk]; push_cast [habs]; ring
  have hrk : 0 < r / k := by positivity
  have hp := piFix_near P
  rw [abs_le] at hn hp
  unfold atan2Fix
  simp only
  split
  · rename_i hx
    have hx' : (0 : ℝ) ≤ x := by exact_mod_cast hx
    rw [abs_of_nonneg hx'] at hc'
    split
    · rename_i hy
      rw [abs_of_nonneg (by exact_mod_cast hy)] at hs'
      rw [arg_polar hrk ⟨by linarith, by linarith⟩ hc' hs', abs_le]
      constructor <;> linarith
    · rename_i hy
      have hy' : (y : ℝ) < 0 := by exact_mod_cast not_le.mp hy
      rw [abs_of_neg hy'] at hs'
      rw [arg_polar (θ := -φ) hrk ⟨by linarith, by linarith⟩ (by rw [Real.cos_neg]; exact hc')
        (by rw [Real.sin_neg]; linarith), Int.cast_neg, abs_le]
      constructor <;> linarith
  · rename_i hx
    have hx' : (x : ℝ) < 0 := by exact_mod_cast not_le.mp hx
    rw [abs_of_neg hx'] at hc'
    split
    · rename_i hy
      rw [abs_of_nonneg (by exact_mod_cast hy)] at hs'
      rw [arg_polar (θ := Real.pi - φ) hrk ⟨by linarith, by linarith⟩ (by rw [Real.cos_pi_sub]; linarith)
        (by rw [Real.sin_pi_sub]; exact hs'), Int.cast_sub, abs_le]
      constructor <;> linarith
    · rename_i hy
      have hy' : (y : ℝ) < 0 := by exact_mod_cast not_le.mp hy
      rw [abs_of_neg hy'] at hs'
      have hφ : φ ≠ 0 := fun e => by rw [e, Real.sin_zero, mul_zero] at hs'; linarith
      have hφ' : 0 < φ := lt_of_le_of_ne h0 hφ.symm
      rw [arg_polar (θ := φ - Real.pi) hrk ⟨by linarith, by linarith⟩ (by rw [Real.cos_sub_pi]; linarith)
        (by rw [Real.sin_sub_pi]; linarith), Int.cast_sub, abs_le]
      constructor <;> linarith

/-! ### Square roots and the arcsine -/

/-- The square root of `r` at scale `2^P`, rounded down. -/
theorem isqrt_scaled (P : Nat) (r : Rat) (hr : 0 ≤ r) :
    (isqrt (r * 4 ^ P).floor.toNat : ℝ) ≤ 2 ^ P * Real.sqrt r ∧
      2 ^ P * Real.sqrt r < (isqrt (r * 4 ^ P).floor.toNat : ℝ) + 1 := by
  obtain ⟨m, hm⟩ : ∃ m : Nat, m = (r * 4 ^ P).floor.toNat := ⟨_, rfl⟩
  rw [← hm]
  have h0 : (0 : Rat) ≤ r * 4 ^ P := by positivity
  have hf : ((r * 4 ^ P).floor : Int) = (m : Int) := by
    rw [hm, Int.toNat_of_nonneg]
    exact Rat.le_floor_iff.mpr (by simpa using h0)
  have h₁ : (m : Rat) ≤ r * 4 ^ P := by
    have := Rat.floor_le (a := r * 4 ^ P); rw [hf] at this; exact_mod_cast this
  have h₂ : r * 4 ^ P < m + 1 := by
    have := Rat.lt_floor_add_one (r * 4 ^ P); rw [hf] at this; exact_mod_cast this
  have g₁ : (m : ℝ) ≤ r * 4 ^ P := by exact_mod_cast h₁
  have g₂ : (r : ℝ) * 4 ^ P < m + 1 := by exact_mod_cast h₂
  obtain ⟨s₁, s₂⟩ := isqrt_spec m
  have t₁ : (isqrt m : ℝ) * isqrt m ≤ m := by exact_mod_cast s₁
  have t₂ : (m : ℝ) + 1 ≤ (isqrt m + 1) * (isqrt m + 1) := by exact_mod_cast s₂
  have e : (2 : ℝ) ^ P * Real.sqrt r = Real.sqrt (r * 4 ^ P) := by
    rw [show (4 : ℝ) ^ P = (2 ^ P) ^ 2 by rw [← pow_mul, mul_comm, pow_mul]; norm_num,
      Real.sqrt_mul (by exact_mod_cast hr), Real.sqrt_sq (by positivity), mul_comm]
  rw [e]
  constructor
  · exact Real.le_sqrt_of_sq_le (by nlinarith)
  · rw [Real.sqrt_lt' (by positivity)]; nlinarith

theorem arcsin_half (t : ℝ) (h0 : 0 ≤ t) (h1 : t ≤ 1) :
    Real.arcsin t = 2 * Real.arctan (t / (1 + Real.sqrt (1 - t ^ 2))) := by
  obtain ⟨θ, hθ⟩ : ∃ θ, θ = Real.arcsin t := ⟨_, rfl⟩
  have hs : Real.sin θ = t := by rw [hθ]; exact Real.sin_arcsin (by linarith) h1
  have hc : Real.cos θ = Real.sqrt (1 - t ^ 2) := by rw [hθ, Real.cos_arcsin]
  have hl : 0 ≤ θ := by rw [hθ]; exact Real.arcsin_nonneg.mpr h0
  have hu : θ ≤ Real.pi / 2 := by rw [hθ]; exact Real.arcsin_le_pi_div_two t
  have hπ := Real.pi_pos
  have hcos : 0 < Real.cos (θ / 2) := Real.cos_pos_of_mem_Ioo ⟨by linarith, by linarith⟩
  have e : t / (1 + Real.sqrt (1 - t ^ 2)) = Real.tan (θ / 2) := by
    rw [← hc, ← hs]
    have h₁ : Real.sin θ = 2 * Real.sin (θ / 2) * Real.cos (θ / 2) := by rw [← Real.sin_two_mul]; ring_nf
    have h₂ : Real.cos θ = 2 * Real.cos (θ / 2) ^ 2 - 1 := by rw [← Real.cos_two_mul]; ring_nf
    rw [h₁, h₂, Real.tan_eq_sin_div_cos]
    field_simp
    ring
  rw [e, Real.arctan_tan (by linarith) (by linarith), ← hθ]; ring

theorem arctan_lipschitz (u w : ℝ) : |Real.arctan u - Real.arctan w| ≤ |u - w| := by
  have h := Convex.norm_image_sub_le_of_norm_hasDerivWithin_le (f := Real.arctan) (f' := fun x => 1 / (1 + x ^ 2)) (C := 1)
    (s := Set.univ) (x := w) (y := u) (fun x _ => (Real.hasDerivAt_arctan x).hasDerivWithinAt)
    (fun x _ => by
      rw [Real.norm_eq_abs, abs_of_pos (by positivity), div_le_one (by positivity)]
      nlinarith [sq_nonneg x]) convex_univ (Set.mem_univ _) (Set.mem_univ _)
  simpa using h

/-- The arcsine of a number not below 0. -/
theorem asin_pos_near (P n c : Nat) (τ σ : ℝ) (hτ : 0 ≤ τ) (hσ : 0 ≤ σ) (hτ1 : τ ≤ 1)
    (hn : (n : ℝ) ≤ 2 ^ P * τ ∧ 2 ^ P * τ - 1 ≤ n) (hc : (c : ℝ) ≤ 2 ^ P * σ ∧ 2 ^ P * σ - 1 ≤ c) :
    |(atanPos P n (2 ^ P + c) : ℝ) - 2 ^ P * Real.arctan (τ / (1 + σ))| ≤ 12 * atanErr P + 3 := by
  obtain ⟨S, hS⟩ : ∃ S : ℝ, S = 2 ^ P := ⟨_, rfl⟩
  have hS0 : 0 < S := by rw [hS]; positivity
  rw [← hS] at hn hc ⊢
  obtain ⟨r, φ, -, -, -, -, -, hφ, h⟩ := atanPos_near P n (2 ^ P + c) (by
    rintro ⟨-, h⟩; have : 0 < 2 ^ P := by positivity
    omega)
  have hpos : 0 < 2 ^ P + c := by positivity
  have hφ := hφ hpos
  push_cast at hφ
  rw [← hS] at h hφ
  have hc0 : (0 : ℝ) ≤ c := Nat.cast_nonneg _
  have hn0 : (0 : ℝ) ≤ n := Nat.cast_nonneg _
  have hd : |(n : ℝ) / (S + c) - τ / (1 + σ)| ≤ 2 / S := by
    have e : (n : ℝ) / (S + c) - τ / (1 + σ) = (n * (1 + σ) - τ * (S + c)) / ((S + c) * (1 + σ)) := by
      rw [div_sub_div _ _ (by positivity) (by positivity)]; ring
    rw [e, abs_div, abs_of_pos (show (0 : ℝ) < (S + c) * (1 + σ) by positivity), div_le_div_iff₀ (by positivity) hS0]
    have hnum : |(n : ℝ) * (1 + σ) - τ * (S + c)| ≤ 2 * (1 + σ) := by
      rw [abs_le]; constructor <;> nlinarith
    have : (1 + σ) * S ≤ (S + c) * (1 + σ) := by nlinarith
    nlinarith
  have hl := (arctan_lipschitz _ _).trans hd
  rw [← hφ] at hl
  have hl' : |S * φ - S * Real.arctan (τ / (1 + σ))| ≤ 2 := by
    rw [← mul_sub, abs_mul, abs_of_pos hS0]
    calc S * |φ - Real.arctan (τ / (1 + σ))| ≤ S * (2 / S) := mul_le_mul_of_nonneg_left hl hS0.le
      _ = 2 := by field_simp
  rw [abs_le] at h hl' ⊢
  constructor <;> linarith [h.1, h.2, hl'.1, hl'.2]

theorem asinFix_near (P : Nat) (t : Rat) (h0 : -1 ≤ t) (h1 : t ≤ 1) :
    |(asinFix P t : ℝ) - 2 ^ P * Real.arcsin t| ≤ 24 * atanErr P + 6 := by
  obtain ⟨τ, hτ⟩ : ∃ τ : ℝ, τ = |(t : ℝ)| := ⟨_, rfl⟩
  have hτ1 : τ ≤ 1 := by rw [hτ, abs_le]; exact_mod_cast And.intro h0 h1
  have hτ0 : 0 ≤ τ := by rw [hτ]; exact abs_nonneg _
  have hσ := isqrt_scaled P (1 - t * t) (by nlinarith)
  have hσ' : ((1 - t * t : Rat) : ℝ) = 1 - τ ^ 2 := by rw [hτ, sq_abs]; push_cast; ring
  rw [hσ'] at hσ
  have hd : (0 : ℝ) < t.den := by exact_mod_cast t.den_pos
  have hn := nat_div_bounds (t.num.natAbs <<< P) t.den t.den_pos
  have e : ((t.num.natAbs <<< P : Nat) : ℝ) / t.den = 2 ^ P * τ := by
    have e₁ : (t : ℝ) = (t.num : ℝ) / t.den := Rat.cast_def t
    rw [Nat.shiftLeft_eq, hτ, e₁, abs_div, abs_of_pos hd, ← Int.cast_abs, Int.abs_eq_natAbs, Int.cast_natCast]
    push_cast; ring
  rw [e] at hn
  have h := asin_pos_near P _ _ τ (Real.sqrt (1 - τ ^ 2)) hτ0 (Real.sqrt_nonneg _) hτ1 ⟨hn.2, hn.1⟩
    ⟨hσ.1, by linarith [hσ.2]⟩
  have ha := arcsin_half τ hτ0 hτ1
  unfold asinFix
  simp only
  split
  · rename_i ht
    have : τ = t := by rw [hτ]; exact abs_of_nonneg (by exact_mod_cast ht)
    rw [← this, ha]; push_cast
    rw [abs_le] at h ⊢
    constructor <;> linarith [h.1, h.2]
  · rename_i ht
    have : (t : ℝ) = -τ := by rw [hτ, abs_of_neg (by exact_mod_cast not_le.mp ht), neg_neg]
    rw [this, Real.arcsin_neg, ha]; push_cast
    rw [abs_le] at h ⊢
    constructor <;> linarith [h.1, h.2]

/-! ### Headings -/

/-- The bracket's room is more than any of the errors, and pi is known well enough to divide by. -/
theorem atanErr_small (P : Nat) (h : 64 ≤ P) : 20 * atanErr P ≤ 2 ^ P / 8 ∧ 5000 * atanErr P + 2 ≤ 2 ^ 64 + 2 ^ 16 * (P : ℝ) := by
  have hp : ((P * 2 ^ 20 : Nat) : ℝ) ≤ ((2 ^ P : Nat) : ℝ) := by
    have : P * 2 ^ 20 ≤ 2 ^ P := by
      induction P, h using Nat.le_induction with
      | base => decide
      | succ n hn ih =>
        have h₁ : 1 * 2 ^ 20 ≤ n * 2 ^ 20 := Nat.mul_le_mul_right _ (by omega)
        calc (n + 1) * 2 ^ 20 = n * 2 ^ 20 + 1 * 2 ^ 20 := Nat.add_mul ..
          _ ≤ 2 ^ n + 2 ^ n := Nat.add_le_add ih (h₁.trans ih)
          _ = 2 ^ (n + 1) := by rw [pow_succ, Nat.mul_two]
    exact Nat.cast_le.mpr this
  have h' : (64 : ℝ) ≤ P := by exact_mod_cast h
  push_cast at hp
  unfold atanErr
  constructor <;> norm_num at hp ⊢ <;> linarith

/-- The direction's angle in degrees. -/
theorem turn_near (P : Nat) (hP : 64 ≤ P) (s c : Rat) (h : ¬(s = 0 ∧ c = 0)) :
    |((atan2Fix P s c * 2 ^ P * 180 / piFix P : Int) : ℝ) - 2 ^ P * (Complex.arg ⟨c, s⟩ * 180 / Real.pi)| ≤
      5000 * atanErr P + 1 := by
  obtain ⟨hE, -⟩ := atanErr_small P hP
  have hE0 := atanErr_nonneg P
  have hπ := Real.pi_pos
  have hπ3 := Real.pi_gt_three
  obtain ⟨S, hS⟩ : ∃ S : ℝ, S = 2 ^ P := ⟨_, rfl⟩
  have hS0 : 0 < S := by rw [hS]; positivity
  obtain ⟨A, hA⟩ : ∃ A : ℝ, A = Complex.arg ⟨c, s⟩ := ⟨_, rfl⟩
  have hA1 : |A| ≤ Real.pi := by rw [hA]; exact Complex.abs_arg_le_pi _
  have ha := atan2Fix_near P s c h
  have hp := piFix_near P
  rw [← hS, ← hA] at ha
  rw [← hS] at hp hE ⊢
  rw [← hA]
  obtain ⟨a, haz⟩ : ∃ a : ℝ, a = (atan2Fix P s c : ℝ) := ⟨_, rfl⟩
  obtain ⟨p, hpz⟩ : ∃ p : ℝ, p = (piFix P : ℝ) := ⟨_, rfl⟩
  rw [← haz] at ha; rw [← hpz] at hp
  have hp2 : 2 * S ≤ p := by
    rw [abs_le] at hp
    nlinarith [hp.1]
  have hp0 : 0 < p := by linarith
  have hpi : 0 < piFix P := by
    rw [hpz] at hp0; exact_mod_cast hp0
  have hdiv : a * S * 180 / p - 1 ≤ ((atan2Fix P s c * 2 ^ P * 180 / piFix P : Int) : ℝ) ∧
      ((atan2Fix P s c * 2 ^ P * 180 / piFix P : Int) : ℝ) ≤ a * S * 180 / p := by
    obtain ⟨N, hN⟩ : ∃ N : Int, N = atan2Fix P s c * 2 ^ P * 180 := ⟨_, rfl⟩
    have hNr : (N : ℝ) = a * S * 180 := by rw [hN, haz, hS]; push_cast; ring
    rw [← hN, ← hNr]
    have e₁ : N / piFix P * piFix P ≤ N := Int.ediv_mul_le _ hpi.ne'
    have e₂ : N < (N / piFix P + 1) * piFix P := Int.lt_ediv_add_one_mul_self _ hpi
    have f₁ : ((N / piFix P : Int) : ℝ) * p ≤ N := by rw [hpz]; exact_mod_cast e₁
    have f₂ : (N : ℝ) < (((N / piFix P : Int) : ℝ) + 1) * p := by rw [hpz]; exact_mod_cast e₂
    constructor
    · rw [sub_le_iff_le_add, div_le_iff₀ hp0]; exact f₂.le
    · rw [le_div_iff₀ hp0]; exact f₁
  have hmain : |a * S * 180 / p - S * (A * 180 / Real.pi)| ≤ 5000 * atanErr P := by
    have e : a * S * 180 / p - S * (A * 180 / Real.pi) =
        180 * S * ((a - S * A) * Real.pi - A * (p - S * Real.pi)) / (p * Real.pi) := by
      field_simp; ring
    have hnum : |(a - S * A) * Real.pi - A * (p - S * Real.pi)| ≤ 53 * atanErr P * Real.pi := by
      refine (abs_sub _ _).trans ?_
      rw [abs_mul, abs_mul, abs_of_pos hπ]
      have h₁ := mul_le_mul_of_nonneg_right ha hπ.le
      have h₂ := mul_le_mul hA1 hp (abs_nonneg _) hπ.le
      nlinarith
    rw [e, abs_div, abs_mul, abs_of_pos (show 0 < 180 * S by positivity), abs_of_pos (show 0 < p * Real.pi by positivity),
      div_le_iff₀ (by positivity)]
    calc 180 * S * |(a - S * A) * Real.pi - A * (p - S * Real.pi)|
        ≤ 180 * S * (53 * atanErr P * Real.pi) := mul_le_mul_of_nonneg_left hnum (by positivity)
      _ = 4770 * (atanErr P * Real.pi) * (2 * S) := by ring
      _ ≤ 4770 * (atanErr P * Real.pi) * p := mul_le_mul_of_nonneg_left hp2 (by positivity)
      _ ≤ 5000 * atanErr P * (p * Real.pi) := by nlinarith [mul_nonneg hE0 (mul_pos hp0 hπ).le]
  rw [abs_le] at hmain ⊢
  constructor <;> linarith [hmain.1, hmain.2, hdiv.1, hdiv.2]

/-! ### The bracket -/

/-- The forms of rational numbers. -/
def RatForm (x : RealNum) : Prop :=
  match x with
  | .rat _ | .sqrt _ | .atan2 _ _ | .heading _ _ | .asin _ | .nonFinite => True
  | .lit _ | .norm _ | .angle _ _ | .turn _ _ | .asinOf _ => False

/-- A bracket of rational numbers holds the number it is asked for, and is as narrow as the room it allows. -/
theorem ratBracket_holds {x : RealNum} {v : ℝ} (hx : RatForm x) (h : IsValue x v) (p : Nat) :
    ((ratBracket x p).1 : ℝ) ≤ v ∧ v ≤ ((ratBracket x p).2 : ℝ) ∧
      ((ratBracket x p).2 : ℝ) - ((ratBracket x p).1 : ℝ) ≤ 2 * (2 ^ 64 + 2 ^ 16 * ((p + 64 : Nat) : ℝ)) / 2 ^ (p + 64) := by
  obtain ⟨P, hP⟩ : ∃ P, P = p + 64 := ⟨_, rfl⟩
  obtain ⟨S, hS⟩ : ∃ S : ℝ, S = 2 ^ P := ⟨_, rfl⟩
  have hS0 : 0 < S := by rw [hS]; positivity
  obtain ⟨hE1, hE2⟩ := atanErr_small P (by omega)
  have hE0 := atanErr_nonneg P
  have hw0 : (0 : ℝ) ≤ 2 * (2 ^ 64 + 2 ^ 16 * (P : ℝ)) / S := by positivity
  have around : ∀ (z : Int) (w : ℝ), |(z : ℝ) - S * w| ≤ 5000 * atanErr P + 2 →
      ((((z - (2 ^ 64 + 2 ^ 16 * (P : Int)) : Int) : Rat) / 2 ^ P : Rat) : ℝ) ≤ w ∧
        w ≤ ((((z + (2 ^ 64 + 2 ^ 16 * (P : Int)) : Int) : Rat) / 2 ^ P : Rat) : ℝ) ∧
        ((((z + (2 ^ 64 + 2 ^ 16 * (P : Int)) : Int) : Rat) / 2 ^ P : Rat) : ℝ) -
          ((((z - (2 ^ 64 + 2 ^ 16 * (P : Int)) : Int) : Rat) / 2 ^ P : Rat) : ℝ) ≤
          2 * (2 ^ 64 + 2 ^ 16 * (P : ℝ)) / S := by
    intro z w hz
    obtain ⟨K, hK⟩ : ∃ K : ℝ, K = 2 ^ 64 + 2 ^ 16 * (P : ℝ) := ⟨_, rfl⟩
    have c₁ : ((((z - (2 ^ 64 + 2 ^ 16 * (P : Int)) : Int) : Rat) / 2 ^ P : Rat) : ℝ) = (z - K) / S := by
      rw [hK, hS]; push_cast; ring
    have c₂ : ((((z + (2 ^ 64 + 2 ^ 16 * (P : Int)) : Int) : Rat) / 2 ^ P : Rat) : ℝ) = (z + K) / S := by
      rw [hK, hS]; push_cast; ring
    rw [c₁, c₂, ← hK, div_le_iff₀ hS0, le_div_iff₀ hS0, ← sub_div]
    rw [← hK] at hE2
    rw [abs_le] at hz
    exact ⟨by linarith [hz.1, hz.2], by linarith [hz.1, hz.2], le_of_eq (by ring)⟩
  rw [← hP, ← hS]
  unfold ratBracket
  simp only [← hP]
  cases x with
  | rat q =>
    obtain rfl : v = q := h
    exact ⟨le_rfl, le_rfl, by rw [sub_self]; exact hw0⟩
  | sqrt r =>
    obtain ⟨hr, rfl⟩ := h
    simp only
    cases hs : ratSqrt? r with
    | some q =>
      obtain ⟨h0, rfl⟩ := ratSqrt?_some hs
      have e : Real.sqrt ((q * q : Rat) : ℝ) = q := by
        rw [Rat.cast_mul]; exact Real.sqrt_mul_self (by exact_mod_cast h0)
      rw [e]
      exact ⟨le_rfl, le_rfl, by rw [sub_self]; exact hw0⟩
    | none =>
      obtain ⟨h₁, h₂⟩ := isqrt_scaled P r hr
      obtain ⟨m, hm⟩ : ∃ m : Nat, m = isqrt (r * 4 ^ P).floor.toNat := ⟨_, rfl⟩
      rw [← hm] at h₁ h₂
      simp only
      rw [← hm]
      rw [← hS] at h₁ h₂
      have c₁ : (((m : Rat) / 2 ^ P : Rat) : ℝ) = m / S := by rw [hS]; push_cast; ring
      have c₂ : ((((m + 1 : Nat) : Rat) / 2 ^ P : Rat) : ℝ) = (m + 1) / S := by rw [hS]; push_cast; ring
      rw [c₁, c₂, div_le_iff₀ hS0, le_div_iff₀ hS0, ← sub_div, add_sub_cancel_left]
      refine ⟨by linarith, by linarith, div_le_div_of_nonneg_right ?_ hS0.le⟩
      have : (0 : ℝ) ≤ P := Nat.cast_nonneg _
      norm_num; linarith
  | atan2 y x =>
    obtain ⟨h0, rfl⟩ := h
    refine around _ _ ?_
    have := atan2Fix_near P y x (by simpa using h0)
    rw [← hS] at this
    linarith
  | heading s c =>
    rw [isValue_heading] at h
    obtain ⟨h0, rfl⟩ := h
    refine around _ _ ?_
    have := turn_near P (by omega) s c h0
    rw [← hS] at this
    split
    · rw [Int.cast_add, show (((360 * 2 ^ P : Int)) : ℝ) = 360 * S by rw [hS]; push_cast; ring]
      rw [abs_le] at this ⊢
      constructor <;> linarith [this.1, this.2]
    · rw [add_zero]; linarith
  | asin t =>
    obtain ⟨h0, h1, rfl⟩ := h
    refine around _ _ ?_
    have := asinFix_near P t h0 h1
    rw [← hS] at this
    have : 10 ≤ atanErr P := by unfold atanErr; linarith [Nat.cast_nonneg (α := ℝ) P]
    linarith
  | nonFinite => exact h.elim
  | lit | norm | angle | turn | asinOf => exact hx.elim

end Sys2Proof.Machine
end

