-- ==== Sys2Proof/Laws/Channels.lean ====
section
/-! SUPPORT. The channel bit space, bit by bit: what UNPACK reads and what PACK writes. -/

namespace Sys2Proof.Machine

theorem bitSpace_go (bytes : List Byte) (n k : Nat) :
    ((bytes.zipIdx n).map fun e => e.1.toNat <<< (8 * e.2)).sum.testBit (8 * n + k) =
      (bytes.getD (k / 8) 0#8).getLsbD (k % 8) ∧
    2 ^ (8 * n) ∣ ((bytes.zipIdx n).map fun e => e.1.toNat <<< (8 * e.2)).sum := by
  induction bytes generalizing n k with
  | nil => simp
  | cons b bs ih =>
    obtain ⟨-, q, hq⟩ := ih (n + 1) 0
    rw [List.zipIdx_cons, List.map_cons, List.sum_cons, Nat.shiftLeft_eq, hq]
    have e : b.toNat * 2 ^ (8 * n) + 2 ^ (8 * (n + 1)) * q = 2 ^ (8 * n) * (2 ^ 8 * q + b.toNat) := by ring
    rw [e]
    refine ⟨?_, ⟨_, rfl⟩⟩
    rw [Nat.testBit_two_pow_mul, Nat.testBit_two_pow_mul_add _ b.isLt]
    simp only [Nat.le_add_right, ge_iff_le, decide_true, Bool.true_and, Nat.add_sub_cancel_left]
    split
    · rename_i h
      rw [Nat.div_eq_of_lt h, Nat.mod_eq_of_lt h]; rfl
    · rename_i h
      obtain ⟨j, rfl⟩ : ∃ j, k = 8 + j := ⟨k - 8, by omega⟩
      have := (ih (n + 1) j).1
      rw [hq, Nat.testBit_two_pow_mul] at this
      simp only [Nat.le_add_right, ge_iff_le, decide_true, Bool.true_and, Nat.add_sub_cancel_left] at this
      rw [Nat.add_sub_cancel_left, this, show (8 + j) / 8 = j / 8 + 1 by omega, show (8 + j) % 8 = j % 8 by omega,
        List.getD_cons_succ]

/-- Bit `k` of the bit space is bit `k mod 8` of byte `k / 8` (20_memory.md R63). -/
theorem bitSpace_testBit (bytes : List Byte) (k : Nat) :
    (bitSpace bytes).testBit k = (bytes.getD (k / 8) 0#8).getLsbD (k % 8) := by
  have := (bitSpace_go bytes 0 k).1
  rwa [Nat.mul_zero, Nat.zero_add] at this

theorem foldl_or_testBit {α : Type} (l : List α) (f : α → Nat) (v k : Nat) :
    (l.foldl (fun v e => v ||| f e) v).testBit k = (v.testBit k || l.any fun e => (f e).testBit k) := by
  induction l generalizing v with
  | nil => simp
  | cons a l ih => rw [List.foldl_cons, ih, Nat.testBit_or, List.any_cons, Bool.or_assoc]

/-- Bit `k` of the lane space is bit `k mod 11` of channel `k / 11`, the channels being in range. -/
theorem laneSpace_testBit (vals : List (BitVec 16)) (h : ∀ v ∈ vals, v.toNat ≤ 2047) (k : Nat) :
    (laneSpace vals).testBit k = (vals.getD (k / 11) 0#16).getLsbD (k % 11) := by
  unfold laneSpace
  rw [foldl_or_testBit, Nat.zero_testBit, Bool.false_or]
  rw [Bool.eq_iff_iff, List.any_eq_true]
  constructor
  · rintro ⟨⟨v, i⟩, hm, ht⟩
    obtain ⟨hi, hv⟩ := List.mem_zipIdx' hm
    obtain rfl : v = vals[i] := hv
    clear hm
    rw [Nat.testBit_shiftLeft, Bool.and_eq_true, decide_eq_true_eq] at ht
    obtain ⟨hk, ht⟩ := ht
    change vals[i].toNat.testBit (k - 11 * i) = true at ht
    have hlt : k - 11 * i < 11 := by
      by_contra hc
      have hv := h _ (List.getElem_mem hi)
      rw [Nat.testBit_lt_two_pow (Nat.lt_of_lt_of_le (by omega) (Nat.pow_le_pow_right (n := 2) (by omega) (show 11 ≤ k - 11 * i by omega)))] at ht
      cases ht
    have e1 : k / 11 = i := by omega
    have e2 : k % 11 = k - 11 * i := by omega
    rw [e1, e2, List.getD_eq_getElem?_getD, List.getElem?_eq_getElem hi, Option.getD_some]
    exact ht
  · intro ht
    rcases Nat.lt_or_ge (k / 11) vals.length with hl | hl
    · refine ⟨(vals[k / 11], k / 11), ?_, ?_⟩
      · rw [List.mem_zipIdx_iff_getElem?]; exact List.getElem?_eq_getElem hl
      · rw [List.getD_eq_getElem?_getD, List.getElem?_eq_getElem hl, Option.getD_some] at ht
        rw [Nat.testBit_shiftLeft, Bool.and_eq_true, decide_eq_true_eq]
        exact ⟨by omega, by rw [show k - 11 * (k / 11) = k % 11 by omega]; exact ht⟩
    · rw [List.getD_eq_getElem?_getD, List.getElem?_eq_none hl] at ht
      simp at ht

/-- What UNPACK reads, bit by bit (42_channel_codec.md R182). -/
theorem unpack_bit (b : Vector Byte 22) (i : Fin 16) (k : Nat) :
    (unpack b)[i].getLsbD k =
      (decide (k < 11) && (b.toList.getD ((11 * i.val + k) / 8) 0#8).getLsbD ((11 * i.val + k) % 8)) := by
  unfold unpack
  rw [Fin.getElem_fin, Vector.getElem_ofFn, BitVec.getLsbD_ofNat, Nat.testBit_and, Nat.testBit_shiftRight,
    bitSpace_testBit]
  have h : Nat.testBit 2047 k = decide (k < 11) := Nat.testBit_two_pow_sub_one 11 k
  rw [h]
  by_cases hk : k < 11
  · simp [hk, show k < 16 by omega]
  · simp [hk]

/-- Every value UNPACK gives is at most 2047. -/
theorem unpack_le (b : Vector Byte 22) (i : Fin 16) : (unpack b)[i].toNat ≤ 2047 := by
  unfold unpack
  rw [Fin.getElem_fin, Vector.getElem_ofFn, BitVec.toNat_ofNat]
  exact (Nat.mod_le _ _).trans Nat.and_le_right

/-- No value is over the bound. -/
theorem firstOver_none (bound : Nat) (vals : List Nat) : firstOver bound vals = none ↔ ∀ v ∈ vals, v ≤ bound := by
  unfold firstOver
  rw [Option.map_eq_none_iff, List.find?_eq_none]
  constructor
  · intro h v hv
    obtain ⟨i, hi, rfl⟩ := List.getElem_of_mem hv
    have := h (vals[i], i) (by rw [List.mem_zipIdx_iff_getElem?]; exact List.getElem?_eq_getElem hi)
    simpa using this
  · rintro h ⟨v, i⟩ hm
    obtain ⟨hi, hv⟩ := List.mem_zipIdx' hm
    have hv : v = vals[i] := hv
    simpa [hv] using h _ (List.getElem_mem hi)

theorem firstOver_go (bound : Nat) (vals : List Nat) (n i : Nat) (hi : i < vals.length) (ho : bound < vals[i])
    (hb : ∀ j (h : j < i), vals[j]'(by omega) ≤ bound) :
    ((vals.zipIdx n).find? fun e => decide (e.1 > bound)) = some (vals[i], n + i) := by
  induction vals generalizing n i with
  | nil => simp at hi
  | cons v vs ih =>
    rw [List.zipIdx_cons]
    cases i with
    | zero => rw [List.find?_cons_of_pos (by simpa using ho)]; rfl
    | succ i =>
      have h0 := hb 0 (by omega)
      rw [List.find?_cons_of_neg (by simpa using h0)]
      rw [ih (n + 1) i (by simpa using hi) (by simpa using ho) fun j h => by simpa using hb (j + 1) (by omega)]
      simp; omega

/-- The lowest value over the bound. -/
theorem firstOver_some (bound : Nat) (vals : List Nat) (i : Nat) (hi : i < vals.length) (ho : bound < vals[i])
    (hb : ∀ j (h : j < i), vals[j]'(by omega) ≤ bound) : firstOver bound vals = some (i, vals[i]) := by
  unfold firstOver
  rw [firstOver_go bound vals 0 i hi ho hb]; simp

/-- PACK answers where every value is in range, and what it then writes, bit by bit (42_channel_codec.md R186). -/
theorem pack_bits (chans : Vector (BitVec 16) 16) (h : ∀ i : Fin 16, chans[i].toNat ≤ 2047) :
    ∃ b, pack chans = .ok b ∧
      ∀ k, k < 176 → (b.toList.getD (k / 8) 0#8).getLsbD (k % 8) = (chans.toList.getD (k / 11) 0#16).getLsbD (k % 11) := by
  have hl : ∀ v ∈ chans.toList, v.toNat ≤ 2047 := by
    intro v hv
    obtain ⟨i, hi, rfl⟩ := List.getElem_of_mem hv
    exact h ⟨i, by simpa using hi⟩
  have hn : firstOver Config.chMax (chans.toList.map (·.toNat)) = none := by
    rw [firstOver_none]
    intro v hv
    obtain ⟨w, hw, rfl⟩ := List.mem_map.mp hv
    exact hl w hw
  unfold pack
  rw [hn]
  refine ⟨_, rfl, fun k hk => ?_⟩
  have hj : k / 8 < 22 := by omega
  rw [List.getD_eq_getElem?_getD, List.getElem?_eq_getElem (by simpa using hj), Option.getD_some,
    Vector.getElem_toList, Vector.getElem_ofFn, BitVec.getLsbD_ofNat, Nat.testBit_shiftRight, laneSpace_testBit _ hl,
    show 8 * (k / 8) + k % 8 = k by omega]
  simp [show k % 8 < 8 by omega]

/-- Where PACK answers, every value was in range. -/
theorem pack_ok_le (chans : Vector (BitVec 16) 16) (b : Vector Byte 22) (h : pack chans = .ok b) (i : Fin 16) :
    chans[i].toNat ≤ 2047 := by
  unfold pack at h
  split at h
  · cases h
  · rename_i hn
    rw [firstOver_none] at hn
    exact hn _ (List.mem_map.mpr ⟨chans[i], by simp, rfl⟩)

end Sys2Proof.Machine
end

