-- ==== Sys2Proof/Laws/Crc.lean ====
section
/-! SUPPORT. The CRC engine is linear, and one byte into it is a bijection. -/

namespace Sys2Proof.Machine

theorem crcStep_xor (a b : Byte) : crcStep (a ^^^ b) = crcStep a ^^^ crcStep b := by
  unfold crcStep
  rw [BitVec.msb_xor, BitVec.shiftLeft_xor_distrib]
  cases a.msb <;> cases b.msb <;> simp only [Bool.xor_false, Bool.xor_true, Bool.not_false, Bool.not_true,
    if_true, Bool.false_eq_true, if_false, BitVec.xor_zero]
  · ac_rfl
  · ac_rfl
  · rw [show ∀ p x y : Byte, (x ^^^ p) ^^^ (y ^^^ p) = (x ^^^ y) ^^^ (p ^^^ p) from fun p x y => by ac_rfl]
    simp

theorem crcSteps_xor (n : Nat) (a b : Byte) : crcStep^[n] (a ^^^ b) = crcStep^[n] a ^^^ crcStep^[n] b := by
  induction n generalizing a b with
  | zero => rfl
  | succ n ih => simp only [Function.iterate_succ, Function.comp_apply, crcStep_xor, ih]

@[simp] theorem crcSteps_zero (n : Nat) : crcStep^[n] 0#8 = 0#8 := by
  induction n with
  | zero => rfl
  | succ n ih => rw [Function.iterate_succ, Function.comp_apply, show crcStep 0#8 = 0#8 from rfl, ih]

theorem crcByte_xor (a b x y : Byte) : crcByte (a ^^^ b) (x ^^^ y) = crcByte a x ^^^ crcByte b y := by
  unfold crcByte
  rw [← crcSteps_xor]
  congr 1
  ac_rfl

theorem crcByte_self (a : Byte) : crcByte a a = 0#8 := by simp [crcByte]

/-- The last bit shifted out can be read back: bit 0 is set only by the polynomial. -/
theorem crcStep_injective : Function.Injective crcStep := by
  have h : ∀ a : Byte, crcStep a = 0#8 → a = 0#8 := by decide
  intro a b hab
  have := h (a ^^^ b) (by rw [crcStep_xor, hab, BitVec.xor_self])
  exact BitVec.xor_eq_zero_iff.mp this

theorem crcByte_injective (a : Byte) : Function.Injective (crcByte a) := fun x y h => by
  have := crcStep_injective.iterate 8 h
  exact BitVec.xor_right_inj a |>.mp this

theorem crcByte_left_injective (b : Byte) : Function.Injective fun a => crcByte a b := fun x y h => by
  have := crcStep_injective.iterate 8 h
  exact BitVec.xor_left_inj b |>.mp this

@[simp] theorem crcFrom_nil (acc : Byte) : crcFrom acc [] = acc := rfl

@[simp] theorem crcFrom_cons (acc b : Byte) (s : List Byte) : crcFrom acc (b :: s) = crcFrom (crcByte acc b) s := rfl

@[simp] theorem crcFrom_append (acc : Byte) (s t : List Byte) : crcFrom acc (s ++ t) = crcFrom (crcFrom acc s) t := by
  simp [crcFrom]

theorem crc8_eq (s : List Byte) : crc8 s = crcFrom 0#8 s := by simp [crc8, Config.crcInit, Config.crcXorOut]

theorem crcFrom_injective (s : List Byte) : Function.Injective fun acc => crcFrom acc s := by
  induction s with
  | nil => exact fun _ _ h => h
  | cons b s ih => exact fun x y h => crcByte_left_injective b (ih h)

end Sys2Proof.Machine
end

