-- ==== Sys2Proof/Laws/Exec.lean ====
section
/-! SUPPORT. What each instruction does where it is enabled, and where it is held off. -/

namespace Sys2Proof.Machine

/-- Every instruction answers a next state: its effect where it is enabled, the same state where it is not. -/
theorem exec_next (i : Instr) (s : State) : ∃ t, exec i s = .next t := by cases i <;> exact ⟨_, rfl⟩

@[simp] theorem running_of {s : State} (h : s.stopped = false) : s.running = true := by simp [State.running, h]

@[simp] theorem rxEnabled_of {s : State} (h : s.stopped = false) (hc : s.rxClosed = false) : s.rxEnabled = true := by
  simp [State.rxEnabled, h, hc]

@[simp] theorem broadcasting_of {s : State} (h : s.stopped = false) (hh : s.halt = false) : s.broadcasting = true := by
  simp [State.broadcasting, h, hh]

theorem tickDue_of {s : State} (h : s.stopped = false) (hn : s.nextTick ≤ s.now) : s.tickDue = true := by
  simp [State.tickDue, h, hn]

theorem running_iff (s : State) : s.running = true ↔ s.stopped = false := by simp [State.running]

theorem rxEnabled_iff (s : State) : s.rxEnabled = true ↔ s.stopped = false ∧ s.rxClosed = false := by
  simp [State.rxEnabled]

theorem txEnabled_iff (s : State) :
    s.txEnabled = true ↔ s.stopped = false ∧ s.txClosed = false ∧ ¬(s.txqNet = [] ∧ s.txqTel = []) := by
  simp [State.txEnabled, and_assoc, -not_and, not_and_or]

theorem broadcasting_iff (s : State) : s.broadcasting = true ↔ s.stopped = false ∧ s.halt = false := by
  simp [State.broadcasting]

theorem tickDue_iff (s : State) : s.tickDue = true ↔ s.stopped = false ∧ s.nextTick ≤ s.now := by simp [State.tickDue]

theorem reportDue_iff (s : State) : s.reportDue = true ↔
    s.stopped = false ∧ ∀ p, s.params.statsReportMs = some p → s.nextReport ≤ s.now := by
  unfold State.reportDue
  cases s.params.statsReportMs <;> simp

theorem stopEnabled_iff (s : State) : s.stopEnabled = true ↔
    s.stopped = false ∧ (s.shutdown = true ∨ s.rxClosed = true ∨ s.txClosed = true) := by
  simp [State.stopEnabled, or_assoc]

/-- Where an operation is enabled it takes its effect, where it is not nothing changes. -/
theorem enabled_or_same {c : Bool} {s t u : State}
    (h : (.next (if c = true then u else s) : Host.Outcome State Fault Refusal) = .next t) :
    (c = true ∧ t = u) ∨ (c = false ∧ t = s) := by
  cases c
  · exact .inr ⟨rfl, (Host.Outcome.next.inj h).symm⟩
  · exact .inl ⟨rfl, (Host.Outcome.next.inj h).symm⟩

/-- A frame of any type is read as RX_TICK reads its bytes. -/
theorem exec_ofFrame (t : FrameType) (len : Byte) (rest : List Byte) (s : State) :
    exec (Instr.ofFrame t len rest) s = exec (.rxTick (.bytes (frameBytes t len rest))) s := by cases t <;> rfl

section
variable {s : State} (h : s.stopped = false)
include h

theorem exec_crc8 (b : List Byte) : exec (.crc8 b) s = .next (s.answer .crc8 (.crc (crc8 b))) := by
  simp [exec, execCrc8, h]

theorem exec_scan (b : List Byte) :
    exec (.scan b) s = .next (s.answer .scan (.scanned (scan b).1 (scan b).2)) := by simp [exec, execScan, h]

theorem exec_build_ok {t : Byte} {p f : List Byte} (hb : build t p = .ok f) :
    exec (.build t p) s = .next (s.answer .build (.frame f)) := by simp [exec, execBuild, h, hb]

theorem exec_build_error {t : Byte} {p : List Byte} {n : Nat} (hb : build t p = .error n) :
    exec (.build t p) s = .next (s.raise .build (.payloadTooLarge n)) := by simp [exec, execBuild, h, hb]

theorem exec_unpack (b : Vector Byte 22) :
    exec (.unpack b) s = .next (s.answer .unpack (.channels (unpack b))) := by simp [exec, execUnpack, h]

theorem exec_pack_ok {c : Vector (BitVec 16) 16} {b : Vector Byte 22} (hp : pack c = .ok b) :
    exec (.pack c) s = .next (s.answer .pack (.packed b)) := by simp [exec, execPack, h, hp]

theorem exec_pack_error {c : Vector (BitVec 16) 16} {e : Nat × Nat} (hp : pack c = .error e) :
    exec (.pack c) s = .next (s.raise .pack (.channelOutOfRange e.1 e.2)) := by simp [exec, execPack, h, hp]

theorem exec_encGps (lat lon kph hdg alt : RealNum) : exec (.encGps lat lon kph hdg alt) s =
    .next (s.answerPayload .encGps (encGps s.params lat lon kph hdg alt)) := by simp [exec, execEncGps, h]

theorem exec_encBattery (volt pct : RealNum) : exec (.encBattery volt pct) s =
    .next (s.answerPayload .encBattery (encBattery s.params volt pct)) := by simp [exec, execEncBattery, h]

theorem exec_encVario (vy : RealNum) : exec (.encVario vy) s =
    .next (s.answerPayload .encVario (encVario s.params vy)) := by simp [exec, execEncVario, h]

theorem exec_encBaroAlt (alt altStart : RealNum) : exec (.encBaroAlt alt altStart) s =
    .next (s.answerPayload .encBaroAlt (encBaroAlt s.params alt altStart)) := by simp [exec, execEncBaroAlt, h]

theorem exec_encAirspeed (mag : RealNum) : exec (.encAirspeed mag) s =
    .next (s.answerPayload .encAirspeed (encAirspeed s.params mag)) := by simp [exec, execEncAirspeed, h]

theorem exec_encAttitude (p r y : RealNum) : exec (.encAttitude p r y) s =
    .next (s.answerPayload .encAttitude (encAttitude s.params p r y)) := by simp [exec, execEncAttitude, h]

theorem exec_encRpm (rpm : List RealNum) : exec (.encRpm rpm) s = .next (match encRpm s.params rpm with
    | .ok (some p) => s.answer .encRpm (.payload p)
    | .ok none => s.answer .encRpm .noFrame
    | .error e => s.raise .encRpm (.fieldOutOfRange e)) :=
  congrArg Host.Outcome.next (if_pos (running_of h))

theorem exec_encode (rec : TelemetryRecord) (a : RealNum) : exec (.encode rec a) s =
    .next ((s.raiseFields (encodeErrors s.params rec a)).answer .encode (.pairs (encodePairs s.params rec a))) := by
  simp [exec, execEncode, h]

theorem exec_rxTick (hc : s.rxClosed = false) (r : ReadResult) : exec (.rxTick r) s = .next (s.receive r) := by
  simp [exec, execRxTick, h, hc]

theorem exec_dispatch (hc : s.rxClosed = false) (t : Byte) (p : List Byte) :
    exec (.dispatch t p) s = .next (s.dispatchPacket t p) := by
  simp [exec, execDispatch, h, hc]

theorem exec_netIn (d : List Byte) : exec (.netIn d) s = .next (s.netDatagram d) := by simp [exec, execNetIn, h]

theorem exec_txWrite (hc : s.txClosed = false) (hq : ¬(s.txqNet = [] ∧ s.txqTel = [])) :
    exec .txWrite s = .next s.writeHead := by
  have : s.txEnabled = true := (txEnabled_iff s).mpr ⟨h, hc, hq⟩
  simp [exec, execTxWrite, this]

theorem exec_telLoad (rec : TelemetryRecord) : exec (.telLoad rec) s = .next (s.loadRecord rec) := by
  simp [exec, execTelLoad, h]

theorem exec_telTick (hn : s.nextTick ≤ s.now) : exec .telTick s = .next s.tick := by
  simp [exec, execTelTick, tickDue_of h hn]

theorem exec_statsReport (hn : ∀ p, s.params.statsReportMs = some p → s.nextReport ≤ s.now) :
    exec .statsReport s = .next s.reportStats := by
  simp [exec, execStatsReport, (reportDue_iff s).mpr ⟨h, hn⟩]

theorem exec_register (hh : s.halt = false) (a : Addr) : exec (.register a) s = .next (s.registerDest a) := by
  simp [exec, execRegister, h, hh]

theorem exec_unregister (hh : s.halt = false) (a : Addr) : exec (.unregister a) s = .next (s.unregisterDest a) := by
  simp [exec, execUnregister, h, hh]

theorem exec_quit (hh : s.halt = false) (a : Addr) : exec (.quit a) s = .next s.quitBroadcast := by
  simp [exec, execQuit, h, hh]

theorem exec_ctlMsg (hh : s.halt = false) (m : List Byte) (a : Addr) :
    exec (.ctlMsg m a) s = .next (s.control m a) := by simp [exec, execCtlMsg, h, hh]

theorem exec_bcast (hh : s.halt = false) (d : List Byte) : exec (.bcast d) s = .next (s.broadcast d) := by
  simp [exec, execBcast, h, hh]

end

end Sys2Proof.Machine
end

