-- ==== Sys2Proof/Laws/Scan.lean ====
section
/-! SUPPORT. What a pass of SCAN's loop does, what a valid frame looks like, and what a scan leaves. -/

namespace Sys2Proof.Machine

/-- Enough fuel is as good as more. -/
theorem scanLoop_fuel (n m : Nat) (rest : List Byte) (hn : rest.length < n) (hm : rest.length < m) :
    scanLoop n rest = scanLoop m rest := by
  induction n generalizing m rest with
  | zero => omega
  | succ n ih =>
    obtain ⟨m, rfl⟩ : ∃ k, m = k + 1 := ⟨m - 1, by omega⟩
    have hd : (rest.dropWhile (· ≠ Config.sync)).length ≤ rest.length := List.length_dropWhile_le ..
    unfold scanLoop
    split
    · rfl
    · rfl
    · rfl
    · rename_i b₀ b₁ b₂ more he
      simp only
      split
      · rfl
      · rename_i hl
        rw [he] at hd
        have : ((b₀ :: b₁ :: b₂ :: more).drop (b₁.toNat + 2)).length < rest.length := by
          rw [List.length_drop]; simp only [List.length_cons] at hd ⊢; omega
        rw [ih m _ (by omega) (by omega)]

/-- Garbage before the next sync byte. -/
theorem dropWhile_garbage (g rest : List Byte) (hg : Config.sync ∉ g) :
    (g ++ rest).dropWhile (· ≠ Config.sync) = rest.dropWhile (· ≠ Config.sync) := by
  induction g with
  | nil => rfl
  | cons b g ih =>
    simp only [List.mem_cons, not_or] at hg
    rw [List.cons_append, List.dropWhile_cons_of_pos (by simpa using Ne.symm hg.1), ih hg.2]

/-- Every buffer is garbage, then nothing or a sync byte. -/
theorem split_at_sync (buf : List Byte) :
    Config.sync ∉ buf ∨ ∃ g tail, Config.sync ∉ g ∧ buf = g ++ Config.sync :: tail := by
  by_cases h : Config.sync ∈ buf
  · obtain ⟨g, tail, he, hg⟩ := List.eq_append_cons_of_mem h
    exact .inr ⟨g, tail, hg, he⟩
  · exact .inl h

/-- One pass of the loop: no sync byte. -/
theorem scanLoop_none (n : Nat) (buf : List Byte) (h : Config.sync ∉ buf) : scanLoop (n + 1) buf = ([], []) := by
  have := dropWhile_garbage buf [] h
  rw [List.append_nil] at this
  unfold scanLoop; rw [this]; rfl

/-- One pass of the loop: too few bytes behind the sync byte. -/
theorem scanLoop_short (n : Nat) (g tail : List Byte) (hg : Config.sync ∉ g) (ht : tail.length < 2) :
    scanLoop (n + 1) (g ++ Config.sync :: tail) = ([], Config.sync :: tail) := by
  unfold scanLoop
  rw [dropWhile_garbage _ _ hg, List.dropWhile_cons_of_neg (by simp)]
  match tail, ht with
  | [], _ => rfl
  | [b], _ => rfl

/-- One pass of the loop: fewer bytes than the length byte announces. -/
theorem scanLoop_wait (n : Nat) (g : List Byte) (len : Byte) (more : List Byte) (hg : Config.sync ∉ g)
    (hm : more.length < len.toNat) :
    scanLoop (n + 1) (g ++ Config.sync :: len :: more) = ([], Config.sync :: len :: more) := by
  unfold scanLoop
  rw [dropWhile_garbage _ _ hg, List.dropWhile_cons_of_neg (by simp)]
  match more, hm with
  | [], _ => rfl
  | b :: more, hm => exact if_pos (by simp only [List.length_cons] at hm ⊢; omega)

/-- One pass of the loop: a complete candidate, judged and jumped over. -/
theorem scanLoop_cand (n : Nat) (g : List Byte) (len : Byte) (body after : List Byte) (hg : Config.sync ∉ g)
    (hb : body.length = len.toNat) (hne : body ++ after ≠ []) :
    scanLoop (n + 1) (g ++ Config.sync :: len :: (body ++ after)) =
      (judge (Config.sync :: len :: body) :: (scanLoop n after).1, (scanLoop n after).2) := by
  conv_lhs => unfold scanLoop
  rw [dropWhile_garbage _ _ hg, List.dropWhile_cons_of_neg (by simp)]
  obtain ⟨b, more, he⟩ := List.exists_cons_of_ne_nil hne
  rw [he]
  have hl : ¬(Config.sync :: len :: b :: more).length < len.toNat + 2 := by
    rw [← he]; simp only [List.length_cons, List.length_append]; omega
  simp only [if_neg hl]
  have ht : (Config.sync :: len :: b :: more).take (len.toNat + 2) = Config.sync :: len :: body := by
    rw [← he, List.take_succ_cons, List.take_succ_cons, List.take_left' hb]
  have hd : (Config.sync :: len :: b :: more).drop (len.toNat + 2) = after := by
    rw [← he, List.drop_succ_cons, List.drop_succ_cons, List.drop_left' hb]
  rw [ht, hd]

/-- The four ways the bytes at a scan cursor can look. -/
theorem scan_cases (buf : List Byte) :
    Config.sync ∉ buf ∨
    (∃ g tail, Config.sync ∉ g ∧ tail.length < 2 ∧ buf = g ++ Config.sync :: tail) ∨
    (∃ g len more, Config.sync ∉ g ∧ more.length < len.toNat ∧ buf = g ++ Config.sync :: len :: more) ∨
    ∃ g len body after, Config.sync ∉ g ∧ body.length = len.toNat ∧ body ++ after ≠ [] ∧
      buf = g ++ Config.sync :: len :: (body ++ after) := by
  rcases split_at_sync buf with h | ⟨g, tail, hg, rfl⟩
  · exact .inl h
  rcases tail with _ | ⟨len, _ | ⟨b, more⟩⟩
  · exact .inr (.inl ⟨g, [], hg, by simp, rfl⟩)
  · exact .inr (.inl ⟨g, [len], hg, by simp, rfl⟩)
  rcases Nat.lt_or_ge (b :: more).length len.toNat with hl | hl
  · exact .inr (.inr (.inl ⟨g, len, _, hg, hl, rfl⟩))
  · refine .inr (.inr (.inr ⟨g, len, (b :: more).take len.toNat, (b :: more).drop len.toNat, hg, ?_, ?_, ?_⟩))
    · rw [List.length_take]; omega
    · rw [List.take_append_drop]; exact List.cons_ne_nil _ _
    · rw [List.take_append_drop]

/-- A scan leaves an incomplete candidate or nothing (41_frame_codec.md R160). -/
theorem scanLoop_leftoverForm (n : Nat) (buf : List Byte) (h : buf.length < n) :
    leftoverForm (scanLoop n buf).2 = true := by
  induction n generalizing buf with
  | zero => omega
  | succ n ih =>
    rcases scan_cases buf with h0 | ⟨g, tail, hg, ht, rfl⟩ | ⟨g, len, more, hg, hm, rfl⟩ |
      ⟨g, len, body, after, hg, hb, hne, rfl⟩
    · rw [scanLoop_none _ _ h0]; rfl
    · rw [scanLoop_short _ _ _ hg ht]
      match tail, ht with
      | [], _ => rfl
      | [b], _ => rfl
    · rw [scanLoop_wait _ _ _ _ hg hm]; simp [leftoverForm, hm]
    · rw [scanLoop_cand _ _ _ _ _ hg hb hne]
      exact ih _ (by simp only [List.length_append, List.length_cons] at h; omega)

/-- What a scan leaves is the end of the buffer. -/
theorem scanLoop_suffix (n : Nat) (buf : List Byte) : (scanLoop n buf).2 <:+ buf := by
  induction n generalizing buf with
  | zero => exact List.suffix_refl _
  | succ n ih =>
    rcases scan_cases buf with h0 | ⟨g, tail, hg, ht, rfl⟩ | ⟨g, len, more, hg, hm, rfl⟩ |
      ⟨g, len, body, after, hg, hb, hne, rfl⟩
    · rw [scanLoop_none _ _ h0]; exact List.nil_suffix
    · rw [scanLoop_short _ _ _ hg ht]; exact List.suffix_append ..
    · rw [scanLoop_wait _ _ _ _ hg hm]; exact List.suffix_append ..
    · rw [scanLoop_cand _ _ _ _ _ hg hb hne]
      refine (ih after).trans ?_
      rw [show g ++ Config.sync :: len :: (body ++ after) = (g ++ Config.sync :: len :: body) ++ after by simp]
      exact List.suffix_append ..

theorem scanLeft_suffix (buf : List Byte) : scanLeft buf <:+ buf := scanLoop_suffix _ _

theorem leftoverForm_scanLeft (buf : List Byte) : leftoverForm (scanLeft buf) = true :=
  scanLoop_leftoverForm _ _ (Nat.lt_succ_self _)

/-- Dropping what was consumed leaves the leftover. -/
@[simp] theorem drop_scan (buf : List Byte) : buf.drop (scan buf).2 = scanLeft buf := by
  obtain ⟨pre, h⟩ := scanLeft_suffix buf
  have hl := congrArg List.length h
  rw [List.length_append] at hl
  conv_lhs => rw [← h]
  exact List.drop_left' (by simp only [scan, h]; omega)

/-- A valid frame, written out (30_encoding.md R127). -/
theorem validFrame_form (f : List Byte) (h : validFrame f = true) :
    ∃ len body, f = Config.sync :: len :: (body ++ [crc8 body]) ∧ 2 ≤ len.toNat ∧ body.length + 1 = len.toNat := by
  unfold validFrame at h
  simp only [Bool.and_eq_true, decide_eq_true_eq] at h
  obtain ⟨⟨⟨h1, h2⟩, h3⟩, h4⟩ := h
  rcases f with _ | ⟨b0, _ | ⟨len, rest⟩⟩
  · simp at h1
  · simp at h1
  · simp at h3 h1 h2 h4
    subst h3
    refine ⟨len, rest.dropLast, ?_, h1, ?_⟩
    · have hl : rest ≠ [] := by rintro rfl; simp at h2; omega
      have ht : rest.take (len.toNat - 1) = rest.dropLast := by
        rw [List.dropLast_eq_take]; congr 1; omega
      rw [ht] at h4
      congr 2
      rw [h4]
      conv_lhs => rw [← List.dropLast_append_getLast hl]
      congr 2
      obtain ⟨m, hm⟩ : ∃ m, len.toNat = m + 1 := ⟨len.toNat - 1, by omega⟩
      rw [hm, List.getElem?_cons_succ, List.getElem?_eq_getElem (by omega), List.getLast_eq_getElem, Option.getD_some]
      congr 1; omega
    · simp; omega

theorem validFrame_of_form (len : Byte) (body : List Byte) (h2 : 2 ≤ len.toNat) (hb : body.length + 1 = len.toNat) :
    validFrame (Config.sync :: len :: (body ++ [crc8 body])) = true := by
  simp [validFrame, ← hb]
  omega

/-- What `judge` answers on a candidate of a length byte and the bytes behind it. -/
theorem judge_of_checked (len : Byte) (checked : List Byte) (crc : Byte) (h : checked.length + 1 = len.toNat)
    (h2 : 2 ≤ len.toNat) :
    judge (Config.sync :: len :: (checked ++ [crc])) =
      if crc8 checked = crc then .ok (Config.sync :: len :: (checked ++ [crc])) else .crcError := by
  have hl : len.toNat - 1 = checked.length := by omega
  unfold judge
  rw [List.getD_cons_succ, List.getD_cons_zero, if_neg (by omega), hl]
  simp [← h]

theorem judge_short (len : Byte) (body : List Byte) (h : len.toNat < 2) :
    judge (Config.sync :: len :: body) = .crcError := by
  unfold judge; rw [List.getD_cons_succ, List.getD_cons_zero, if_pos h]

/-- An `Ok` result of `judge` on a candidate is the candidate, and it is a valid frame. -/
theorem judge_ok (len : Byte) (body f : List Byte) (hb : body.length = len.toNat)
    (h : judge (Config.sync :: len :: body) = .ok f) :
    f = Config.sync :: len :: body ∧ validFrame f = true := by
  rcases Nat.lt_or_ge len.toNat 2 with hl | hl
  · rw [judge_short _ _ hl] at h; cases h
  · have hne : body ≠ [] := by rintro rfl; simp at hb; omega
    obtain ⟨checked, crc, rfl⟩ : ∃ c x, body = c ++ [x] :=
      ⟨_, _, (List.dropLast_append_getLast hne).symm⟩
    have hc : checked.length + 1 = len.toNat := by simpa using hb
    rw [judge_of_checked _ _ _ hc hl] at h
    split at h
    · rename_i he
      cases h; subst he
      exact ⟨rfl, validFrame_of_form _ _ hl hc⟩
    · cases h

/-- Every `Ok` result of a scan is a valid frame. -/
theorem scanLoop_ok_valid (n : Nat) (buf f : List Byte) (h : .ok f ∈ (scanLoop n buf).1) : validFrame f = true := by
  induction n generalizing buf with
  | zero => simp [scanLoop] at h
  | succ n ih =>
    rcases scan_cases buf with h0 | ⟨g, tail, hg, ht, rfl⟩ | ⟨g, len, more, hg, hm, rfl⟩ |
      ⟨g, len, body, after, hg, hb, hne, rfl⟩
    · rw [scanLoop_none _ _ h0] at h; cases h
    · rw [scanLoop_short _ _ _ hg ht] at h; cases h
    · rw [scanLoop_wait _ _ _ _ hg hm] at h; cases h
    · rw [scanLoop_cand _ _ _ _ _ hg hb hne, List.mem_cons] at h
      rcases h with h | h
      · exact (judge_ok _ _ _ hb h.symm).2
      · exact ih _ h

/-- What BUILD answers when it answers a frame (41_frame_codec.md R165). -/
theorem build_ok (t : Byte) (p f : List Byte) (h : build t p = .ok f) :
    p.length ≤ 253 ∧ f = Config.sync :: BitVec.ofNat 8 (p.length + 2) :: (t :: p ++ [crc8 (t :: p)]) := by
  unfold build at h
  split at h
  · cases h
  · rename_i hl
    injection h with h
    simp only [Config.lenMax] at hl
    exact ⟨by omega, h.symm⟩

theorem build_valid (t : Byte) (p f : List Byte) (h : build t p = .ok f) : validFrame f = true := by
  obtain ⟨hl, rfl⟩ := build_ok t p f h
  have : (BitVec.ofNat 8 (p.length + 2)).toNat = p.length + 2 := by
    rw [BitVec.toNat_ofNat]; exact Nat.mod_eq_of_lt (by omega)
  exact validFrame_of_form _ _ (by omega) (by simp [this])

end Sys2Proof.Machine
end

