-- ==== Sys2Proof/Laws/Ops.lean ====
section
/-! SUPPORT. For each shared operation, once, everything it can change. -/

namespace Sys2Proof.Machine

/-! ### What may change -/

/-- From `s` to `t` only what the receive path owns has changed, and outputs were only added. -/
def Received (s t : State) : Prop :=
  s.out <+: t.out ∧
  t = { s with crcErrCnt := t.crcErrCnt, netAnswers := t.netAnswers, stats := t.stats, ch := t.ch, chValid := t.chValid,
               out := t.out }

/-- From `s` to `t` only the telemetry queue and the outputs have changed, both by additions. -/
def Queued (s t : State) : Prop :=
  s.out <+: t.out ∧ s.txqTel <+: t.txqTel ∧ t = { s with txqTel := t.txqTel, out := t.out }

/-- From `s` to `t` only the destination set and the outputs have changed. -/
def Sent (s t : State) : Prop := s.out <+: t.out ∧ t = { s with dest := t.dest, out := t.out }

/-- From `s` to `t` only outputs have been added. -/
def Emitted (s t : State) : Prop := s.out <+: t.out ∧ t = { s with out := t.out }

theorem Received.refl (s : State) : Received s s := ⟨List.prefix_refl _, rfl⟩

theorem Received.trans {s t u : State} (h : Received s t) (k : Received t u) : Received s u := by
  refine ⟨h.1.trans k.1, ?_⟩
  have e := k.2; rw [h.2] at e; exact e

theorem Queued.refl (s : State) : Queued s s := ⟨List.prefix_refl _, List.prefix_refl _, rfl⟩

theorem Queued.trans {s t u : State} (h : Queued s t) (k : Queued t u) : Queued s u := by
  refine ⟨h.1.trans k.1, h.2.1.trans k.2.1, ?_⟩
  have e := k.2.2; rw [h.2.2] at e; exact e

theorem Sent.refl (s : State) : Sent s s := ⟨List.prefix_refl _, rfl⟩

theorem Sent.trans {s t u : State} (h : Sent s t) (k : Sent t u) : Sent s u := by
  refine ⟨h.1.trans k.1, ?_⟩
  have e := k.2; rw [h.2] at e; exact e

theorem Emitted.refl (s : State) : Emitted s s := ⟨List.prefix_refl _, rfl⟩

theorem emit_emitted (s : State) (o : Output) : Emitted s (s.emit o) := ⟨List.prefix_append .., rfl⟩

theorem raise_emitted (s : State) (op : OpName) (c : Condition) : Emitted s (s.raise op c) :=
  ⟨List.prefix_append .., rfl⟩

theorem answer_emitted (s : State) (op : OpName) (r : Result) : Emitted s (s.answer op r) :=
  ⟨List.prefix_append .., rfl⟩

theorem raiseFields_emitted (s : State) (errs : List (OpName × FieldError)) : Emitted s (s.raiseFields errs) :=
  ⟨List.prefix_append .., rfl⟩

theorem Emitted.received {s t : State} (h : Emitted s t) : Received s t :=
  ⟨h.1, by rw [h.2]⟩

theorem Emitted.queued {s t : State} (h : Emitted s t) : Queued s t :=
  ⟨h.1, by rw [h.2], by rw [h.2]⟩

theorem Emitted.sent {s t : State} (h : Emitted s t) : Sent s t := ⟨h.1, by rw [h.2]⟩

/-- A fold of steps that each keep a reflexive and transitive relation keeps it. -/
theorem foldl_keeps {α : Type} (R : State → State → Prop) (hr : ∀ s, R s s) (ht : ∀ s t u, R s t → R t u → R s u)
    (f : State → α → State) (l : List α) (hf : ∀ s, ∀ a ∈ l, R s (f s a)) (s : State) : R s (l.foldl f s) := by
  induction l generalizing s with
  | nil => exact hr s
  | cons a l ih =>
    exact ht _ _ _ (hf s a (by simp)) (ih (fun s b hb => hf s b (by simp [hb])) _)

/-! ### The receive path -/

theorem acceptChannels_received (s : State) (c : Vector (BitVec 16) 16) : Received s (s.acceptChannels c) := by
  unfold State.acceptChannels
  split
  · exact (raise_emitted _ _ _).received
  · exact ⟨List.prefix_append .., rfl⟩

theorem dispatchPacket_received (s : State) (t : Byte) (p : List Byte) : Received s (s.dispatchPacket t p) := by
  unfold State.dispatchPacket
  split
  · split
    · exact acceptChannels_received _ _
    · exact (raise_emitted _ _ _).received
  · exact .refl s

theorem sendNet_received (s : State) (pkt : List Byte) : Received s (s.sendNet pkt) := ⟨List.prefix_append .., rfl⟩

theorem forward_received (s : State) (pkt : List Byte) : Received s (s.forward pkt) := by
  unfold State.forward
  split
  · exact sendNet_received _ _
  · exact (sendNet_received _ _).trans (raise_emitted _ _ _).received
  · exact sendNet_received _ _

theorem rxResult_received (s : State) (r : FrameResult) : Received s (s.rxResult r) := by
  unfold State.rxResult
  split
  · simp only
    split
    · exact (forward_received _ _).trans (dispatchPacket_received _ _ _)
    · exact forward_received _ _
  · exact ⟨List.prefix_append .., rfl⟩

theorem rxResults_received (s : State) (l : List FrameResult) : Received s (l.foldl State.rxResult s) :=
  foldl_keeps Received .refl (fun _ _ _ => .trans) _ l (fun s r _ => rxResult_received s r) s

/-- How much one read returns: no more than waits, something if anything waits, at most READ_MAX, what fits beside a
leftover, and all of it where neither parameter is given. -/
theorem readSize_spec (P : Params) (n : Nat) :
    readSize P n ≤ n ∧ (0 < n → 0 < readSize P n) ∧ (∀ m, P.readMax = some m → 1 ≤ m → readSize P n ≤ m) ∧
      (∀ c, P.rxbufCap = some c → 257 ≤ c → 256 + readSize P n ≤ c) ∧
      (P.readMax = none → P.rxbufCap = none → readSize P n = n) := by
  unfold readSize
  refine ⟨by omega, by omega, fun m hm _ => ?_, fun c hc _ => ?_, fun hm hc => ?_⟩
  · rw [hm, Option.getD_some]; omega
  · rw [hc, Option.map_some, Option.getD_some]; omega
  · rw [hm, hc]; simp

/-- Bytes that keep READ_MAX and fit beside a leftover are read whole. -/
theorem readSize_fits (P : Params) (n : Nat) (hm : ∀ m, P.readMax = some m → n ≤ m)
    (hc : ∀ c, P.rxbufCap = some c → 256 + n ≤ c) : readSize P n = n := by
  have h₁ : n ≤ P.readMax.getD n := by
    cases h : P.readMax with
    | none => simp
    | some m => exact hm m h
  have h₂ : n ≤ (P.rxbufCap.map (· - 256)).getD n := by
    cases h : P.rxbufCap with
    | none => simp
    | some c => have := hc c h; simp only [Option.map_some, Option.getD_some]; omega
  unfold readSize; omega

/-- A read that leaves bytes has reached READ_MAX or the room in the buffer. -/
theorem readSize_full (P : Params) (n : Nat) (h : readSize P n < n) :
    (∃ m, P.readMax = some m ∧ m ≤ readSize P n) ∨ ∃ c, P.rxbufCap = some c ∧ c ≤ 256 + readSize P n := by
  by_contra hn
  rw [not_or] at hn
  have hk : readSize P n < min (P.readMax.getD n) ((P.rxbufCap.map (· - 256)).getD n) := by
    refine lt_min ?_ ?_
    · cases hm : P.readMax with
      | none => exact h
      | some m => exact not_le.mp fun k => hn.1 ⟨m, hm, k⟩
    · cases hc : P.rxbufCap with
      | none => exact h
      | some c =>
        have : ¬ c ≤ 256 + readSize P n := fun k => hn.2 ⟨c, hc, k⟩
        simp only [Option.map_some, Option.getD_some]; omega
  unfold readSize at h hk
  omega

theorem unread_eq (s : State) (rest : List Byte) : s.unread rest =
    { s with stimulus := (if rest = [] then [] else [.present (.event 0x20#8 (.bytes rest))]) ++ s.stimulus } := by
  cases rest <;> rfl

/-- A read that takes all that waits leaves the schedule as it is. -/
theorem receive_whole (s : State) (r : List Byte) (h : readSize s.params r.length = r.length) :
    s.receive (.bytes r) = (s.appendRead r).scanRxbuf := by
  unfold State.receive
  simp only [h, List.drop_length, List.take_length, State.unread]

theorem appendRead_scan (s : State) (r : List Byte) :
    Received { s with rxbuf := scanLeft (s.rxbuf ++ r) } (s.appendRead r).scanRxbuf := by
  have e : (s.appendRead r).rxbuf = s.rxbuf ++ r := by unfold State.appendRead; simp only; split <;> rfl
  have h : Received { s with rxbuf := scanLeft (s.rxbuf ++ r) } { s.appendRead r with rxbuf := scanLeft (s.rxbuf ++ r) } := by
    unfold State.appendRead; simp only
    split
    · exact ⟨List.prefix_refl _, rfl⟩
    · exact .refl _
  refine h.trans ?_
  have k := rxResults_received { s.appendRead r with rxbuf := scanLeft (s.rxbuf ++ r) } (scan (s.rxbuf ++ r)).1
  unfold State.scanRxbuf
  simp only [e, drop_scan]
  exact k

/-- RX_TICK: the receive buffer becomes what the scan leaves, what the read leaves waits for the next; besides, only
what the receive path owns changes. -/
theorem receive_bytes (s : State) (r : List Byte) :
    Received
      { s.unread (r.drop (readSize s.params r.length)) with
        rxbuf := scanLeft (s.rxbuf ++ r.take (readSize s.params r.length)) }
      (s.receive (.bytes r)) := by
  have h := appendRead_scan (s.unread (r.drop (readSize s.params r.length))) (r.take (readSize s.params r.length))
  rw [State.unread_rxbuf] at h
  exact h

/-! ### The telemetry tick -/

theorem queueTelemetry_queued (s : State) (pair : Byte × List Byte) : Queued s (s.queueTelemetry pair) := by
  unfold State.queueTelemetry
  split
  · exact ⟨List.prefix_refl _, List.prefix_append .., rfl⟩
  · exact (raise_emitted _ _ _).queued

theorem tick_queued (s : State) : Queued { s with nextTick := s.nextTick + 100 } s.tick := by
  unfold State.tick
  simp only
  split
  · exact (raiseFields_emitted _ _).queued.trans
      (foldl_keeps Queued .refl (fun _ _ _ => .trans) _ _ (fun s e _ => queueTelemetry_queued s e) _)
  · exact .refl _

/-! ### The broadcaster -/

theorem mem_destInsert (a x : Addr) (l : List Addr) : x ∈ destInsert a l ↔ x = a ∨ x ∈ l := by
  induction l with
  | nil => simp [destInsert]
  | cons b l ih =>
    unfold destInsert
    split
    · simp
    · split
      · rename_i h; subst h; simp
      · rw [List.mem_cons, ih, List.mem_cons]; tauto

theorem destInsert_sorted (a : Addr) (l : List Addr) (h : l.Pairwise (· < ·)) : (destInsert a l).Pairwise (· < ·) := by
  induction l with
  | nil => simp [destInsert]
  | cons b l ih =>
    rw [List.pairwise_cons] at h
    unfold destInsert
    split
    · rename_i hab
      rw [List.pairwise_cons, List.pairwise_cons]
      exact ⟨by simpa using ⟨hab, fun x hx => hab.trans (h.1 x hx)⟩, h⟩
    · rename_i hlt
      split
      · exact List.pairwise_cons.mpr h
      · rename_i hne
        rw [List.pairwise_cons]
        refine ⟨fun x hx => ?_, ih h.2⟩
        rw [mem_destInsert] at hx
        rcases hx with rfl | hx
        · exact lt_of_le_of_ne (not_lt.mp hlt) (Ne.symm hne)
        · exact h.1 x hx

/-- Inserting a member of a rising list changes nothing. -/
theorem destInsert_mem (a : Addr) (l : List Addr) (h : l.Pairwise (· < ·)) (ha : a ∈ l) : destInsert a l = l := by
  induction l with
  | nil => cases ha
  | cons b l ih =>
    rw [List.pairwise_cons] at h
    unfold destInsert
    rcases List.mem_cons.mp ha with rfl | ha
    · simp
    · have := h.1 a ha
      rw [if_neg this.not_gt, if_neg this.ne', ih h.2 ha]

theorem destInsert_length (a : Addr) (l : List Addr) : (destInsert a l).length ≤ l.length + 1 := by
  induction l with
  | nil => simp [destInsert]
  | cons b l ih =>
    unfold destInsert
    split
    · simp
    · split
      · simp
      · simpa using ih

theorem mem_destErase (a x : Addr) (l : List Addr) : x ∈ destErase a l ↔ x ∈ l ∧ x ≠ a := by simp [destErase]

theorem destErase_sublist (a : Addr) (l : List Addr) : (destErase a l).Sublist l := List.filter_sublist

/-- A walk visits each member of a set once. -/
theorem walkOrder_perm (plan : BcPlan) (dest : List Addr) (h : dest.Nodup) : (walkOrder plan dest).Perm dest := by
  have hn : (walkOrder plan dest).Nodup := by
    unfold walkOrder
    refine List.Nodup.append (List.nodup_dedup _) (h.filter _) ?_
    intro x hx hy
    simp only [List.mem_dedup, List.mem_filter, decide_eq_true_eq] at hx hy
    exact hy.2 hx.1
  rw [List.perm_ext_iff_of_nodup hn h]
  intro x
  simp only [walkOrder, List.mem_append, List.mem_dedup, List.mem_filter, decide_eq_true_eq]
  tauto

theorem bcSend_sent (plan : BcPlan) (d : List Byte) (s : State) (a : Addr) : Sent s (State.bcSend plan d s a) := by
  unfold State.bcSend
  split
  · exact ⟨(List.prefix_append _ _).trans (List.prefix_append _ _), rfl⟩
  · exact (emit_emitted _ _).sent

/-- What a walk leaves in DEST: the members whose send did not fail. -/
theorem bcSends_dest (plan : BcPlan) (d : List Byte) (walk : List Addr) (s : State) :
    (walk.foldl (State.bcSend plan d) s).dest = s.dest.filter fun x => !(walk.contains x && plan.failed.contains x) := by
  induction walk generalizing s with
  | nil => simp
  | cons a walk ih =>
    rw [List.foldl_cons, ih]
    unfold State.bcSend
    split
    · rename_i ha
      simp only [State.raise_dest, destErase, List.filter_filter]
      refine List.filter_congr fun x _ => ?_
      by_cases hx : x = a
      · subst hx; simp [ha]
      · simp [hx]
    · rename_i ha
      simp only [State.emit_dest]
      refine List.filter_congr fun x _ => ?_
      by_cases hx : x = a
      · subst hx; simp [ha]
      · simp [hx]

theorem broadcast_sent (s : State) (d : List Byte) : Sent { s with bcPlans := s.bcPlans.tail } (s.broadcast d) :=
  foldl_keeps Sent .refl (fun _ _ _ => .trans) _ _ (fun s a _ => bcSend_sent _ _ s a) _

/-! ### The statistics window -/

theorem evict_suffix (now : Nat) (w : List (Nat × StatEntry)) : evict now w <:+ w := List.dropWhile_suffix _

/-- In a window in order of time, eviction keeps exactly the entries not older than a second. -/
theorem evict_sorted (now : Nat) (w : List (Nat × StatEntry)) (h : (w.map (·.1)).Pairwise (· ≤ ·)) :
    evict now w = w.filter fun e => decide (now ≤ e.1 + 1000) := by
  unfold evict Config.statsWindowMs
  induction w with
  | nil => rfl
  | cons e w ih =>
    rw [List.map_cons, List.pairwise_cons] at h
    rw [List.dropWhile_cons, List.filter_cons]
    by_cases hn : now ≤ e.1 + 1000
    · have hall : ∀ x ∈ w, now ≤ x.1 + 1000 := fun x hx => by
        have := h.1 x.1 (List.mem_map.mpr ⟨x, hx, rfl⟩); omega
      rw [if_neg (by simp; omega), if_pos (by simpa using hn), List.filter_eq_self.mpr (by simpa using hall)]
    · rw [if_pos (by simp; omega), if_neg (by simpa using hn), ih h.2]

end Sys2Proof.Machine
end

