-- ==== Sys2Proof/Laws/PerInstr.lean ====
section
/-! SUPPORT. One law for each instruction: the form in which the environment presents it (30_encoding.md R90, R118,
R122). -/

namespace Sys2Proof.Laws

/-- Where an instruction is presented: a frame as the bytes of one complete frame, a control opcode as a datagram of one
byte, an operation under its opid, on CMD exactly where it is invocable there. -/
def PresentedAt.Statement (i : Instr) : Prop :=
  i.wf = true →
    match encode i with
    | .frame bytes => ∃ t len rest, i.frame? = some (t, len, rest) ∧ bytes = Config.sync :: len :: t.code :: rest ∧
        bytes.length = 3 + (len.toNat - 1)
    | .ctrl m _ => i.frame? = none ∧ m.length = 1
    | .cmd opid _ => i.frame? = none ∧ ∃ op, opOf opid = some op ∧ op.invocable = true
    | .event opid _ => i.frame? = none ∧ ∃ op, opOf opid = some op ∧ op.invocable = false

/-- The law for a frame. -/
theorem presentedAt_frame {i : Instr} {t : FrameType} {len : Byte} {rest : List Byte}
    (hf : i.frame? = some (t, len, rest)) (he : encode i = .frame (frameBytes t len rest)) :
    PresentedAt.Statement i := by
  intro hw
  rw [he]
  refine ⟨t, len, rest, hf, rfl, ?_⟩
  have : rest.length = len.toNat - 1 := by simpa [Instr.wf, hf] using hw
  simp [frameBytes, this]; omega

theorem PresentedAt.gps (len : Byte) (rest : List Byte) : PresentedAt.Statement (.gps len rest) :=
  presentedAt_frame rfl rfl
theorem PresentedAt.vario (len : Byte) (rest : List Byte) : PresentedAt.Statement (.vario len rest) :=
  presentedAt_frame rfl rfl
theorem PresentedAt.batterySensor (len : Byte) (rest : List Byte) : PresentedAt.Statement (.batterySensor len rest) :=
  presentedAt_frame rfl rfl
theorem PresentedAt.baroAlt (len : Byte) (rest : List Byte) : PresentedAt.Statement (.baroAlt len rest) :=
  presentedAt_frame rfl rfl
theorem PresentedAt.airspeed (len : Byte) (rest : List Byte) : PresentedAt.Statement (.airspeed len rest) :=
  presentedAt_frame rfl rfl
theorem PresentedAt.heartbeat (len : Byte) (rest : List Byte) : PresentedAt.Statement (.heartbeat len rest) :=
  presentedAt_frame rfl rfl
theorem PresentedAt.rpm (len : Byte) (rest : List Byte) : PresentedAt.Statement (.rpm len rest) :=
  presentedAt_frame rfl rfl
theorem PresentedAt.temp (len : Byte) (rest : List Byte) : PresentedAt.Statement (.temp len rest) :=
  presentedAt_frame rfl rfl
theorem PresentedAt.voltages (len : Byte) (rest : List Byte) : PresentedAt.Statement (.voltages len rest) :=
  presentedAt_frame rfl rfl
theorem PresentedAt.videoTransmitter (len : Byte) (rest : List Byte) : PresentedAt.Statement (.videoTransmitter len rest) :=
  presentedAt_frame rfl rfl
theorem PresentedAt.linkStatistics (len : Byte) (rest : List Byte) : PresentedAt.Statement (.linkStatistics len rest) :=
  presentedAt_frame rfl rfl
theorem PresentedAt.rcChannelsPacked (len : Byte) (rest : List Byte) : PresentedAt.Statement (.rcChannelsPacked len rest) :=
  presentedAt_frame rfl rfl
theorem PresentedAt.linkStatisticsRx (len : Byte) (rest : List Byte) : PresentedAt.Statement (.linkStatisticsRx len rest) :=
  presentedAt_frame rfl rfl
theorem PresentedAt.linkStatisticsTx (len : Byte) (rest : List Byte) : PresentedAt.Statement (.linkStatisticsTx len rest) :=
  presentedAt_frame rfl rfl
theorem PresentedAt.attitude (len : Byte) (rest : List Byte) : PresentedAt.Statement (.attitude len rest) :=
  presentedAt_frame rfl rfl
theorem PresentedAt.flightMode (len : Byte) (rest : List Byte) : PresentedAt.Statement (.flightMode len rest) :=
  presentedAt_frame rfl rfl
theorem PresentedAt.deviceInfo (len : Byte) (rest : List Byte) : PresentedAt.Statement (.deviceInfo len rest) :=
  presentedAt_frame rfl rfl
theorem PresentedAt.configRead (len : Byte) (rest : List Byte) : PresentedAt.Statement (.configRead len rest) :=
  presentedAt_frame rfl rfl
theorem PresentedAt.configWrite (len : Byte) (rest : List Byte) : PresentedAt.Statement (.configWrite len rest) :=
  presentedAt_frame rfl rfl
theorem PresentedAt.radioId (len : Byte) (rest : List Byte) : PresentedAt.Statement (.radioId len rest) :=
  presentedAt_frame rfl rfl
theorem PresentedAt.register (a : Addr) : PresentedAt.Statement (.register a) := fun _ => ⟨rfl, rfl⟩
theorem PresentedAt.unregister (a : Addr) : PresentedAt.Statement (.unregister a) := fun _ => ⟨rfl, rfl⟩
theorem PresentedAt.quit (a : Addr) : PresentedAt.Statement (.quit a) := fun _ => ⟨rfl, rfl⟩
theorem PresentedAt.rxTick (r : ReadResult) : PresentedAt.Statement (.rxTick r) := by
  cases r <;> exact fun _ => ⟨rfl, .rxTick, rfl, rfl⟩
theorem PresentedAt.crc8 (b : List Byte) : PresentedAt.Statement (.crc8 b) :=
  fun _ => ⟨rfl, .crc8, rfl, rfl⟩
theorem PresentedAt.scan (b : List Byte) : PresentedAt.Statement (.scan b) :=
  fun _ => ⟨rfl, .scan, rfl, rfl⟩
theorem PresentedAt.build (t : Byte) (p : List Byte) : PresentedAt.Statement (.build t p) :=
  fun _ => ⟨rfl, .build, rfl, rfl⟩
theorem PresentedAt.unpack (b : Vector Byte 22) : PresentedAt.Statement (.unpack b) :=
  fun _ => ⟨rfl, .unpack, rfl, rfl⟩
theorem PresentedAt.pack (c : Vector (BitVec 16) 16) : PresentedAt.Statement (.pack c) :=
  fun _ => ⟨rfl, .pack, rfl, rfl⟩
theorem PresentedAt.encGps (a b c d e : RealNum) : PresentedAt.Statement (.encGps a b c d e) :=
  fun _ => ⟨rfl, .encGps, rfl, rfl⟩
theorem PresentedAt.encBattery (a b : RealNum) : PresentedAt.Statement (.encBattery a b) :=
  fun _ => ⟨rfl, .encBattery, rfl, rfl⟩
theorem PresentedAt.encVario (a : RealNum) : PresentedAt.Statement (.encVario a) :=
  fun _ => ⟨rfl, .encVario, rfl, rfl⟩
theorem PresentedAt.encBaroAlt (a b : RealNum) : PresentedAt.Statement (.encBaroAlt a b) :=
  fun _ => ⟨rfl, .encBaroAlt, rfl, rfl⟩
theorem PresentedAt.encAirspeed (a : RealNum) : PresentedAt.Statement (.encAirspeed a) :=
  fun _ => ⟨rfl, .encAirspeed, rfl, rfl⟩
theorem PresentedAt.encAttitude (a b c : RealNum) : PresentedAt.Statement (.encAttitude a b c) :=
  fun _ => ⟨rfl, .encAttitude, rfl, rfl⟩
theorem PresentedAt.encRpm (xs : List RealNum) : PresentedAt.Statement (.encRpm xs) :=
  fun _ => ⟨rfl, .encRpm, rfl, rfl⟩
theorem PresentedAt.encode (rec : TelemetryRecord) (a : RealNum) : PresentedAt.Statement (.encode rec a) :=
  fun _ => ⟨rfl, .encode, rfl, rfl⟩
theorem PresentedAt.dispatch (t : Byte) (p : List Byte) : PresentedAt.Statement (.dispatch t p) :=
  fun _ => ⟨rfl, .dispatch, rfl, rfl⟩
theorem PresentedAt.netIn (d : List Byte) : PresentedAt.Statement (.netIn d) :=
  fun _ => ⟨rfl, .netIn, rfl, rfl⟩
theorem PresentedAt.txWrite : PresentedAt.Statement (.txWrite) :=
  fun _ => ⟨rfl, .txWrite, rfl, rfl⟩
theorem PresentedAt.telLoad (rec : TelemetryRecord) : PresentedAt.Statement (.telLoad rec) :=
  fun _ => ⟨rfl, .telLoad, rfl, rfl⟩
theorem PresentedAt.telTick : PresentedAt.Statement (.telTick) :=
  fun _ => ⟨rfl, .telTick, rfl, rfl⟩
theorem PresentedAt.ctlMsg (m : List Byte) (a : Addr) : PresentedAt.Statement (.ctlMsg m a) :=
  fun _ => ⟨rfl, .ctlMsg, rfl, rfl⟩
theorem PresentedAt.bcast (d : List Byte) : PresentedAt.Statement (.bcast d) :=
  fun _ => ⟨rfl, .bcast, rfl, rfl⟩
theorem PresentedAt.statsReport : PresentedAt.Statement (.statsReport) :=
  fun _ => ⟨rfl, .statsReport, rfl, rfl⟩
theorem PresentedAt.stop : PresentedAt.Statement (.stop) :=
  fun _ => ⟨rfl, .stop, rfl, rfl⟩

end Sys2Proof.Laws
end

