-- ==== Sys2Proof/Laws/Reals.lean ====
section
/-! SUPPORT. The enclosures of real numbers hold them and close on them, and so do the brackets of what the derivation stage
makes of them: so the signs found are the signs, and the roundings the roundings (assumptions 10, 38). -/

namespace Sys2Proof.Machine

open Filter Topology

/-! ### Every real number has a name's form -/

/-- The digits of a number enclose one number. -/
theorem truncOf_nested (i : Int) (bit : Nat → Bool) :
    ∃ u : ℝ, ∀ P : Nat, (truncOf i bit P : ℝ) / 2 ^ P ≤ u ∧ u ≤ ((truncOf i bit P : ℝ) + 1) / 2 ^ P := by
  have step : ∀ P : Nat, (truncOf i bit P : ℝ) / 2 ^ P ≤ (truncOf i bit (P + 1) : ℝ) / 2 ^ (P + 1) ∧
      ((truncOf i bit (P + 1) : ℝ) + 1) / 2 ^ (P + 1) ≤ ((truncOf i bit P : ℝ) + 1) / 2 ^ P := by
    intro P
    have e : (truncOf i bit (P + 1) : ℝ) = 2 * truncOf i bit P + (if bit P then 1 else 0) := by
      simp only [truncOf]; push_cast; rfl
    have hb : (0 : ℝ) ≤ (if bit P then 1 else 0) ∧ (if bit P then (1 : ℝ) else 0) ≤ 1 := by split <;> norm_num
    rw [e, pow_succ]
    constructor
    · rw [div_le_div_iff₀ (by positivity) (by positivity)]
      nlinarith [hb.1, show (0 : ℝ) < 2 ^ P by positivity]
    · rw [div_le_div_iff₀ (by positivity) (by positivity)]
      nlinarith [hb.2, show (0 : ℝ) < 2 ^ P by positivity]
  have hm := ciSup_mem_iInter_Icc_of_antitone_Icc
    (f := fun P : Nat => (truncOf i bit P : ℝ) / 2 ^ P) (g := fun P : Nat => ((truncOf i bit P : ℝ) + 1) / 2 ^ P)
    (antitone_nat_of_succ_le fun P => Set.Icc_subset_Icc (step P).1 (step P).2)
    (fun P => div_le_div_of_nonneg_right (by linarith) (by positivity))
  rw [Set.mem_iInter] at hm
  exact ⟨_, fun P => hm P⟩

/-- Every real number has an integer part and binary digits: none is left out by naming it so. -/
theorem real_has_digits (u : ℝ) : ∃ (i : Int) (bit : Nat → Bool), ∀ P : Nat,
    (truncOf i bit P : ℝ) / 2 ^ P ≤ u ∧ u ≤ ((truncOf i bit P : ℝ) + 1) / 2 ^ P := by
  refine ⟨⌊u⌋, fun P => decide (⌊u * 2 ^ (P + 1)⌋ % 2 = 1), fun P => ?_⟩
  have e : truncOf ⌊u⌋ (fun P => decide (⌊u * 2 ^ (P + 1)⌋ % 2 = 1)) P = ⌊u * 2 ^ P⌋ := by
    induction P with
    | zero => simp [truncOf]
    | succ P ih =>
      simp only [truncOf, ih]
      have h : ⌊u * 2 ^ (P + 1)⌋ / 2 = ⌊u * 2 ^ P⌋ := by
        have := Int.floor_div_natCast (u * 2 ^ (P + 1)) 2
        rw [pow_succ, ← mul_assoc] at this ⊢
        push_cast at this
        rw [← this, mul_div_cancel_right₀ _ (by norm_num : (2 : ℝ) ≠ 0)]
      simp only [decide_eq_true_eq]
      split <;> omega
  rw [e]
  constructor
  · rw [div_le_iff₀ (by positivity)]; exact Int.floor_le _
  · rw [le_div_iff₀ (by positivity)]; exact (Int.lt_floor_add_one _).le

theorem isReal_exists (x : RealLit) : ∃ v, IsReal x v := by
  cases x with
  | rat q => exact ⟨_, rfl⟩
  | root q n => exact ⟨_, rfl⟩
  | named q k =>
    obtain ⟨u, hu⟩ := truncOf_nested (Config.realInt k) (Config.realBit k)
    exact ⟨q * u, u, rfl, hu⟩

theorem isSum_exists (terms : List (Rat × RealLit)) : ∃ v, IsSum terms v := by
  induction terms with
  | nil => exact ⟨0, rfl⟩
  | cons t terms ih =>
    obtain ⟨a, ha⟩ := isReal_exists t.2
    obtain ⟨b, hb⟩ := ih
    exact ⟨_, a, b, ha, hb, rfl⟩

theorem isCross_exists (y : Cross) : ∃ v, IsCross y v := by
  obtain ⟨a, ha⟩ := isReal_exists y.a
  obtain ⟨b, hb⟩ := isReal_exists y.b
  obtain ⟨c, hc⟩ := isReal_exists y.c
  obtain ⟨d, hd⟩ := isReal_exists y.d
  exact ⟨_, a, b, c, d, ha, hb, hc, hd, rfl⟩

theorem isSquares_exists (x : Squares) : ∃ v, IsSquares x v := by
  obtain ⟨b, hb⟩ := isSum_exists x.terms
  exact ⟨_, b, hb, rfl⟩

/-- The digits of a number name one number. -/
theorem isReal_unique {x : RealLit} {v w : ℝ} (h : IsReal x v) (k : IsReal x w) : v = w := by
  cases x with
  | rat q => exact (h : v = q).trans (k : w = q).symm
  | root q n => exact (h : v = q * Real.sqrt n).trans (k : w = q * Real.sqrt n).symm
  | named q m =>
    obtain ⟨a, rfl, ha⟩ := h
    obtain ⟨b, rfl, hb⟩ := k
    have close : ∀ P : Nat, |a - b| ≤ (1 / 2) ^ P := by
      intro P
      have e : ((realTrunc m P : ℝ) + 1) / 2 ^ P = (realTrunc m P : ℝ) / 2 ^ P + (1 / 2) ^ P := by
        rw [add_div, one_div_pow]
      rw [abs_le]
      constructor <;> linarith [(ha P).1, (ha P).2, (hb P).1, (hb P).2]
    have : a = b := by
      by_contra hne
      obtain ⟨P, hP⟩ := exists_pow_lt_of_lt_one (abs_pos.mpr (sub_ne_zero.mpr hne)) (by norm_num : (1 / 2 : ℝ) < 1)
      exact absurd (close P) (not_le.mpr hP)
    rw [this]

theorem isCross_unique {y : Cross} {v w : ℝ} (h : IsCross y v) (k : IsCross y w) : v = w := by
  obtain ⟨a, b, c, d, ha, hb, hc, hd, rfl⟩ := h
  obtain ⟨a', b', c', d', ha', hb', hc', hd', rfl⟩ := k
  rw [isReal_unique ha ha', isReal_unique hb hb', isReal_unique hc hc', isReal_unique hd hd']

theorem isSum_unique {terms : List (Rat × RealLit)} {v w : ℝ} (h : IsSum terms v) (k : IsSum terms w) : v = w := by
  induction terms generalizing v w with
  | nil => exact (h : v = 0).trans (k : w = 0).symm
  | cons t terms ih =>
    obtain ⟨a, b, ha, hb, rfl⟩ := h
    obtain ⟨a', b', ha', hb', rfl⟩ := k
    rw [isReal_unique ha ha', ih hb hb']

theorem isSquares_unique {x : Squares} {v w : ℝ} (h : IsSquares x v) (k : IsSquares x w) : v = w := by
  obtain ⟨b, hb, rfl⟩ := h
  obtain ⟨b', hb', rfl⟩ := k
  rw [isSum_unique hb hb']

/-! ### Enclosures -/

/-- Every interval holds `v`, and they close on it. -/
structure Encloses (f : Nat → Rat × Rat) (v : ℝ) : Prop where
  low : ∀ p, ((f p).1 : ℝ) ≤ v
  high : ∀ p, v ≤ ((f p).2 : ℝ)
  lowLim : Tendsto (fun p => ((f p).1 : ℝ)) atTop (𝓝 v)
  highLim : Tendsto (fun p => ((f p).2 : ℝ)) atTop (𝓝 v)

theorem encloses_point (q : Rat) : Encloses (fun _ => (q, q)) q :=
  ⟨fun _ => le_rfl, fun _ => le_rfl, tendsto_const_nhds, tendsto_const_nhds⟩

/-- Intervals that hold `v` and whose width tends to 0 close on it. -/
theorem encloses_of_width {f : Nat → Rat × Rat} {v : ℝ} {w : Nat → ℝ} (hw : Tendsto w atTop (𝓝 0))
    (h : ∀ p, ((f p).1 : ℝ) ≤ v ∧ v ≤ ((f p).2 : ℝ) ∧ ((f p).2 : ℝ) - ((f p).1 : ℝ) ≤ w p) : Encloses f v where
  low p := (h p).1
  high p := (h p).2.1
  lowLim := tendsto_of_tendsto_of_tendsto_of_le_of_le (by simpa using tendsto_const_nhds.sub hw) tendsto_const_nhds
    (fun p => by show v - w p ≤ _; linarith [h p]) fun p => (h p).1
  highLim := tendsto_of_tendsto_of_tendsto_of_le_of_le tendsto_const_nhds (by simpa using tendsto_const_nhds.add hw)
    (fun p => (h p).2.1) fun p => by show _ ≤ v + w p; linarith [h p]

theorem Encloses.comp {f : Nat → Rat × Rat} {v : ℝ} {g : Nat → Nat} (h : Encloses f v) (hg : Tendsto g atTop atTop) :
    Encloses (fun p => f (g p)) v :=
  ⟨fun _ => h.low _, fun _ => h.high _, h.lowLim.comp hg, h.highLim.comp hg⟩

theorem encloses_scale {f : Nat → Rat × Rat} {v : ℝ} (a b : Rat) (h : Encloses f v) :
    Encloses (fun p => scaleBracket a b (f p)) (a * v + b) := by
  have l : Tendsto (fun p => (a : ℝ) * (f p).1 + b) atTop (𝓝 (a * v + b)) := (h.lowLim.const_mul _).add_const _
  have u : Tendsto (fun p => (a : ℝ) * (f p).2 + b) atTop (𝓝 (a * v + b)) := (h.highLim.const_mul _).add_const _
  by_cases ha : 0 ≤ a
  · have ha' : (0 : ℝ) ≤ a := by exact_mod_cast ha
    simp only [scaleBracket, if_pos ha]
    refine ⟨fun p => ?_, fun p => ?_, by simpa using l, by simpa using u⟩ <;> push_cast <;>
      nlinarith [h.low p, h.high p]
  · have ha' : (a : ℝ) < 0 := by exact_mod_cast not_le.mp ha
    simp only [scaleBracket, if_neg ha]
    refine ⟨fun p => ?_, fun p => ?_, by simpa using u, by simpa using l⟩ <;> push_cast <;>
      nlinarith [h.low p, h.high p]

theorem encloses_add {f g : Nat → Rat × Rat} {v w : ℝ} (h : Encloses f v) (k : Encloses g w) :
    Encloses (fun p => addBracket (f p) (g p)) (v + w) where
  low p := by simpa [addBracket] using add_le_add (h.low p) (k.low p)
  high p := by simpa [addBracket] using add_le_add (h.high p) (k.high p)
  lowLim := by simpa [addBracket] using h.lowLim.add k.lowLim
  highLim := by simpa [addBracket] using h.highLim.add k.highLim

/-- A product lies between the products of the ends of one of its factors. -/
theorem mul_between {a b v : ℝ} (h₁ : a ≤ v) (h₂ : v ≤ b) (y : ℝ) :
    min (a * y) (b * y) ≤ v * y ∧ v * y ≤ max (a * y) (b * y) := by
  rcases le_total 0 y with h | h
  · exact ⟨(min_le_left _ _).trans (mul_le_mul_of_nonneg_right h₁ h),
      (mul_le_mul_of_nonneg_right h₂ h).trans (le_max_right _ _)⟩
  · exact ⟨(min_le_right _ _).trans (mul_le_mul_of_nonpos_right h₂ h),
      (mul_le_mul_of_nonpos_right h₁ h).trans (le_max_left _ _)⟩

theorem encloses_mul {f g : Nat → Rat × Rat} {v w : ℝ} (h : Encloses f v) (k : Encloses g w) :
    Encloses (fun p => mulBracket (f p) (g p)) (v * w) := by
  have between : ∀ p, ((mulBracket (f p) (g p)).1 : ℝ) ≤ v * w ∧ v * w ≤ ((mulBracket (f p) (g p)).2 : ℝ) := by
    intro p
    obtain ⟨a₁, a₂⟩ := mul_between (h.low p) (h.high p) w
    obtain ⟨b₁, b₂⟩ := mul_between (k.low p) (k.high p) ((f p).1 : ℝ)
    obtain ⟨c₁, c₂⟩ := mul_between (k.low p) (k.high p) ((f p).2 : ℝ)
    rw [mul_comm w, mul_comm ((g p).1 : ℝ), mul_comm ((g p).2 : ℝ)] at b₁ b₂ c₁ c₂
    simp only [mulBracket, Rat.cast_min, Rat.cast_max, Rat.cast_mul]
    exact ⟨(min_le_min b₁ c₁).trans a₁, a₂.trans (max_le_max b₂ c₂)⟩
  refine ⟨fun p => (between p).1, fun p => (between p).2, ?_, ?_⟩
  · simpa [mulBracket] using ((h.lowLim.mul k.lowLim).min (h.lowLim.mul k.highLim)).min
      ((h.highLim.mul k.lowLim).min (h.highLim.mul k.highLim))
  · simpa [mulBracket] using ((h.lowLim.mul k.lowLim).max (h.lowLim.mul k.highLim)).max
      ((h.highLim.mul k.lowLim).max (h.highLim.mul k.highLim))

theorem encloses_grid {m : Nat → Int} {v : ℝ} (h : ∀ P, (m P : ℝ) / 2 ^ P ≤ v ∧ v ≤ ((m P : ℝ) + 1) / 2 ^ P) :
    Encloses (fun P => gridBracket (m P) P) v := by
  refine encloses_of_width (w := fun P => (1 / 2) ^ P)
    (tendsto_pow_atTop_nhds_zero_of_lt_one (by norm_num) (by norm_num)) fun P => ?_
  simp only [gridBracket]
  push_cast
  refine ⟨(h P).1, (h P).2, ?_⟩
  rw [one_div_pow, add_div, add_sub_cancel_left]

theorem litEnclose_encloses {x : RealLit} {v : ℝ} (h : IsReal x v) : Encloses (litEnclose x) v := by
  cases x with
  | rat q => obtain rfl : v = q := h; exact encloses_point q
  | root q n =>
    obtain rfl : v = q * Real.sqrt n := h
    unfold litEnclose
    simp only
    cases hn : ratSqrt? (n : Rat) with
    | some m =>
      obtain ⟨h0, e⟩ := ratSqrt?_some hn
      have e' : Real.sqrt n = m := by
        rw [show (n : ℝ) = (m : ℝ) * m by exact_mod_cast e.symm]
        exact Real.sqrt_mul_self (by exact_mod_cast h0)
      rw [e']
      simpa using encloses_point (q * m)
    | none =>
      have hg : Encloses (fun P => gridBracket (isqrt (n * 4 ^ P)) P) (Real.sqrt n) := by
        refine encloses_grid fun P => ?_
        obtain ⟨s₁, s₂⟩ := isqrt_spec (n * 4 ^ P)
        rw [div_le_iff₀ (by positivity), le_div_iff₀ (by positivity), Int.cast_natCast]
        constructor <;> refine le_of_sq_le_sq ?_ (by positivity) <;>
          rw [mul_pow, Real.sq_sqrt (Nat.cast_nonneg _), ← pow_mul, mul_comm P 2, pow_mul]
        · have : ((isqrt (n * 4 ^ P) * isqrt (n * 4 ^ P) : Nat) : ℝ) ≤ ((n * 4 ^ P : Nat) : ℝ) := by exact_mod_cast s₁
          push_cast at this
          norm_num
          nlinarith
        · have : ((n * 4 ^ P : Nat) : ℝ) ≤ (((isqrt (n * 4 ^ P) + 1) * (isqrt (n * 4 ^ P) + 1) : Nat) : ℝ) := by
            exact_mod_cast s₂.le
          push_cast at this
          norm_num
          nlinarith
      simpa using encloses_scale q 0 hg
  | named q k =>
    obtain ⟨u, rfl, hu⟩ := h
    have := encloses_scale q 0 (encloses_grid hu)
    rwa [Rat.cast_zero, add_zero] at this

theorem crossEnclose_encloses {y : Cross} {v : ℝ} (h : IsCross y v) : Encloses (crossEnclose y) v := by
  obtain ⟨a, b, c, d, ha, hb, hc, hd, rfl⟩ := h
  have := encloses_scale 2 0 (encloses_add
    (encloses_mul (litEnclose_encloses ha) (litEnclose_encloses hb))
    (encloses_mul (litEnclose_encloses hc) (litEnclose_encloses hd)))
  rwa [Rat.cast_zero, add_zero] at this

theorem sumEnclose_encloses {terms : List (Rat × RealLit)} {v : ℝ} (h : IsSum terms v) :
    Encloses (sumEnclose terms) v := by
  induction terms generalizing v with
  | nil => obtain rfl : v = 0 := h
           have := encloses_point 0
           rwa [Rat.cast_zero] at this
  | cons t terms ih =>
    obtain ⟨a, b, ha, hb, rfl⟩ := h
    have := encloses_add
      (encloses_scale t.1 0 (encloses_mul (litEnclose_encloses ha) (litEnclose_encloses ha))) (ih hb)
    rwa [Rat.cast_zero, add_zero] at this

theorem squaresEnclose_encloses {x : Squares} {v : ℝ} (h : IsSquares x v) : Encloses (squaresEnclose x) v := by
  by_cases hx : squaresExact x = true
  · have e : squaresEnclose x = fun _ => (squaresValue x, squaresValue x) := funext fun P => by
      rw [squaresEnclose, if_pos hx]
    rw [e, squaresValue_value hx h]
    exact encloses_point _
  · obtain ⟨b, hb, rfl⟩ := h
    have e : squaresEnclose x = fun P => addBracket (x.const, x.const) (sumEnclose x.terms P) := funext fun P => by
      rw [squaresEnclose, if_neg hx]
    rw [e]
    exact encloses_add (encloses_point _) (sumEnclose_encloses hb)

/-! ### Signs -/

/-- A search without end finds nothing just where there is nothing to find. -/
theorem everFrom_isSome (p : Nat → Bool) (n : Nat) : (everFrom p n).isSome = true ↔ ∃ m, n ≤ m ∧ p m = true := by
  constructor
  · intro h
    refine everFrom.partial_correctness p (fun n _ => ∃ m, n ≤ m ∧ p m = true) ?_ n () (by
      cases e : everFrom p n <;> simp_all)
    intro f ih n r hr
    split at hr
    · exact ⟨n, le_rfl, ‹_›⟩
    · obtain ⟨m, hm, h⟩ := ih _ _ hr
      exact ⟨m, by omega, h⟩
  · rintro ⟨m, hm, h⟩
    obtain ⟨k, rfl⟩ := Nat.exists_eq_add_of_le hm
    clear hm
    induction k generalizing n with
    | zero => rw [everFrom, if_pos (by simpa using h)]; rfl
    | succ k ih =>
      rw [everFrom]
      split
      · rfl
      · exact ih (n + 1) (by rwa [show n + 1 + k = n + (k + 1) by omega])

theorem ever_iff (p : Nat → Bool) : ever p = true ↔ ∃ n, p n = true := by
  simp [ever, everFrom_isSome]

theorem ratSign_eq (q : Rat) : ratSign q = SignType.sign (q : ℝ) := by
  unfold ratSign
  split
  · rename_i h; exact (sign_neg (by exact_mod_cast h)).symm
  · split
    · rename_i h; rw [h, Rat.cast_zero, sign_zero]; rfl
    · rename_i h h'
      exact (sign_pos (by exact_mod_cast lt_of_le_of_ne (not_lt.mp h) (Ne.symm h'))).symm

/-- A sign that one of the precisions tells is the number's. -/
theorem trySign_eq {f : Nat → Rat × Rat} {v : ℝ} (h : Encloses f v) (fuel p : Nat) {s : SignType}
    (hs : trySign f fuel p = some s) : s = SignType.sign v := by
  induction fuel generalizing p with
  | zero => cases hs
  | succ fuel ih =>
    unfold trySign at hs
    simp only at hs
    split at hs
    · rename_i k
      obtain rfl := Option.some.inj hs
      exact (sign_pos (lt_of_lt_of_le (by exact_mod_cast k) (h.low p))).symm
    · split at hs
      · rename_i k
        obtain rfl := Option.some.inj hs
        exact (sign_neg (lt_of_le_of_lt (h.high p) (by exact_mod_cast k))).symm
      · split at hs
        · rename_i k
          obtain rfl := Option.some.inj hs
          have l := h.low p
          have u := h.high p
          rw [k.1, Rat.cast_zero] at l
          rw [k.2, Rat.cast_zero] at u
          rw [le_antisymm u l, sign_zero]; rfl
        · exact ih _ hs

/-- The sign found is the sign of the enclosed number. -/
theorem signBy_eq {f : Nat → Rat × Rat} {v : ℝ} (h : Encloses f v) : signBy f = SignType.sign v := by
  unfold signBy
  split
  · exact trySign_eq h _ _ ‹_›
  · have pos : (ever fun p => decide (0 < (f p).1)) = true ↔ 0 < v := by
      rw [ever_iff]
      constructor
      · rintro ⟨p, hp⟩
        exact lt_of_lt_of_le (by exact_mod_cast of_decide_eq_true hp) (h.low p)
      · intro hv
        obtain ⟨p, hp⟩ := (h.lowLim.eventually (lt_mem_nhds hv)).exists
        exact ⟨p, decide_eq_true (by exact_mod_cast hp)⟩
    have neg : (ever fun p => decide ((f p).2 < 0)) = true ↔ v < 0 := by
      rw [ever_iff]
      constructor
      · rintro ⟨p, hp⟩
        exact lt_of_le_of_lt (h.high p) (by exact_mod_cast of_decide_eq_true hp)
      · intro hv
        obtain ⟨p, hp⟩ := (h.highLim.eventually (gt_mem_nhds hv)).exists
        exact ⟨p, decide_eq_true (by exact_mod_cast hp)⟩
    split
    · rename_i k; exact (sign_pos (pos.mp k)).symm
    · rename_i k
      split
      · rename_i k'; exact (sign_neg (neg.mp k')).symm
      · rename_i k'
        have : v = 0 := le_antisymm (not_lt.mp fun c => k (pos.mpr c)) (not_lt.mp fun c => k' (neg.mpr c))
        rw [this, sign_zero]; rfl

theorem crossSign_eq {y : Cross} {v : ℝ} (h : IsCross y v) : crossSign y = SignType.sign v := by
  unfold crossSign
  split
  · rename_i hx
    obtain ⟨h₁, h₂⟩ := crossExact_sign hx h
    unfold ratSign
    split
    · rename_i k; rw [sign_neg (h₂.mp k)]; rfl
    · rename_i k
      split
      · rename_i k'; rw [h₁.mp k', sign_zero]; rfl
      · rename_i k'
        rw [sign_pos (lt_of_le_of_ne (not_lt.mp fun c => k (h₂.mpr c)) fun c => k' (h₁.mpr c.symm))]; rfl
  · exact signBy_eq (crossEnclose_encloses h)

theorem squaresSign_eq {x : Squares} {v : ℝ} (h : IsSquares x v) : squaresSign x = SignType.sign v := by
  unfold squaresSign
  split
  · rename_i hx; rw [squaresValue_value hx h]; exact ratSign_eq _
  · exact signBy_eq (squaresEnclose_encloses h)

theorem isZero_iff (x : RealLit) : isZero x = true ↔ IsReal x 0 := by
  obtain ⟨v, hv⟩ := isReal_exists x
  have hc : IsCross ⟨x, .rat 1, .rat 0, .rat 0⟩ (2 * v) := ⟨v, 1, 0, 0, hv, by simp [IsReal], by simp [IsReal], by simp [IsReal], by ring⟩
  have e : isZero x = true ↔ v = 0 := by
    unfold isZero
    rw [crossSign_eq hc, decide_eq_true_iff]
    exact sign_eq_zero_iff.trans (by simp)
  rw [e]
  exact ⟨fun h => h ▸ hv, fun h => isReal_unique hv h⟩

theorem isZeroNum_iff (x : Num) : isZeroNum x = true ↔ ∃ r, x = .fin r ∧ IsReal r 0 := by
  cases x with
  | fin r => simpa [isZeroNum] using isZero_iff r
  | nan | posInf | negInf => simp [isZeroNum]

/-! ### Rounding -/

/-- The rounding of a rational is the one that `IsRnd` says, and no other. -/
theorem isRnd_iff (t : RoundTies) (x : Rat) (z : Int) : IsRnd t x z ↔ z = rnd t x := by
  obtain ⟨f, hf⟩ : ∃ f : Int, f = x.floor := ⟨_, rfl⟩
  have l : (f : ℝ) ≤ x := by
    have : (f : Rat) ≤ x := hf ▸ Int.floor_le x
    exact_mod_cast this
  have u : (x : ℝ) < f + 1 := by
    have : x < (f : Rat) + 1 := hf ▸ Int.lt_floor_add_one x
    exact_mod_cast this
  have near : ∀ z : Int, IsRnd t x z → z = f ∨ z = f + 1 := by
    rintro z ⟨h, -⟩
    rw [abs_le] at h
    have a : ((f - 1 : Int) : ℝ) < z := by push_cast; linarith [h.1]
    have b : (z : ℝ) < ((f + 2 : Int) : ℝ) := by push_cast; linarith [h.2]
    have a' : f - 1 < z := by exact_mod_cast a
    have b' : z < f + 2 := by exact_mod_cast b
    omega
  have half : ∀ g : Int, (x : ℝ) = g + 1 / 2 → g = f := by
    intro g hg
    have a : ((g : Int) : ℝ) < ((f + 1 : Int) : ℝ) := by push_cast; linarith
    have b : ((f - 1 : Int) : ℝ) < (g : ℝ) := by push_cast; linarith
    have a' : g < f + 1 := by exact_mod_cast a
    have b' : f - 1 < g := by exact_mod_cast b
    omega
  have cast : ((x - (f : Rat) : Rat) : ℝ) = x - f := by push_cast; rfl
  have e : rnd t x = if x - (f : Rat) < 1 / 2 then f else if 1 / 2 < x - (f : Rat) then f + 1
      else if tieUp t f then f + 1 else f := by rw [hf]; rfl
  rw [e]
  constructor
  · intro h
    have hz := near z h
    have hd := abs_le.mp h.1
    split
    · rename_i k
      have k' : (x : ℝ) - f < 1 / 2 := by
        have : ((x - (f : Rat) : Rat) : ℝ) < ((1 / 2 : Rat) : ℝ) := by exact_mod_cast k
        push_cast at this; linarith
      refine hz.resolve_right fun c => ?_
      rw [c] at hd; push_cast at hd; linarith [hd.2]
    · rename_i k₁
      split
      · rename_i k
        have k' : (1 : ℝ) / 2 < x - f := by
          have : ((1 / 2 : Rat) : ℝ) < ((x - (f : Rat) : Rat) : ℝ) := by exact_mod_cast k
          push_cast at this; linarith
        refine hz.resolve_left fun c => ?_
        rw [c] at hd; linarith [hd.1]
      · rename_i k₂
        have k : x - (f : Rat) = 1 / 2 := le_antisymm (not_lt.mp k₂) (not_lt.mp k₁)
        refine h.2 f ?_
        have : x = (f : Rat) + 1 / 2 := by linarith
        rw [this]; push_cast; ring
  · rintro rfl
    have tie : ∀ g : Int, (x : ℝ) = g + 1 / 2 → x - (f : Rat) = 1 / 2 := by
      intro g hg
      have : ((x - (f : Rat) : Rat) : ℝ) = ((1 / 2 : Rat) : ℝ) := by
        rw [cast, hg, half g hg]; push_cast; ring
      exact_mod_cast this
    split
    · rename_i k
      have k' : (x : ℝ) - f < 1 / 2 := by
        have : ((x - (f : Rat) : Rat) : ℝ) < ((1 / 2 : Rat) : ℝ) := by exact_mod_cast k
        push_cast at this; linarith
      exact ⟨by rw [abs_le]; constructor <;> linarith, fun g hg => absurd k (by rw [tie g hg]; exact lt_irrefl _)⟩
    · rename_i k₁
      split
      · rename_i k
        have k' : (1 : ℝ) / 2 < x - f := by
          have : ((1 / 2 : Rat) : ℝ) < ((x - (f : Rat) : Rat) : ℝ) := by exact_mod_cast k
          push_cast at this; linarith
        exact ⟨by rw [abs_le]; constructor <;> push_cast <;> linarith,
          fun g hg => absurd k (by rw [tie g hg]; exact lt_irrefl _)⟩
      · rename_i k₂
        have k : x - (f : Rat) = 1 / 2 := le_antisymm (not_lt.mp k₂) (not_lt.mp k₁)
        have k' : (x : ℝ) - f = 1 / 2 := by
          rw [← cast, k]; push_cast; ring
        refine ⟨?_, fun g hg => by rw [half g hg]⟩
        rw [abs_le]
        split <;> constructor <;> push_cast <;> linarith

/-- What is nearer to `z` than a half is rounded to `z`, whatever the tie rule. -/
theorem rnd_of_near (t : RoundTies) {x : Rat} {z : Int} (h : (z : Rat) - 1 / 2 < x) (k : x < z + 1 / 2) : rnd t x = z := by
  have h' : (((z : Rat) - 1 / 2 : Rat) : ℝ) < x := by exact_mod_cast h
  have k' : (x : ℝ) < (((z : Rat) + 1 / 2 : Rat) : ℝ) := by exact_mod_cast k
  push_cast at h' k'
  refine ((isRnd_iff t x z).mp ⟨abs_le.mpr ⟨by linarith, by linarith⟩, fun f hf => ?_⟩).symm
  have a : ((z - 1 : Int) : ℝ) < f := by push_cast; linarith
  have b : (f : ℝ) < (z : ℝ) := by linarith
  have a' : z - 1 < f := by exact_mod_cast a
  have b' : f < z := by exact_mod_cast b
  omega

/-- A number whose enclosure is nearer to `z` than a half is rounded to `z`, whatever the tie rule. -/
theorem rndEnclosed_of_near (t : RoundTies) {f : Nat → Rat × Rat} {z : Int}
    (h : (z : Rat) - 1 / 2 < (f (narrow f 8 64)).1 ∧ (f (narrow f 8 64)).1 < z + 1 / 2 ∧
      (z : Rat) - 1 / 2 < (f (narrow f 8 64)).2 ∧ (f (narrow f 8 64)).2 < z + 1 / 2) : rndEnclosed t f = z := by
  simp [rndEnclosed, rnd_of_near t h.1 h.2.1, rnd_of_near t h.2.2.1 h.2.2.2, climb]

/-- What is above or on the half below `z`, and below or on the one above, is rounded to `z`. -/
theorem isRnd_between {t : RoundTies} {v : ℝ} {z : Int}
    (lo : (z : ℝ) - 1 / 2 < v ∨ ((z : ℝ) - 1 / 2 = v ∧ tieUp t (z - 1) = true))
    (hi : v < (z : ℝ) + 1 / 2 ∨ (v = (z : ℝ) + 1 / 2 ∧ tieUp t z = false)) : IsRnd t v z := by
  constructor
  · rw [abs_le]
    constructor
    · rcases hi with hi | hi <;> linarith [hi]
    · rcases lo with lo | lo <;> linarith [lo]
  · intro g hg
    rcases lo with lo | ⟨lo, tie⟩
    · rcases hi with hi | ⟨hi, tie⟩
      · have a : ((z - 1 : Int) : ℝ) < g := by push_cast; linarith
        have b : (g : ℝ) < (z : ℝ) := by linarith
        have a' : z - 1 < g := by exact_mod_cast a
        have b' : g < z := by exact_mod_cast b
        omega
      · have : (g : ℝ) = z := by linarith
        rw [show g = z by exact_mod_cast this, tie]; rfl
    · have : (g : ℝ) = ((z - 1 : Int) : ℝ) := by push_cast; linarith
      rw [show g = z - 1 by exact_mod_cast this, tie]; simp

/-- From an integer not above the rounding of `v`, at least the steps that lead to it. -/
theorem climb_spec (t : RoundTies) {f : Nat → Rat × Rat} {v : ℝ} (h : Encloses f v) (k : Nat) (z : Int)
    (lo : (z : ℝ) - 1 / 2 < v ∨ ((z : ℝ) - 1 / 2 = v ∧ tieUp t (z - 1) = true))
    (hi : v < (z : ℝ) + k + 1 / 2 ∨ (v = (z : ℝ) + k + 1 / 2 ∧ tieUp t (z + k) = false)) :
    IsRnd t v (climb t f k z) := by
  induction k generalizing z with
  | zero =>
    simp only [Nat.cast_zero, add_zero] at hi
    exact isRnd_between lo hi
  | succ k ih =>
    have hs := signBy_eq (encloses_scale 1 (-(z + 1 / 2)) h)
    push_cast at hs
    rw [one_mul] at hs
    unfold climb
    rw [hs]
    rcases lt_trichotomy v (z + 1 / 2) with c | c | c
    · rw [show SignType.sign (v + -((z : ℝ) + 1 / 2)) = .neg from sign_neg (by linarith)]
      exact isRnd_between lo (.inl c)
    · rw [show SignType.sign (v + -((z : ℝ) + 1 / 2)) = .zero by rw [c, add_neg_cancel, sign_zero]; rfl]
      simp only
      constructor
      · rw [abs_le]; split <;> constructor <;> push_cast <;> linarith
      · intro g hg
        have : (g : ℝ) = z := by linarith
        rw [show g = z by exact_mod_cast this]
    · rw [show SignType.sign (v + -((z : ℝ) + 1 / 2)) = .pos from sign_pos (by linarith)]
      simp only
      refine ih (z + 1) (.inl (by push_cast; linarith)) ?_
      push_cast at hi ⊢
      rw [show z + 1 + (k : Int) = z + (k + 1) by ring]
      rcases hi with hi | ⟨hi, tie⟩
      · exact .inl (by linarith)
      · exact .inr ⟨by linarith, tie⟩

/-- The rounding found is the rounding of the enclosed number. -/
theorem rndEnclosed_spec (t : RoundTies) {f : Nat → Rat × Rat} {v : ℝ} (h : Encloses f v) :
    IsRnd t v (rndEnclosed t f) := by
  unfold rndEnclosed
  simp only
  obtain ⟨i, hi⟩ : ∃ i, i = f (narrow f 8 64) := ⟨_, rfl⟩
  have l := h.low (narrow f 8 64)
  have u := h.high (narrow f 8 64)
  rw [← hi] at l u ⊢
  obtain ⟨a, ha⟩ : ∃ a, a = rnd t i.1 := ⟨_, rfl⟩
  obtain ⟨b, hb⟩ : ∃ b, b = rnd t i.2 := ⟨_, rfl⟩
  obtain ⟨a₁, a₂⟩ := (isRnd_iff t i.1 a).mpr ha
  obtain ⟨b₁, b₂⟩ := (isRnd_iff t i.2 b).mpr hb
  rw [abs_le] at a₁ b₁
  rw [← ha, ← hb]
  refine climb_spec t h _ a ?_ ?_
  · rcases lt_or_eq_of_le (show (a : ℝ) - 1 / 2 ≤ v by linarith [a₁.2]) with k | k
    · exact .inl k
    · refine .inr ⟨k, ?_⟩
      have := a₂ (a - 1) (by push_cast; linarith [a₁.2])
      by_contra c
      rw [if_neg c] at this
      omega
  · have hk : b ≤ a + ((b - a).toNat : Int) := by omega
    have hk' : (b : ℝ) ≤ (a : ℝ) + ((b - a).toNat : ℝ) := by exact_mod_cast hk
    rcases lt_or_eq_of_le (show v ≤ (a : ℝ) + ((b - a).toNat : ℝ) + 1 / 2 by linarith [b₁.1]) with k | k
    · exact .inl k
    · refine .inr ⟨k, ?_⟩
      have e : ((a + ((b - a).toNat : Int) : Int) : ℝ) = b := by push_cast; linarith [b₁.1]
      rw [show a + ((b - a).toNat : Int) = b by exact_mod_cast e]
      have := b₂ b (by linarith [b₁.1])
      by_contra c
      rw [if_pos (by simpa using c)] at this
      omega

/-! ### Brackets -/

/-- The width that a bracket of rational numbers allows. -/
noncomputable def ratWidth (p : Nat) : ℝ := 2 * (2 ^ 64 + 2 ^ 16 * ((p + 64 : Nat) : ℝ)) / 2 ^ (p + 64)

theorem ratWidth_tendsto : Tendsto ratWidth atTop (𝓝 0) := by
  have h₁ : Tendsto (fun P : Nat => ((P : ℝ)) * (1 / 2) ^ P) atTop (𝓝 0) :=
    tendsto_self_mul_const_pow_of_lt_one (by norm_num) (by norm_num)
  have h₂ : Tendsto (fun P : Nat => ((1 : ℝ) / 2) ^ P) atTop (𝓝 0) :=
    tendsto_pow_atTop_nhds_zero_of_lt_one (by norm_num) (by norm_num)
  have h := ((h₂.const_mul (2 * 2 ^ 64)).add (h₁.const_mul (2 * 2 ^ 16))).comp (tendsto_add_atTop_nat 64)
  simp only [mul_zero, add_zero] at h
  refine h.congr fun p => ?_
  simp only [Function.comp, one_div_pow, ratWidth]
  field_simp

theorem ratBracket_encloses {x : RealNum} {v : ℝ} (hx : RatForm x) (h : IsValue x v) : Encloses (ratBracket x) v :=
  encloses_of_width ratWidth_tendsto fun p => ratBracket_holds hx h p

/-- Brackets of numbers below and above `v` that tend to it enclose it. -/
theorem encloses_between {x y : Nat → RealNum} {a b : Nat → ℝ} {v : ℝ} (hx : ∀ p, RatForm (x p)) (hy : ∀ p, RatForm (y p))
    (ha : ∀ p, IsValue (x p) (a p)) (hb : ∀ p, IsValue (y p) (b p)) (hav : ∀ p, a p ≤ v) (hvb : ∀ p, v ≤ b p)
    (la : Tendsto a atTop (𝓝 v)) (lb : Tendsto b atTop (𝓝 v)) :
    Encloses (fun p => ((ratBracket (x p) p).1, (ratBracket (y p) p).2)) v where
  low p := (ratBracket_holds (hx p) (ha p) p).1.trans (hav p)
  high p := (hvb p).trans (ratBracket_holds (hy p) (hb p) p).2.1
  lowLim := by
    refine tendsto_of_tendsto_of_tendsto_of_le_of_le (by simpa using la.sub ratWidth_tendsto) la (fun p => ?_)
      fun p => (ratBracket_holds (hx p) (ha p) p).1
    obtain ⟨-, h₂, h₃⟩ := ratBracket_holds (hx p) (ha p) p
    change _ ≤ ratWidth p at h₃
    change a p - ratWidth p ≤ ((ratBracket (x p) p).1 : ℝ)
    linarith
  highLim := by
    refine tendsto_of_tendsto_of_tendsto_of_le_of_le lb (by simpa using lb.add ratWidth_tendsto)
      (fun p => (ratBracket_holds (hy p) (hb p) p).2.1) fun p => ?_
    obtain ⟨h₁, -, h₃⟩ := ratBracket_holds (hy p) (hb p) p
    change _ ≤ ratWidth p at h₃
    change ((ratBracket (y p) p).2 : ℝ) ≤ b p + ratWidth p
    linarith

theorem fineScale_tendsto : Tendsto fineScale atTop atTop :=
  tendsto_atTop_mono (fun p => by simp only [fineScale, id]; omega) tendsto_id

theorem isSum_nonneg (xs : List RealLit) (u : ℝ) (h : IsSum (xs.map fun x => (1, x)) u) : 0 ≤ u := by
  induction xs generalizing u with
  | nil => rw [show u = 0 from h]
  | cons x xs ih =>
    obtain ⟨a, b, -, hb, rfl⟩ := h
    have := ih b hb
    push_cast
    nlinarith [mul_self_nonneg a]

/-! ### Angles -/

/-- `form` is an angle of rational numbers, `κ` the size of a radian in its unit. -/
structure AngleForm (form : Rat → Rat → RealNum) (κ : ℝ) : Prop where
  rat : ∀ y x, RatForm (form y x)
  value : ∀ y x : Rat, 0 ≤ y → ¬(y = 0 ∧ x = 0) → IsValue (form y x) (κ * Complex.arg ⟨x, y⟩)
  pos : 0 < κ

theorem angleForm_atan2 : AngleForm .atan2 1 where
  rat _ _ := trivial
  value y x _ h := ⟨by simpa using h, one_mul _⟩
  pos := one_pos

theorem angleForm_heading : AngleForm .heading (180 / Real.pi) where
  rat _ _ := trivial
  value y x hy h := by
    rw [isValue_heading]
    exact ⟨h, by rw [if_neg (not_lt.mpr hy)]; ring⟩
  pos := by positivity

theorem arg_pos_re {x y : ℝ} (hx : 0 < x) : Complex.arg ⟨x, y⟩ = Real.arctan (y / x) := by
  have h : |Complex.arg ⟨x, y⟩| < Real.pi / 2 := Complex.abs_arg_lt_pi_div_two_iff.mpr (.inl hx)
  rw [abs_lt] at h
  have := Complex.tan_arg ⟨x, y⟩
  simp only at this
  rw [← this, Real.arctan_tan h.1 h.2]

theorem arg_neg_re {x y : ℝ} (hx : 0 < x) (hy : 0 ≤ y) : Complex.arg ⟨-x, y⟩ = Real.pi - Complex.arg ⟨x, y⟩ := by
  have h := Complex.arg_nonneg_iff (z := ⟨x, y⟩) |>.mpr hy
  have h2 : |Complex.arg ⟨x, y⟩| < Real.pi / 2 := Complex.abs_arg_lt_pi_div_two_iff.mpr (.inl hx)
  have hπ := Real.pi_pos
  obtain ⟨r, hr⟩ : ∃ r : ℝ, r = ‖(⟨x, y⟩ : ℂ)‖ := ⟨_, rfl⟩
  have hr0 : 0 < r := by
    rw [hr]; exact norm_pos_iff.mpr fun e => by have := congrArg Complex.re e; simp at this; linarith
  have hz := Complex.norm_mul_cos_add_sin_mul_I ⟨x, y⟩
  have c : x = r * Real.cos (Complex.arg ⟨x, y⟩) := by rw [hr]; simp [Complex.norm_mul_cos_arg]
  have s : y = r * Real.sin (Complex.arg ⟨x, y⟩) := by rw [hr]; simp [Complex.norm_mul_sin_arg]
  refine arg_polar hr0 ⟨by rw [abs_lt] at h2; linarith [h2.1, h2.2], by linarith⟩ ?_ ?_
  · rw [Real.cos_pi_sub]; linarith
  · rw [Real.sin_pi_sub]; exact s

theorem arg_neg_im {x y : ℝ} (hy : 0 < y) : Complex.arg ⟨x, -y⟩ = -Complex.arg ⟨x, y⟩ := by
  have h : (⟨x, -y⟩ : ℂ) = (starRingEnd ℂ) ⟨x, y⟩ := by apply Complex.ext <;> simp
  rw [h, Complex.arg_conj, if_neg]
  intro e
  have := Complex.arg_eq_pi_iff.mp e
  simp at this
  linarith

/-- In the first quarter an angle grows with its sine and against its cosine. -/
theorem arg_mono {x y x' y' : ℝ} (hx : 0 ≤ x') (hy : 0 ≤ y) (h0 : ¬(y' = 0 ∧ x' = 0)) (hxx : x' ≤ x) (hyy : y ≤ y') :
    Complex.arg ⟨x, y⟩ ≤ Complex.arg ⟨x', y'⟩ := by
  rcases eq_or_lt_of_le hx with rfl | hx'
  · have hy' : 0 < y' := lt_of_le_of_ne (hy.trans hyy) fun c => h0 ⟨c.symm, rfl⟩
    rw [arg_polar (x := 0) (y := y') hy' ⟨by linarith [Real.pi_pos], by linarith [Real.pi_pos]⟩ (by simp) (by simp)
      (θ := Real.pi / 2)]
    exact (le_abs_self _).trans (Complex.abs_arg_le_pi_div_two_iff.mpr hxx)
  · rw [arg_pos_re hx', arg_pos_re (hx'.trans_le hxx)]
    exact Real.arctan_strictMono.monotone (div_le_div₀ (hy.trans hyy) hyy hx' hxx)

theorem arg_tendsto {x y : Nat → ℝ} {a b : ℝ} (hx : Tendsto x atTop (𝓝 a)) (hy : Tendsto y atTop (𝓝 b))
    (h : 0 < a ∨ b ≠ 0) : Tendsto (fun p => Complex.arg ⟨x p, y p⟩) atTop (𝓝 (Complex.arg ⟨a, b⟩)) := by
  have c : Tendsto (fun p => (⟨x p, y p⟩ : ℂ)) atTop (𝓝 ⟨a, b⟩) :=
    (Complex.equivRealProdCLM.symm.continuous.tendsto (a, b)).comp (hx.prodMk_nhds hy)
  exact (Complex.continuousAt_arg h).tendsto.comp c

/-- The size of a number, its sign being known. -/
theorem sizeBracket_encloses {f : Nat → Rat × Rat} {v : ℝ} (h : Encloses f v) :
    Encloses (fun p => sizeBracket (SignType.sign v) (f p)) |v| ∧ ∀ p, 0 ≤ (sizeBracket (SignType.sign v) (f p)).1 := by
  rcases lt_trichotomy v 0 with hv | hv | hv
  · simp only [sizeBracket, show SignType.sign v = .neg from sign_neg hv, abs_of_neg hv]
    refine ⟨⟨fun p => ?_, fun p => ?_, ?_, ?_⟩, fun p => le_max_left _ _⟩
    · push_cast; exact max_le (by linarith) (by linarith [h.high p])
    · push_cast; linarith [h.low p]
    · simpa [max_eq_right (show (0 : ℝ) ≤ -v by linarith)] using (tendsto_const_nhds (x := (0 : ℝ))).max h.highLim.neg
    · simpa using h.lowLim.neg
  · subst hv
    simp only [sizeBracket, show SignType.sign (0 : ℝ) = .zero from sign_zero, abs_zero]
    exact ⟨by simpa using encloses_point 0, fun p => le_rfl⟩
  · simp only [sizeBracket, show SignType.sign v = .pos from sign_pos hv, abs_of_pos hv]
    refine ⟨⟨fun p => ?_, fun p => h.high p, ?_, h.highLim⟩, fun p => le_max_left _ _⟩
    · push_cast; exact max_le hv.le (h.low p)
    · simpa [max_eq_right hv.le] using (tendsto_const_nhds (x := (0 : ℝ))).max h.lowLim

theorem quarterBracket_encloses {form : Rat → Rat → RealNum} {κ : ℝ} (hf : AngleForm form κ) {f g : Nat → Rat × Rat}
    {s c : ℝ} (hs : Encloses f |s|) (hc : Encloses g |c|) (fs : ∀ p, 0 ≤ (f p).1) (gs : ∀ p, 0 ≤ (g p).1)
    (h0 : ¬(s = 0 ∧ c = 0)) :
    Encloses (fun p => quarterBracket form (SignType.sign s) (SignType.sign c) (f p) (g p) p)
      (κ * Complex.arg ⟨|c|, |s|⟩) := by
  unfold quarterBracket
  have hπ := Real.pi_pos
  by_cases s0 : s = 0
  · subst s0
    have hc0 : 0 < |c| := abs_pos.mpr fun k => h0 ⟨rfl, k⟩
    simp only [if_pos (show SignType.sign (0 : ℝ) = .zero from sign_zero)]
    have v := hf.value 0 1 le_rfl (by simp)
    have e : Complex.arg ⟨|c|, |0|⟩ = Complex.arg ⟨((1 : Rat) : ℝ), ((0 : Rat) : ℝ)⟩ := by
      rw [arg_polar (θ := 0) hc0 ⟨by linarith, hπ.le⟩ (by simp) (by simp),
        arg_polar (θ := 0) one_pos ⟨by linarith, hπ.le⟩ (by simp) (by simp)]
    rw [e]
    exact ratBracket_encloses (hf.rat 0 1) v
  · have hs' : SignType.sign s ≠ .zero := fun k => s0 (sign_eq_zero_iff.mp k)
    have hs0 : 0 < |s| := abs_pos.mpr s0
    simp only [if_neg hs']
    by_cases c0 : c = 0
    · subst c0
      simp only [if_pos (show SignType.sign (0 : ℝ) = .zero from sign_zero)]
      have v := hf.value 1 0 (by norm_num) (by simp)
      have e : Complex.arg ⟨|0|, |s|⟩ = Complex.arg ⟨((0 : Rat) : ℝ), ((1 : Rat) : ℝ)⟩ := by
        rw [arg_polar (θ := Real.pi / 2) hs0 ⟨by linarith, by linarith⟩ (by simp) (by simp),
          arg_polar (θ := Real.pi / 2) one_pos ⟨by linarith, by linarith⟩ (by simp) (by simp)]
      rw [e]
      exact ratBracket_encloses (hf.rat 1 0) v
    · have hc' : SignType.sign c ≠ .zero := fun k => c0 (sign_eq_zero_iff.mp k)
      have hc0 : 0 < |c| := abs_pos.mpr c0
      simp only [if_neg hc']
      have g2 : ∀ p, (0 : ℝ) < (g p).2 := fun p => hc0.trans_le (hc.high p)
      have f2 : ∀ p, (0 : ℝ) < (f p).2 := fun p => hs0.trans_le (hs.high p)
      have f1 : ∀ p, (0 : ℝ) ≤ (f p).1 := fun p => by exact_mod_cast fs p
      have g1 : ∀ p, (0 : ℝ) ≤ (g p).1 := fun p => by exact_mod_cast gs p
      refine encloses_between (a := fun p => κ * Complex.arg ⟨((g p).2 : ℝ), ((f p).1 : ℝ)⟩)
        (b := fun p => κ * Complex.arg ⟨((g p).1 : ℝ), ((f p).2 : ℝ)⟩)
        (fun p => hf.rat _ _) (fun p => hf.rat _ _) (fun p => hf.value _ _ (fs p) fun k => ?_)
        (fun p => hf.value _ _ ?_ fun k => ?_) (fun p => mul_le_mul_of_nonneg_left ?_ hf.pos.le)
        (fun p => mul_le_mul_of_nonneg_left ?_ hf.pos.le) ((arg_tendsto hc.highLim hs.lowLim (.inl hc0)).const_mul κ)
        ((arg_tendsto hc.lowLim hs.highLim (.inl hc0)).const_mul κ)
      · have := g2 p; rw [k.2, Rat.cast_zero] at this; exact lt_irrefl _ this
      · exact_mod_cast (f2 p).le
      · have := f2 p; rw [k.1, Rat.cast_zero] at this; exact lt_irrefl _ this
      · exact arg_mono hc0.le (f1 p) (fun k => hs0.ne' k.1) (hc.high p) (hs.low p)
      · exact arg_mono (g1 p) hs0.le (fun k => (f2 p).ne' k.1) (hc.low p) (hs.high p)

/-- The angle of a direction, its sine taken without its sign. -/
theorem angleBracket_encloses {form : Rat → Rat → RealNum} {κ : ℝ} (hf : AngleForm form κ) {y : Cross} {x : Squares}
    {s c : ℝ} (hs : IsCross y s) (hc : IsSquares x c) (h0 : ¬(s = 0 ∧ c = 0)) :
    Encloses (angleBracket form y x) (κ * Complex.arg ⟨c, |s|⟩) := by
  obtain ⟨f₁, f₂⟩ := sizeBracket_encloses ((crossEnclose_encloses hs).comp fineScale_tendsto)
  obtain ⟨g₁, g₂⟩ := sizeBracket_encloses ((squaresEnclose_encloses hc).comp fineScale_tendsto)
  have q := quarterBracket_encloses hf f₁ g₁ f₂ g₂ h0
  have e : angleBracket form y x = fun p => halfBracket form (SignType.sign s) (SignType.sign c)
      (sizeBracket (SignType.sign s) (crossEnclose y (fineScale p)))
      (sizeBracket (SignType.sign c) (squaresEnclose x (fineScale p))) p := funext fun p => by
    rw [angleBracket, crossSign_eq hs, squaresSign_eq hc]
  rw [e]
  unfold halfBracket
  rcases lt_or_ge c 0 with hc0 | hc0
  · simp only [if_pos (show SignType.sign c = .neg from sign_neg hc0)]
    have v := hf.value 0 (-1) le_rfl (by simp)
    have e₁ : Complex.arg ⟨((-1 : Rat) : ℝ), ((0 : Rat) : ℝ)⟩ = Real.pi :=
      arg_polar (θ := Real.pi) one_pos ⟨by linarith [Real.pi_pos], le_rfl⟩ (by simp) (by simp)
    have e₂ := arg_neg_re (x := -c) (y := |s|) (by linarith) (abs_nonneg _)
    rw [neg_neg] at e₂
    rw [e₁] at v
    rw [abs_of_neg hc0] at q
    have := encloses_add (ratBracket_encloses (hf.rat 0 (-1)) v) (encloses_scale (-1) 0 q)
    rw [e₂]
    convert this using 1
    push_cast; ring
  · have n : ¬SignType.sign c = .neg := fun k => absurd (sign_eq_neg_one_iff.mp k) (not_lt.mpr hc0)
    simp only [if_neg n]
    rwa [abs_of_nonneg hc0] at q

/-! ### The bracket of an operand -/

/-- The bracket of an operand holds its number and closes on it. -/
theorem bracket_encloses {x : RealNum} {v : ℝ} (h : IsValue x v) : Encloses (bracket x) v := by
  have base : RatForm x → bracket x = ratBracket x → Encloses (bracket x) v := by
    intro hr e
    rw [e]
    exact ratBracket_encloses hr h
  cases x with
  | rat | sqrt | atan2 | heading | asin => exact base trivial (funext fun p => rfl)
  | nonFinite => exact h.elim
  | lit x => exact (litEnclose_encloses (x := x) h).comp fineScale_tendsto
  | norm xs =>
    obtain ⟨u, hu, rfl⟩ := h
    have hu0 := isSum_nonneg _ _ hu
    have i := (sumEnclose_encloses hu).comp fineScale_tendsto
    have lim : ∀ {w : Nat → ℝ}, Tendsto w atTop (𝓝 u) → Tendsto (fun p => Real.sqrt (max 0 (w p))) atTop (𝓝 (Real.sqrt u)) :=
      fun hw => by
        have := (Real.continuous_sqrt.tendsto _).comp ((tendsto_const_nhds (x := (0 : ℝ))).max hw)
        rwa [max_eq_right hu0] at this
    refine encloses_between (fun p => trivial) (fun p => trivial) (fun p => ⟨le_max_left _ _, rfl⟩)
      (fun p => ⟨le_max_left _ _, rfl⟩) (fun p => Real.sqrt_le_sqrt ?_) (fun p => Real.sqrt_le_sqrt ?_) ?_ ?_
    · push_cast; exact max_le hu0 (i.low p)
    · push_cast; exact (i.high p).trans (le_max_right _ _)
    · simpa using lim i.lowLim
    · simpa using lim i.highLim
  | asinOf t =>
    obtain ⟨a, ha, rfl⟩ := h
    have i := (crossEnclose_encloses ha).comp fineScale_tendsto
    have mono : ∀ a b : ℝ, a ≤ b → Real.arcsin (max (-1) (min 1 a)) ≤ Real.arcsin (max (-1) (min 1 b)) := fun a b k =>
      Real.monotone_arcsin (max_le_max le_rfl (min_le_min le_rfl k))
    have cont : Continuous fun a : ℝ => Real.arcsin (max (-1) (min 1 a)) := by
      exact Real.continuous_arcsin.comp (continuous_const.max (continuous_const.min continuous_id))
    refine encloses_between (fun p => trivial) (fun p => trivial)
      (fun p => ⟨(clampOne_mem _).1, (clampOne_mem _).2, rfl⟩) (fun p => ⟨(clampOne_mem _).1, (clampOne_mem _).2, rfl⟩)
      (fun p => ?_) (fun p => ?_) ?_ ?_
    · rw [clampOne_cast]; exact mono _ _ (i.low p)
    · rw [clampOne_cast]; exact mono _ _ (i.high p)
    · simp only [clampOne_cast]; exact (cont.tendsto a).comp i.lowLim
    · simp only [clampOne_cast]; exact (cont.tendsto a).comp i.highLim
  | angle y x =>
    obtain ⟨a, b, ha, hb, h0, rfl⟩ := h
    have t := angleBracket_encloses angleForm_atan2 ha hb h0
    rw [one_mul] at t
    unfold bracket
    simp only
    rw [crossSign_eq ha]
    rcases lt_or_ge a 0 with h' | h'
    · have e := arg_neg_im (x := b) (y := -a) (by linarith)
      rw [neg_neg] at e
      rw [abs_of_neg h'] at t
      simp only [if_pos (show SignType.sign a = .neg from sign_neg h')]
      rw [e]
      simpa using encloses_scale (-1) 0 t
    · rw [abs_of_nonneg h'] at t
      simp only [if_neg (show ¬SignType.sign a = .neg from fun k => absurd (sign_eq_neg_one_iff.mp k) (not_lt.mpr h'))]
      exact t
  | turn y x =>
    obtain ⟨a, b, ha, hb, h⟩ := h
    obtain ⟨h0, rfl⟩ := (isHeading_iff a b v).mp h
    have t := angleBracket_encloses angleForm_heading ha hb h0
    unfold bracket
    simp only
    rw [crossSign_eq ha]
    rcases lt_or_ge a 0 with h' | h'
    · have e := arg_neg_im (x := b) (y := -a) (by linarith)
      rw [neg_neg] at e
      rw [abs_of_neg h'] at t
      simp only [if_pos (show SignType.sign a = .neg from sign_neg h'), if_pos h']
      rw [e]
      convert encloses_scale (-1) 360 t using 1
      push_cast; ring
    · rw [abs_of_nonneg h'] at t
      simp only [if_neg (show ¬SignType.sign a = .neg from fun k => absurd (sign_eq_neg_one_iff.mp k) (not_lt.mpr h')),
        if_neg (not_lt.mpr h')]
      convert t using 1
      ring

/-- The finite operands are those that stand for a number. -/
theorem isFinite_iff (x : RealNum) : isFinite x = true ↔ ∃ v, IsValue x v := by
  have dir : ∀ (y : Cross) (x : Squares),
      ((!(decide (crossSign y = .zero) && decide (squaresSign x = .zero))) = true ↔
        ∃ a b, IsCross y a ∧ IsSquares x b ∧ ¬(a = 0 ∧ b = 0)) := by
    intro y x
    obtain ⟨a, ha⟩ := isCross_exists y
    obtain ⟨b, hb⟩ := isSquares_exists x
    have e : (!(decide (crossSign y = .zero) && decide (squaresSign x = .zero))) = true ↔ ¬(a = 0 ∧ b = 0) := by
      rw [crossSign_eq ha, squaresSign_eq hb]
      simp [imp_iff_not_or]
    rw [e]
    exact ⟨fun h => ⟨a, b, ha, hb, h⟩, fun ⟨a', b', ha', hb', h⟩ => by
      rwa [isCross_unique ha ha', isSquares_unique hb hb']⟩
  cases x with
  | rat | sqrt | asin | nonFinite => simp [isFinite, IsValue]
  | atan2 => simp [isFinite, IsValue, IsAngle, imp_iff_not_or]
  | heading => simp [isFinite, isValue_heading, imp_iff_not_or]
  | lit x => exact ⟨fun _ => isReal_exists x, fun _ => rfl⟩
  | norm xs => exact ⟨fun _ => (isSum_exists _).elim fun u hu => ⟨_, u, hu, rfl⟩, fun _ => rfl⟩
  | asinOf t => exact ⟨fun _ => (isCross_exists t).elim fun a ha => ⟨_, a, ha, rfl⟩, fun _ => rfl⟩
  | angle y x =>
    refine (dir y x).trans ⟨?_, ?_⟩
    · rintro ⟨a, b, ha, hb, h⟩
      exact ⟨_, a, b, ha, hb, h, rfl⟩
    · rintro ⟨v, a, b, ha, hb, h, -⟩
      exact ⟨a, b, ha, hb, h⟩
  | turn y x =>
    refine (dir y x).trans ⟨?_, ?_⟩
    · rintro ⟨a, b, ha, hb, h⟩
      exact ⟨_, a, b, ha, hb, (isHeading_iff _ _ _).mpr ⟨h, rfl⟩⟩
    · rintro ⟨v, a, b, ha, hb, h⟩
      exact ⟨a, b, ha, hb, ((isHeading_iff _ _ _).mp h).1⟩

/-- A field's integer is the rounding of its real number, whatever the operand stands for. -/
theorem rndExact_spec (t : RoundTies) {x : RealNum} {v : ℝ} (a b : Rat) (h : IsValue x v) :
    IsRnd t (a * v + b) (rndExact t x a b) :=
  rndEnclosed_spec t (encloses_scale a b (bracket_encloses h))

theorem rndDiffExact_spec (t : RoundTies) {x x₀ : RealNum} {v v₀ : ℝ} (h : IsValue x v) (h₀ : IsValue x₀ v₀) :
    IsRnd t ((v - v₀) * 10) (rndDiffExact t x x₀) := by
  have e : (v - v₀) * 10 = ((10 : Rat) : ℝ) * (v + (((-1 : Rat) : ℝ) * v₀ + ((0 : Rat) : ℝ))) + ((0 : Rat) : ℝ) := by
    push_cast; ring
  rw [e]
  exact rndEnclosed_spec t
    (encloses_scale 10 0 (encloses_add (bracket_encloses h) (encloses_scale (-1) 0 (bracket_encloses h₀))))

end Sys2Proof.Machine
end

