-- ==== Sys2Proof/Laws/Storage.lean ====
section
/-! SUPPORT. The canonical form of the block's storage: each storage operation keeps its part, and reset has it. -/

namespace Sys2Proof.Machine

/-- The canonical form, part by part. -/
theorem memory_wf_iff (s : State) : Memory.wf s = true ↔
    leftoverForm s.rxbuf = true ∧ (∀ f ∈ s.txqNet, validFrame f = true) ∧ (∀ f ∈ s.txqTel, validFrame f = true) ∧
      destWf s.params.destCap s.dest = true ∧ statsWf s.now s.stats = true ∧
      channelsWf s.params.axisMax s.chValid s.ch = true := by
  simp only [Memory.wf, Bool.and_eq_true, List.all_eq_true]; tauto

theorem destWf_iff (cap : Option Nat) (d : List Addr) :
    destWf cap d = true ↔ d.Pairwise (· < ·) ∧ ∀ n, cap = some n → d.length ≤ n := by
  unfold destWf; cases cap <;> simp

theorem statsWf_iff (now : Nat) (w : List (Nat × StatEntry)) :
    statsWf now w = true ↔ (w.map (·.1)).Pairwise (· ≤ ·) ∧ (∀ e ∈ w, e.1 ≤ now) ∧ ∀ e ∈ w, e.2 ≠ .bytes 0 := by
  simp only [statsWf, Bool.and_eq_true, decide_eq_true_eq, List.all_eq_true]; tauto

/-- A window stays one with fewer entries and with time passed. -/
theorem statsWf_sublist {now now' : Nat} {w w' : List (Nat × StatEntry)} (h : statsWf now w = true)
    (hn : now ≤ now') (hw : w'.Sublist w) : statsWf now' w' = true := by
  rw [statsWf_iff] at h ⊢
  exact ⟨h.1.sublist (hw.map _), fun e he => (h.2.1 e (hw.subset he)).trans hn, fun e he => h.2.2 e (hw.subset he)⟩

theorem statsWf_evict {now : Nat} {w : List (Nat × StatEntry)} (h : statsWf now w = true) :
    statsWf now (evict now w) = true := statsWf_sublist h le_rfl (evict_suffix _ _).sublist

theorem statsWf_push {now : Nat} {w : List (Nat × StatEntry)} (h : statsWf now w = true) {e : StatEntry}
    (he : e ≠ .bytes 0) : statsWf now (evict now (w ++ [(now, e)])) = true := by
  apply statsWf_evict
  rw [statsWf_iff] at h ⊢
  refine ⟨?_, ?_, ?_⟩
  · rw [List.map_append, List.pairwise_append]
    refine ⟨h.1, by simp, ?_⟩
    intro a ha b hb
    obtain ⟨x, hx, rfl⟩ := List.mem_map.mp ha
    obtain rfl : b = now := by simpa using hb
    exact h.2.1 x hx
  · intro x hx
    rcases List.mem_append.mp hx with hx | hx
    · exact h.2.1 x hx
    · obtain rfl : x = (now, e) := by simpa using hx
      exact le_rfl
  · intro x hx
    rcases List.mem_append.mp hx with hx | hx
    · exact h.2.2 x hx
    · obtain rfl : x = (now, e) := by simpa using hx
      exact he

theorem destWf_insert {s : State} (h : destWf s.params.destCap s.dest = true) (a : Addr) :
    destWf s.params.destCap (s.registerDest a).dest = true := by
  unfold State.registerDest
  split
  · rename_i hc
    rw [destWf_iff] at h ⊢
    refine ⟨destInsert_sorted a _ h.1, fun n hn => ?_⟩
    simp only
    rcases hc with hm | hr
    · rw [destInsert_mem a _ h.1 hm]; exact h.2 n hn
    · have hl := destInsert_length a s.dest
      have : s.dest.length < n := by
        have := hr
        simp only [State.destHasRoom, hn, decide_eq_true_eq] at this
        exact this
      omega
  · exact h

theorem destWf_sublist {cap : Option Nat} {d d' : List Addr} (h : destWf cap d = true) (hd : d'.Sublist d) :
    destWf cap d' = true := by
  rw [destWf_iff] at h ⊢
  exact ⟨h.1.sublist hd, fun n hn => hd.length_le.trans (h.2 n hn)⟩

/-- A walk only removes destinations. -/
theorem broadcast_dest (s : State) (d : List Byte) : (s.broadcast d).dest.Sublist s.dest := by
  unfold State.broadcast; rw [bcSends_dest]; exact List.filter_sublist

/-- NET_IN queues valid frames only. -/
theorem netDatagram_valid (s : State) (d : List Byte) (h : ∀ f ∈ s.txqNet, validFrame f = true) :
    ∀ f ∈ (s.netDatagram d).txqNet, validFrame f = true := by
  unfold State.netDatagram
  split
  · exact h
  · split
    · rename_i f hb
      intro g hg
      rcases List.mem_append.mp hg with hg | hg
      · exact h g hg
      · obtain rfl : g = f := by simpa using hg
        exact build_valid _ _ _ hb
    · exact h

/-- A tick queues valid frames only. -/
theorem queueTelemetry_valid (s : State) (pair : Byte × List Byte) (h : ∀ f ∈ s.txqTel, validFrame f = true) :
    ∀ f ∈ (s.queueTelemetry pair).txqTel, validFrame f = true := by
  unfold State.queueTelemetry
  split
  · rename_i f hb
    intro g hg
    rcases List.mem_append.mp hg with hg | hg
    · exact h g hg
    · obtain rfl : g = f := by simpa using hg
      exact build_valid _ _ _ hb
  · exact h

theorem tick_valid (s : State) (h : ∀ f ∈ s.txqTel, validFrame f = true) :
    ∀ f ∈ s.tick.txqTel, validFrame f = true := by
  unfold State.tick
  simp only
  split
  · refine foldl_keeps (fun s t => (∀ f ∈ s.txqTel, validFrame f = true) → ∀ f ∈ t.txqTel, validFrame f = true)
      (fun _ h => h) (fun _ _ _ h k => k ∘ h) _ _ (fun s e _ => queueTelemetry_valid s e) _ ?_
    exact h
  · exact h

/-- TX_WRITE only removes frames. -/
theorem writeHead_queues (s : State) : s.writeHead.txqNet <:+ s.txqNet ∧ s.writeHead.txqTel <:+ s.txqTel := by
  unfold State.writeHead
  split
  · exact ⟨List.suffix_refl _, List.suffix_refl _⟩
  · simp only
    cases s.txChoice <;> cases s.writeAnswer <;>
      first
        | exact ⟨List.tail_suffix _, List.suffix_refl _⟩
        | exact ⟨List.suffix_refl _, List.tail_suffix _⟩

theorem channelsWf_iff (m : Nat) (valid : Bool) (ch : Vector Chan 16) :
    channelsWf m valid ch = true ↔ (valid = true → ∀ v ∈ ch.toList, v.toNat ≤ m) := by
  cases valid
  · simp [channelsWf]
  · simp only [channelsWf, Bool.not_true, Bool.false_or, List.all_eq_true, decide_eq_true_eq, forall_const]

/-- An accepted set is within the bound. -/
theorem acceptChannels_wf (s : State) (b : Vector Byte 22)
    (h : channelsWf s.params.axisMax s.chValid s.ch = true) :
    channelsWf (s.acceptChannels (unpack b)).params.axisMax (s.acceptChannels (unpack b)).chValid
      (s.acceptChannels (unpack b)).ch = true := by
  unfold State.acceptChannels
  split
  · exact h
  · rename_i hn
    rw [firstOver_none] at hn
    rw [channelsWf_iff]
    intro _ v hv
    obtain ⟨i, hi, rfl⟩ := List.getElem_of_mem hv
    have hi' : i < 16 := by simpa using hi
    have ha := hn (unpack b)[i].toNat (List.mem_map.mpr ⟨(unpack b)[i], by simp, rfl⟩)
    simp only [Vector.getElem_toList, Vector.getElem_map, BitVec.toNat_setWidth]
    exact (Nat.mod_le _ _).trans ha

theorem dispatchPacket_wf (s : State) (t : Byte) (p : List Byte)
    (h : channelsWf s.params.axisMax s.chValid s.ch = true) :
    channelsWf (s.dispatchPacket t p).params.axisMax (s.dispatchPacket t p).chValid (s.dispatchPacket t p).ch = true := by
  unfold State.dispatchPacket
  split
  · split
    · exact acceptChannels_wf s _ h
    · exact h
  · exact h

/-- What a result of SCAN does to the window and the channel registers. -/
theorem rxResult_wf (s : State) (r : FrameResult) (hs : statsWf s.now s.stats = true)
    (hc : channelsWf s.params.axisMax s.chValid s.ch = true) :
    statsWf (s.rxResult r).now (s.rxResult r).stats = true ∧
      channelsWf (s.rxResult r).params.axisMax (s.rxResult r).chValid (s.rxResult r).ch = true := by
  unfold State.rxResult
  split
  · have hf : ∀ pkt, (s.forward pkt).stats = s.stats ∧ (s.forward pkt).ch = s.ch ∧ (s.forward pkt).chValid = s.chValid ∧
        (s.forward pkt).now = s.now ∧ (s.forward pkt).params = s.params := by
      intro pkt; unfold State.forward; split <;> exact ⟨rfl, rfl, rfl, rfl, rfl⟩
    have hd : ∀ (s : State) t p, (s.dispatchPacket t p).stats = s.stats ∧ (s.dispatchPacket t p).now = s.now := by
      intro s t p; unfold State.dispatchPacket State.acceptChannels
      split
      · split
        · split <;> exact ⟨rfl, rfl⟩
        · exact ⟨rfl, rfl⟩
      · exact ⟨rfl, rfl⟩
    rename_i f
    obtain ⟨h1, h2, h3, h4, h5⟩ := hf (inner f)
    simp only
    split
    · rename_i t p he
      rw [(hd _ t p).1, (hd _ t p).2, h1, h4]
      exact ⟨hs, dispatchPacket_wf _ t p (by rw [h2, h3, h5]; exact hc)⟩
    · rw [h1, h2, h3, h4, h5]; exact ⟨hs, hc⟩
  · exact ⟨statsWf_push hs (by simp), hc⟩

/-- The reset state is in canonical form, whatever the parameters. -/
theorem memory_wf_reset : Memory.wf State.reset = true := by decide

theorem memory_wf_resetEvent (s : State) : Memory.wf s.resetEvent = true := by
  rw [memory_wf_iff]
  refine ⟨rfl, by simp [State.resetEvent, State.reset], by simp [State.resetEvent, State.reset], ?_, rfl, rfl⟩
  rw [destWf_iff]; simp [State.resetEvent, State.reset]

end Sys2Proof.Machine
end

