-- ==== Sys2Proof/Laws/Steps.lean ====
section
/-! SUPPORT. Once, everything an instruction can do, and everything a step can do. -/

namespace Sys2Proof.Machine

/-- The effects an instruction can have. -/
inductive Effect (i : Instr) (s t : State) : Prop where
  | none (h : t = s)
  | emitted (h : Emitted s t) (hs : s.stopped = false)
  | received (r : ReadResult) (hs : s.stopped = false) (hc : s.rxClosed = false) (h : t = s.receive r)
  | dispatched (ty : Byte) (p : List Byte) (hs : s.stopped = false) (hc : s.rxClosed = false) (h : t = s.dispatchPacket ty p)
  | datagram (d : List Byte) (hs : s.stopped = false) (h : t = s.netDatagram d)
  | written (hs : s.stopped = false) (hc : s.txClosed = false) (h : t = s.writeHead)
  | loaded (rec : TelemetryRecord) (hs : s.stopped = false) (h : t = s.loadRecord rec)
  | ticked (hs : s.stopped = false) (hn : s.nextTick ≤ s.now) (h : t = s.tick)
  | reported (hs : s.stopped = false) (h : t = s.reportStats)
  | registered (a : Addr) (hi : i = .register a ∨ i = .ctlMsg [0x00#8] a) (hs : s.stopped = false) (hh : s.halt = false)
      (h : t = s.registerDest a)
  | unregistered (a : Addr) (hi : i = .unregister a ∨ i = .ctlMsg [0x01#8] a) (hs : s.stopped = false)
      (hh : s.halt = false) (h : t = s.unregisterDest a)
  | quit (hs : s.stopped = false) (hh : s.halt = false) (h : t = s.quitBroadcast)
  | broadcast (d : List Byte) (hi : i = .bcast d) (hs : s.stopped = false) (hh : s.halt = false) (h : t = s.broadcast d)
  | stopped (hs : s.stopped = false) (h : t = s.stopBlock)

theorem answerPayload_emitted (s : State) (op : OpName) (r : Except FieldError (List Byte)) :
    Emitted s (s.answerPayload op r) := by
  unfold State.answerPayload; split
  · exact answer_emitted _ _ _
  · exact raise_emitted _ _ _

/-- An operation on CMD emits, and does nothing else. -/
theorem cmd_effect {i : Instr} {s t u : State} (hu : Emitted s u)
    (h : (.next (if s.running = true then u else s) : Host.Outcome State Fault Refusal) = .next t) : Effect i s t := by
  rcases enabled_or_same h with ⟨hs, rfl⟩ | ⟨-, rfl⟩
  · exact .emitted hu ((running_iff s).mp hs)
  · exact .none rfl

theorem exec_effect (i : Instr) (s t : State) (h : exec i s = .next t) : Effect i s t := by
  have hrx : ∀ r, exec (.rxTick r) s = .next t → Effect i s t := by
    intro r h
    rcases enabled_or_same h with ⟨he, rfl⟩ | ⟨-, rfl⟩
    · exact .received r ((rxEnabled_iff s).mp he).1 ((rxEnabled_iff s).mp he).2 rfl
    · exact .none rfl
  cases i with
  | gps len rest => exact hrx _ (by rw [← exec_ofFrame .gps]; exact h)
  | vario len rest => exact hrx _ (by rw [← exec_ofFrame .vario]; exact h)
  | batterySensor len rest => exact hrx _ (by rw [← exec_ofFrame .batterySensor]; exact h)
  | baroAlt len rest => exact hrx _ (by rw [← exec_ofFrame .baroAlt]; exact h)
  | airspeed len rest => exact hrx _ (by rw [← exec_ofFrame .airspeed]; exact h)
  | heartbeat len rest => exact hrx _ (by rw [← exec_ofFrame .heartbeat]; exact h)
  | rpm len rest => exact hrx _ (by rw [← exec_ofFrame .rpm]; exact h)
  | temp len rest => exact hrx _ (by rw [← exec_ofFrame .temp]; exact h)
  | voltages len rest => exact hrx _ (by rw [← exec_ofFrame .voltages]; exact h)
  | videoTransmitter len rest => exact hrx _ (by rw [← exec_ofFrame .videoTransmitter]; exact h)
  | linkStatistics len rest => exact hrx _ (by rw [← exec_ofFrame .linkStatistics]; exact h)
  | rcChannelsPacked len rest => exact hrx _ (by rw [← exec_ofFrame .rcChannelsPacked]; exact h)
  | linkStatisticsRx len rest => exact hrx _ (by rw [← exec_ofFrame .linkStatisticsRx]; exact h)
  | linkStatisticsTx len rest => exact hrx _ (by rw [← exec_ofFrame .linkStatisticsTx]; exact h)
  | attitude len rest => exact hrx _ (by rw [← exec_ofFrame .attitude]; exact h)
  | flightMode len rest => exact hrx _ (by rw [← exec_ofFrame .flightMode]; exact h)
  | deviceInfo len rest => exact hrx _ (by rw [← exec_ofFrame .deviceInfo]; exact h)
  | configRead len rest => exact hrx _ (by rw [← exec_ofFrame .configRead]; exact h)
  | configWrite len rest => exact hrx _ (by rw [← exec_ofFrame .configWrite]; exact h)
  | radioId len rest => exact hrx _ (by rw [← exec_ofFrame .radioId]; exact h)
  | crc8 b => exact cmd_effect (answer_emitted _ _ _) h
  | scan b => exact cmd_effect (answer_emitted _ _ _) h
  | build ty p =>
    refine cmd_effect ?_ h
    split
    · exact answer_emitted _ _ _
    · exact raise_emitted _ _ _
  | unpack b => exact cmd_effect (answer_emitted _ _ _) h
  | pack c =>
    refine cmd_effect ?_ h
    split
    · exact answer_emitted _ _ _
    · exact raise_emitted _ _ _
  | encGps => exact cmd_effect (answerPayload_emitted _ _ _) h
  | encBattery => exact cmd_effect (answerPayload_emitted _ _ _) h
  | encVario => exact cmd_effect (answerPayload_emitted _ _ _) h
  | encBaroAlt => exact cmd_effect (answerPayload_emitted _ _ _) h
  | encAirspeed => exact cmd_effect (answerPayload_emitted _ _ _) h
  | encAttitude => exact cmd_effect (answerPayload_emitted _ _ _) h
  | encRpm =>
    refine cmd_effect ?_ h
    split
    · exact answer_emitted _ _ _
    · exact answer_emitted _ _ _
    · exact raise_emitted _ _ _
  | encode =>
    refine cmd_effect ?_ h
    exact ⟨(List.prefix_append _ _).trans (List.prefix_append _ _), rfl⟩
  | rxTick r => exact hrx r h
  | dispatch ty p =>
    rcases enabled_or_same h with ⟨he, rfl⟩ | ⟨-, rfl⟩
    · exact .dispatched ty p ((rxEnabled_iff s).mp he).1 ((rxEnabled_iff s).mp he).2 rfl
    · exact .none rfl
  | netIn d =>
    rcases enabled_or_same h with ⟨he, rfl⟩ | ⟨-, rfl⟩
    · exact .datagram d ((running_iff s).mp he) rfl
    · exact .none rfl
  | txWrite =>
    rcases enabled_or_same h with ⟨he, rfl⟩ | ⟨-, rfl⟩
    · exact .written ((txEnabled_iff s).mp he).1 ((txEnabled_iff s).mp he).2.1 rfl
    · exact .none rfl
  | telLoad rec =>
    rcases enabled_or_same h with ⟨he, rfl⟩ | ⟨-, rfl⟩
    · exact .loaded rec ((running_iff s).mp he) rfl
    · exact .none rfl
  | telTick =>
    rcases enabled_or_same h with ⟨he, rfl⟩ | ⟨-, rfl⟩
    · exact .ticked ((tickDue_iff s).mp he).1 ((tickDue_iff s).mp he).2 rfl
    · exact .none rfl
  | statsReport =>
    rcases enabled_or_same h with ⟨he, rfl⟩ | ⟨-, rfl⟩
    · exact .reported ((reportDue_iff s).mp he).1 rfl
    · exact .none rfl
  | register a =>
    rcases enabled_or_same h with ⟨he, rfl⟩ | ⟨-, rfl⟩
    · obtain ⟨hs, hh⟩ := (broadcasting_iff s).mp he
      exact .registered a (.inl rfl) hs hh rfl
    · exact .none rfl
  | unregister a =>
    rcases enabled_or_same h with ⟨he, rfl⟩ | ⟨-, rfl⟩
    · obtain ⟨hs, hh⟩ := (broadcasting_iff s).mp he
      exact .unregistered a (.inl rfl) hs hh rfl
    · exact .none rfl
  | quit a =>
    rcases enabled_or_same h with ⟨he, rfl⟩ | ⟨-, rfl⟩
    · obtain ⟨hs, hh⟩ := (broadcasting_iff s).mp he
      exact .quit hs hh rfl
    · exact .none rfl
  | ctlMsg m a =>
    rcases enabled_or_same h with ⟨he, rfl⟩ | ⟨-, rfl⟩
    · obtain ⟨hs, hh⟩ := (broadcasting_iff s).mp he
      unfold State.control
      split
      · split
        · rename_i hb; subst hb; exact .registered a (.inr rfl) hs hh rfl
        · split
          · rename_i hb; subst hb; exact .unregistered a (.inr rfl) hs hh rfl
          · split
            · exact .quit hs hh rfl
            · exact .none rfl
      · exact .none rfl
    · exact .none rfl
  | bcast d =>
    rcases enabled_or_same h with ⟨he, rfl⟩ | ⟨-, rfl⟩
    · obtain ⟨hs, hh⟩ := (broadcasting_iff s).mp he
      exact .broadcast d rfl hs hh rfl
    · exact .none rfl
  | stop =>
    rcases enabled_or_same h with ⟨he, rfl⟩ | ⟨-, rfl⟩
    · exact .stopped ((stopEnabled_iff s).mp he).1 rfl
    · exact .none rfl

/-- What a step that answers a next state did: nothing, for want of a line, or one line of the schedule. -/
inductive Line (s t : State) : Prop where
  | idle (h : s.stimulus = []) (ht : t = s)
  | presented (p : Presented) (i : Instr) (rest : List Stimulus) (h : s.stimulus = .present p :: rest)
      (hd : decode p = .ok i) (ht : exec i { s with stimulus := rest } = .next t)
  | ticked (rest : List Stimulus) (h : s.stimulus = .tick :: rest) (hs : s.stopped = false)
      (ht : exec .telTick { s with stimulus := rest, now := max s.now s.nextTick } = .next t)
  | clock (ms : Nat) (rest : List Stimulus) (h : s.stimulus = .now ms :: rest) (hn : s.now ≤ ms)
      (ht : t = { s with stimulus := rest, now := ms })
  | shut (rest : List Stimulus) (h : s.stimulus = .shutdown :: rest) (hs : s.stopped = false)
      (ht : t = { s with stimulus := rest, stopped := true, shutdown := false })
  | signalled (rest : List Stimulus) (h : s.stimulus = .signal :: rest) (hs : s.stopped = false)
      (ht : t = { s with stimulus := rest, shutdown := true })
  | reported (rest : List Stimulus) (ms : Nat) (h : s.stimulus = .period :: rest) (hs : s.stopped = false) (hn : s.now ≤ ms)
      (ht : exec .statsReport { s with stimulus := rest, now := ms } = .next t)
  | unanswered (rest : List Stimulus) (ms : Nat) (h : s.stimulus = .timeout :: rest) (hs : s.stopped = false)
      (hn : s.now ≤ ms) (ht : exec (.rxTick (.bytes [])) { s with stimulus := rest, now := ms } = .next t)
  | heldOff (line : Stimulus) (rest : List Stimulus) (h : s.stimulus = line :: rest) (hl : ∀ p, line ≠ .present p)
      (ht : t = { s with stimulus := rest })
  | reset (rest : List Stimulus) (h : s.stimulus = .reset :: rest)
      (ht : t = State.resetEvent { s with stimulus := rest })

theorem step_line (s t : State) (h : step s = .next t) : Line s t := by
  unfold step stepLine at h
  split at h
  · rename_i he; exact .idle he (Host.Outcome.next.inj h).symm
  · rename_i line rest he
    cases line with
    | present p =>
      simp only [runLine, runPresented] at h
      split at h
      · rename_i i hd; exact .presented p i rest he hd h
      · cases h
      · cases h
    | tick =>
      simp only [runLine, runTick] at h
      cases hs : s.stopped
      · rw [if_pos (by simp [State.running, hs])] at h; exact .ticked rest he hs h
      · rw [if_neg (by simp [State.running, hs])] at h; exact .heldOff _ rest he (by simp) (Host.Outcome.next.inj h).symm
    | now ms =>
      simp only [runLine, State.advanceTo] at h
      split at h
      · rename_i hn; exact .clock ms rest he hn (Host.Outcome.next.inj h).symm
      · cases h
    | shutdown =>
      simp only [runLine, runShutdown] at h
      cases hs : s.stopped
      · rw [if_pos (by simp [State.running, hs])] at h
        simp only [exec, execStop, State.stopEnabled, hs, Bool.not_false, Bool.true_and, Bool.true_or, if_true] at h
        exact .shut rest he hs (Host.Outcome.next.inj h).symm
      · rw [if_neg (by simp [State.running, hs])] at h; exact .heldOff _ rest he (by simp) (Host.Outcome.next.inj h).symm
    | signal =>
      simp only [runLine, runSignal] at h
      cases hs : s.stopped
      · rw [if_pos (by simp [State.running, hs])] at h; exact .signalled rest he hs (Host.Outcome.next.inj h).symm
      · rw [if_neg (by simp [State.running, hs])] at h; exact .heldOff _ rest he (by simp) (Host.Outcome.next.inj h).symm
    | period =>
      simp only [runLine, runPeriod] at h
      cases hs : s.stopped
      · rw [if_pos (by simp [State.running, hs])] at h
        exact .reported rest _ he hs (by split <;> simp) h
      · rw [if_neg (by simp [State.running, hs])] at h; exact .heldOff _ rest he (by simp) (Host.Outcome.next.inj h).symm
    | timeout =>
      simp only [runLine, runTimeout] at h
      split at h
      · rename_i hr
        exact .unanswered rest _ he ((rxEnabled_iff _).mp hr).1 (Nat.le_add_right _ _) h
      · exact .heldOff _ rest he (by simp) (Host.Outcome.next.inj h).symm
    | reset => exact .reset rest he (Host.Outcome.next.inj h).symm

end Sys2Proof.Machine
end

