-- ==== Sys2Proof/Tests/Slice0.lean ====
section
/-! SUPPORT. Tests. Expected values are the words of 30_encoding.md and the vectors of 95_test_vectors.md, whose name
stands in the comment; after them a witness for every statement with hypotheses. -/

set_option Elab.async false

open Sys2Proof Sys2Proof.Machine

namespace Sys2Proof.Tests

/-- The state after presenting `p` in `s`; `s` itself if the step stops. -/
def after (s : State) (p : Presented) : State :=
  match step { s with stimulus := [.present p] } with
  | .next t => t
  | _ => s

/-- What presenting `p` in `s` emits. -/
def outOf (s : State) (p : Presented) : List Output := (after s p).out

/-- What presenting `p` right after reset emits. -/
def fresh (p : Presented) : List Output := outOf State.reset p

/-- A frame that only the forward of its inner packet answers. -/
def forwards (bytes packet : List Byte) : Bool := decide (fresh (.frame bytes) = [.netTx packet .sent])

theorem ok_of_toOption {ε α : Type} {e : Except ε α} {a : α} (h : e.toOption = some a) : e = .ok a := by
  cases e <;> simp_all [Except.toOption]

/-! ### Well-formedness: the one check refuses -/

theorem test_wf_refuses_short_frame : Instr.wf (.vario 0x04#8 [0x00#8, 0xFA#8]) = false := by decide
theorem test_wf_refuses_long_frame : Instr.wf (.heartbeat 0x02#8 [0x83#8, 0x00#8]) = false := by decide
theorem test_wf_refuses_byte_of_empty_frame : Instr.wf (.gps 0x00#8 [0x00#8]) = false := by decide
theorem test_wf_accepts_frame : Instr.wf (.vario 0x04#8 [0x00#8, 0xFA#8, 0xF1#8]) = true := by decide

/-! ### FRAME rows (30_encoding.md R90, R100): the words decode, and the packet is forwarded -/

-- X8
theorem test_gps_frame : decode (.frame [0xC8#8, 0x11#8, 0x02#8, 0x07#8, 0x5B#8, 0xCD#8, 0x0C#8, 0xC5#8, 0x21#8, 0x97#8, 0x50#8, 0x01#8, 0x68#8, 0x69#8, 0x78#8, 0x04#8, 0x4C#8, 0x01#8, 0x4D#8]) = .ok (.gps 0x11#8 [0x07#8, 0x5B#8, 0xCD#8, 0x0C#8, 0xC5#8, 0x21#8, 0x97#8, 0x50#8, 0x01#8, 0x68#8, 0x69#8, 0x78#8, 0x04#8, 0x4C#8, 0x01#8, 0x4D#8]) ∧
    forwards [0xC8#8, 0x11#8, 0x02#8, 0x07#8, 0x5B#8, 0xCD#8, 0x0C#8, 0xC5#8, 0x21#8, 0x97#8, 0x50#8, 0x01#8, 0x68#8, 0x69#8, 0x78#8, 0x04#8, 0x4C#8, 0x01#8, 0x4D#8] [0x02#8, 0x07#8, 0x5B#8, 0xCD#8, 0x0C#8, 0xC5#8, 0x21#8, 0x97#8, 0x50#8, 0x01#8, 0x68#8, 0x69#8, 0x78#8, 0x04#8, 0x4C#8, 0x01#8] = true := ⟨rfl, by decide +kernel⟩
-- fA
theorem test_vario_frame : decode (.frame [0xC8#8, 0x04#8, 0x07#8, 0x00#8, 0xFA#8, 0xF1#8]) = .ok (.vario 0x04#8 [0x00#8, 0xFA#8, 0xF1#8]) ∧
    forwards [0xC8#8, 0x04#8, 0x07#8, 0x00#8, 0xFA#8, 0xF1#8] [0x07#8, 0x00#8, 0xFA#8] = true := ⟨rfl, by decide +kernel⟩
-- fC
theorem test_batterySensor_frame : decode (.frame [0xC8#8, 0x0A#8, 0x08#8, 0x00#8, 0x6F#8, 0x00#8, 0x00#8, 0x00#8, 0x00#8, 0x00#8, 0x32#8, 0xDE#8]) = .ok (.batterySensor 0x0A#8 [0x00#8, 0x6F#8, 0x00#8, 0x00#8, 0x00#8, 0x00#8, 0x00#8, 0x32#8, 0xDE#8]) ∧
    forwards [0xC8#8, 0x0A#8, 0x08#8, 0x00#8, 0x6F#8, 0x00#8, 0x00#8, 0x00#8, 0x00#8, 0x00#8, 0x32#8, 0xDE#8] [0x08#8, 0x00#8, 0x6F#8, 0x00#8, 0x00#8, 0x00#8, 0x00#8, 0x00#8, 0x32#8] = true := ⟨rfl, by decide +kernel⟩
-- A1
theorem test_baroAlt_frame : decode (.frame [0xC8#8, 0x05#8, 0x09#8, 0x27#8, 0x10#8, 0x00#8, 0xB3#8]) = .ok (.baroAlt 0x05#8 [0x27#8, 0x10#8, 0x00#8, 0xB3#8]) ∧
    forwards [0xC8#8, 0x05#8, 0x09#8, 0x27#8, 0x10#8, 0x00#8, 0xB3#8] [0x09#8, 0x27#8, 0x10#8, 0x00#8] = true := ⟨rfl, by decide +kernel⟩
-- W2
theorem test_airspeed_frame : decode (.frame [0xC8#8, 0x04#8, 0x0A#8, 0x01#8, 0x68#8, 0x2E#8]) = .ok (.airspeed 0x04#8 [0x01#8, 0x68#8, 0x2E#8]) ∧
    forwards [0xC8#8, 0x04#8, 0x0A#8, 0x01#8, 0x68#8, 0x2E#8] [0x0A#8, 0x01#8, 0x68#8] = true := ⟨rfl, by decide +kernel⟩
-- fB
theorem test_heartbeat_frame : decode (.frame [0xC8#8, 0x02#8, 0x0B#8, 0x83#8]) = .ok (.heartbeat 0x02#8 [0x83#8]) ∧
    forwards [0xC8#8, 0x02#8, 0x0B#8, 0x83#8] [0x0B#8] = true := ⟨rfl, by decide +kernel⟩
-- M2
theorem test_rpm_frame : decode (.frame [0xC8#8, 0x0C#8, 0x0C#8, 0x00#8, 0x00#8, 0x03#8, 0xE8#8, 0x00#8, 0x07#8, 0xD0#8, 0xFF#8, 0xFF#8, 0xFF#8, 0x8E#8]) = .ok (.rpm 0x0C#8 [0x00#8, 0x00#8, 0x03#8, 0xE8#8, 0x00#8, 0x07#8, 0xD0#8, 0xFF#8, 0xFF#8, 0xFF#8, 0x8E#8]) ∧
    forwards [0xC8#8, 0x0C#8, 0x0C#8, 0x00#8, 0x00#8, 0x03#8, 0xE8#8, 0x00#8, 0x07#8, 0xD0#8, 0xFF#8, 0xFF#8, 0xFF#8, 0x8E#8] [0x0C#8, 0x00#8, 0x00#8, 0x03#8, 0xE8#8, 0x00#8, 0x07#8, 0xD0#8, 0xFF#8, 0xFF#8, 0xFF#8] = true := ⟨rfl, by decide +kernel⟩
-- fS
theorem test_temp_frame : decode (.frame [0xC8#8, 0x06#8, 0x0D#8, 0xC8#8, 0x02#8, 0x0B#8, 0x83#8, 0x92#8]) = .ok (.temp 0x06#8 [0xC8#8, 0x02#8, 0x0B#8, 0x83#8, 0x92#8]) ∧
    forwards [0xC8#8, 0x06#8, 0x0D#8, 0xC8#8, 0x02#8, 0x0B#8, 0x83#8, 0x92#8] [0x0D#8, 0xC8#8, 0x02#8, 0x0B#8, 0x83#8] = true := ⟨rfl, by decide +kernel⟩
-- 40_crc.md R143
theorem test_voltages_frame : decode (.frame [0xC8#8, 0x02#8, 0x0E#8, 0xA8#8]) = .ok (.voltages 0x02#8 [0xA8#8]) ∧
    forwards [0xC8#8, 0x02#8, 0x0E#8, 0xA8#8] [0x0E#8] = true := ⟨rfl, by decide +kernel⟩
-- 40_crc.md R143
theorem test_videoTransmitter_frame : decode (.frame [0xC8#8, 0x02#8, 0x0F#8, 0x7D#8]) = .ok (.videoTransmitter 0x02#8 [0x7D#8]) ∧
    forwards [0xC8#8, 0x02#8, 0x0F#8, 0x7D#8] [0x0F#8] = true := ⟨rfl, by decide +kernel⟩
-- N2
theorem test_linkStatistics_frame : decode (.frame [0xC8#8, 0x0C#8, 0x14#8, 0x10#8, 0x20#8, 0x30#8, 0x40#8, 0x50#8, 0x60#8, 0x70#8, 0x80#8, 0x90#8, 0xA0#8, 0x31#8]) = .ok (.linkStatistics 0x0C#8 [0x10#8, 0x20#8, 0x30#8, 0x40#8, 0x50#8, 0x60#8, 0x70#8, 0x80#8, 0x90#8, 0xA0#8, 0x31#8]) ∧
    forwards [0xC8#8, 0x0C#8, 0x14#8, 0x10#8, 0x20#8, 0x30#8, 0x40#8, 0x50#8, 0x60#8, 0x70#8, 0x80#8, 0x90#8, 0xA0#8, 0x31#8] [0x14#8, 0x10#8, 0x20#8, 0x30#8, 0x40#8, 0x50#8, 0x60#8, 0x70#8, 0x80#8, 0x90#8, 0xA0#8] = true := ⟨rfl, by decide +kernel⟩
-- 40_crc.md R143
theorem test_linkStatisticsRx_frame : decode (.frame [0xC8#8, 0x02#8, 0x1C#8, 0x85#8]) = .ok (.linkStatisticsRx 0x02#8 [0x85#8]) ∧
    forwards [0xC8#8, 0x02#8, 0x1C#8, 0x85#8] [0x1C#8] = true := ⟨rfl, by decide +kernel⟩
-- 40_crc.md R143
theorem test_linkStatisticsTx_frame : decode (.frame [0xC8#8, 0x02#8, 0x1D#8, 0x50#8]) = .ok (.linkStatisticsTx 0x02#8 [0x50#8]) ∧
    forwards [0xC8#8, 0x02#8, 0x1D#8, 0x50#8] [0x1D#8] = true := ⟨rfl, by decide +kernel⟩
-- E2
theorem test_attitude_frame : decode (.frame [0xC8#8, 0x08#8, 0x1E#8, 0x03#8, 0xE8#8, 0xF8#8, 0x30#8, 0x7A#8, 0xB8#8, 0xAC#8]) = .ok (.attitude 0x08#8 [0x03#8, 0xE8#8, 0xF8#8, 0x30#8, 0x7A#8, 0xB8#8, 0xAC#8]) ∧
    forwards [0xC8#8, 0x08#8, 0x1E#8, 0x03#8, 0xE8#8, 0xF8#8, 0x30#8, 0x7A#8, 0xB8#8, 0xAC#8] [0x1E#8, 0x03#8, 0xE8#8, 0xF8#8, 0x30#8, 0x7A#8, 0xB8#8] = true := ⟨rfl, by decide +kernel⟩
-- N3
theorem test_flightMode_frame : decode (.frame [0xC8#8, 0x07#8, 0x21#8, 0x41#8, 0x43#8, 0x52#8, 0x4F#8, 0x00#8, 0x80#8]) = .ok (.flightMode 0x07#8 [0x41#8, 0x43#8, 0x52#8, 0x4F#8, 0x00#8, 0x80#8]) ∧
    forwards [0xC8#8, 0x07#8, 0x21#8, 0x41#8, 0x43#8, 0x52#8, 0x4F#8, 0x00#8, 0x80#8] [0x21#8, 0x41#8, 0x43#8, 0x52#8, 0x4F#8, 0x00#8] = true := ⟨rfl, by decide +kernel⟩
-- 40_crc.md R143
theorem test_deviceInfo_frame : decode (.frame [0xC8#8, 0x02#8, 0x29#8, 0x58#8]) = .ok (.deviceInfo 0x02#8 [0x58#8]) ∧
    forwards [0xC8#8, 0x02#8, 0x29#8, 0x58#8] [0x29#8] = true := ⟨rfl, by decide +kernel⟩
-- 40_crc.md R143
theorem test_configRead_frame : decode (.frame [0xC8#8, 0x02#8, 0x2C#8, 0x73#8]) = .ok (.configRead 0x02#8 [0x73#8]) ∧
    forwards [0xC8#8, 0x02#8, 0x2C#8, 0x73#8] [0x2C#8] = true := ⟨rfl, by decide +kernel⟩
-- 40_crc.md R143
theorem test_configWrite_frame : decode (.frame [0xC8#8, 0x02#8, 0x2D#8, 0xA6#8]) = .ok (.configWrite 0x02#8 [0xA6#8]) ∧
    forwards [0xC8#8, 0x02#8, 0x2D#8, 0xA6#8] [0x2D#8] = true := ⟨rfl, by decide +kernel⟩
-- 40_crc.md R143
theorem test_radioId_frame : decode (.frame [0xC8#8, 0x02#8, 0x3A#8, 0xA0#8]) = .ok (.radioId 0x02#8 [0xA0#8]) ∧
    forwards [0xC8#8, 0x02#8, 0x3A#8, 0xA0#8] [0x3A#8] = true := ⟨rfl, by decide +kernel⟩
-- D1, D4
def payloadH5 : List Byte := [0xAC#8, 0x00#8, 0xDF#8, 0xC4#8, 0x7F#8, 0x0F#8, 0x80#8, 0x00#8, 0x08#8, 0x80#8, 0x00#8, 0x08#8, 0x80#8, 0x00#8, 0x08#8, 0x80#8, 0x00#8, 0x08#8, 0x80#8, 0x00#8, 0x08#8, 0x80#8]
def frameH5 : List Byte := [0xC8#8, 0x18#8, 0x16#8] ++ payloadH5 ++ [0x58#8]
theorem test_rcChannelsPacked_frame :
    decode (.frame frameH5) = .ok (.rcChannelsPacked 0x18#8 (payloadH5 ++ [0x58#8])) ∧
    fresh (.frame frameH5) = [.netTx (0x16#8 :: payloadH5) .sent,
      .chOut #v[172#11, 992#11, 1811#11, 1983#11, 0#11, 1#11, 2#11, 4#11, 8#11, 16#11, 32#11, 64#11, 128#11, 256#11, 512#11, 1024#11] 0xFFFF#16 true] := ⟨rfl, by decide +kernel⟩
theorem test_rcChannelsPacked_corrupt : fresh (.frame ([0xC8#8, 0x18#8, 0x16#8] ++ payloadH5 ++ [0x59#8])) =
    [.errOut 1 0x20#8 .crcMismatch] := by decide +kernel
theorem test_unknown_type_is_read : decode (.frame [0xC8#8, 0x02#8, 0x00#8, 0x00#8]) =
    .ok (.rxTick (.bytes [0xC8#8, 0x02#8, 0x00#8, 0x00#8])) := rfl

/-! ### CTRL rows (30_encoding.md R118), P5 -/

theorem test_register : decode (.ctrl [0x00#8] 7) = .ok (.register 7) ∧
    (after { State.reset with dest := [3, 9] } (.ctrl [0x00#8] 7)).dest = [3, 7, 9] := ⟨rfl, by decide +kernel⟩
theorem test_unregister : decode (.ctrl [0x01#8] 7) = .ok (.unregister 7) ∧
    (after { State.reset with dest := [3, 7, 9] } (.ctrl [0x01#8] 7)).dest = [3, 9] := ⟨rfl, by decide +kernel⟩
theorem test_quit : decode (.ctrl [0xFF#8] 26) = .ok (.quit 26) ∧
    (after State.reset (.ctrl [0xFF#8] 26)).halt = true := ⟨rfl, by decide +kernel⟩

/-! ### OP rows (30_encoding.md R122) -/

-- K15
theorem test_crc8 : decode (.cmd 0x01#8 (.bytes [0x07#8, 0x00#8, 0xFA#8])) = .ok (.crc8 [0x07#8, 0x00#8, 0xFA#8]) ∧
    fresh (.cmd 0x01#8 (.bytes [0x07#8, 0x00#8, 0xFA#8])) = [.result 0x01#8 (.crc 0xF1#8)] := ⟨rfl, by decide +kernel⟩
-- K19
theorem test_crc8_check_value : crc8 [0x31#8, 0x32#8, 0x33#8, 0x34#8, 0x35#8, 0x36#8, 0x37#8, 0x38#8, 0x39#8] = 0xBC#8 := by decide +kernel
-- S6b, S5
def streamS6b : List Byte := [0xC8#8, 0x04#8, 0x07#8, 0x00#8, 0xFA#8, 0xC8#8, 0xC8#8, 0x02#8, 0x0B#8, 0x83#8]
theorem test_scan : decode (.cmd 0x02#8 (.bytes streamS6b)) = .ok (.scan streamS6b) ∧
    fresh (.cmd 0x02#8 (.bytes streamS6b)) = [.result 0x02#8 (.scanned [.crcError, .ok [0xC8#8, 0x02#8, 0x0B#8, 0x83#8]] 10)] :=
  ⟨rfl, by decide +kernel⟩
theorem test_scan_keeps_sync : scan [0xC8#8, 0x02#8, 0x0B#8, 0x83#8, 0xC8#8] = ([.ok [0xC8#8, 0x02#8, 0x0B#8, 0x83#8]], 4) := by
  decide +kernel
-- B2, B7
theorem test_build : decode (.cmd 0x03#8 (.typed 0x07#8 [0x00#8, 0xFA#8])) = .ok (.build 0x07#8 [0x00#8, 0xFA#8]) ∧
    fresh (.cmd 0x03#8 (.typed 0x07#8 [0x00#8, 0xFA#8])) = [.result 0x03#8 (.frame [0xC8#8, 0x04#8, 0x07#8, 0x00#8, 0xFA#8, 0xF1#8])] :=
  ⟨rfl, by decide +kernel⟩
theorem test_build_too_large : fresh (.cmd 0x03#8 (.typed 0x07#8 (List.replicate 254 0x00#8))) =
    [.errOut 3 0x03#8 (.payloadTooLarge 254)] := by decide +kernel

-- U1
def bytesU1 : Vector Byte 22 := #v[0x01#8, 0x02#8, 0x03#8, 0x04#8, 0x05#8, 0x06#8, 0x07#8, 0x08#8, 0x09#8, 0x0A#8, 0x0B#8, 0x0C#8, 0x0D#8, 0x0E#8, 0x0F#8, 0x10#8, 0x11#8, 0x12#8, 0x13#8, 0x14#8, 0x15#8, 0x16#8]
theorem test_unpack : decode (.cmd 0x04#8 (.bytes22 bytesU1)) = .ok (.unpack bytesU1) ∧
    fresh (.cmd 0x04#8 (.bytes22 bytesU1)) = [.result 0x04#8 (.channels
      #v[513#16, 96#16, 1040#16, 770#16, 112#16, 528#16, 642#16, 88#16, 1292#16, 449#16, 60#16, 136#16, 289#16, 38#16, 1349#16, 176#16])] := ⟨rfl, by decide +kernel⟩
-- H2, P-E2
def chansH2 : Vector (BitVec 16) 16 := .ofFn fun i => BitVec.ofNat 16 (100 * i.val)
theorem test_pack : decode (.cmd 0x05#8 (.chans chansH2)) = .ok (.pack chansH2) ∧
    fresh (.cmd 0x05#8 (.chans chansH2)) = [.result 0x05#8 (.packed
      #v[0x00#8, 0x20#8, 0x03#8, 0x32#8, 0x58#8, 0x02#8, 0x19#8, 0xFA#8, 0x60#8, 0x89#8, 0x57#8, 0x20#8, 0x23#8, 0x1C#8, 0xFA#8, 0x98#8, 0x08#8, 0x4B#8, 0x8A#8, 0xE2#8, 0x95#8, 0xBB#8])] := ⟨rfl, by decide +kernel⟩
theorem test_pack_over : fresh (.cmd 0x05#8 (.chans (((Vector.replicate 16 0#16).set 1 4000#16).set 9 2048#16))) =
    [.errOut 4 0x05#8 (.channelOutOfRange 1 4000)] := by decide +kernel
-- G1
theorem test_encGps : decode (.cmd 0x10#8 (.reals [.rat (6172839/500000), .rat (-12345679/125000), .rat (36), .rat (270), .rat (100)])) = .ok (.encGps (.rat (6172839/500000)) (.rat (-12345679/125000)) (.rat (36)) (.rat (270)) (.rat (100))) ∧
    fresh (.cmd 0x10#8 (.reals [.rat (6172839/500000), .rat (-12345679/125000), .rat (36), .rat (270), .rat (100)])) = [.result 0x10#8 (.payload [0x07#8, 0x5B#8, 0xCD#8, 0x0C#8, 0xC5#8, 0x21#8, 0x97#8, 0x50#8, 0x01#8, 0x68#8, 0x69#8, 0x78#8, 0x04#8, 0x4C#8, 0x01#8])] :=
  ⟨rfl, by decide +kernel⟩
-- G13
theorem test_encGps_out_of_range : fresh (.cmd 0x10#8 (.reals [.rat (0), .rat (0), .rat (0), .rat (0), .rat (129071/2)])) =
    [.errOut 7 0x10#8 (.fieldOutOfRange ⟨.gps, .alt, some (65536)⟩)] := by decide +kernel
-- T8, T5
theorem test_encBattery : decode (.cmd 0x11#8 (.reals [.rat (-3/2), .rat (51/20)])) = .ok (.encBattery (.rat (-3/2)) (.rat (51/20))) ∧
    fresh (.cmd 0x11#8 (.reals [.rat (-3/2), .rat (51/20)])) = [.result 0x11#8 (.payload [0xFF#8, 0xF1#8, 0x00#8, 0x00#8, 0x00#8, 0x00#8, 0x00#8, 0xFF#8])] :=
  ⟨rfl, by decide +kernel⟩
-- T7
theorem test_encBattery_out_of_range : fresh (.cmd 0x11#8 (.reals [.rat (0), .rat (-1/100)])) =
    [.errOut 7 0x11#8 (.fieldOutOfRange ⟨.batterySensor, .remaining, some (-1)⟩)] := by decide +kernel
-- V10
theorem test_encVario : decode (.cmd 0x12#8 (.reals [.rat (-1/8)])) = .ok (.encVario (.rat (-1/8))) ∧
    fresh (.cmd 0x12#8 (.reals [.rat (-1/8)])) = [.result 0x12#8 (.payload [0xFF#8, 0xF4#8])] :=
  ⟨rfl, by decide +kernel⟩
-- V6
theorem test_encVario_out_of_range : fresh (.cmd 0x12#8 (.reals [.rat (13107/40)])) =
    [.errOut 7 0x12#8 (.fieldOutOfRange ⟨.vario, .vspeed, some (32768)⟩)] := by decide +kernel
-- A8
theorem test_encBaroAlt : decode (.cmd 0x13#8 (.reals [.rat (9507/4), .rat (100)])) = .ok (.encBaroAlt (.rat (9507/4)) (.rat (100))) ∧
    fresh (.cmd 0x13#8 (.reals [.rat (9507/4), .rat (100)])) = [.result 0x13#8 (.payload [0x89#8, 0x49#8, 0x00#8])] :=
  ⟨rfl, by decide +kernel⟩
-- A13
theorem test_encBaroAlt_out_of_range : fresh (.cmd 0x13#8 (.reals [.rat (-1), .rat (-3000)])) =
    [.errOut 7 0x13#8 (.fieldOutOfRange ⟨.baroAlt, .alt, some (-1)⟩)] := by decide +kernel
-- W3
theorem test_encAirspeed : decode (.cmd 0x14#8 (.reals [.rat (1389/50)])) = .ok (.encAirspeed (.rat (1389/50))) ∧
    fresh (.cmd 0x14#8 (.reals [.rat (1389/50)])) = [.result 0x14#8 (.payload [0x03#8, 0xE8#8])] :=
  ⟨rfl, by decide +kernel⟩
-- W6
theorem test_encAirspeed_out_of_range : fresh (.cmd 0x14#8 (.reals [.rat (3641/2)])) =
    [.errOut 7 0x14#8 (.fieldOutOfRange ⟨.airspeed, .speed, some (65538)⟩)] := by decide +kernel
-- E2
theorem test_encAttitude : decode (.cmd 0x15#8 (.reals [.rat (1/10), .rat (-1/5), .rat (314159/100000)])) = .ok (.encAttitude (.rat (1/10)) (.rat (-1/5)) (.rat (314159/100000))) ∧
    fresh (.cmd 0x15#8 (.reals [.rat (1/10), .rat (-1/5), .rat (314159/100000)])) = [.result 0x15#8 (.payload [0x03#8, 0xE8#8, 0xF8#8, 0x30#8, 0x7A#8, 0xB8#8])] :=
  ⟨rfl, by decide +kernel⟩
-- E4
theorem test_encAttitude_out_of_range : fresh (.cmd 0x15#8 (.reals [.rat (2048/625), .rat (0), .rat (0)])) =
    [.errOut 7 0x15#8 (.fieldOutOfRange ⟨.attitude, .pitch, some (32768)⟩)] := by decide +kernel
-- M2
theorem test_encRpm : decode (.cmd 0x16#8 (.reals [.rat (1000), .rat (10002/5), .rat (16777215)])) = .ok (.encRpm [.rat (1000), .rat (10002/5), .rat (16777215)]) ∧
    fresh (.cmd 0x16#8 (.reals [.rat (1000), .rat (10002/5), .rat (16777215)])) = [.result 0x16#8 (.payload [0x00#8, 0x00#8, 0x03#8, 0xE8#8, 0x00#8, 0x07#8, 0xD0#8, 0xFF#8, 0xFF#8, 0xFF#8])] :=
  ⟨rfl, by decide +kernel⟩
-- M6
theorem test_encRpm_out_of_range : fresh (.cmd 0x16#8 (.reals [.rat (16777216)])) =
    [.errOut 7 0x16#8 (.fieldOutOfRange ⟨.rpm, .rpm 0, some (16777216)⟩)] := by decide +kernel
-- P4, record 1
def recordP4 : TelemetryRecord :=
  ⟨⟨.fin (.rat 0), .fin (.rat 100), .fin (.rat 0)⟩, ⟨.fin (.rat 0), .fin (.rat 0), .fin (.rat 0), .fin (.rat 1)⟩, ⟨.fin (.rat 0), .fin (.rat 0), .fin (.rat 0)⟩, ⟨.fin (.rat (1/2)), .fin (.rat (111/10))⟩, []⟩
def stateP4 : State := { State.reset with params := { geo := .fixed (.rat (12345678/1000000)) (.rat (-98765432/1000000)) } }
theorem test_encode :
    decode (.cmd 0x17#8 (.recordFrom recordP4 (.rat 100))) = .ok (.encode recordP4 (.rat 100)) ∧
    outOf stateP4 (.cmd 0x17#8 (.recordFrom recordP4 (.rat 100))) = [.result 0x17#8 (.pairs
      [(0x02#8, [0x07#8, 0x5B#8, 0xCD#8, 0x0C#8, 0xC5#8, 0x21#8, 0x97#8, 0x50#8, 0x00#8, 0x00#8, 0x00#8, 0x00#8, 0x04#8, 0x4C#8, 0x01#8]),
       (0x08#8, [0x00#8, 0x6F#8, 0x00#8, 0x00#8, 0x00#8, 0x00#8, 0x00#8, 0x32#8]),
       (0x07#8, [0x00#8, 0x00#8]),
       (0x09#8, [0x27#8, 0x10#8, 0x00#8]),
       (0x0A#8, [0x00#8, 0x00#8]),
       (0x1E#8, [0x00#8, 0x00#8, 0x00#8, 0x00#8, 0x00#8, 0x00#8])])] := ⟨rfl, by decide +kernel⟩
theorem test_telLoad : decode (.event 0x30#8 (.record recordP4)) = .ok (.telLoad recordP4) ∧
    (after stateP4 (.event 0x30#8 (.record recordP4))).altStart = .rat 100 ∧
    (after stateP4 (.event 0x30#8 (.record recordP4))).lastValid = true := ⟨rfl, by decide +kernel, by decide +kernel⟩
theorem test_telLoad_keeps_start : (after { stateP4 with altStart := .rat 5, altStartValid := true }
    (.event 0x30#8 (.record recordP4))).altStart = .rat 5 := by decide +kernel
theorem test_telTick : decode (.event 0x31#8 .none) = .ok .telTick ∧
    (after { after stateP4 (.event 0x30#8 (.record recordP4)) with now := 200, nextTick := 200 } (.event 0x31#8 .none)).txqTel =
      [[0xC8#8, 0x11#8, 0x02#8, 0x07#8, 0x5B#8, 0xCD#8, 0x0C#8, 0xC5#8, 0x21#8, 0x97#8, 0x50#8, 0x00#8, 0x00#8, 0x00#8, 0x00#8, 0x04#8, 0x4C#8, 0x01#8, 0x95#8],
       [0xC8#8, 0x0A#8, 0x08#8, 0x00#8, 0x6F#8, 0x00#8, 0x00#8, 0x00#8, 0x00#8, 0x00#8, 0x32#8, 0xDE#8],
       [0xC8#8, 0x04#8, 0x07#8, 0x00#8, 0x00#8, 0x23#8],
       [0xC8#8, 0x05#8, 0x09#8, 0x27#8, 0x10#8, 0x00#8, 0xB3#8],
       [0xC8#8, 0x04#8, 0x0A#8, 0x00#8, 0x00#8, 0x35#8],
       [0xC8#8, 0x08#8, 0x1E#8, 0x00#8, 0x00#8, 0x00#8, 0x00#8, 0x00#8, 0x00#8, 0x30#8]] := ⟨rfl, by decide +kernel⟩
theorem test_telTick_not_due : (after { State.reset with now := 99 } (.event 0x31#8 .none)).nextTick = 100 := by
  decide +kernel
-- P1, line 2
theorem test_rxTick : decode (.event 0x20#8 (.bytes [0x0B#8, 0x83#8, 0xC8#8])) = .ok (.rxTick (.bytes [0x0B#8, 0x83#8, 0xC8#8])) ∧
    (after { State.reset with rxbuf := [0xC8#8, 0x02#8] } (.event 0x20#8 (.bytes [0x0B#8, 0x83#8, 0xC8#8]))).rxbuf = [0xC8#8] :=
  ⟨rfl, by decide +kernel⟩
-- P6
theorem test_rxTick_closed : decode (.event 0x20#8 .closed) = .ok (.rxTick .closed) ∧
    fresh (.event 0x20#8 .closed) = [.errOut 6 0x20#8 (.streamClosed .rx)] := ⟨rfl, by decide +kernel⟩
-- D3, D4
theorem test_dispatch : decode (.event 0x21#8 (.typed 0x16#8 payloadH5)) = .ok (.dispatch 0x16#8 payloadH5) ∧
    outOf { State.reset with chValid := true, ch := #v[173#11, 992#11, 1811#11, 1983#11, 0#11, 1#11, 2#11, 4#11, 8#11, 16#11, 32#11, 64#11, 128#11, 256#11, 512#11, 1024#11] }
      (.event 0x21#8 (.typed 0x16#8 payloadH5)) =
      [.chOut #v[172#11, 992#11, 1811#11, 1983#11, 0#11, 1#11, 2#11, 4#11, 8#11, 16#11, 32#11, 64#11, 128#11, 256#11, 512#11, 1024#11] 0x0001#16 false] := ⟨rfl, by decide +kernel⟩
theorem test_dispatch_axis : fresh (.event 0x21#8 (.typed 0x16#8 (payloadH5.set 3 0xC4#8 |>.set 4 0x81#8))) =
    [.errOut 9 0x21#8 (.axisRangeError 3 1984)] := by decide +kernel
-- N3, N6
theorem test_netIn : decode (.event 0x22#8 (.bytes [0x21#8, 0x41#8, 0x43#8, 0x52#8, 0x4F#8, 0x00#8])) = .ok (.netIn [0x21#8, 0x41#8, 0x43#8, 0x52#8, 0x4F#8, 0x00#8]) ∧
    (after State.reset (.event 0x22#8 (.bytes [0x21#8, 0x41#8, 0x43#8, 0x52#8, 0x4F#8, 0x00#8]))).txqNet =
      [[0xC8#8, 0x07#8, 0x21#8, 0x41#8, 0x43#8, 0x52#8, 0x4F#8, 0x00#8, 0x80#8]] := ⟨rfl, by decide +kernel⟩
theorem test_netIn_too_large : fresh (.event 0x22#8 (.bytes (List.replicate 255 0x00#8))) =
    [.errOut 3 0x03#8 (.payloadTooLarge 254)] := by decide +kernel
-- P3
theorem test_txWrite : decode (.event 0x23#8 .none) = .ok .txWrite ∧
    outOf { State.reset with txqNet := [[0xC8#8, 0x02#8, 0x0B#8, 0x83#8]] } (.event 0x23#8 .none) =
      [.bsTx [0xC8#8, 0x02#8, 0x0B#8, 0x83#8] .accepted] := ⟨rfl, by decide +kernel⟩
theorem test_txWrite_picks : (after { State.reset with txqNet := [[0x01#8]], txqTel := [[0x02#8], [0x03#8]], txPicks := [.tel] }
    (.event 0x23#8 .none)).txqTel = [[0x03#8]] := by decide +kernel
-- P5, lines 5 and 12
theorem test_ctlMsg : decode (.ctrl [0x00#8, 0x01#8] 3) = .ok (.ctlMsg [0x00#8, 0x01#8] 3) ∧
    (after State.reset (.ctrl [0x00#8, 0x01#8] 3)).dest = [] := ⟨rfl, by decide +kernel⟩
theorem test_ctlMsg_quit : decode (.event 0x40#8 (.control [0xFF#8] 3)) = .ok (.ctlMsg [0xFF#8] 3) ∧
    (after State.reset (.event 0x40#8 (.control [0xFF#8] 3))).halt = true := ⟨rfl, by decide +kernel⟩
-- P5, line 9
theorem test_bcast : decode (.event 0x41#8 (.bytes [0x01#8, 0x02#8])) = .ok (.bcast [0x01#8, 0x02#8]) ∧
    outOf { State.reset with dest := [1, 2, 3], bcPlans := [⟨[3, 2], [2]⟩] } (.event 0x41#8 (.bytes [0x01#8, 0x02#8])) =
      [.bcTx 3 [0x01#8, 0x02#8] .sent, .bcTx 2 [0x01#8, 0x02#8] .failed,
       .errOut 5 0x41#8 (.destinationUnreachable (some 2)), .bcTx 1 [0x01#8, 0x02#8] .sent] := ⟨rfl, by decide +kernel⟩
-- section 6.3
def windowed (now : Nat) : State :=
  { State.reset with now := now, crcErrCnt := 1, stats := [(0, .bytes 10), (400, .bytes 6), (400, .err)] }
theorem test_statsReport : decode (.event 0x50#8 .none) = .ok .statsReport ∧
    outOf (windowed 1000) (.event 0x50#8 .none) = [.statOut 16 1 1] := ⟨rfl, by decide +kernel⟩
theorem test_statsReport_evicts : outOf (windowed 1001) (.event 0x50#8 .none) = [.statOut 6 1 1] := by decide +kernel
-- P6, line 4
theorem test_stop : decode (.event 0x5F#8 .none) = .ok .stop ∧
    (after { State.reset with rxClosed := true } (.event 0x5F#8 .none)).stopped = true := ⟨rfl, by decide +kernel⟩
theorem test_stop_not_requested : (after State.reset (.event 0x5F#8 .none)).stopped = false := by decide +kernel
-- 43_telemetry_encoder.md R201: ties of irrational form with a rational value, and an integer under any arithmetic
theorem test_ties : rndBaroDiff {} (.sqrt (1/400)) (.rat 0) = some 0 ∧ rndBaroDiff {} (.sqrt (1/9)) (.rat (17/60)) = some 0 ∧
    rndScaled {} (.sqrt (9/4)) 1 0 = some 2 ∧ rndScaled {} (.heading 1 (-1)) 100 0 = some 13500 ∧
    rndScaled { numerics := .supplied 0 } (.rat 1000) 1 0 = some 1000 := by decide +kernel
-- 60_exceptions.md R319: the signal alone, and another operation after it
theorem test_signal : step { State.reset with stimulus := [.signal] } = .next { State.reset with shutdown := true } ∧
    (after { State.reset with shutdown := true } (.frame [0xC8#8, 0x02#8, 0x0B#8, 0x83#8])).out = [.netTx [0x0B#8] .sent] :=
  ⟨rfl, by decide +kernel⟩
-- 00_scope.md R9: READ_MAX 3
theorem test_read_max : (match exec (.rxTick (.bytes [0xC8#8, 0x02#8, 0x0B#8, 0x83#8]))
    { State.reset with params := { readMax := some 3 } } with
    | .next t => decide (t.rxbuf = [0xC8#8, 0x02#8, 0x0B#8] ∧ t.stimulus = [.present (.event 0x20#8 (.bytes [0x83#8]))])
    | _ => false) = true := by decide +kernel
-- R205: h in (-180, 180], plus 360 if negative; R202: the zero quaternion under any arithmetic
theorem test_heading_turn : headingTurn 0 = 0 ∧ headingTurn 180 = 180 ∧ headingTurn (-1) = 359 ∧
    headingTurn (-179) = 181 := by decide +kernel
theorem test_heading_zero : headingOf { numerics := .supplied 0 } ⟨.fin (.rat 0), .fin (.rat 0), .fin (.rat 0), .fin (.rat 0)⟩ = .nonFinite := by
  decide +kernel
-- R309: no DISPATCH once the direction is closed
theorem test_dispatch_closed : exec (.dispatch 0x16#8 payloadH5) { State.reset with rxClosed := true } =
    .next { State.reset with rxClosed := true } := rfl
-- P4, record 2 (Q2, Q6), its √½ exact; Q4
def halfTurn (a : Rat) : Attitude := ⟨.fin (.rat 0), .fin (.root a 2), .fin (.rat 0), .fin (.root (1/2) 2)⟩
theorem test_derivation : rndScaled {} (headingOf {} (halfTurn (1/2))) 100 0 = some 9000 ∧
    rndScaled {} (mag3dOf {} ⟨.fin (.rat 3), .fin (.rat (-1234/1000)), .fin (.rat 4)⟩) 36 0 = some 185 ∧
    rndScaled {} (kphOf {} ⟨.fin (.rat 3), .fin (.rat (-1234/1000)), .fin (.rat 4)⟩) 10 0 = some 180 ∧
    encAttitude {} (eulerOf {} (halfTurn (1/2))).1 (eulerOf {} (halfTurn (1/2))).2.1 (eulerOf {} (halfTurn (1/2))).2.2 =
      .ok [0x00#8, 0x00#8, 0x00#8, 0x00#8, 0xC2#8, 0xA4#8] ∧
    rndScaled {} (headingOf {} (halfTurn (-1/2))) 100 0 = some 27000 := by decide +kernel
-- R205: "a rotation by angle a about the Y (vertical) axis ... gives heading a": a = 60 and 300 degrees
theorem test_heading_surd :
    rndScaled {} (headingOf {} ⟨.fin (.rat 0), .fin (.rat (1/2)), .fin (.rat 0), .fin (.root (1/2) 3)⟩) 100 0 = some 6000 ∧
    rndScaled {} (headingOf {} ⟨.fin (.rat 0), .fin (.rat (1/2)), .fin (.rat 0), .fin (.root (-1/2) 3)⟩) 100 0 =
      some 30000 := by decide +kernel
-- R202, R205: (x, 0, 0, x) has s = c = 0, whatever real number x is
theorem test_named_undefined (k : Nat) :
    isFinite (headingOf {} ⟨.fin (.named 1 k), .fin (.rat 0), .fin (.rat 0), .fin (.named 1 k)⟩) = false := by
  obtain ⟨x, hx⟩ := isReal_exists (.named 1 k)
  have h0 : IsReal (.rat 0) 0 := by simp [IsReal]
  have s : IsCross ⟨.rat 0, .named 1 k, .named 1 k, .rat 0⟩ 0 := ⟨0, x, x, 0, h0, hx, hx, h0, by ring⟩
  have c : IsSquares ⟨0, [(1, .named 1 k), (1, .rat 0), (-1, .named 1 k), (-1, .rat 0)]⟩ 0 :=
    ⟨0, ⟨x, _, hx, ⟨0, _, h0, ⟨x, _, hx, ⟨0, 0, h0, rfl, rfl⟩, rfl⟩, rfl⟩, by push_cast; ring⟩, by simp⟩
  show (!(decide (crossSign _ = .zero) && decide (squaresSign _ = .zero))) = false
  rw [crossSign_eq s, squaresSign_eq c, sign_zero]
  rfl
-- R208: (b, b, 1, 1) has roll pi, whatever real number b is
def namedRoll (k : Nat) : RealNum := (eulerOf {} ⟨.fin (.named 1 k), .fin (.named 1 k), .fin (.rat 1), .fin (.rat 1)⟩).2.1
theorem test_named_roll (k : Nat) :
    rndScaled {} (namedRoll k) 10000 0 = some 31416 := by
  obtain ⟨b, hb⟩ := isReal_exists (.named 1 k)
  have h1 : ∀ q : Rat, IsReal (.rat q) q := fun q => rfl
  have s : IsCross ⟨.rat (-1 * 1), .named 1 k, .rat 1, .named 1 k⟩ 0 := ⟨_, b, _, b, h1 _, hb, h1 _, hb, by push_cast; ring⟩
  have c : IsSquares ⟨1, [(-2, .named 1 k), (-2, .rat 1)]⟩ (-(2 * (b * b) + 1)) :=
    ⟨_, ⟨b, _, hb, ⟨_, 0, h1 1, rfl, rfl⟩, rfl⟩, by push_cast; ring⟩
  have v : IsValue (namedRoll k) Real.pi :=
    ⟨_, _, s, c, fun h => by nlinarith [h.2, mul_self_nonneg b], (arg_polar (r := 2 * (b * b) + 1)
      (by nlinarith [mul_self_nonneg b]) ⟨by linarith [Real.pi_pos], le_rfl⟩ (by simp) (by simp)).symm⟩
  have f := (isFinite_iff _).mpr ⟨_, v⟩
  have r := abs_le.mp (rndExact_spec .halfToEven 10000 0 v).1
  have l : ((31415 : Int) : ℝ) < (rndExact .halfToEven (namedRoll k) 10000 0 : Int) := by
    push_cast at r ⊢; linarith [r.1, Real.pi_gt_d6]
  have u : ((rndExact .halfToEven (namedRoll k) 10000 0 : Int) : ℝ) < (31417 : Int) := by
    push_cast at r ⊢; linarith [r.2, Real.pi_lt_d6]
  have l' := Int.cast_lt.mp l
  have u' := Int.cast_lt.mp u
  rw [rndScaled, if_pos f]
  have e : rndExact .halfToEven (namedRoll k) 10000 0 =
      31416 := by omega
  exact congrArg some e
-- R201: a heading of 22.5 degrees of square roots, on a tie
theorem test_surd_tie : rndScaled {} (.turn ⟨.root 1 2, .rat (1/2), .rat 1, .rat (-1/2)⟩ ⟨1, []⟩) 1 0 = some 22 := by
  have h2 : Real.sqrt 2 * Real.sqrt 2 = 2 := Real.mul_self_sqrt (by norm_num)
  have s : IsCross ⟨.root 1 2, .rat (1/2), .rat 1, .rat (-1/2)⟩ (Real.sqrt 2 - 1) :=
    ⟨_, _, _, _, rfl, rfl, rfl, rfl, by push_cast; ring⟩
  have c : IsSquares ⟨1, []⟩ 1 := ⟨0, rfl, by simp⟩
  have hs : 0 < Real.sqrt 2 - 1 := by nlinarith [Real.sqrt_nonneg 2]
  have a : Complex.arg ⟨1, Real.sqrt 2 - 1⟩ = Real.pi / 8 := by
    have hc : 0 < Real.cos (Real.pi / 8) := Real.cos_pos_of_mem_Ioo ⟨by linarith [Real.pi_pos], by linarith [Real.pi_pos]⟩
    have d := Real.cos_sq (Real.pi / 8)
    have d' := Real.sin_two_mul (Real.pi / 8)
    rw [show 2 * (Real.pi / 8) = Real.pi / 4 by ring] at d d'
    rw [Real.cos_pi_div_four] at d
    rw [Real.sin_pi_div_four] at d'
    refine arg_polar (r := 1 / Real.cos (Real.pi / 8)) (by positivity) ⟨by linarith [Real.pi_pos], by linarith [Real.pi_pos]⟩
      (by field_simp) ?_
    rw [div_mul_eq_mul_div, one_mul, eq_div_iff hc.ne']
    have : Real.cos (Real.pi / 8) * ((Real.sqrt 2 - 1) * Real.cos (Real.pi / 8) - Real.sin (Real.pi / 8)) = 0 := by nlinarith
    rcases mul_eq_zero.mp this with h | h
    · exact absurd h hc.ne'
    · linarith
  have v : IsValue (.turn ⟨.root 1 2, .rat (1/2), .rat 1, .rat (-1/2)⟩ ⟨1, []⟩) (22.5) :=
    ⟨_, _, s, c, (isHeading_iff _ _ _).mpr ⟨fun h => by linarith [h.2], by
      rw [a, if_neg (not_lt.mpr hs.le)]; have := Real.pi_ne_zero; field_simp; norm_num⟩⟩
  have f := (isFinite_iff _).mpr ⟨_, v⟩
  rw [rndScaled, if_pos f]
  exact congrArg some ((rndExact_spec .halfToEven 1 0 v).2 22 (by push_cast; norm_num))

/-! ### The words of spec/opcode_table.json (R128), but 0x01 as UNREGISTER, which `test_unregister` shows -/

theorem test_table_frames :
    decodeTableWord 24 0xC80002 = some (.gps 0x00#8 []) ∧
    decodeTableWord 24 0xC80007 = some (.vario 0x00#8 []) ∧
    decodeTableWord 24 0xC80008 = some (.batterySensor 0x00#8 []) ∧
    decodeTableWord 24 0xC80009 = some (.baroAlt 0x00#8 []) ∧
    decodeTableWord 24 0xC8000A = some (.airspeed 0x00#8 []) ∧
    decodeTableWord 24 0xC8000B = some (.heartbeat 0x00#8 []) ∧
    decodeTableWord 24 0xC8000C = some (.rpm 0x00#8 []) ∧
    decodeTableWord 24 0xC8000D = some (.temp 0x00#8 []) ∧
    decodeTableWord 24 0xC8000E = some (.voltages 0x00#8 []) ∧
    decodeTableWord 24 0xC8000F = some (.videoTransmitter 0x00#8 []) ∧
    decodeTableWord 24 0xC80014 = some (.linkStatistics 0x00#8 []) ∧
    decodeTableWord 24 0xC80016 = some (.rcChannelsPacked 0x00#8 []) ∧
    decodeTableWord 24 0xC8001C = some (.linkStatisticsRx 0x00#8 []) ∧
    decodeTableWord 24 0xC8001D = some (.linkStatisticsTx 0x00#8 []) ∧
    decodeTableWord 24 0xC8001E = some (.attitude 0x00#8 []) ∧
    decodeTableWord 24 0xC80021 = some (.flightMode 0x00#8 []) ∧
    decodeTableWord 24 0xC80029 = some (.deviceInfo 0x00#8 []) ∧
    decodeTableWord 24 0xC8002C = some (.configRead 0x00#8 []) ∧
    decodeTableWord 24 0xC8002D = some (.configWrite 0x00#8 []) ∧
    decodeTableWord 24 0xC8003A = some (.radioId 0x00#8 []) := by
  refine ⟨?_, ?_, ?_, ?_, ?_, ?_, ?_, ?_, ?_, ?_, ?_, ?_, ?_, ?_, ?_, ?_, ?_, ?_, ?_, ?_⟩ <;> rfl
theorem test_table_frame_length : decodeTableWord 24 0xC8033A = some (.radioId 0x03#8 [0x00#8, 0x00#8]) := rfl
theorem test_table_control : decodeTableWord 8 0x00 = some (.register 0) ∧ decodeTableWord 8 0xFF = some (.quit 0) := ⟨rfl, rfl⟩
theorem test_table_operations :
    decodeTableWord 8 0x01 = some (.crc8 []) ∧
    decodeTableWord 8 0x02 = some (.scan []) ∧
    decodeTableWord 8 0x03 = some (.build 0x00#8 []) ∧
    decodeTableWord 8 0x04 = some (.unpack (Vector.replicate 22 0x00#8)) ∧
    decodeTableWord 8 0x05 = some (.pack (Vector.replicate 16 0#16)) ∧
    decodeTableWord 8 0x10 = some (.encGps (.rat 0) (.rat 0) (.rat 0) (.rat 0) (.rat 0)) ∧
    decodeTableWord 8 0x11 = some (.encBattery (.rat 0) (.rat 0)) ∧
    decodeTableWord 8 0x12 = some (.encVario (.rat 0)) ∧
    decodeTableWord 8 0x13 = some (.encBaroAlt (.rat 0) (.rat 0)) ∧
    decodeTableWord 8 0x14 = some (.encAirspeed (.rat 0)) ∧
    decodeTableWord 8 0x15 = some (.encAttitude (.rat 0) (.rat 0) (.rat 0)) ∧
    decodeTableWord 8 0x16 = some (.encRpm []) ∧
    decodeTableWord 8 0x17 = some (.encode zeroRecord (.rat 0)) ∧
    decodeTableWord 8 0x20 = some (.rxTick (.bytes [])) ∧
    decodeTableWord 8 0x21 = some (.dispatch 0x00#8 []) ∧
    decodeTableWord 8 0x22 = some (.netIn []) ∧
    decodeTableWord 8 0x23 = some (.txWrite) ∧
    decodeTableWord 8 0x30 = some (.telLoad zeroRecord) ∧
    decodeTableWord 8 0x31 = some (.telTick) ∧
    decodeTableWord 8 0x40 = some (.ctlMsg [] 0) ∧
    decodeTableWord 8 0x41 = some (.bcast []) ∧
    decodeTableWord 8 0x50 = some (.statsReport) ∧
    decodeTableWord 8 0x5F = some (.stop) := by
  refine ⟨?_, ?_, ?_, ?_, ?_, ?_, ?_, ?_, ?_, ?_, ?_, ?_, ?_, ?_, ?_, ?_, ?_, ?_, ?_, ?_, ?_, ?_, ?_⟩ <;> rfl
theorem test_table_no_word : decodeTableWord 8 0x06 = none ∧ decodeTableWord 16 0x0000 = none := ⟨rfl, rfl⟩
theorem test_withFetchWord_runs : (match step (State.reset.withFetchWord 24 0xC8020B) with | .next t => decide (t.crcErrCnt = 1) | _ => false) = true := by
  decide +kernel

/-! ### Witnesses: for each statement with hypotheses, states and operands that meet them, clause by clause -/

def beat : List Byte := [0xC8#8, 0x02#8, 0x0B#8, 0x83#8]
def withParams (p : Params) (s : State) : State := { s with params := p }
def queued (line : Stimulus) : State := { State.reset with stimulus := [line] }

theorem witness_DecodeEncode : Instr.wf (.gps 0x00#8 []) = true ∧ Instr.wf (.gps 0xFF#8 (List.replicate 254 0x00#8)) = true ∧
    Instr.wf .stop = true := by decide +kernel
theorem witness_EachPresentationOneMeaning :
    decode (.frame beat) = .ok (.heartbeat 0x02#8 [0x83#8]) ∧ decode (.frame []) = .ok (.rxTick (.bytes [])) ∧
    decode (.ctrl [] 0) = .ok (.ctlMsg [] 0) := ⟨rfl, rfl, rfl⟩
theorem witness_CmdRefusals : (queued (.present (.cmd 0x20#8 (.bytes [])))).stimulus = .present (.cmd 0x20#8 (.bytes [])) :: [] ∧
    step (queued (.present (.cmd 0x20#8 (.bytes [])))) = .refused (.illegalOperation 0x20#8) ∧
    step (queued (.present (.cmd 0x01#8 .none))) = .refused (.illTyped 0x01#8) ∧
    ∀ i, decode (.cmd 0x01#8 .none) ≠ .ok i :=
  ⟨rfl, rfl, rfl, fun i h => by cases h⟩
theorem witness_StepRunsDecoded : (queued (.present (.frame beat))).stimulus = [.present (.frame beat)] ∧
    decode (.frame beat) = .ok (.heartbeat 0x02#8 [0x83#8]) := ⟨rfl, rfl⟩
theorem witness_StepOtherLines : State.reset.stimulus = [] ∧
    ((queued .tick).stimulus = [.tick] ∧ (queued .tick).stopped = false) ∧
    ((queued (.now 0)).stimulus = [.now 0] ∧ (queued (.now 0)).now ≤ 0) ∧
    (({ queued (.now 6) with now := 7 } : State).stimulus = [.now 6] ∧ 6 < ({ queued (.now 6) with now := 7 } : State).now) ∧
    ((queued .shutdown).stimulus = [.shutdown] ∧ (queued .shutdown).stopped = false) ∧
    ((queued .signal).stimulus = [.signal] ∧ (queued .signal).stopped = false) ∧
    ((queued .period).stimulus = [.period] ∧ (queued .period).params.statsReportMs = none ∧
      (withParams { statsReportMs := some 500 } (queued .period)).params.statsReportMs = some 500) ∧
    ((queued .timeout).stimulus = [.timeout] ∧ (queued .timeout).rxClosed = false ∧
      ({ queued .timeout with rxClosed := true } : State).rxClosed = true) ∧
    (({ queued .tick with stopped := true } : State).stopped = true ∧
      (.timeout : Stimulus) ∈ [.tick, .shutdown, .signal, .period, .timeout]) :=
  ⟨rfl, ⟨rfl, rfl⟩, ⟨rfl, by decide⟩, ⟨rfl, by decide⟩, ⟨rfl, rfl⟩, ⟨rfl, rfl⟩, ⟨rfl, rfl, rfl⟩, ⟨rfl, rfl, rfl⟩,
    rfl, by decide⟩
theorem witness_ResetEvent : (queued .reset).stimulus = .reset :: [] := rfl
theorem witness_WhereStepsStop : step { queued (.now 6) with now := 7 } = .fault (.clockWentBack 7 6) ∧
    step (queued (.present (.cmd 0x06#8 .none))) = .refused (.illegalOperation 0x06#8) ∧
    step (queued (.present (.event 0x20#8 .none))) = .refused (.illTyped 0x20#8) := ⟨rfl, rfl, rfl⟩
theorem witness_Crc8Runs : State.reset.stopped = false := rfl
theorem witness_CrcStepAndTable : (0 : Nat) < 8 ∧ (7 : Nat) < 8 := by decide
theorem witness_CrcLaws : 0 < [0x00#8].length ∧ 0 < 8 ∧ validFrame beat = true ∧ 2 ≤ 3 ∧ 3 < beat.length ∧ 7 < 8 ∧
    [0x01#8].length = [0x02#8].length ∧ (0x00#8 : Byte) ≠ 0x80#8 := by decide +kernel
theorem witness_ScanRuns : State.reset.stopped = false := rfl
theorem witness_ScanAlgorithm : 0xC8#8 ∉ ([] : List Byte) ∧ 0xC8#8 ∉ [0x55#8] ∧ [0x02#8].length < 2 ∧
    [0x0B#8].length < (0x02#8 : Byte).toNat ∧ [0x0B#8, 0x83#8].length = (0x02#8 : Byte).toNat ∧
    [0x0B#8, 0x83#8] ++ [] ≠ [] ∧ ([] : List Byte).length = (0x00#8 : Byte).toNat ∧ [] ++ [0x55#8] ≠ [] ∧
    [0x55#8].length = (0x01#8 : Byte).toNat ∧ (0x01#8 : Byte).toNat < 2 ∧ [0x0B#8].length + 1 = (0x02#8 : Byte).toNat ∧
    2 ≤ (0x02#8 : Byte).toNat := by decide
theorem witness_ScanLeftover : ({ State.reset with rxbuf := [0xC8#8, 0x02#8] } : State).rxbuf =
    [0xC8#8, 0x02#8].drop (scan [0xC8#8, 0x02#8]).2 := by decide +kernel
theorem witness_BuiltFramesScan : (List.replicate 253 0xC8#8 : List Byte).length ≤ 253 ∧
    (∀ f ∈ [((0x0B#8 : Byte), ([] : List Byte))], f.2.length ≤ 253) ∧ 0x84#8 ≠ crc8 [0x0B#8] ∧ 3 < 0 + 4 := by decide +kernel
theorem witness_BuildRuns : State.reset.stopped = false ∧ (List.replicate 253 0x00#8).length + 2 ≤ 255 ∧
    255 < (List.replicate 254 0x00#8).length + 2 := by decide +kernel
theorem witness_ScanThenBuild : .ok beat ∈ (scan beat).1 ∧ State.reset.stopped = false := by decide +kernel
theorem witness_UnpackRuns : State.reset.stopped = false := rfl
theorem witness_PackRuns : State.reset.stopped = false ∧
    (∀ i : Fin 16, (Vector.replicate 16 2047#16)[i].toNat ≤ 2047) ∧
    (2047 < ((Vector.replicate 16 2047#16).set 15 2048#16)[(15 : Fin 16)].toNat ∧
      ∀ j : Fin 16, j < 15 → ((Vector.replicate 16 2047#16).set 15 2048#16)[j].toNat ≤ 2047) ∧
    (2047 < ((Vector.replicate 16 0#16).set 0 2048#16)[(0 : Fin 16)].toNat ∧
      ∀ j : Fin 16, j < 0 → ((Vector.replicate 16 0#16).set 0 2048#16)[j].toNat ≤ 2047) := by decide +kernel
theorem witness_PackUnrolled : (∀ i : Fin 16, (Vector.replicate 16 2047#16)[i].toNat ≤ 2047) ∧
    pack (Vector.replicate 16 2047#16) = .ok (Vector.replicate 22 0xFF#8) :=
  ⟨by decide +kernel, ok_of_toOption (by decide +kernel)⟩
theorem witness_ChannelRoundTrip : ∀ i : Fin 16, chansH2[i].toNat ≤ 2047 := by decide +kernel
theorem witness_LaneIndependence :
    (pack (Vector.replicate 16 0#16) = .ok (Vector.replicate 22 0x00#8) ∧
      pack ((Vector.replicate 16 0#16).set 0 1#16) = .ok ((Vector.replicate 22 0x00#8).set 0 0x01#8) ∧
      (∀ j : Fin 16, j ≠ 0 → (Vector.replicate 16 0#16)[j] = ((Vector.replicate 16 0#16).set 0 1#16)[j]) ∧
      11 < 176 ∧ 11 * 0 + 10 < 11) ∧
    ∀ j : Fin 22, j ≠ 21 → (Vector.replicate 22 0x00#8)[j] = ((Vector.replicate 22 0x00#8).set 21 0x01#8)[j] :=
  ⟨⟨ok_of_toOption (by decide +kernel), ok_of_toOption (by decide +kernel), by decide +kernel, by decide, by decide⟩,
    by decide +kernel⟩
theorem witness_RndLaws : (1 / 2 : Rat) ≤ 1 / 2 := le_refl _
theorem witness_FieldIntegers : State.reset.params.numerics = .exactReals ∧
    ({ numerics := .supplied 0 } : Params).numerics = .supplied 0 ∧ isFinite .nonFinite = false ∧ isFinite (.rat 0) = true ∧
    (-1 : Rat) < 0 ∧ (0 : Rat) ≤ 0 ∧ (1 / 4 : Rat) = (0 + 1 / 2) * (0 + 1 / 2) ∧ State.reset.params.euler = .default ∧
    ¬((10 : Rat) = 1 ∧ (0 : Rat) = 0) ∧ ¬((1 : Rat) = 1 ∧ (1000 : Rat) = 0) ∧
    ({ euler := .supplied 0 } : Params).euler = .supplied 0 ∧ State.reset.params.geo = .supplied 0 ∧
    stateP4.params.geo = .fixed (.rat (12345678/1000000)) (.rat (-98765432/1000000)) := by decide +kernel
theorem witness_FieldIntegers_non_finite : (∃ x ∈ [Sys2Proof.Num.fin (.rat 0), .fin (.rat 0), .fin (.rat 0), .nan], ∀ r, x ≠ .fin r) ∧
    (∃ x ∈ [Sys2Proof.Num.fin (.rat 0), .posInf], ∀ r, x ≠ .fin r) ∧ ∃ x ∈ [Sys2Proof.Num.fin (.rat 0), .negInf, .fin (.rat 0)], ∀ r, x ≠ .fin r :=
  ⟨⟨.nan, by simp, fun _ h => by cases h⟩, ⟨.posInf, by simp, fun _ h => by cases h⟩, .negInf, by simp,
    fun _ h => by cases h⟩
theorem valued {x : RealNum} (h : isFinite x = true) : ∃ v, IsValue x v := (isFinite_iff x).mp h
theorem witness_FieldIntegers_headings : (-180 : Rat) < 180 ∧ (180 : Rat) ≤ 180 ∧ (-180 : Rat) < -1 ∧ (-1 : Rat) ≤ 180 ∧
    (∃ v, IsValue (headingOf State.reset.params ⟨.fin (.rat 0), .fin (.rat 1), .fin (.rat 0), .fin (.rat (-1))⟩) v) ∧
    IsReal (.rat 0) 0 ∧ IsReal (.root 1 0) 0 :=
  ⟨by decide, by decide, by decide, by decide, valued (by decide +kernel), by simp [IsReal], by simp [IsReal]⟩
theorem witness_FieldIntegers_values : (∃ v, IsValue (.heading (-1) 2) v) ∧ (∃ v, IsValue (.atan2 (-1) 0) v) ∧
    (∃ v, IsValue (.asin 1) v) ∧ (∃ v, IsValue (.sqrt 0) v) ∧ IsValue (.rat 5) 5 ∧
    (∃ v, IsValue (.norm [.named 1 0]) v) ∧ (∃ v, IsReal (.named 1 0) v) :=
  ⟨valued (by decide +kernel), valued (by decide +kernel), valued (by decide +kernel), valued (by decide +kernel),
    by simp [IsValue], valued rfl, isReal_exists _⟩
theorem witness_EncGpsRuns : State.reset.stopped = false := rfl
theorem witness_EncBatteryRuns : State.reset.stopped = false := rfl
theorem witness_EncVarioRuns : State.reset.stopped = false := rfl
theorem witness_EncBaroAltRuns : State.reset.stopped = false ∧ isFinite .nonFinite = false ∧ isFinite (.rat 0) = true ∧
    rndBaroDiff {} (.rat (22767/10)) (.rat 0) = some (0x7FFF - 10000) ∧
    (rndBaroDiff {} (.rat 0) (.rat (-22768/10)) = some (0x8000 - 10000) ∧ rndScaled {} (.rat 0) 1 0 = some 0) ∧
    (rndBaroDiff {} (.rat (-1)) (.rat (-3000)) = some 29990 ∧ rndScaled {} (.rat (-1)) 1 0 = some (-1)) := by decide +kernel
theorem witness_EncAirspeedRuns : State.reset.stopped = false := rfl
theorem witness_EncAttitudeRuns : State.reset.stopped = false := rfl
theorem witness_EncRpmRuns : State.reset.stopped = false ∧ 19 < (List.replicate 20 (RealNum.rat 0)).length ∧
    ([] : List RealNum) = [] ∧ 1 ≤ [RealNum.rat 0].length ∧ (List.replicate 19 (RealNum.rat 0)).length ≤ 19 := by decide
theorem witness_EncodeRuns : State.reset.stopped = false := rfl
theorem witness_RecordExample : State.reset.stopped = false ∧ State.reset.params.numerics = .exactReals ∧
    State.reset.params.euler = .default ∧ State.reset.params.baroVsBytes = 1 ∧
    rndScaled stateP4.params (geoOf stateP4.params recordP4.pos).1 10000000 0 = some 123456780 ∧
    rndScaled stateP4.params (geoOf stateP4.params recordP4.pos).2 10000000 0 = some (-987654320) := by decide +kernel
theorem witness_TelLoadRuns : State.reset.stopped = false ∧ (recordP4.pos.y = .fin (.rat 100) ∧ State.reset.altStartValid = false) ∧
    ({ State.reset with altStartValid := true } : State).altStartValid = true ∧
    ∀ y, ({ recordP4 with pos := ⟨.fin (.rat 0), .nan, .fin (.rat 0)⟩ } : TelemetryRecord).pos.y ≠ .fin y :=
  ⟨rfl, ⟨rfl, rfl⟩, rfl, fun _ h => by cases h⟩
def ready : State :=
  { State.reset with now := 100, lastValid := true, altStartValid := true, params := { baroVsBytes := 251 } }
theorem witness_TelTickRuns : ({ State.reset with now := 100 } : State).stopped = false ∧ State.reset.nextTick ≤ 100 ∧
    State.reset.lastValid = false ∧ ready.stopped = false ∧ ready.nextTick ≤ ready.now ∧ ready.lastValid = true ∧
    ready.altStartValid = true ∧ ready.params.baroVsBytes ≤ 251 ∧
    251 < (withParams { baroVsBytes := 252 } ready).params.baroVsBytes := by decide
theorem witness_TickSchedule : ({ State.reset with now := 299 } : State).stopped = false ∧ State.reset.nextTick = 0 + 100 ∧
    0 ≤ State.reset.now ∧ 1 < (299 - 0) / 100 := by decide
def loaded (ans : WriteAnswer) : State := { State.reset with txqNet := [beat], txAnswers := [ans] }
theorem witness_StreamsClosed : State.reset.stopped = false ∧ State.reset.rxClosed = false ∧
    ((loaded .closed).stopped = false ∧ (loaded .closed).txClosed = false ∧ (loaded .closed).txqNet = beat :: [] ∧
      (loaded .closed).txPicks.headD .net = .net ∧ (loaded .closed).txAnswers.headD .accepted = .closed) ∧
    (({ State.reset with txqTel := [beat], txAnswers := [.closed] } : State).txqTel = beat :: [] ∧
      ({ State.reset with txqTel := [beat], txAnswers := [.closed] } : State).txqNet = [] ∧
      ({ State.reset with txqTel := [beat], txAnswers := [.closed] } : State).txAnswers.headD .accepted = .closed) ∧
    ({ State.reset with rxClosed := true } : State).rxClosed = true ∧
    ({ State.reset with txClosed := true } : State).txClosed = true ∧
    ({ State.reset with txClosed := true } : State).stopped = false := by decide
/-- The parameters of State.reset bound no read. -/
theorem fits_reset (n : Nat) : Claims.fits State.reset.params n := ⟨fun _ h => (by cases h), fun _ h => (by cases h)⟩
theorem fits_at_bounds : Claims.fits { readMax := some 4, rxbufCap := some 260 } 4 :=
  ⟨fun _ h => (by cases h; decide), fun _ h => (by cases h; decide)⟩
def bounded : State := withParams { readMax := some 4, rxbufCap := some 260 } State.reset
theorem witness_RxTickRuns : State.reset.stopped = false ∧ State.reset.rxClosed = false ∧
    Claims.fits bounded.params beat.length ∧ beat ≠ [] ∧ bounded.params.readMax = some 4 ∧
    bounded.params.rxbufCap = some 260 ∧ bounded.rxbuf.length ≤ 256 := ⟨rfl, rfl, fits_at_bounds, by decide, rfl, rfl, by decide⟩
theorem witness_FrameRowsRun : State.reset.stopped = false ∧ State.reset.rxClosed = false ∧ State.reset.rxbuf = [] ∧
    (List.replicate 253 0x00#8).length ≤ 253 ∧ Claims.fits State.reset.params 257 ∧ FrameType.gps ≠ .rcChannelsPacked :=
  ⟨rfl, rfl, rfl, by decide +kernel, fits_reset _, by decide⟩
theorem witness_CorruptFrameCounted : Claims.fits State.reset.params ([0x84#8].length + 3) ∧
    State.reset.stopped = false ∧ State.reset.rxClosed = false ∧ State.reset.rxbuf = [] ∧
    (([] : List Byte).length = (0x00#8 : Byte).toNat - 1 ∧ (0x00#8 : Byte).toNat < 2) ∧
    (([] : List Byte).length = (0x01#8 : Byte).toNat - 1 ∧ (0x01#8 : Byte).toNat < 2) ∧
    ([0x84#8].length = (0x02#8 : Byte).toNat - 1 ∧
      crc8 (FrameType.heartbeat.code :: [0x84#8].dropLast) ≠ [0x84#8].getLastD 0x00#8) :=
  ⟨fits_reset _, by decide +kernel⟩
theorem witness_StreamOrder : State.reset.stopped = false ∧ State.reset.rxClosed = false ∧
    exec (.rxTick (.bytes beat)) State.reset = .next (State.reset.receive (.bytes beat)) ∧ beat ≠ [] ∧
    Claims.fits State.reset.params beat.length := ⟨rfl, rfl, rfl, by decide, fits_reset _⟩
theorem witness_ReadsCutIndependent : State.reset.stopped = false ∧ State.reset.rxClosed = false ∧
    Claims.fits State.reset.params (beat ++ beat).length ∧ Claims.fits bounded.params beat.length :=
  ⟨rfl, rfl, fits_reset _, fits_at_bounds⟩
theorem witness_DispatchRuns : State.reset.stopped = false ∧ State.reset.rxClosed = false ∧
    ({ State.reset with rxClosed := true } : State).rxClosed = true := ⟨rfl, rfl, rfl⟩
theorem witness_NetInRuns : State.reset.stopped = false ∧ (List.replicate 253 0x00#8).length ≤ 253 ∧
    253 < (List.replicate 254 0x00#8).length := by decide +kernel
theorem witness_TxWriteRuns :
    ((loaded .accepted).stopped = false ∧ (loaded .accepted).txClosed = false ∧ (loaded .accepted).txqNet = beat :: [] ∧
      ((loaded .accepted).txPicks.headD .net = .net ∨ (loaded .accepted).txqTel = []) ∧
      (loaded .accepted).txAnswers.headD .accepted = .accepted) ∧
    (loaded .closed).txAnswers.headD .accepted = .closed ∧
    (({ State.reset with txqTel := [beat] } : State).txqTel = beat :: [] ∧
      ({ State.reset with txqTel := [beat] } : State).txqNet = [] ∧
      ({ State.reset with txqTel := [beat] } : State).txAnswers.headD .accepted = .accepted) ∧
    ({ State.reset with txqTel := [beat], txAnswers := [.closed] } : State).txAnswers.headD .accepted = .closed := by decide
def reporting : State := withParams { statsReportMs := some 500 } { State.reset with now := 500, nextReport := 500 }
theorem witness_StatsReportRuns : (windowed 1000).stopped = false ∧ ((windowed 1000).stats.map (·.1)).Pairwise (· ≤ ·) ∧
    (∀ p, (windowed 1000).params.statsReportMs = some p → (windowed 1000).nextReport ≤ (windowed 1000).now) ∧
    (reporting.params.statsReportMs = some 500 ∧ reporting.nextReport ≤ reporting.now) :=
  ⟨by decide, by decide, fun _ h => (by cases h), by decide⟩
theorem witness_RegisterUnregisterRun : State.reset.stopped = false ∧ State.reset.halt = false ∧
    (1 : Addr) ∈ ({ State.reset with dest := [1, 2] } : State).dest ∧
    ({ State.reset with dest := [1, 2] } : State).dest.Pairwise (· < ·) ∧ (1 : Addr) ∉ State.reset.dest := by decide +kernel
/-- DEST at DEST_CAP: one address more has no effect; one below it, it joins. -/
def full : State := withParams { destCap := some 2 } { State.reset with dest := [1, 2] }
theorem witness_RegisterUnregisterRun_full : full.stopped = false ∧ full.halt = false ∧ full.params.destCap = some 2 ∧
    ¬full.dest.length < 2 ∧ exec (.register 3) full = .next full ∧ exec (.register 2) full = .next full ∧
    exec (.register 3) { full with dest := [1] } = .next { full with dest := [1, 3] } :=
  ⟨rfl, rfl, rfl, by decide, rfl, rfl, rfl⟩
theorem witness_ControlDatagrams : State.reset.stopped = false ∧ State.reset.halt = false ∧
    Claims.isBroadcaster (.register 1) = true ∧ ([0x02#8] : List Byte) ≠ [0x00#8] ∧ ([0x02#8] : List Byte) ≠ [0x01#8] ∧
    ([0x02#8] : List Byte) ≠ [0xFF#8] := by decide
def twoDest : State := { State.reset with dest := [1, 2], bcPlans := [⟨[2, 1], [2]⟩] }
theorem witness_BcastRuns : twoDest.stopped = false ∧ twoDest.halt = false ∧ twoDest.dest.Nodup ∧
    ([2, 1] : List Addr).Perm twoDest.dest ∧ twoDest.bcPlan = ⟨[2, 1], [2]⟩ := by decide +kernel
theorem witness_StopRuns : State.reset.stopped = false ∧ ({ State.reset with shutdown := true } : State).shutdown = true ∧
    ({ State.reset with rxClosed := true } : State).rxClosed = true ∧
    ({ State.reset with txClosed := true } : State).txClosed = true ∧
    (State.reset.shutdown = false ∧ State.reset.rxClosed = false ∧ State.reset.txClosed = false) := by decide
theorem witness_HeldOffChangesNothing :
    (({ queued (.present (.frame beat)) with stopped := true } : State).stopped = true ∧
      ({ queued (.present (.frame beat)) with stopped := true } : State).stimulus.head? ≠ some .reset ∧
      step { queued (.present (.frame beat)) with stopped := true } = .next { State.reset with stopped := true }) ∧
    (({ State.reset with halt := true } : State).halt = true ∧ Claims.isBroadcaster (.register 1) = true) ∧
    ({ State.reset with rxClosed := true } : State).rxClosed = true ∧ ({ State.reset with txClosed := true } : State).txClosed = true ∧
    (State.reset.txqNet = [] ∧ State.reset.txqTel = []) ∧ State.reset.now < State.reset.nextTick ∧
    ({ reporting with now := 499 } : State).params.statsReportMs = some 500 ∧
    ({ reporting with now := 499 } : State).now < ({ reporting with now := 499 } : State).nextReport :=
  ⟨⟨rfl, by decide, rfl⟩, ⟨rfl, rfl⟩, rfl, rfl, ⟨rfl, rfl⟩, by decide, rfl, by decide⟩
theorem witness_CanonicalFormKept : Memory.wf (queued (.present (.frame beat))) = true ∧
    ∃ t, step (queued (.present (.frame beat))) = .next t := 
  ⟨by decide +kernel, exec_next (.heartbeat 0x02#8 [0x83#8]) State.reset⟩
/-- Every flag set, a member of DEST, and a line that unregisters it. -/
def everything : State :=
  { State.reset with
    stimulus := [.present (.ctrl [0x01#8] 7)], dest := [7], rxClosed := true, txClosed := true, lastValid := true,
    chValid := true, altStartValid := true }
theorem witness_WholeMachineRules :
    everything.stimulus.head? ≠ some .reset ∧ (7 : Addr) ∈ everything.dest ∧ everything.rxClosed = true ∧
    everything.txClosed = true ∧ everything.lastValid = true ∧ everything.chValid = true ∧ everything.altStartValid = true ∧
    step everything = .next { everything with stimulus := [], dest := [] } ∧
    (∃ t, step { everything with halt := true } = .next t) ∧ (∃ t, step { everything with stopped := true } = .next t) :=
  ⟨by decide, by decide, rfl, rfl, rfl, rfl, rfl, rfl,
    exec_next (.unregister 7) { everything with halt := true, stimulus := [] },
    exec_next (.unregister 7) { everything with stopped := true, stimulus := [] }⟩
theorem witness_ErrorEvents : step (queued (.present (.event 0x22#8 (.bytes [])))) =
      .next { State.reset with out := [.errOut 10 0x22#8 .emptyDatagram] } ∧
    (.errOut 10 0x22#8 .emptyDatagram : Output) ∈ [Output.errOut 10 0x22#8 .emptyDatagram].drop State.reset.out.length :=
  ⟨rfl, by decide⟩
theorem witness_UnvaluedNeverRead : ∃ t, step (queued (.present (.frame beat))) = .next t :=
  exec_next (.heartbeat 0x02#8 [0x83#8]) State.reset
theorem witness_BroadcasterIndependent : Claims.isBroadcaster (.register 1) = true ∧
    exec (.register 1) State.reset = .next { State.reset with dest := [1] } ∧
    exec (.register 1) { State.reset with now := 5 } = .next { State.reset with now := 5, dest := [1] } ∧
    SameBroadcaster State.reset { State.reset with now := 5 } ∧
    Claims.isBroadcaster (.netIn [0x0B#8]) = false ∧ (∃ t, exec (.netIn [0x0B#8]) State.reset = .next t) :=
  ⟨rfl, rfl, rfl, ⟨rfl, rfl, rfl⟩, rfl, exec_next _ _⟩

end Sys2Proof.Tests
end

/-! ## Held off, and the rules of the whole machine

What stands here settles O55 and O57. Both go through `exec_effect` and `step_line`: the first says once what an instruction
can do, the second what a line of the schedule can do. -/

section

open Sys2Proof Sys2Proof.Machine Sys2Proof.Claims

namespace Sys2Proof.Machine

/-! ### An operation that is held off (60_exceptions.md R302) -/

/-- Every operation has the shape `.next (if c then its effect else s)`; with its precondition `c` false it is held off. -/
theorem held_off {c : Bool} {s u : State} (hc : c = false) :
    (.next (if c = true then u else s) : Host.Outcome State Fault Refusal) = .next s := by simp [hc]

theorem rxEnabled_of_closed {s : State} (h : s.rxClosed = true) : s.rxEnabled = false := by simp [State.rxEnabled, h]

theorem txEnabled_of_closed {s : State} (h : s.txClosed = true) : s.txEnabled = false := by simp [State.txEnabled, h]

theorem txEnabled_of_empty {s : State} (hn : s.txqNet = []) (ht : s.txqTel = []) : s.txEnabled = false := by
  simp [State.txEnabled, hn, ht]

theorem broadcasting_of_halt {s : State} (h : s.halt = true) : s.broadcasting = false := by simp [State.broadcasting, h]

theorem tickDue_of_early {s : State} (h : s.now < s.nextTick) : s.tickDue = false := by simp [State.tickDue, h]

theorem reportDue_of_early {s : State} {p : Nat} (hp : s.params.statsReportMs = some p) (h : s.now < s.nextReport) :
    s.reportDue = false := by simp [State.reportDue, hp, h]

/-- Every effect but the empty one has STOPPED = 0 among its preconditions (10_state.md R25). -/
theorem Effect.eq_or_running {i : Instr} {s t : State} (h : Effect i s t) : t = s ∨ s.stopped = false := by
  cases h with
  | none h => exact .inl h
  | emitted _ hs | received _ hs | dispatched _ _ hs | datagram _ hs | written hs | loaded _ hs | ticked hs | reported hs
  | registered _ _ hs | unregistered _ _ hs | quit hs | broadcast _ _ hs | stopped hs => exact .inr hs

theorem exec_of_stopped (i : Instr) {s : State} (h : s.stopped = true) : exec i s = .next s := by
  obtain ⟨t, ht⟩ := exec_next i s
  rcases (exec_effect i s t ht).eq_or_running with rfl | hs
  · exact ht
  · rw [h] at hs; cases hs

theorem exec_of_halt {i : Instr} {s : State} (h : s.halt = true) (hi : isBroadcaster i = true) : exec i s = .next s := by
  have hb := broadcasting_of_halt h
  unfold isBroadcaster at hi
  split at hi
  case h_1 | h_2 | h_3 | h_4 | h_5 => exact held_off hb
  case h_6 => cases hi

theorem exec_rxTick_of_closed (r : ReadResult) {s : State} (h : s.rxClosed = true) : exec (.rxTick r) s = .next s :=
  held_off (rxEnabled_of_closed h)

/-- After STOP a line other than reset is used up (log entry 25), and only a line NOW does more: it moves the clock, which is
the environment's. -/
theorem Line.of_stopped {s t : State} (h : Line s t) (hs : s.stopped = true) (hr : s.stimulus.head? ≠ some .reset) :
    t = { s with stimulus := t.stimulus, now := t.now } := by
  have running_absurd {P : Prop} (k : s.stopped = false) : P := by rw [hs] at k; cases k
  cases h with
  | idle _ ht => rw [ht]
  | presented p i rest _ _ ht =>
    rw [exec_of_stopped i (s := { s with stimulus := rest }) hs] at ht
    rw [← Host.Outcome.next.inj ht]
  | clock ms rest _ _ ht => rw [ht]
  | heldOff line rest _ _ ht => rw [ht]
  | reset rest h => simp [h] at hr
  | ticked _ _ k | shut _ _ k | signalled _ _ k | reported _ _ _ k | unanswered _ _ _ k => exact running_absurd k

theorem step_of_stopped {s t : State} (hs : s.stopped = true) (hr : s.stimulus.head? ≠ some .reset)
    (h : step s = .next t) : SameBlock s t ∧ t.out = s.out := by
  rw [(step_line s t h).of_stopped hs hr]
  simp [SameBlock]

/-! ### What only grows -/

/-- From `s` to `t` the clock, the outputs and the counter have not gone back, the flags and valid bits that were set still
are, and a latched ALT_START is the same. By its defaults, a proof for one operation names only the fields it writes. -/
structure Grown (s t : State) : Prop where
  params : t.params = s.params := by rfl
  out : s.out <+: t.out := by exact List.prefix_refl _
  now : s.now ≤ t.now := by exact le_rfl
  halt : s.halt = true → t.halt = true := by exact id
  rxClosed : s.rxClosed = true → t.rxClosed = true := by exact id
  txClosed : s.txClosed = true → t.txClosed = true := by exact id
  stopped : s.stopped = true → t.stopped = true := by exact id
  lastValid : s.lastValid = true → t.lastValid = true := by exact id
  chValid : s.chValid = true → t.chValid = true := by exact id
  crcErrCnt : s.crcErrCnt ≤ t.crcErrCnt := by exact le_rfl
  altStart : s.altStartValid = true → t.altStartValid = true ∧ t.altStart = s.altStart := by exact fun h => ⟨h, rfl⟩

/-- Besides, the tick schedule and the destination set are as they were: what all operations do but TEL_TICK and those of the
broadcaster. -/
structure Kept (s t : State) : Prop extends Grown s t where
  nextTick : t.nextTick = s.nextTick := by rfl
  dest : t.dest = s.dest := by rfl

/-- What every step but reset may do: the tick moves by nothing or by 100, and of the destinations only those that `gone`
allows may leave. -/
structure Allowed (gone : Addr → Prop) (s t : State) : Prop extends Grown s t where
  nextTick : t.nextTick = s.nextTick ∨ t.nextTick = s.nextTick + 100 := by exact .inl rfl
  dest : ∀ x ∈ s.dest, x ∉ t.dest → gone x := by exact fun _ h k => absurd h k

theorem Grown.trans {s t u : State} (h : Grown s t) (k : Grown t u) : Grown s u where
  params := k.params.trans h.params
  out := h.out.trans k.out
  now := h.now.trans k.now
  halt := k.halt ∘ h.halt
  rxClosed := k.rxClosed ∘ h.rxClosed
  txClosed := k.txClosed ∘ h.txClosed
  stopped := k.stopped ∘ h.stopped
  lastValid := k.lastValid ∘ h.lastValid
  chValid := k.chValid ∘ h.chValid
  crcErrCnt := h.crcErrCnt.trans k.crcErrCnt
  altStart v := ⟨(k.altStart (h.altStart v).1).1, (k.altStart (h.altStart v).1).2.trans (h.altStart v).2⟩

theorem Kept.refl (s : State) : Kept s s := {}

theorem Kept.trans {s t u : State} (h : Kept s t) (k : Kept t u) : Kept s u where
  toGrown := h.toGrown.trans k.toGrown
  nextTick := k.nextTick.trans h.nextTick
  dest := k.dest.trans h.dest

theorem Kept.allowed {gone : Addr → Prop} {s t : State} (h : Kept s t) : Allowed gone s t where
  toGrown := h.toGrown
  nextTick := .inl h.nextTick
  dest _ hx hn := absurd (h.dest ▸ hx) hn

theorem Kept.trans_allowed {gone : Addr → Prop} {s t u : State} (h : Kept s t) (k : Allowed gone t u) :
    Allowed gone s u where
  toGrown := h.toGrown.trans k.toGrown
  nextTick := h.nextTick ▸ k.nextTick
  dest := h.dest ▸ k.dest

theorem Allowed.mono {gone gone' : Addr → Prop} {s t : State} (h : Allowed gone s t) (hg : ∀ x, gone x → gone' x) :
    Allowed gone' s t where
  toGrown := h.toGrown
  nextTick := h.nextTick
  dest x hx hn := hg x (h.dest x hx hn)

theorem Emitted.kept {s t : State} (h : Emitted s t) : Kept s t := by
  obtain ⟨ho, ht⟩ := h
  rw [ht]
  exact { out := ho }

theorem Queued.kept {s t : State} (h : Queued s t) : Kept s t := by
  obtain ⟨ho, -, ht⟩ := h
  rw [ht]
  exact { out := ho }

theorem Sent.grown {s t : State} (h : Sent s t) : Grown s t := by
  obtain ⟨ho, ht⟩ := h
  rw [ht]
  exact { out := ho }

/-! ### Each operation keeps what it must -/

theorem acceptChannels_kept (s : State) (c : Vector (BitVec 16) 16) : Kept s (s.acceptChannels c) := by
  unfold State.acceptChannels
  split
  · exact (raise_emitted _ _ _).kept
  · exact { out := List.prefix_append .., chValid := fun _ => rfl }

theorem dispatchPacket_kept (s : State) (ty : Byte) (p : List Byte) : Kept s (s.dispatchPacket ty p) := by
  unfold State.dispatchPacket
  split
  · split
    · exact acceptChannels_kept _ _
    · exact (raise_emitted _ _ _).kept
  · exact .refl s

theorem sendNet_kept (s : State) (pkt : List Byte) : Kept s (s.sendNet pkt) := { out := List.prefix_append .. }

theorem forward_kept (s : State) (pkt : List Byte) : Kept s (s.forward pkt) := by
  unfold State.forward
  split
  · exact sendNet_kept _ _
  · exact (sendNet_kept _ _).trans (raise_emitted _ _ _).kept
  · exact sendNet_kept _ _

theorem rxResult_kept (s : State) (r : FrameResult) : Kept s (s.rxResult r) := by
  unfold State.rxResult
  split
  · simp only
    split
    · exact (forward_kept _ _).trans (dispatchPacket_kept _ _ _)
    · exact forward_kept _ _
  · exact { out := List.prefix_append .., crcErrCnt := Nat.le_succ _ }

theorem appendRead_kept (s : State) (r : List Byte) : Kept s (s.appendRead r) := by
  unfold State.appendRead
  simp only
  split
  · exact {}
  · exact {}

theorem scanRxbuf_kept (s : State) : Kept s s.scanRxbuf := by
  have trimmed : Kept s { s with rxbuf := s.rxbuf.drop (scan s.rxbuf).2 } := {}
  exact trimmed.trans (foldl_keeps Kept .refl (fun _ _ _ => .trans) _ _ (fun s r _ => rxResult_kept s r) _)

theorem unread_kept (s : State) (rest : List Byte) : Kept s (s.unread rest) := by
  rw [unread_eq]
  exact {}

theorem receive_kept (s : State) (r : ReadResult) : Kept s (s.receive r) := by
  cases r with
  | closed => exact { out := List.prefix_append .., rxClosed := fun _ => rfl }
  | bytes r => exact ((unread_kept _ _).trans (appendRead_kept _ _)).trans (scanRxbuf_kept _)

theorem netDatagram_kept (s : State) (d : List Byte) : Kept s (s.netDatagram d) := by
  unfold State.netDatagram
  split
  · exact (raise_emitted _ _ _).kept
  · split
    · exact {}
    · exact (raise_emitted _ _ _).kept

theorem dequeue_kept (s : State) (q : TxQueue) : Kept s (s.dequeue q) := by
  cases q with
  | net => exact {}
  | tel => exact {}

theorem writeFrame_kept (s : State) (f : List Byte) : Kept s (s.writeFrame f) := { out := List.prefix_append .. }

theorem writeHead_kept (s : State) : Kept s s.writeHead := by
  unfold State.writeHead
  split
  · exact .refl s
  · rename_i f _
    have written := (dequeue_kept s s.txChoice).trans (writeFrame_kept _ f)
    simp only
    split
    · exact written
    · exact written.trans { out := List.prefix_append .., txClosed := fun _ => rfl }

/-- ALT_START is latched once: a record loaded later leaves it (10_state.md R30). -/
theorem loadRecord_kept (s : State) (rec : TelemetryRecord) : Kept s (s.loadRecord rec) := by
  unfold State.loadRecord
  simp only
  split
  · split
    · exact { lastValid := fun _ => rfl }
    · rename_i hv
      exact { lastValid := fun _ => rfl, altStart := fun h => absurd h hv }
  all_goals exact { lastValid := fun _ => rfl }

theorem reportStats_kept (s : State) : Kept s s.reportStats := { out := List.prefix_append .. }

theorem tick_allowed {gone : Addr → Prop} (s : State) : Allowed gone s s.tick := by
  have moved : Grown s { s with nextTick := s.nextTick + 100 } := {}
  have queued := (tick_queued s).kept
  exact
    { toGrown := moved.trans queued.toGrown
      nextTick := .inr queued.nextTick
      dest := fun x hx hn => absurd (queued.dest ▸ hx) hn }

/-! ### The destination set (44_router_bridge.md R272, R273, R278) -/

theorem registerDest_allowed {gone : Addr → Prop} (s : State) (a : Addr) : Allowed gone s (s.registerDest a) := by
  unfold State.registerDest
  split
  · exact { dest := fun x hx hn => absurd ((mem_destInsert a x s.dest).mpr (.inr hx)) hn }
  · exact (Kept.refl s).allowed

theorem unregisterDest_allowed (s : State) (a : Addr) : Allowed (· = a) s (s.unregisterDest a) where
  dest x hx hn := by_contra fun hne => hn ((mem_destErase a x s.dest).mpr ⟨hx, hne⟩)

theorem broadcast_allowed (s : State) (d : List Byte) : Allowed (· ∈ s.bcPlan.failed) s (s.broadcast d) := by
  have drawn : Grown s { s with bcPlans := s.bcPlans.tail } := {}
  have sent := broadcast_sent s d
  refine { toGrown := drawn.trans sent.grown, nextTick := .inl (by rw [sent.2]), dest := fun x hx hn => ?_ }
  rw [State.broadcast, bcSends_dest, List.mem_filter] at hn
  have failed : x ∈ walkOrder s.bcPlan s.dest ∧ x ∈ s.bcPlan.failed := by simpa using not_and.mp hn hx
  exact failed.2

/-! ### Every instruction and every line -/

/-- The instruction may take `x` out of DEST: UNREGISTER from `x`, or a BCAST whose send to `x` fails. -/
def Removes (i : Instr) (s : State) (x : Addr) : Prop :=
  i = .unregister x ∨ i = .ctlMsg [0x01#8] x ∨ ∃ d, i = .bcast d ∧ x ∈ s.bcPlan.failed

/-- The next line of the schedule presents an instruction that may take `x` out of DEST. -/
def LineRemoves (s : State) (x : Addr) : Prop :=
  ∃ p, s.stimulus.head? = some (.present p) ∧
    (decode p = .ok (.unregister x) ∨ decode p = .ok (.ctlMsg [0x01#8] x) ∨
      ∃ d, decode p = .ok (.bcast d) ∧ x ∈ s.bcPlan.failed)

theorem Removes.line {i : Instr} {s : State} {p : Presented} {rest : List Stimulus} {x : Addr} (h : Removes i s x)
    (hp : s.stimulus = .present p :: rest) (hd : decode p = .ok i) : LineRemoves s x := by
  refine ⟨p, by rw [hp]; rfl, ?_⟩
  rw [hd]
  rcases h with rfl | rfl | ⟨d, rfl, hf⟩
  · exact .inl rfl
  · exact .inr (.inl rfl)
  · exact .inr (.inr ⟨d, rfl, hf⟩)

theorem not_removes_telTick (s : State) (x : Addr) : ¬Removes .telTick s x := by simp [Removes]

theorem not_removes_statsReport (s : State) (x : Addr) : ¬Removes .statsReport s x := by simp [Removes]

theorem not_removes_rxTick (r : ReadResult) (s : State) (x : Addr) : ¬Removes (.rxTick r) s x := by simp [Removes]

theorem Effect.allowed {i : Instr} {s t : State} (h : Effect i s t) : Allowed (Removes i s) s t := by
  cases h with
  | none h => subst h; exact (Kept.refl t).allowed
  | emitted h => exact h.kept.allowed
  | received r _ _ h => subst h; exact (receive_kept s r).allowed
  | dispatched ty p _ _ h => subst h; exact (dispatchPacket_kept s ty p).allowed
  | datagram d _ h => subst h; exact (netDatagram_kept s d).allowed
  | written _ _ h => subst h; exact (writeHead_kept s).allowed
  | loaded rec _ h => subst h; exact (loadRecord_kept s rec).allowed
  | ticked _ _ h => subst h; exact tick_allowed s
  | reported _ h => subst h; exact (reportStats_kept s).allowed
  | registered a _ _ _ h => subst h; exact registerDest_allowed s a
  | unregistered a hi _ _ h =>
    subst h
    refine (unregisterDest_allowed s a).mono fun x hx => ?_
    subst hx
    exact hi.imp_right .inl
  | quit _ _ h => subst h; exact { halt := fun _ => rfl }
  | broadcast d hi _ _ h =>
    subst h
    exact (broadcast_allowed s d).mono fun x hx => .inr (.inr ⟨d, hi, hx⟩)
  | stopped _ h => subst h; exact { stopped := fun _ => rfl }

theorem exec_allowed {i : Instr} {s t : State} (h : exec i s = .next t) : Allowed (Removes i s) s t :=
  (exec_effect i s t h).allowed

/-- Taking a line off the schedule, with time passed. -/
theorem taken_kept (s : State) (rest : List Stimulus) {ms : Nat} (h : s.now ≤ ms) :
    Kept s { s with stimulus := rest, now := ms } := { now := h }

theorem Line.allowed {s t : State} (h : Line s t) (hr : s.stimulus.head? ≠ some .reset) :
    Allowed (LineRemoves s) s t := by
  cases h with
  | idle _ ht => subst ht; exact (Kept.refl t).allowed
  | presented p i rest hp hd ht =>
    exact (taken_kept s rest le_rfl).trans_allowed ((exec_allowed ht).mono fun x hx => Removes.line hx hp hd)
  | ticked rest _ _ ht =>
    exact (taken_kept s rest (le_max_left ..)).trans_allowed
      ((exec_allowed ht).mono fun x hx => absurd hx (not_removes_telTick _ x))
  | clock ms rest _ hn ht => subst ht; exact (taken_kept s rest hn).allowed
  | shut rest _ _ ht => subst ht; exact { stopped := fun _ => rfl }
  | signalled rest _ _ ht => subst ht; exact {}
  | reported rest ms _ _ hn ht =>
    exact (taken_kept s rest hn).trans_allowed
      ((exec_allowed ht).mono fun x hx => absurd hx (not_removes_statsReport _ x))
  | unanswered rest ms _ _ hn ht =>
    exact (taken_kept s rest hn).trans_allowed
      ((exec_allowed ht).mono fun x hx => absurd hx (not_removes_rxTick _ _ x))
  | heldOff line rest _ _ ht => subst ht; exact {}
  | reset rest h => simp [h] at hr

/-- What not even a reset event does (70_reset_and_hazards.md R341, 60_exceptions.md R325). -/
theorem Line.environment_kept {s t : State} (h : Line s t) : t.params = s.params ∧ s.out <+: t.out ∧ s.now ≤ t.now := by
  by_cases hr : s.stimulus.head? = some .reset
  · cases h with
    | reset rest _ ht => subst ht; exact ⟨rfl, List.prefix_refl _, le_rfl⟩
    | idle h | presented _ _ _ h | ticked _ h | clock _ _ h | shut _ h | signalled _ h | reported _ _ h
    | unanswered _ _ h => simp [h] at hr
    | heldOff line rest h _ ht => subst ht; exact ⟨rfl, List.prefix_refl _, le_rfl⟩
  · have allowed := h.allowed hr
    exact ⟨allowed.params, allowed.out, allowed.now⟩

/-! ### The statements -/

/-- Settles O55: after STOP by `exec_effect`, whose every effect needs STOPPED = 0; the other clauses by the precondition that
fails. -/
theorem heldOffChangesNothing : Obligations.HeldOffChangesNothing := by
  refine ⟨fun i _ h => exec_of_stopped i h, fun _ _ => step_of_stopped, fun _ _ => exec_of_halt, ?_, ?_, ?_, ?_, ?_, ?_⟩
  · intro t len rest s h
    rw [exec_ofFrame]
    exact exec_rxTick_of_closed _ h
  · exact fun r t p s h => ⟨exec_rxTick_of_closed r h, held_off (rxEnabled_of_closed h)⟩
  · exact fun s h => held_off (txEnabled_of_closed h)
  · exact fun s hn ht => held_off (txEnabled_of_empty hn ht)
  · exact fun s h => held_off (tickDue_of_early h)
  · exact fun s p hp h => held_off (reportDue_of_early hp h)

/-- Settles O57, line by line of the schedule. -/
theorem wholeMachineRules : Obligations.WholeMachineRules := by
  intro s t h
  have line := step_line s t h
  refine ⟨line.environment_kept, fun hr => ?_⟩
  obtain ⟨⟨-, -, -, halt, rxClosed, txClosed, stopped, lastValid, chValid, crcErrCnt, altStart⟩, nextTick, dest⟩ :=
    line.allowed hr
  exact ⟨halt, rxClosed, txClosed, stopped, lastValid, chValid, crcErrCnt, altStart, nextTick, dest⟩

end Sys2Proof.Machine
end

/-! ## The memory of the block: reads in order, reads cut anywhere, and two parts that share no state

What stands here settles O45, O46 and O60. A receive tick is compared with `State.absorb`, the same read without its entry in
the statistics window; `SkipsWindow` and `Aside` say once what the receive path does not read. -/

section

open Sys2Proof Sys2Proof.Machine Sys2Proof.Claims

namespace Sys2Proof.Machine

/-! ### SCAN of bytes that arrive in two parts (41_frame_codec.md R161) -/

theorem scanLoop_enough {n : Nat} {buf : List Byte} (h : buf.length < n) :
    scanLoop n buf = ((scan buf).1, scanLeft buf) :=
  scanLoop_fuel n (buf.length + 1) buf h (Nat.lt_succ_self _)

theorem scanLoop_garbage (n : Nat) {g : List Byte} (rest : List Byte) (hg : Config.sync ∉ g) :
    scanLoop (n + 1) (g ++ rest) = scanLoop (n + 1) rest := by
  conv_lhs => rw [scanLoop, dropWhile_garbage g rest hg]
  conv_rhs => rw [scanLoop]

theorem scan_garbage {g : List Byte} (rest : List Byte) (hg : Config.sync ∉ g) :
    (scan (g ++ rest)).1 = (scan rest).1 ∧ scanLeft (g ++ rest) = scanLeft rest := by
  have pass := scanLoop_garbage (g ++ rest).length rest hg
  rw [scanLoop_enough (Nat.lt_succ_self _), scanLoop_enough (by rw [List.length_append]; omega)] at pass
  exact Prod.mk.inj pass

theorem scan_candidate {g : List Byte} (len : Byte) (body after : List Byte) (hg : Config.sync ∉ g)
    (hb : body.length = len.toNat) (hne : body ++ after ≠ []) :
    (scan (g ++ Config.sync :: len :: (body ++ after))).1 = judge (Config.sync :: len :: body) :: (scan after).1 ∧
      scanLeft (g ++ Config.sync :: len :: (body ++ after)) = scanLeft after := by
  have pass := scanLoop_cand (g ++ Config.sync :: len :: (body ++ after)).length g len body after hg hb hne
  rw [scanLoop_enough (Nat.lt_succ_self _),
    scanLoop_enough (buf := after) (by simp only [List.length_append, List.length_cons]; omega)] at pass
  exact Prod.mk.inj pass

/-- A scan that ends in its first pass finds nothing, and leaves all but garbage. Else it judges a candidate. -/
theorem scan_first_pass (buf : List Byte) :
    (∃ g, Config.sync ∉ g ∧ buf = g ++ scanLeft buf ∧ (scan buf).1 = []) ∨
    ∃ g len body after, Config.sync ∉ g ∧ body.length = len.toNat ∧ body ++ after ≠ [] ∧
      buf = g ++ Config.sync :: len :: (body ++ after) := by
  have ended {g left : List Byte} (hg : Config.sync ∉ g) (hbuf : buf = g ++ left)
      (pass : scanLoop (buf.length + 1) buf = ([], left)) :
      ∃ g, Config.sync ∉ g ∧ buf = g ++ scanLeft buf ∧ (scan buf).1 = [] :=
    ⟨g, hg, by rw [scanLeft, pass]; exact hbuf, by rw [scan, pass]⟩
  rcases scan_cases buf with hg | ⟨g, tail, hg, ht, h⟩ | ⟨g, len, more, hg, hm, h⟩ | candidate
  · exact .inl (ended hg (List.append_nil buf).symm (scanLoop_none _ _ hg))
  · exact .inl (ended hg h (by rw [h]; exact scanLoop_short _ _ _ hg ht))
  · exact .inl (ended hg h (by rw [h]; exact scanLoop_wait _ _ _ _ hg hm))
  · exact .inr candidate

/-- Scanning what arrived first, and then its leftover with the rest, finds what one scan of the whole finds. -/
theorem scan_append (a b : List Byte) :
    (scan (a ++ b)).1 = (scan a).1 ++ (scan (scanLeft a ++ b)).1 ∧ scanLeft (a ++ b) = scanLeft (scanLeft a ++ b) := by
  rcases scan_first_pass a with ⟨g, hg, ha, hnone⟩ | ⟨g, len, body, after, hg, hb, hne, ha⟩
  · have skipped := scan_garbage (scanLeft a ++ b) hg
    rw [← List.append_assoc, ← ha] at skipped
    rw [hnone]
    exact skipped
  · have shorter := scan_append after b
    subst ha
    obtain ⟨found, left⟩ := scan_candidate len body after hg hb hne
    have whole := scan_candidate len body (after ++ b) hg hb (by simp_all)
    have e : g ++ Config.sync :: len :: (body ++ after) ++ b = g ++ Config.sync :: len :: (body ++ (after ++ b)) := by simp
    rw [e, found, left, whole.1, whole.2, shorter.1, shorter.2]
    exact ⟨rfl, rfl⟩
termination_by a.length
decreasing_by subst ha; simp only [List.length_append, List.length_cons]; omega

/-! ### What forwarding and DISPATCH do not read (44_router_bridge.md R253, R255) -/

/-- `f` sets only elements that forwarding and DISPATCH neither read nor write. -/
structure Aside (f : State → State) : Prop where
  netAnswer : ∀ s, (f s).netAnswer = s.netAnswer := by intros; rfl
  axisMax : ∀ s, (f s).params.axisMax = s.params.axisMax := by intros; rfl
  ch : ∀ s, (f s).ch = s.ch := by intros; rfl
  chValid : ∀ s, (f s).chValid = s.chValid := by intros; rfl
  emit : ∀ s o, (f s).emit o = f (s.emit o) := by intros; rfl
  sendNet : ∀ s pkt, (f s).sendNet pkt = f (s.sendNet pkt) := by intros; rfl
  setCh : ∀ s c, { f s with ch := c, chValid := true } = f { s with ch := c, chValid := true } := by intros; rfl

section
variable {f : State → State} (h : Aside f)
include h

theorem Aside.raise (s : State) (op : OpName) (c : Condition) : (f s).raise op c = f (s.raise op c) := h.emit s _

theorem Aside.forward (s : State) (pkt : List Byte) : (f s).forward pkt = f (s.forward pkt) := by
  unfold State.forward
  rw [h.netAnswer]
  cases s.netAnswer with
  | sent => exact h.sendNet s pkt
  | unreachable => exact (congrArg (State.raise · _ _) (h.sendNet s pkt)).trans (h.raise _ _ _)
  | notConnected => exact h.sendNet s pkt

theorem Aside.acceptChannels (s : State) (c : Vector (BitVec 16) 16) : (f s).acceptChannels c = f (s.acceptChannels c) := by
  unfold State.acceptChannels
  rw [h.axisMax, h.ch, h.chValid]
  cases firstOver s.params.axisMax (c.toList.map (·.toNat)) with
  | some e => exact h.raise s _ _
  | none =>
    simp only [h.emit]
    exact h.setCh _ _

theorem Aside.dispatchPacket (s : State) (ty : Byte) (p : List Byte) :
    (f s).dispatchPacket ty p = f (s.dispatchPacket ty p) := by
  unfold State.dispatchPacket
  split
  · split
    · exact h.acceptChannels s _
    · exact h.raise s _ _
  · rfl

theorem Aside.rxResult_ok (s : State) (frame : List Byte) : (f s).rxResult (.ok frame) = f (s.rxResult (.ok frame)) := by
  unfold State.rxResult
  simp only [h.forward]
  split
  · exact h.dispatchPacket _ _ _
  · rfl

/-- So with the results of a scan, where `f` does not set what a CrcError counts. -/
theorem Aside.rxResults (herr : ∀ s, (f s).rxResult .crcError = f (s.rxResult .crcError)) (s : State)
    (l : List FrameResult) : l.foldl State.rxResult (f s) = f (l.foldl State.rxResult s) :=
  List.foldl_hom f fun s r => match r with
    | .ok frame => h.rxResult_ok s frame
    | .crcError => herr s

end

/-! ### A read without the statistics window -/

/-- What a read of the bytes `r` does, but for its entry in the window. -/
def State.absorb (s : State) (r : List Byte) : State :=
  { (scan (s.rxbuf ++ r)).1.foldl State.rxResult s with rxbuf := scanLeft (s.rxbuf ++ r) }

theorem rxResults_setRxbuf (buf : List Byte) (s : State) (l : List FrameResult) :
    l.foldl State.rxResult { s with rxbuf := buf } = { l.foldl State.rxResult s with rxbuf := buf } :=
  Aside.rxResults (f := fun s => { s with rxbuf := buf }) {} (fun _ => rfl) s l

/-- 41_frame_codec.md R161 at the receive buffer: where the stream is cut does not show. -/
theorem absorb_append (s : State) (a b : List Byte) : (s.absorb a).absorb b = s.absorb (a ++ b) := by
  obtain ⟨found, left⟩ := scan_append (s.rxbuf ++ a) b
  rw [List.append_assoc] at found left
  unfold State.absorb
  simp only [rxResults_setRxbuf, found, left, List.foldl_append]

/-- `s` with this window, and with these parameters of a read. -/
def State.setWindow (w : List (Nat × StatEntry)) (readMax rxbufCap : Option Nat) (s : State) : State :=
  { s with stats := w, params := { s.params with readMax := readMax, rxbufCap := rxbufCap } }

/-- `s` and `t` agree in all but the statistics window and the two parameters of a read. -/
def SkipsWindow (s t : State) : Prop := ∃ w m c, t = s.setWindow w m c

theorem SkipsWindow.refl (s : State) : SkipsWindow s s := ⟨s.stats, s.params.readMax, s.params.rxbufCap, rfl⟩

theorem SkipsWindow.symm {s t : State} (h : SkipsWindow s t) : SkipsWindow t s := by
  obtain ⟨w, m, c, rfl⟩ := h
  exact ⟨s.stats, s.params.readMax, s.params.rxbufCap, rfl⟩

theorem SkipsWindow.trans {s t u : State} (h : SkipsWindow s t) (k : SkipsWindow t u) : SkipsWindow s u := by
  obtain ⟨w, m, c, rfl⟩ := h
  obtain ⟨w', m', c', rfl⟩ := k
  exact ⟨w', m', c', rfl⟩

theorem aside_setWindow (w : List (Nat × StatEntry)) (m c : Option Nat) : Aside (State.setWindow w m c) := {}

theorem SkipsWindow.rxResult {s t : State} (h : SkipsWindow s t) (r : FrameResult) :
    SkipsWindow (s.rxResult r) (t.rxResult r) := by
  obtain ⟨w, m, c, rfl⟩ := h
  cases r with
  | ok frame => exact ⟨w, m, c, (aside_setWindow w m c).rxResult_ok s frame⟩
  | crcError => exact ⟨_, m, c, rfl⟩

theorem SkipsWindow.rxResults {s t : State} (h : SkipsWindow s t) (l : List FrameResult) :
    SkipsWindow (l.foldl State.rxResult s) (l.foldl State.rxResult t) :=
  List.foldl_rel h fun r _ _ _ k => k.rxResult r

theorem SkipsWindow.setRxbuf {s t : State} (h : SkipsWindow s t) (buf : List Byte) :
    SkipsWindow { s with rxbuf := buf } { t with rxbuf := buf } := by
  obtain ⟨w, m, c, rfl⟩ := h
  exact ⟨w, m, c, rfl⟩

theorem SkipsWindow.absorb {s t : State} (h : SkipsWindow s t) (r : List Byte) :
    SkipsWindow (s.absorb r) (t.absorb r) := by
  have same : t.rxbuf = s.rxbuf := by obtain ⟨w, m, c, rfl⟩ := h; rfl
  unfold State.absorb
  rw [same]
  exact (h.rxResults _).setRxbuf _

theorem appendRead_eq (s : State) (r : List Byte) :
    s.appendRead r = { s with
      rxbuf := s.rxbuf ++ r
      stats := if 0 < r.length then evict s.now (s.stats ++ [(s.now, .bytes r.length)]) else s.stats } := by
  unfold State.appendRead
  simp only
  split
  · rfl
  · rfl

/-- RX_TICK of bytes does what `State.absorb` does with those it reads, and enters them in the window. -/
theorem absorb_skipsWindow_scanRxbuf (s : State) (r : List Byte) :
    SkipsWindow (s.absorb r) (s.appendRead r).scanRxbuf := by
  rw [appendRead_eq]
  unfold State.scanRxbuf State.absorb
  simp only [drop_scan]
  rw [← rxResults_setRxbuf]
  exact SkipsWindow.rxResults ⟨_, s.params.readMax, s.params.rxbufCap, rfl⟩ _

/-! ### What the results of a scan send and count (20_memory.md R73, R26) -/

theorem packetsSent_append (out more : List Output) : packetsSent (out ++ more) = packetsSent out ++ packetsSent more :=
  List.filterMap_append

theorem packetsSent_raise (s : State) (op : OpName) (c : Condition) : packetsSent (s.raise op c).out = packetsSent s.out := by
  simp [State.raise, State.emit, packetsSent]

theorem packetsSent_sendNet (s : State) (pkt : List Byte) :
    packetsSent (s.sendNet pkt).out = packetsSent s.out ++ [pkt] := packetsSent_append _ _

theorem packetsSent_forward (s : State) (pkt : List Byte) :
    packetsSent (s.forward pkt).out = packetsSent s.out ++ [pkt] := by
  unfold State.forward
  split
  · exact packetsSent_sendNet s pkt
  · rw [packetsSent_raise, packetsSent_sendNet]
  · exact packetsSent_sendNet s pkt

theorem packetsSent_acceptChannels (s : State) (c : Vector (BitVec 16) 16) :
    packetsSent (s.acceptChannels c).out = packetsSent s.out := by
  unfold State.acceptChannels
  split
  · exact packetsSent_raise _ _ _
  · simp [State.emit, packetsSent]

theorem packetsSent_dispatchPacket (s : State) (ty : Byte) (p : List Byte) :
    packetsSent (s.dispatchPacket ty p).out = packetsSent s.out := by
  unfold State.dispatchPacket
  split
  · split
    · exact packetsSent_acceptChannels _ _
    · exact packetsSent_raise _ _ _
  · rfl

theorem packetsSent_rxResult (s : State) (r : FrameResult) :
    packetsSent (s.rxResult r).out = packetsSent s.out ++ (packetOf r).toList := by
  cases r with
  | ok frame =>
    have forwarded := packetsSent_forward s (inner frame)
    unfold State.rxResult
    simp only
    split
    · rw [packetsSent_dispatchPacket, forwarded]; rfl
    · rw [forwarded]; rfl
  | crcError => exact (packetsSent_raise _ _ _).trans (List.append_nil _).symm

theorem packetsSent_rxResults (s : State) (l : List FrameResult) :
    packetsSent (l.foldl State.rxResult s).out = packetsSent s.out ++ l.filterMap packetOf := by
  induction l generalizing s with
  | nil => exact (List.append_nil _).symm
  | cons r l ih =>
    rw [List.foldl_cons, ih, packetsSent_rxResult, List.append_assoc, List.filterMap_cons]
    cases packetOf r with
    | none => rfl
    | some pkt => rfl

/-- A valid frame is not counted: CRC_ERR_CNT is aside of forwarding and DISPATCH. -/
theorem rxResult_ok_crcErrCnt (s : State) (frame : List Byte) : (s.rxResult (.ok frame)).crcErrCnt = s.crcErrCnt := by
  have aside : Aside fun t => { t with crcErrCnt := s.crcErrCnt } := {}
  have counter := congrArg State.crcErrCnt (aside.rxResult_ok s frame)
  exact counter

theorem rxResults_crcErrCnt (s : State) (l : List FrameResult) :
    (l.foldl State.rxResult s).crcErrCnt = s.crcErrCnt + l.count .crcError := by
  induction l generalizing s with
  | nil => rfl
  | cons r l ih =>
    rw [List.foldl_cons, ih]
    cases r with
    | ok frame => rw [rxResult_ok_crcErrCnt, List.count_cons_of_ne (by simp)]
    | crcError =>
      rw [List.count_cons_self, Nat.add_comm _ 1, ← Nat.add_assoc]
      rfl

/-! ### The receive tick -/

theorem readSize_of_fits {P : Params} {n : Nat} (h : fits P n) : readSize P n = n := readSize_fits P n h.1 h.2

theorem fits_of_le {P : Params} {m n : Nat} (h : fits P n) (hm : m ≤ n) : fits P m :=
  ⟨fun k hk => hm.trans (h.1 k hk), fun c hc => (Nat.add_le_add_left hm 256).trans (h.2 c hc)⟩

theorem fits_unbounded {P : Params} (hm : P.readMax = none) (hc : P.rxbufCap = none) (n : Nat) : fits P n :=
  ⟨by simp [hm], by simp [hc]⟩

theorem receive_params (s : State) (r : ReadResult) : (s.receive r).params = s.params := (receive_kept s r).params

theorem receive_stopped (s : State) (r : List Byte) : (s.receive (.bytes r)).stopped = s.stopped := by
  rw [(receive_bytes s r).2]
  exact State.unread_stopped _ _

theorem receive_rxClosed (s : State) (r : List Byte) : (s.receive (.bytes r)).rxClosed = s.rxClosed := by
  rw [(receive_bytes s r).2]
  exact State.unread_rxClosed _ _

/-- Bytes that one read takes whole. -/
theorem absorb_skipsWindow_receive {s : State} {r : List Byte} (h : fits s.params r.length) :
    SkipsWindow (s.absorb r) (s.receive (.bytes r)) := by
  rw [receive_whole s r (readSize_of_fits h)]
  exact absorb_skipsWindow_scanRxbuf s r

/-- Two reads, each of which takes its bytes whole. -/
theorem absorb_skipsWindow_two_reads {s : State} {a b : List Byte} (ha : fits s.params a.length)
    (hb : fits s.params b.length) :
    SkipsWindow (s.absorb (a ++ b)) ((s.receive (.bytes a)).receive (.bytes b)) := by
  have hb' : fits (s.receive (.bytes a)).params b.length := by rwa [receive_params]
  rw [← absorb_append]
  exact ((absorb_skipsWindow_receive ha).absorb b).trans (absorb_skipsWindow_receive hb')

theorem SkipsWindow.eq_setWindow {s t : State} (h : SkipsWindow s t) :
    t = s.setWindow t.stats t.params.readMax t.params.rxbufCap := by
  obtain ⟨w, m, c, rfl⟩ := h
  rfl

/-- Settles O45: the read does what `State.absorb` does, whose results are sent and counted one after another. -/
theorem streamOrder : Obligations.StreamOrder := by
  intro s t r hs hc h
  rw [exec_rxTick hs hc] at h
  obtain rfl := Host.Outcome.next.inj h
  obtain ⟨-, some_read, -⟩ := readSize_spec s.params r.length
  refine ⟨r.take (readSize s.params r.length), List.take_prefix _ _, fun hr => ?_, fun hf => ?_, ?_⟩
  · have waiting := List.length_pos_iff.mpr hr
    have read := some_read waiting
    exact List.ne_nil_of_length_pos (by rw [List.length_take]; omega)
  · rw [readSize_of_fits hf, List.take_length]
  · generalize hread : r.take (readSize s.params r.length) = read
    have absorbed : SkipsWindow ((s.unread (r.drop (readSize s.params r.length))).absorb read) (s.receive (.bytes r)) := by
      rw [← hread]
      exact absorb_skipsWindow_scanRxbuf _ _
    rw [absorbed.eq_setWindow]
    refine ⟨(packetsSent_rxResults _ _).trans ?_, (rxResults_crcErrCnt _ _).trans ?_, ?_⟩
    · rw [State.unread_out, State.unread_rxbuf]
    · rw [State.unread_crcErrCnt, State.unread_rxbuf]
    · simp [State.setWindow, State.absorb]

/-- Settles O46: both realisations do what `State.absorb` does with `a ++ b`, but for the window. -/
theorem readsCutIndependent : Obligations.ReadsCutIndependent := by
  intro s a b hs hc
  have second := exec_rxTick ((receive_stopped s a).trans hs) ((receive_rxClosed s a).trans hc) (.bytes b)
  refine ⟨fun hf => ⟨_, _, _, exec_rxTick hs hc _, second, exec_rxTick hs hc _, ?_⟩,
    fun ha hb => ⟨_, _, _, exec_rxTick hs hc _, second, exec_rxTick (s := s.setWindow s.stats none none) hs hc _, ?_⟩⟩
  · have ha : fits s.params a.length := fits_of_le hf (by simp)
    have hb : fits s.params b.length := fits_of_le hf (by simp)
    have two := absorb_skipsWindow_two_reads ha hb
    have differ := ((absorb_skipsWindow_receive hf).symm.trans two).eq_setWindow
    rw [receive_params, receive_params] at differ
    refine differ.trans ?_
    rw [State.setWindow, receive_params]
  · have unbounded : SkipsWindow s (s.setWindow s.stats none none) := ⟨_, none, none, rfl⟩
    have one := (unbounded.absorb (a ++ b)).trans
      (absorb_skipsWindow_receive (fits_unbounded rfl rfl _))
    have differ := (one.symm.trans (absorb_skipsWindow_two_reads ha hb)).eq_setWindow
    rw [receive_params, receive_params] at differ
    refine differ.trans ?_
    rw [State.setWindow, receive_params]
    rfl

/-! ### The broadcaster's part of the state (44_router_bridge.md, opening) -/

/-- `s` with this destination set, this HALT and these draws. -/
def State.setBroadcaster (d : List Addr) (h : Bool) (p : List BcPlan) (s : State) : State :=
  { s with dest := d, halt := h, bcPlans := p }

section
variable {d : List Addr} {h : Bool} {p : List BcPlan}

theorem answerPayload_setBroadcaster (s : State) (op : OpName) (r : Except FieldError (List Byte)) :
    (s.setBroadcaster d h p).answerPayload op r = (s.answerPayload op r).setBroadcaster d h p := by
  cases r with
  | ok payload => rfl
  | error e => rfl

theorem rxResults_setBroadcaster (s : State) (l : List FrameResult) :
    l.foldl State.rxResult (s.setBroadcaster d h p) = (l.foldl State.rxResult s).setBroadcaster d h p :=
  Aside.rxResults {} (fun _ => rfl) s l

theorem scanRxbuf_setBroadcaster (s : State) :
    (s.setBroadcaster d h p).scanRxbuf = s.scanRxbuf.setBroadcaster d h p :=
  rxResults_setBroadcaster { s with rxbuf := s.rxbuf.drop (scan s.rxbuf).2 } _

theorem appendRead_setBroadcaster (s : State) (r : List Byte) :
    (s.setBroadcaster d h p).appendRead r = (s.appendRead r).setBroadcaster d h p := by
  rw [appendRead_eq, appendRead_eq]
  rfl

theorem unread_setBroadcaster (s : State) (rest : List Byte) :
    (s.setBroadcaster d h p).unread rest = (s.unread rest).setBroadcaster d h p := by
  rw [unread_eq, unread_eq]
  rfl

theorem receive_setBroadcaster (s : State) (r : ReadResult) :
    (s.setBroadcaster d h p).receive r = (s.receive r).setBroadcaster d h p := by
  cases r with
  | closed => rfl
  | bytes r =>
    change (((s.setBroadcaster d h p).unread _).appendRead _).scanRxbuf = _
    rw [unread_setBroadcaster, appendRead_setBroadcaster, scanRxbuf_setBroadcaster]
    rfl

theorem dispatchPacket_setBroadcaster (s : State) (ty : Byte) (payload : List Byte) :
    (s.setBroadcaster d h p).dispatchPacket ty payload = (s.dispatchPacket ty payload).setBroadcaster d h p :=
  Aside.dispatchPacket {} s ty payload

theorem netDatagram_setBroadcaster (s : State) (datagram : List Byte) :
    (s.setBroadcaster d h p).netDatagram datagram = (s.netDatagram datagram).setBroadcaster d h p := by
  cases datagram with
  | nil => rfl
  | cons ty payload =>
    unfold State.netDatagram
    simp only
    cases build ty payload with
    | ok f => rfl
    | error n => rfl

theorem writeHead_setBroadcaster (s : State) :
    (s.setBroadcaster d h p).writeHead = s.writeHead.setBroadcaster d h p := by
  have choice : (s.setBroadcaster d h p).txChoice = s.txChoice := rfl
  have head : (s.setBroadcaster d h p).headOf s.txChoice = s.headOf s.txChoice := rfl
  have answer : (s.setBroadcaster d h p).writeAnswer = s.writeAnswer := rfl
  have dequeued : (s.setBroadcaster d h p).dequeue s.txChoice = (s.dequeue s.txChoice).setBroadcaster d h p := by
    cases s.txChoice with
    | net => rfl
    | tel => rfl
  unfold State.writeHead
  rw [choice, head, answer, dequeued]
  cases s.headOf s.txChoice with
  | none => rfl
  | some f =>
    cases s.writeAnswer with
    | accepted => rfl
    | closed => rfl

theorem loadRecord_setBroadcaster (s : State) (rec : TelemetryRecord) :
    (s.setBroadcaster d h p).loadRecord rec = (s.loadRecord rec).setBroadcaster d h p := by
  have valid : (s.setBroadcaster d h p).altStartValid = s.altStartValid := rfl
  unfold State.loadRecord
  rw [valid]
  cases rec.pos.y with
  | fin y =>
    cases s.altStartValid with
    | true => rfl
    | false => rfl
  | nan | posInf | negInf => rfl

theorem queueTelemetry_setBroadcaster (s : State) (pair : Byte × List Byte) :
    (s.setBroadcaster d h p).queueTelemetry pair = (s.queueTelemetry pair).setBroadcaster d h p := by
  unfold State.queueTelemetry
  cases build pair.1 pair.2 with
  | ok f => rfl
  | error n => rfl

theorem queueTelemetries_setBroadcaster (s : State) (pairs : List (Byte × List Byte)) :
    pairs.foldl State.queueTelemetry (s.setBroadcaster d h p) =
      (pairs.foldl State.queueTelemetry s).setBroadcaster d h p :=
  List.foldl_hom (State.setBroadcaster d h p) queueTelemetry_setBroadcaster

theorem tick_setBroadcaster (s : State) : (s.setBroadcaster d h p).tick = s.tick.setBroadcaster d h p := by
  have valid : ((s.setBroadcaster d h p).lastValid && (s.setBroadcaster d h p).altStartValid) =
      (s.lastValid && s.altStartValid) := rfl
  unfold State.tick
  rw [valid]
  cases s.lastValid && s.altStartValid with
  | true =>
    simp only [if_true]
    exact queueTelemetries_setBroadcaster (State.raiseFields { s with nextTick := s.nextTick + Config.tickMs } _) _
  | false => rfl

/-- Every operation has the shape `.next (if c then its effect else s)`; one whose effect does not see the broadcaster's part,
as its precondition does not, does the same whatever that part is. -/
theorem next_setBroadcaster {c : Bool} {s t u u' : State} (hu : u' = u.setBroadcaster d h p)
    (ht : (.next (if c = true then u else s) : Host.Outcome State Fault Refusal) = .next t) :
    (.next (if c = true then u' else s.setBroadcaster d h p) : Host.Outcome State Fault Refusal) =
      .next (t.setBroadcaster d h p) := by
  subst hu
  rcases enabled_or_same ht with ⟨rfl, rfl⟩ | ⟨rfl, rfl⟩
  · rfl
  · rfl

theorem exec_rxTick_setBroadcaster {s t : State} (r : ReadResult) (ht : exec (.rxTick r) s = .next t) :
    exec (.rxTick r) (s.setBroadcaster d h p) = .next (t.setBroadcaster d h p) :=
  next_setBroadcaster (receive_setBroadcaster s r) ht

theorem exec_ofFrame_setBroadcaster {s t : State} (ty : FrameType) (len : Byte) (rest : List Byte)
    (ht : exec (Instr.ofFrame ty len rest) s = .next t) :
    exec (Instr.ofFrame ty len rest) (s.setBroadcaster d h p) = .next (t.setBroadcaster d h p) := by
  rw [exec_ofFrame] at ht ⊢
  exact exec_rxTick_setBroadcaster _ ht

/-- No instruction but the broadcaster's sees the broadcaster's part. -/
theorem exec_setBroadcaster {i : Instr} {s t : State} (hi : isBroadcaster i = false) (ht : exec i s = .next t) :
    exec i (s.setBroadcaster d h p) = .next (t.setBroadcaster d h p) := by
  cases i with
  | gps len rest => exact exec_ofFrame_setBroadcaster .gps len rest ht
  | vario len rest => exact exec_ofFrame_setBroadcaster .vario len rest ht
  | batterySensor len rest => exact exec_ofFrame_setBroadcaster .batterySensor len rest ht
  | baroAlt len rest => exact exec_ofFrame_setBroadcaster .baroAlt len rest ht
  | airspeed len rest => exact exec_ofFrame_setBroadcaster .airspeed len rest ht
  | heartbeat len rest => exact exec_ofFrame_setBroadcaster .heartbeat len rest ht
  | rpm len rest => exact exec_ofFrame_setBroadcaster .rpm len rest ht
  | temp len rest => exact exec_ofFrame_setBroadcaster .temp len rest ht
  | voltages len rest => exact exec_ofFrame_setBroadcaster .voltages len rest ht
  | videoTransmitter len rest => exact exec_ofFrame_setBroadcaster .videoTransmitter len rest ht
  | linkStatistics len rest => exact exec_ofFrame_setBroadcaster .linkStatistics len rest ht
  | rcChannelsPacked len rest => exact exec_ofFrame_setBroadcaster .rcChannelsPacked len rest ht
  | linkStatisticsRx len rest => exact exec_ofFrame_setBroadcaster .linkStatisticsRx len rest ht
  | linkStatisticsTx len rest => exact exec_ofFrame_setBroadcaster .linkStatisticsTx len rest ht
  | attitude len rest => exact exec_ofFrame_setBroadcaster .attitude len rest ht
  | flightMode len rest => exact exec_ofFrame_setBroadcaster .flightMode len rest ht
  | deviceInfo len rest => exact exec_ofFrame_setBroadcaster .deviceInfo len rest ht
  | configRead len rest => exact exec_ofFrame_setBroadcaster .configRead len rest ht
  | configWrite len rest => exact exec_ofFrame_setBroadcaster .configWrite len rest ht
  | radioId len rest => exact exec_ofFrame_setBroadcaster .radioId len rest ht
  | register | unregister | quit | ctlMsg | bcast => cases hi
  | crc8 bytes => exact next_setBroadcaster rfl ht
  | scan buf => exact next_setBroadcaster rfl ht
  | unpack b => exact next_setBroadcaster rfl ht
  | encode rec altStart => exact next_setBroadcaster rfl ht
  | build ty payload =>
    refine next_setBroadcaster ?_ ht
    cases build ty payload with
    | ok f => rfl
    | error n => rfl
  | pack c =>
    refine next_setBroadcaster ?_ ht
    cases pack c with
    | ok b => rfl
    | error e => rfl
  | encGps lat lon kph hdg alt => exact next_setBroadcaster (answerPayload_setBroadcaster ..) ht
  | encBattery volt pct => exact next_setBroadcaster (answerPayload_setBroadcaster ..) ht
  | encVario vy => exact next_setBroadcaster (answerPayload_setBroadcaster ..) ht
  | encBaroAlt alt altStart => exact next_setBroadcaster (answerPayload_setBroadcaster ..) ht
  | encAirspeed mag => exact next_setBroadcaster (answerPayload_setBroadcaster ..) ht
  | encAttitude pitch roll yaw => exact next_setBroadcaster (answerPayload_setBroadcaster ..) ht
  | encRpm rotors =>
    have encoded : encRpm (s.setBroadcaster d h p).params rotors = encRpm s.params rotors := rfl
    refine next_setBroadcaster ?_ ht
    rw [encoded]
    cases encRpm s.params rotors with
    | error e => rfl
    | ok answered =>
      cases answered with
      | some payload => rfl
      | none => rfl
  | rxTick r => exact exec_rxTick_setBroadcaster r ht
  | dispatch ty payload => exact next_setBroadcaster (dispatchPacket_setBroadcaster s ty payload) ht
  | netIn datagram => exact next_setBroadcaster (netDatagram_setBroadcaster s datagram) ht
  | txWrite => exact next_setBroadcaster (writeHead_setBroadcaster s) ht
  | telLoad rec => exact next_setBroadcaster (loadRecord_setBroadcaster s rec) ht
  | telTick => exact next_setBroadcaster (tick_setBroadcaster s) ht
  | statsReport => exact next_setBroadcaster rfl ht
  | stop => exact next_setBroadcaster rfl ht

end

/-- So it does not write that part either: set to what it was, it is what it was. -/
theorem exec_sameBroadcaster {i : Instr} {s t : State} (hi : isBroadcaster i = false) (ht : exec i s = .next t) :
    SameBroadcaster s t := by
  have again : exec i s = .next (t.setBroadcaster s.dest s.halt s.bcPlans) := exec_setBroadcaster hi ht
  have same := Host.Outcome.next.inj (ht.symm.trans again)
  rw [same]
  exact ⟨rfl, rfl, rfl⟩

/-! ### What the broadcaster's operations see and write (44_router_bridge.md section 4) -/

/-- What an operation of the broadcaster does where it is enabled. -/
inductive BroadcasterOp : (State → State) → Prop where
  | ignore : BroadcasterOp fun s => s
  | register (a : Addr) : BroadcasterOp fun s => s.registerDest a
  | unregister (a : Addr) : BroadcasterOp fun s => s.unregisterDest a
  | quit : BroadcasterOp fun s => s.quitBroadcast
  | broadcast (d : List Byte) : BroadcasterOp fun s => s.broadcast d

theorem control_broadcasterOp (m : List Byte) (a : Addr) : BroadcasterOp fun s => s.control m a := by
  unfold State.control
  split
  · split
    · exact .register a
    · split
      · exact .unregister a
      · split
        · exact .quit
        · exact .ignore
  · exact .ignore

theorem exec_broadcaster {i : Instr} (hi : isBroadcaster i = true) :
    ∃ op, BroadcasterOp op ∧ ∀ s, exec i s = .next (if s.broadcasting = true then op s else s) := by
  unfold isBroadcaster at hi
  split at hi
  case h_1 a => exact ⟨_, .register a, fun _ => rfl⟩
  case h_2 a => exact ⟨_, .unregister a, fun _ => rfl⟩
  case h_3 => exact ⟨_, .quit, fun _ => rfl⟩
  case h_4 m a => exact ⟨_, control_broadcasterOp m a, fun _ => rfl⟩
  case h_5 d => exact ⟨_, .broadcast d, fun _ => rfl⟩
  case h_6 => cases hi

/-- From `s` to `t` only the broadcaster's part and the outputs have changed. -/
def OnlyBroadcaster (s t : State) : Prop :=
  t = { s with dest := t.dest, halt := t.halt, bcPlans := t.bcPlans, out := t.out }

theorem OnlyBroadcaster.sameBridge {s t : State} (h : OnlyBroadcaster s t) : SameBridge s t := by
  rw [h]
  simp [SameBridge]

theorem registerDest_only (s : State) (a : Addr) : OnlyBroadcaster s (s.registerDest a) := by
  unfold State.registerDest
  split
  · rfl
  · rfl

theorem broadcast_only (s : State) (d : List Byte) : OnlyBroadcaster s (s.broadcast d) := by
  unfold OnlyBroadcaster
  rw [(broadcast_sent s d).2]

theorem BroadcasterOp.only {op : State → State} (h : BroadcasterOp op) (s : State) : OnlyBroadcaster s (op s) := by
  cases h with
  | ignore => rfl
  | register a => exact registerDest_only s a
  | unregister a => rfl
  | quit => rfl
  | broadcast d => exact broadcast_only s d

/-- What one send of a BCAST emits (44_router_bridge.md R277, R278). -/
def sendOutputs (plan : BcPlan) (d : List Byte) (a : Addr) : List Output :=
  if a ∈ plan.failed then [.bcTx a d .failed, .errOut 5 0x41#8 (.destinationUnreachable (some a))] else [.bcTx a d .sent]

theorem bcSend_out (plan : BcPlan) (d : List Byte) (s : State) (a : Addr) :
    (State.bcSend plan d s a).out = s.out ++ sendOutputs plan d a := by
  unfold State.bcSend sendOutputs
  split
  · exact List.append_assoc ..
  · rfl

theorem bcSends_out (plan : BcPlan) (d : List Byte) (walk : List Addr) (s : State) :
    (walk.foldl (State.bcSend plan d) s).out = s.out ++ walk.flatMap (sendOutputs plan d) := by
  induction walk generalizing s with
  | nil => exact (List.append_nil _).symm
  | cons a walk ih => rw [List.foldl_cons, ih, bcSend_out, List.append_assoc, List.flatMap_cons]

/-- What one operation makes of `s` and of `u`, here `t` and `v`, has the same broadcaster's part, and the same is emitted. -/
structure Parallel (s u t v : State) : Prop where
  part : SameBroadcaster t v
  emitted : ∃ os, t.out = s.out ++ os ∧ v.out = u.out ++ os

theorem Parallel.silent {s u t v : State} (part : SameBroadcaster t v) (ht : t.out = s.out) (hv : v.out = u.out) :
    Parallel s u t v where
  part := part
  emitted := ⟨[], by simp [ht], by simp [hv]⟩

theorem Parallel.drop_out {s u t v : State} (h : Parallel s u t v) : t.out.drop s.out.length = v.out.drop u.out.length := by
  obtain ⟨os, ht, hv⟩ := h.emitted
  rw [ht, hv, List.drop_left, List.drop_left]

theorem registerDest_parallel {s u : State} (h : SameBroadcaster s u) (hcap : s.params.destCap = u.params.destCap)
    (a : Addr) : Parallel s u (s.registerDest a) (u.registerDest a) := by
  obtain ⟨hd, hh, hp⟩ := h
  have room : u.destHasRoom = s.destHasRoom := by unfold State.destHasRoom; rw [hcap, hd]
  unfold State.registerDest
  rw [room, hd]
  split
  · exact .silent ⟨rfl, hh, hp⟩ rfl rfl
  · exact .silent ⟨hd, hh, hp⟩ rfl rfl

theorem broadcast_parallel {s u : State} (h : SameBroadcaster s u) (d : List Byte) :
    Parallel s u (s.broadcast d) (u.broadcast d) := by
  obtain ⟨hd, hh, hp⟩ := h
  have plan : u.bcPlan = s.bcPlan := by unfold State.bcPlan; rw [hp]
  have draws (x : State) : (x.broadcast d).halt = x.halt ∧ (x.broadcast d).bcPlans = x.bcPlans.tail := by
    rw [(broadcast_sent x d).2]
    exact ⟨rfl, rfl⟩
  refine ⟨⟨?_, ?_, ?_⟩, (walkOrder s.bcPlan s.dest).flatMap (sendOutputs s.bcPlan d), ?_, ?_⟩
  · simp only [State.broadcast, bcSends_dest, plan, hd]
  · rw [(draws s).1, (draws u).1, hh]
  · rw [(draws s).2, (draws u).2, hp]
  · exact bcSends_out _ _ _ _
  · rw [State.broadcast, bcSends_out, plan, hd]

theorem BroadcasterOp.parallel {op : State → State} (h : BroadcasterOp op) {s u : State} (same : SameBroadcaster s u)
    (hcap : s.params.destCap = u.params.destCap) : Parallel s u (op s) (op u) := by
  cases h with
  | ignore => exact .silent same rfl rfl
  | register a => exact registerDest_parallel same hcap a
  | unregister a =>
    obtain ⟨hd, hh, hp⟩ := same
    exact .silent ⟨congrArg (destErase a) hd, hh, hp⟩ rfl rfl
  | quit =>
    obtain ⟨hd, -, hp⟩ := same
    exact .silent ⟨hd, rfl, hp⟩ rfl rfl
  | broadcast d => exact broadcast_parallel same d

theorem broadcaster_sameBridge {i : Instr} {s t : State} (hi : isBroadcaster i = true) (ht : exec i s = .next t) :
    SameBridge s t := by
  obtain ⟨op, hop, run⟩ := exec_broadcaster hi
  rw [run] at ht
  rcases enabled_or_same ht with ⟨-, rfl⟩ | ⟨-, rfl⟩
  · exact (hop.only s).sameBridge
  · exact OnlyBroadcaster.sameBridge rfl

theorem broadcaster_parallel {i : Instr} {s t u v : State} (hi : isBroadcaster i = true) (ht : exec i s = .next t)
    (hv : exec i u = .next v) (same : SameBroadcaster s u) (hstop : s.stopped = u.stopped)
    (hcap : s.params.destCap = u.params.destCap) : Parallel s u t v := by
  obtain ⟨op, hop, run⟩ := exec_broadcaster hi
  have enabled : u.broadcasting = s.broadcasting := by
    unfold State.broadcasting
    rw [hstop, same.2.1]
  rw [run] at ht hv
  rw [enabled] at hv
  rcases enabled_or_same ht with ⟨on, rfl⟩ | ⟨off, rfl⟩
  · rw [on, if_pos rfl] at hv
    obtain rfl := Host.Outcome.next.inj hv
    exact hop.parallel same hcap
  · rw [off, if_neg Bool.false_ne_true] at hv
    obtain rfl := Host.Outcome.next.inj hv
    exact .silent same rfl rfl

/-- Settles O60: the broadcaster's operations by `BroadcasterOp`, the others by `exec_setBroadcaster`. -/
theorem broadcasterIndependent : Obligations.BroadcasterIndependent := by
  refine ⟨fun i s t hi ht => broadcaster_sameBridge hi ht,
    fun i s t d h p hi ht => ⟨exec_sameBroadcaster hi ht, exec_setBroadcaster hi ht⟩,
    fun i s t u v hi ht hv same hstop hcap => ?_⟩
  have parallel := broadcaster_parallel hi ht hv same hstop hcap
  exact ⟨parallel.part, parallel.drop_out⟩

end Sys2Proof.Machine
end

/-! ## Encoding: what each presentation decodes to, and what each instruction is presented as

What stands here settles O1, O2 and O3. Each of the three code spaces has its own round trip: the frame types with
`decodeFrame`, the control opcodes with `decodeCtrl`, the operations with `instrOfOp`. `Instr.Shape` says that every
instruction belongs to one of them. -/

section

open Sys2Proof

namespace Sys2Proof

/-! ### The two tables (30_encoding.md R100, R122) -/

@[simp] theorem frameTypeOf_code (t : FrameType) : frameTypeOf t.code = some t := by cases t <;> rfl

theorem frameTable_code : ∀ e ∈ frameTable, e.1 = e.2.code := by decide

theorem frameTypeOf_eq_some {b : Byte} {t : FrameType} (h : frameTypeOf b = some t) : b = t.code := by
  obtain ⟨before, after, split, -⟩ := List.lookup_eq_some_iff.mp h
  exact frameTable_code (b, t) (by simp [split])

/-- 30_encoding.md R103: an unknown type byte is one without a row. -/
theorem frameTypeOf_eq_none_iff (b : Byte) : frameTypeOf b = none ↔ b ∉ frameTable.map Prod.fst := by
  rw [frameTypeOf, List.lookup_eq_none_iff, List.mem_map]
  constructor
  · rintro unlisted ⟨e, he, rfl⟩
    simpa using unlisted e he
  · intro unlisted e he
    simpa using fun h : b = e.1 => unlisted ⟨e, he, h.symm⟩

theorem FrameType.code_injective {t u : FrameType} (h : t.code = u.code) : t = u :=
  Option.some.inj (by rw [← frameTypeOf_code t, h, frameTypeOf_code])

@[simp] theorem opOf_opid (op : OpName) : opOf op.opid = some op := by cases op <;> rfl

theorem opTable_opid : ∀ e ∈ opTable, e.1 = e.2.opid := by decide

theorem opOf_eq_some {b : Byte} {op : OpName} (h : opOf b = some op) : b = op.opid := by
  obtain ⟨before, after, split, -⟩ := List.lookup_eq_some_iff.mp h
  exact opTable_opid (b, op) (by simp [split])

/-! ### Frames (30_encoding.md R90) -/

@[simp] theorem Instr.frame?_ofFrame (t : FrameType) (len : Byte) (rest : List Byte) :
    (Instr.ofFrame t len rest).frame? = some (t, len, rest) := by cases t <;> rfl

@[simp] theorem encode_ofFrame (t : FrameType) (len : Byte) (rest : List Byte) :
    encode (Instr.ofFrame t len rest) = .frame (frameBytes t len rest) := by cases t <;> rfl

theorem Instr.wf_ofFrame (t : FrameType) (len : Byte) (rest : List Byte) :
    (Instr.ofFrame t len rest).wf = true ↔ rest.length = len.toNat - 1 := by simp [Instr.wf]

theorem Instr.wf_of_not_frame {i : Instr} (h : i.frame? = none) : i.wf = true := by simp [Instr.wf, h]

theorem decodeFrame_frameBytes (t : FrameType) {len : Byte} {rest : List Byte} (h : rest.length = len.toNat - 1) :
    decodeFrame (frameBytes t len rest) = Instr.ofFrame t len rest := by simp [decodeFrame, frameBytes, h]

/-- Bytes on BS_RX are one complete frame of a listed type, or RX_TICK reads them (log entry 34). -/
theorem decodeFrame_cases (bytes : List Byte) :
    (∃ t len rest, rest.length = len.toNat - 1 ∧ bytes = frameBytes t len rest) ∨
    decodeFrame bytes = .rxTick (.bytes bytes) := by
  unfold decodeFrame
  split
  case h_1 sync len type rest =>
    split
    case isTrue complete =>
      obtain ⟨rfl, hlen⟩ := complete
      split
      case h_1 t ht => exact .inl ⟨t, len, rest, hlen, by rw [frameTypeOf_eq_some ht]; rfl⟩
      case h_2 => exact .inr rfl
    case isFalse => exact .inr rfl
  case h_2 => exact .inr rfl

/-- Bytes that RX_TICK reads are no complete frame of a listed type: such a frame is an instruction of its own. -/
theorem ne_frameBytes_of_rxTick {bytes : List Byte} {r : ReadResult} (h : decodeFrame bytes = .rxTick r)
    (t : FrameType) {len : Byte} {rest : List Byte} (hlen : rest.length = len.toNat - 1) :
    bytes ≠ frameBytes t len rest := by
  rintro rfl
  rw [decodeFrame_frameBytes t hlen] at h
  have frame := Instr.frame?_ofFrame t len rest
  rw [h] at frame
  cases frame

/-! ### Control datagrams (30_encoding.md R118) -/

/-- A control datagram is one of the three opcodes, or CTL_MSG ignores it (30_encoding.md R105 (d), log entry 34). -/
theorem decodeCtrl_cases (m : List Byte) (a : Addr) :
    (m = [0x00#8] ∧ decodeCtrl m a = .register a) ∨ (m = [0x01#8] ∧ decodeCtrl m a = .unregister a) ∨
    (m = [0xFF#8] ∧ decodeCtrl m a = .quit a) ∨
    (decodeCtrl m a = .ctlMsg m a ∧ m ≠ [0x00#8] ∧ m ≠ [0x01#8] ∧ m ≠ [0xFF#8]) := by
  by_cases register : m = [Config.ctlRegister]
  · exact .inl ⟨register, by rw [register]; rfl⟩
  by_cases unregister : m = [Config.ctlUnregister]
  · exact .inr (.inl ⟨unregister, by rw [unregister]; rfl⟩)
  by_cases quit : m = [Config.ctlQuit]
  · exact .inr (.inr (.inl ⟨quit, by rw [quit]; rfl⟩))
  refine .inr (.inr (.inr ⟨?_, register, unregister, quit⟩))
  unfold decodeCtrl
  split
  case h_1 b =>
    rw [List.singleton_inj] at register unregister quit
    rw [if_neg register, if_neg unregister, if_neg quit]
  case h_2 => rfl

/-! ### Operations (30_encoding.md R122) -/

/-- An operation is presented on CMD where it is invocable there, else at its own interface. -/
def OpName.present (op : OpName) (x : Operand) : Presented :=
  if op.invocable then .cmd op.opid x else .event op.opid x

/-- `instrOfOp` and `encode` are one table, read from its two ends: the operation and the kind of its operand pick the
row. -/
theorem instrOfOp_eq_some {op : OpName} {x : Operand} {i : Instr} (h : instrOfOp op x = some i) :
    encode i = op.present x ∧ i.frame? = none := by
  cases x with
  | reals xs =>
    -- the rows of an encoder fix how many reals it takes, five at most
    rcases xs with _ | ⟨_, _ | ⟨_, _ | ⟨_, _ | ⟨_, _ | ⟨_, _ | ⟨_, xs⟩⟩⟩⟩⟩⟩
    all_goals cases op <;> cases h <;> exact ⟨rfl, rfl⟩
  | _ => cases op <;> cases h <;> exact ⟨rfl, rfl⟩

theorem decodeOp_eq_ok_iff (onCmd : Bool) (opid : Byte) (x : Operand) (i : Instr) :
    decodeOp onCmd opid x = .ok i ↔
      ∃ op : OpName, opid = op.opid ∧ op.invocable = onCmd ∧ instrOfOp op x = some i := by
  constructor
  · intro h
    unfold decodeOp at h
    split at h
    case h_1 => cases h
    case h_2 op hop =>
      split at h
      case isTrue port =>
        split at h
        case h_1 j hj => cases h; exact ⟨op, opOf_eq_some hop, port, hj⟩
        case h_2 => cases h
      case isFalse => cases h
  · rintro ⟨op, rfl, port, hi⟩
    simp [decodeOp, port, hi]

theorem decode_present {op : OpName} {x : Operand} {i : Instr} (h : instrOfOp op x = some i) :
    decode (op.present x) = .ok i := by
  unfold OpName.present
  cases port : op.invocable with
  | true => exact (decodeOp_eq_ok_iff true _ x i).mpr ⟨op, rfl, port, h⟩
  | false => exact (decodeOp_eq_ok_iff false _ x i).mpr ⟨op, rfl, port, h⟩

/-! ### The round trip -/

/-- The code space an instruction belongs to. -/
inductive Instr.Shape : Instr → Prop where
  | frame (t : FrameType) (len : Byte) (rest : List Byte) : Instr.Shape (Instr.ofFrame t len rest)
  | register (a : Addr) : Instr.Shape (.register a)
  | unregister (a : Addr) : Instr.Shape (.unregister a)
  | quit (a : Addr) : Instr.Shape (.quit a)
  | op {i : Instr} (op : OpName) (x : Operand) (h : instrOfOp op x = some i) : Instr.Shape i

theorem Instr.shape (i : Instr) : Instr.Shape i := by
  cases i with
  | gps len rest => exact .frame .gps len rest
  | vario len rest => exact .frame .vario len rest
  | batterySensor len rest => exact .frame .batterySensor len rest
  | baroAlt len rest => exact .frame .baroAlt len rest
  | airspeed len rest => exact .frame .airspeed len rest
  | heartbeat len rest => exact .frame .heartbeat len rest
  | rpm len rest => exact .frame .rpm len rest
  | temp len rest => exact .frame .temp len rest
  | voltages len rest => exact .frame .voltages len rest
  | videoTransmitter len rest => exact .frame .videoTransmitter len rest
  | linkStatistics len rest => exact .frame .linkStatistics len rest
  | rcChannelsPacked len rest => exact .frame .rcChannelsPacked len rest
  | linkStatisticsRx len rest => exact .frame .linkStatisticsRx len rest
  | linkStatisticsTx len rest => exact .frame .linkStatisticsTx len rest
  | attitude len rest => exact .frame .attitude len rest
  | flightMode len rest => exact .frame .flightMode len rest
  | deviceInfo len rest => exact .frame .deviceInfo len rest
  | configRead len rest => exact .frame .configRead len rest
  | configWrite len rest => exact .frame .configWrite len rest
  | radioId len rest => exact .frame .radioId len rest
  | register a => exact .register a
  | unregister a => exact .unregister a
  | quit a => exact .quit a
  | crc8 s => exact .op .crc8 (.bytes s) rfl
  | scan buf => exact .op .scan (.bytes buf) rfl
  | build t p => exact .op .build (.typed t p) rfl
  | unpack b => exact .op .unpack (.bytes22 b) rfl
  | pack c => exact .op .pack (.chans c) rfl
  | encGps lat lon kph hdg alt => exact .op .encGps (.reals [lat, lon, kph, hdg, alt]) rfl
  | encBattery volt pct => exact .op .encBattery (.reals [volt, pct]) rfl
  | encVario vy => exact .op .encVario (.reals [vy]) rfl
  | encBaroAlt alt altStart => exact .op .encBaroAlt (.reals [alt, altStart]) rfl
  | encAirspeed mag => exact .op .encAirspeed (.reals [mag]) rfl
  | encAttitude p r y => exact .op .encAttitude (.reals [p, r, y]) rfl
  | encRpm xs => exact .op .encRpm (.reals xs) rfl
  | encode rec altStart => exact .op .encode (.recordFrom rec altStart) rfl
  | rxTick r =>
    cases r with
    | bytes r => exact .op .rxTick (.bytes r) rfl
    | closed => exact .op .rxTick .closed rfl
  | dispatch t p => exact .op .dispatch (.typed t p) rfl
  | netIn d => exact .op .netIn (.bytes d) rfl
  | txWrite => exact .op .txWrite .none rfl
  | telLoad rec => exact .op .telLoad (.record rec) rfl
  | telTick => exact .op .telTick .none rfl
  | ctlMsg m a => exact .op .ctlMsg (.control m a) rfl
  | bcast d => exact .op .bcast (.bytes d) rfl
  | statsReport => exact .op .statsReport .none rfl
  | stop => exact .op .stop .none rfl

/-- Settles O1: the round trip of each code space, for every instruction by its `Instr.Shape`. -/
theorem decodeEncode : Obligations.DecodeEncode := by
  intro i wf
  cases i.shape with
  | frame t len rest =>
    rw [encode_ofFrame]
    exact congrArg _ (decodeFrame_frameBytes t ((Instr.wf_ofFrame t len rest).mp wf))
  | register | unregister | quit => rfl
  | op op x h =>
    obtain ⟨presented, -⟩ := instrOfOp_eq_some h
    rw [presented]
    exact decode_present h

/-- An operation is presented in one way only. -/
theorem presented_op {onCmd : Bool} {opid : Byte} {x : Operand} {i : Instr} (h : decodeOp onCmd opid x = .ok i) :
    i.wf = true ∧ encode i = if onCmd then .cmd opid x else .event opid x := by
  obtain ⟨op, rfl, rfl, hi⟩ := (decodeOp_eq_ok_iff onCmd opid x i).mp h
  obtain ⟨presented, not_frame⟩ := instrOfOp_eq_some hi
  exact ⟨Instr.wf_of_not_frame not_frame, presented⟩

/-- Settles O2: the converse of each round trip; `decodeFrame_cases` and `decodeCtrl_cases` hold the two exceptions. -/
theorem eachPresentationOneMeaning : Obligations.EachPresentationOneMeaning := by
  intro p i h
  cases p with
  | frame bytes =>
    obtain rfl : decodeFrame bytes = i := Except.ok.inj h
    rcases decodeFrame_cases bytes with ⟨t, len, rest, hlen, rfl⟩ | read
    · rw [decodeFrame_frameBytes t hlen]
      exact ⟨(Instr.wf_ofFrame t len rest).mpr hlen, .inl (encode_ofFrame t len rest).symm⟩
    · rw [read]
      exact ⟨rfl, .inr (.inl ⟨bytes, rfl, rfl, fun t _ _ hlen => ne_frameBytes_of_rxTick read t hlen⟩)⟩
  | ctrl m a =>
    obtain rfl : decodeCtrl m a = i := Except.ok.inj h
    rcases decodeCtrl_cases m a with ⟨rfl, -⟩ | ⟨rfl, -⟩ | ⟨rfl, -⟩ | ⟨ignored, others⟩
    case inl | inr.inl | inr.inr.inl => exact ⟨rfl, .inl rfl⟩
    rw [ignored]
    exact ⟨rfl, .inr (.inr ⟨m, a, rfl, rfl, others⟩)⟩
  | cmd opid x =>
    obtain ⟨wf, presented⟩ := presented_op (onCmd := true) h
    exact ⟨wf, .inl presented.symm⟩
  | event opid x =>
    obtain ⟨wf, presented⟩ := presented_op (onCmd := false) h
    exact ⟨wf, .inl presented.symm⟩

/-- Settles O3: each word by evaluation of the decoder, the type bytes without a row by `frameTypeOf_eq_none_iff`. -/
theorem wordsDecode : Obligations.WordsDecode :=
  ⟨rfl, rfl, rfl, rfl, fun _ => rfl, fun _ => rfl, fun _ => rfl, fun _ _ => rfl, fun _ => rfl, fun _ => rfl,
    fun _ _ => rfl, fun _ _ => rfl, fun _ => rfl, rfl, fun _ => rfl, fun _ _ => rfl, rfl, frameTypeOf_eq_none_iff⟩

end Sys2Proof
end

/-! ## The lines of the schedule: what each of them runs

What stands here settles O5 and O6: `step_cons` takes a line off the schedule, and one lemma for each kind of line says what
it runs while the block runs. -/

section

open Sys2Proof Sys2Proof.Machine

namespace Sys2Proof.Machine

theorem step_nil {s : State} (h : s.stimulus = []) : step s = .next s := by simp [step, stepLine, h]

theorem step_cons {s : State} {line : Stimulus} {rest : List Stimulus} (h : s.stimulus = line :: rest) :
    step s = runLine line { s with stimulus := rest } := by simp [step, stepLine, h]

/-! ### A line while the block runs (30_encoding.md R126) -/

theorem runLine_present {p : Presented} {i : Instr} (h : decode p = .ok i) (s : State) :
    runLine (.present p) s = exec i s := by simp [runLine, runPresented, h]

theorem runLine_now_forward {s : State} {ms : Nat} (h : s.now ≤ ms) :
    runLine (.now ms) s = .next { s with now := ms } := if_pos h

theorem runLine_now_back {s : State} {ms : Nat} (h : ms < s.now) :
    runLine (.now ms) s = .fault (.clockWentBack s.now ms) := if_neg (Nat.not_le.mpr h)

section
variable {s : State} (h : s.stopped = false)
include h

theorem runLine_tick : runLine .tick s = exec .telTick { s with now := max s.now s.nextTick } := if_pos (running_of h)

/-- The line SHUTDOWN brings the signal that enables STOP with it (log entry 26). -/
theorem runLine_shutdown : runLine .shutdown s = .next { s with stopped := true, shutdown := false } := by
  have requested : State.stopEnabled { s with shutdown := true } = true := (stopEnabled_iff _).mpr ⟨h, .inl rfl⟩
  calc runLine .shutdown s
    _ = exec .stop { s with shutdown := true } := if_pos (running_of h)
    _ = .next (State.stopBlock { s with shutdown := true }) := congrArg Host.Outcome.next (if_pos requested)

theorem runLine_signal : runLine .signal s = .next { s with shutdown := true } :=
  congrArg Host.Outcome.next (if_pos (running_of h))

theorem runLine_period (hp : s.params.statsReportMs = none) : runLine .period s = exec .statsReport s :=
  (if_pos (running_of h)).trans (by rw [hp]; rfl)

/-- Where STATS_REPORT_MS is given the period's end brings the clock there (log entry 36). -/
theorem runLine_period_timed {p : Nat} (hp : s.params.statsReportMs = some p) :
    runLine .period s = exec .statsReport { s with now := max s.now s.nextReport } :=
  (if_pos (running_of h)).trans (by rw [hp]; rfl)

theorem runLine_timeout (hc : s.rxClosed = false) : runLine .timeout s =
    exec (.rxTick (.bytes [])) { s with now := s.now + s.params.readTimeout.getD 0 } := if_pos (rxEnabled_of h hc)

end

/-! ### A line that is held off: it is used up (log entry 25) -/

theorem runLine_timeout_of_closed {s : State} (h : s.rxClosed = true) : runLine .timeout s = .next s :=
  if_neg (by simp [State.rxEnabled, h])

/-- After STOP the lines that bring a trigger change nothing. -/
theorem runLine_of_stopped {s : State} (h : s.stopped = true) {line : Stimulus}
    (hl : line ∈ [.tick, .shutdown, .signal, .period, .timeout]) : runLine line s = .next s := by
  have not_running : ¬s.running = true := by simp [State.running, h]
  have not_reading : ¬s.rxEnabled = true := by simp [State.rxEnabled, h]
  simp only [List.mem_cons, List.not_mem_nil, or_false] at hl
  rcases hl with rfl | rfl | rfl | rfl | rfl
  · exact if_neg not_running
  · exact if_neg not_running
  · exact congrArg Host.Outcome.next (if_neg not_running)
  · exact if_neg not_running
  · exact if_neg not_reading

/-- Settles O5: `step_cons` takes the line, `runLine_present` runs what it decodes to. -/
theorem stepRunsDecoded : Obligations.StepRunsDecoded := by
  intro s p i rest h hd
  rw [step_cons h, runLine_present hd]

/-- Settles O6, clause by clause: the empty schedule, then one lemma for each line. -/
theorem stepOtherLines : Obligations.StepOtherLines := by
  intro s
  refine ⟨step_nil, fun rest h hs => ?tick, fun rest ms h hn => ?forward, fun rest ms h hn => ?back,
    fun rest h hs => ?shutdown, fun rest h hs => ?signal, fun rest h hs => ?period, fun rest h hs hc => ?timeout,
    fun line rest h hs hl => ?stopped, fun rest h hc => ?closed⟩
  all_goals rw [step_cons h]
  case tick => exact runLine_tick hs
  case forward => exact runLine_now_forward hn
  case back => exact runLine_now_back hn
  case shutdown => exact runLine_shutdown hs
  case signal => exact runLine_signal hs
  case period => exact ⟨fun hp => runLine_period hs hp, fun p hp => runLine_period_timed hs hp⟩
  case timeout => exact runLine_timeout hs hc
  case stopped => exact runLine_of_stopped (s := { s with stimulus := rest }) hs hl
  case closed => exact runLine_timeout_of_closed hc

end Sys2Proof.Machine
end

/-! ## FRAME rows: a valid frame is forwarded and dispatched

What stands here settles O43. DISPATCH and forwarding are the spec's, transcribed in `dispatched` and `forwarded`, and a
scan of one frame built from a type and a payload finds it whole. -/

section

open Sys2Proof Sys2Proof.Machine Sys2Proof.Claims

namespace Sys2Proof.Machine

/-! ### The channels of an RC frame (20_memory.md R63, 42_channel_codec.md R182) -/

theorem bitSpace_from (bytes : List Byte) (n : Nat) :
    ((bytes.zipIdx n).map fun e => e.1.toNat <<< (8 * e.2)).sum = 2 ^ (8 * n) * littleEndian bytes := by
  induction bytes generalizing n with
  | nil => rfl
  | cons b bs ih =>
    rw [List.zipIdx_cons, List.map_cons, List.sum_cons, ih, littleEndian, Nat.shiftLeft_eq]
    ring

theorem bitSpace_eq_littleEndian (bytes : List Byte) : bitSpace bytes = littleEndian bytes :=
  (bitSpace_from bytes 0).trans (by simp)

theorem channelOf_lt (payload : List Byte) (i : Nat) : channelOf payload i < 2048 := Nat.mod_lt _ (by decide)

theorem unpack_toNat (b : Vector Byte 22) {i : Nat} (hi : i < 16) : (unpack b)[i].toNat = channelOf b.toList i := by
  have masked : (bitSpace b.toList >>> (11 * i)) &&& 0x7FF = channelOf b.toList i := by
    rw [bitSpace_eq_littleEndian, Nat.shiftRight_eq_div_pow]
    exact Nat.and_two_pow_sub_one_eq_mod _ 11
  have small := channelOf_lt b.toList i
  simp only [unpack, Vector.getElem_ofFn, masked, BitVec.toNat_ofNat]
  omega

theorem unpack_toNats (b : Vector Byte 22) :
    (unpack b).toList.map (·.toNat) = (List.range 16).map (channelOf b.toList) := by
  refine List.ext_getElem (by simp) fun i hi _ => ?_
  simpa using unpack_toNat b (i := i) (by simpa using hi)

/-- The set that DISPATCH emits and keeps, of channels of 11 bits. -/
theorem unpack_map_setWidth (b : Vector Byte 22) :
    (unpack b).map (·.setWidth 11) = Vector.ofFn fun i : Fin 16 => BitVec.ofNat 11 (channelOf b.toList i) := by
  ext1 i hi
  rw [Vector.getElem_map, Vector.getElem_ofFn]
  apply BitVec.eq_of_toNat_eq
  rw [BitVec.toNat_setWidth, BitVec.toNat_ofNat, unpack_toNat b hi]

theorem firstOver_map_range (bound n : Nat) (f : Nat → Nat) :
    firstOver bound ((List.range n).map f) =
      ((List.range n).find? fun i => decide (bound < f i)).map fun i => (i, f i) := by
  have indexed : ((List.range n).map f).zipIdx = (List.range n).map fun i => (f i, i) :=
    List.ext_getElem (by simp) (by simp)
  rw [firstOver, indexed, List.find?_map, Option.map_map]
  rfl

/-! ### DISPATCH and forwarding are the spec's (44_router_bridge.md R253, R255) -/

theorem acceptChannels_eq (s : State) (b : Vector Byte 22) :
    s.acceptChannels (unpack b) = dispatched s 0x16#8 b.toList := by
  unfold State.acceptChannels dispatched
  rw [unpack_toNats, firstOver_map_range, unpack_map_setWidth, if_neg (not_not.mpr rfl),
    if_neg (not_not.mpr (by simp))]
  cases (List.range 16).find? fun i => decide (s.params.axisMax < channelOf b.toList i) with
  | none => rfl
  | some i => rfl

theorem dispatchPacket_eq_dispatched (s : State) (type : Byte) (payload : List Byte) :
    s.dispatchPacket type payload = dispatched s type payload := by
  by_cases rc : type = 0x16#8
  · by_cases full : payload.length = 22
    · subst rc
      exact (dif_pos full).trans (acceptChannels_eq s ⟨payload.toArray, by simpa using full⟩)
    · calc s.dispatchPacket type payload
        _ = s.raise .dispatch (.rcLengthError payload.length) := (if_pos rc).trans (dif_neg full)
        _ = dispatched s type payload := ((if_neg (not_not.mpr rc)).trans (if_pos full)).symm
  · exact (if_neg rc).trans (if_pos rc).symm

theorem forward_eq_forwarded (s : State) (pkt : List Byte) : s.forward pkt = forwarded s pkt := by
  have next : s.netAnswers.headD .sent = s.netAnswer := rfl
  unfold State.forward forwarded
  rw [next]
  cases answer : s.netAnswer with
  | sent => simp [State.sendNet, State.emit, answer]
  | unreachable => simp [State.sendNet, State.raise, State.emit, conditionCode, OpName.opid, answer]
  | notConnected => simp [State.sendNet, State.emit, answer]

/-! ### One frame in one read (41_frame_codec.md R155, R165) -/

theorem scan_frameOf (type : Byte) {payload : List Byte} (h : payload.length ≤ 253) :
    (scan (frameOf type payload)).1 = [.ok (frameOf type payload)] ∧ scanLeft (frameOf type payload) = [] := by
  have len : (BitVec.ofNat 8 (payload.length + 2)).toNat = payload.length + 2 := by
    rw [BitVec.toNat_ofNat]; omega
  have valid : judge (frameOf type payload) = .ok (frameOf type payload) :=
    (judge_of_checked _ (type :: payload) _ (by simp [len]) (by omega)).trans (if_pos rfl)
  have found := scan_candidate (g := []) (BitVec.ofNat 8 (payload.length + 2))
    (type :: (payload ++ [crc8 (type :: payload)])) [] (by simp) (by simp [len]) (by simp)
  rw [List.append_nil] at found
  exact ⟨found.1.trans (by rw [← valid]; rfl), found.2⟩

theorem inner_frameOf (type : Byte) (payload : List Byte) : inner (frameOf type payload) = type :: payload :=
  List.dropLast_concat (l₁ := type :: payload)

theorem rxResult_ok (s : State) {frame payload : List Byte} {type : Byte} (h : inner frame = type :: payload) :
    s.rxResult (.ok frame) = dispatched (forwarded s (type :: payload)) type payload := by
  simp only [State.rxResult, h, forward_eq_forwarded, dispatchPacket_eq_dispatched]

/-- With RXBUF empty, a read of one valid frame enters the window, and its packet is forwarded and dispatched. -/
theorem receive_frameOf {s : State} (hb : s.rxbuf = []) (type : Byte) {payload : List Byte} (h : payload.length ≤ 253)
    (hf : fits s.params (payload.length + 4)) :
    s.receive (.bytes (frameOf type payload)) =
      dispatched (forwarded { s with stats := evict s.now (s.stats ++ [(s.now, .bytes (payload.length + 4))]) }
        (type :: payload)) type payload := by
  have len : (frameOf type payload).length = payload.length + 4 := by simp [frameOf]
  obtain ⟨found, left⟩ := scan_frameOf type h
  rw [receive_whole s _ (readSize_of_fits (len ▸ hf)), appendRead_eq, hb, List.nil_append, len,
    if_pos (Nat.succ_pos _)]
  simp only [State.scanRxbuf, drop_scan, found, left, List.foldl_cons, List.foldl_nil, rxResult_ok _ (inner_frameOf _ _)]

/-- Only RC_CHANNELS_PACKED has the type that DISPATCH unpacks. -/
theorem dispatched_of_ne {t : FrameType} (h : t ≠ .rcChannelsPacked) (s : State) (payload : List Byte) :
    dispatched s t.code payload = s :=
  if_pos fun rc : t.code = FrameType.rcChannelsPacked.code => h (FrameType.code_injective rc)

/-- Settles O43: every frame row is RX_TICK of its bytes (`exec_ofFrame`), and `receive_frameOf` says what that does. -/
theorem frameRowsRun : Obligations.FrameRowsRun := by
  refine ⟨exec_ofFrame, fun t payload s hs hc hb h hf => ?valid, fun t payload s ht => dispatched_of_ne ht s payload⟩
  rw [exec_ofFrame, exec_rxTick hs hc]
  exact congrArg Host.Outcome.next (receive_frameOf hb t.code h hf)

end Sys2Proof.Machine
end

/-! ## The CRC engine: the rule, the shift register, the table, and the laws

What stands here settles O10 to O12. One byte into the engine is additive over XOR, which gives the table by its eight powers
of two; and a checked sequence with one byte left open is an injective function of that byte, from which every law about errors
follows. -/

section

open Sys2Proof Sys2Proof.Machine Sys2Proof.Claims

namespace Sys2Proof.Machine

/-! ### One iteration (40_crc.md R141, R142) -/

theorem crcStep_eq_crcIteration (a : Byte) : crcStep a = crcIteration a := by
  have high : a.msb = a.getLsbD 7 := BitVec.msb_eq_getLsbD_last a
  unfold crcStep crcIteration
  rw [high]
  cases a.getLsbD 7
  · exact BitVec.xor_zero
  · rfl

/-- Each bit moves up one place, and the feedback enters at the set bits of the polynomial. -/
theorem getLsbD_crcStep (a : Byte) {k : Nat} (hk : k < 8) :
    (crcStep a).getLsbD k = (!decide (k < 1) && a.getLsbD (k - 1) ^^ a.getLsbD 7 && Config.poly.getLsbD k) := by
  rw [crcStep, BitVec.getLsbD_xor, BitVec.getLsbD_shiftLeft, decide_eq_true hk, Bool.true_and,
    BitVec.msb_eq_getLsbD_last]
  cases a.getLsbD 7 <;> simp

theorem getLsbD_crcStep_taps (a : Byte) {k : Nat} (hk : k < 8) : (crcStep a).getLsbD k =
    [a.getLsbD 7, a.getLsbD 0, a.getLsbD 1 ^^ a.getLsbD 7, a.getLsbD 2, a.getLsbD 3 ^^ a.getLsbD 7, a.getLsbD 4,
      a.getLsbD 5 ^^ a.getLsbD 7, a.getLsbD 6 ^^ a.getLsbD 7].getD k false := by
  rw [getLsbD_crcStep a hk]
  interval_cases k <;> simp [Config.poly]

theorem crcTapStep_eq_crcStep (a : Byte) : crcTapStep a = crcStep a := by
  refine BitVec.eq_of_getLsbD_eq fun k hk => ?_
  rw [getLsbD_crcStep_taps a hk, crcTapStep, BitVec.getLsbD_ofFnLE, dif_pos hk]
  interval_cases k <;> rfl

/-! ### One byte, and a run of bytes (40_crc.md R141, R143) -/

theorem crc8_singleton (x : Byte) : crc8 [x] = crcStep^[8] x := by
  rw [crc8_eq, crcFrom_cons, crcFrom_nil, crcByte, BitVec.zero_xor]

theorem crcByte_eq_crc8 (acc b : Byte) : crcByte acc b = crc8 [acc ^^^ b] := (crc8_singleton _).symm

theorem crc8_append (a b : List Byte) : crc8 (a ++ b) = crcFrom (crc8 a) b := by
  rw [crc8_eq, crcFrom_append, ← crc8_eq]

theorem crc8_concat (m : List Byte) (x : Byte) : crc8 (m ++ [x]) = crcByte (crc8 m) x := crc8_append m [x]

theorem crc8_eq_crcOfRule (s : List Byte) : crc8 s = crcOfRule s := by
  have iteration : crcStep = crcIteration := funext crcStep_eq_crcIteration
  rw [crc8_eq, crcOfRule, ← iteration]
  rfl

/-! ### The table (40_crc.md R142, R143) -/

/-- A byte is the XOR of its set bits. -/
theorem xor_setBits (x : Byte) :
    (List.range 8).foldl (fun v k => if x.getLsbD k then v ^^^ (1#8 <<< k) else v) 0#8 = x := by
  revert x
  decide +kernel

/-- One byte into the engine is additive, so it is known by its values at the powers of two. -/
theorem crc8_singleton_eq_xor_setBits (x : Byte) : crc8 [x] =
    (List.range 8).foldl (fun v k => if x.getLsbD k then v ^^^ crc8 [1#8 <<< k] else v) 0#8 := by
  have additive (v : Byte) (k : Nat) : (if x.getLsbD k then crc8 [v] ^^^ crc8 [1#8 <<< k] else crc8 [v]) =
      crc8 [if x.getLsbD k then v ^^^ (1#8 <<< k) else v] := by
    split
    · simp only [crc8_singleton, crcSteps_xor]
    · rfl
  calc crc8 [x]
    _ = crc8 [(List.range 8).foldl (fun v k => if x.getLsbD k then v ^^^ (1#8 <<< k) else v) 0#8] := by
      rw [xor_setBits]
    _ = _ := (List.foldl_hom (fun v => crc8 [v]) additive).symm

/-- The printed table, entry by entry. -/
theorem crcTable_eq : crcTable = (List.range 256).map fun n => crc8 [BitVec.ofNat 8 n] := by decide +kernel

theorem crcTable_getElem? (x : Byte) : crcTable[x.toNat]? = some (crc8 [x]) := by
  simp [crcTable_eq, x.isLt]

theorem crcTable_getD (x : Byte) : crcTable.getD x.toNat 0#8 = crc8 [x] := by
  rw [List.getD_eq_getElem?_getD, crcTable_getElem?, Option.getD_some]

/-! ### Linearity (40_crc.md R144 (c), (d)) -/

theorem crc8_zero_cons (m : List Byte) : crc8 (0#8 :: m) = crc8 m := by
  rw [crc8_eq, crcFrom_cons, crcByte_self, ← crc8_eq]

theorem crcFrom_zipWith_xor (x y : Byte) {a b : List Byte} (h : a.length = b.length) :
    crcFrom (x ^^^ y) (List.zipWith (· ^^^ ·) a b) = crcFrom x a ^^^ crcFrom y b := by
  induction a generalizing x y b with
  | nil =>
    obtain rfl := List.length_eq_zero_iff.mp h.symm
    rfl
  | cons c a ih =>
    cases b with
    | nil => cases h
    | cons d b => simp only [List.zipWith_cons_cons, crcFrom_cons, crcByte_xor, ih _ _ (Nat.succ.inj h)]

theorem crc8_zipWith_xor {a b : List Byte} (h : a.length = b.length) :
    crc8 (List.zipWith (· ^^^ ·) a b) = crc8 a ^^^ crc8 b := by
  simpa only [crc8_eq, BitVec.xor_zero] using crcFrom_zipWith_xor 0#8 0#8 h

/-! ### Errors (40_crc.md R144 (b), (e), (f)) -/

/-- The CRC of a sequence with one byte left open tells that byte. -/
theorem crc8_open_injective (p q : List Byte) : Function.Injective fun x : Byte => crc8 (p ++ x :: q) := by
  intro x y h
  simp only [crc8_append, crcFrom_cons] at h
  exact crcByte_injective _ (crcFrom_injective q h)

theorem crc8_set_ne {m : List Byte} {i : Nat} (hi : i < m.length) {x : Byte} (hx : x ≠ m.getD i 0#8) :
    crc8 (m.set i x) ≠ crc8 m := by
  have opened : m = m.take i ++ m.getD i 0#8 :: m.drop (i + 1) := by
    rw [List.getD_eq_getElem _ _ hi, List.cons_getElem_drop_succ, List.take_append_drop]
  rw [List.set_eq_take_append_cons_drop, if_pos hi]
  conv_rhs => rw [opened]
  exact fun h => hx (crc8_open_injective _ _ h)

theorem flipBit_ne (x : Byte) {k : Nat} (hk : k < 8) : x ^^^ (1#8 <<< k) ≠ x := by
  intro same
  have bit : (x ^^^ (1#8 <<< k)).getLsbD k = !x.getLsbD k := by simp [hk]
  rw [same] at bit
  exact (Bool.self_ne_not _) bit

theorem crc8_self_check (m : List Byte) : crc8 (m ++ [crc8 m]) = 0#8 := by rw [crc8_concat, crcByte_self]

/-- The CRC over type, payload and crc byte of a valid frame. -/
theorem crc8_validFrame {f : List Byte} (h : validFrame f = true) : crc8 (f.drop 2) = 0#8 := by
  obtain ⟨len, body, rfl, -, -⟩ := validFrame_form f h
  exact crc8_self_check body

theorem validFrame_set_ne {f : List Byte} (h : validFrame f = true) {i : Nat} (h2 : 2 ≤ i) (hi : i < f.length) {x : Byte}
    (hx : x ≠ f.getD i 0#8) : validFrame (f.set i x) = false := by
  refine Bool.eq_false_iff.mpr fun valid => ?_
  have checked : (f.set i x).drop 2 = (f.drop 2).set (i - 2) x := by rw [List.drop_set, if_neg (by omega)]
  have replaced : x ≠ (f.drop 2).getD (i - 2) 0#8 := by
    rwa [List.getD_eq_getElem?_getD, List.getElem?_drop, Nat.add_sub_cancel' h2, ← List.getD_eq_getElem?_getD]
  refine crc8_set_ne (by rw [List.length_drop]; omega) replaced ?_
  rw [← checked, crc8_validFrame valid, crc8_validFrame h]

/-! ### The statements -/

/-- Settles O11: the taps bit by bit, the byte by its set bits, and the table's entries as those of one byte. -/
theorem crcStepAndTable : Obligations.CrcStepAndTable := by
  refine ⟨fun a k hk => getLsbD_crcStep_taps a hk, fun a => ⟨crcStep_eq_crcIteration a, crcTapStep_eq_crcStep a⟩,
    fun a b => (crc8_singleton _).symm, crc8_singleton_eq_xor_setBits, ?powers, crcTable_getElem?, fun s => ?run⟩
  case powers => decide +kernel
  case run =>
    simp only [crcTable_getD, ← crcByte_eq_crc8]
    exact crc8_eq s

/-- Settles O12: the laws of errors are `crc8_open_injective`, for a byte anywhere, the last one and the only one. -/
theorem crcLaws : Obligations.CrcLaws := by
  refine ⟨crc8_append, crc8_self_check, fun f => crc8_validFrame, crc8_zero_cons, ⟨[0x01#8], ?trailing⟩,
    fun a b => crc8_zipWith_xor, fun m i k hi hk => crc8_set_ne hi (flipBit_ne _ hk),
    fun f i k h h2 hi hk => validFrame_set_ne h h2 hi (flipBit_ne _ hk), ?bijective,
    fun p x y => (crc8_open_injective p []).ne⟩
  case trailing => decide +kernel
  case bijective => exact Finite.injective_iff_bijective.mp (crc8_open_injective [] [])

/-- Settles O10: the operation answers `crc8`, which is the rule as transcribed. -/
theorem crc8Runs : Obligations.Crc8Runs := by
  intro b s h
  refine ⟨rfl, ?_⟩
  rw [exec_crc8 h, crc8_eq_crcOfRule]
  rfl

end Sys2Proof.Machine
end

/-! ## The canonical form of the block's storage

What stands here settles O56. `Canonical` is the form with a name for each element; an operation is shown to keep it by the
elements it writes, every other one standing as it was. -/

section

open Sys2Proof Sys2Proof.Machine

namespace Sys2Proof.Machine

/-- The canonical form, element by element (41_frame_codec.md R160, 10_state.md R28, R32, R33, 44_router_bridge.md R257). -/
structure Canonical (s : State) : Prop where
  rxbuf : leftoverForm s.rxbuf = true
  txqNet : ∀ f ∈ s.txqNet, validFrame f = true
  txqTel : ∀ f ∈ s.txqTel, validFrame f = true
  dest : destWf s.params.destCap s.dest = true
  stats : statsWf s.now s.stats = true
  channels : channelsWf s.params.axisMax s.chValid s.ch = true

theorem canonical_iff (s : State) : Memory.wf s = true ↔ Canonical s := by
  rw [memory_wf_iff]
  exact ⟨fun ⟨rxbuf, txqNet, txqTel, dest, stats, channels⟩ => ⟨rxbuf, txqNet, txqTel, dest, stats, channels⟩,
    fun c => ⟨c.rxbuf, c.txqNet, c.txqTel, c.dest, c.stats, c.channels⟩⟩

/-! ### What an operation may change, where nothing it stores is at stake -/

theorem Emitted.canonical {s t : State} (h : Emitted s t) (c : Canonical s) : Canonical t := by
  rw [h.2]
  exact { c with }

theorem Sent.canonical {s t : State} (h : Sent s t) (c : Canonical s) (dest : t.dest.Sublist s.dest) : Canonical t := by
  rw [h.2]
  exact { c with dest := destWf_sublist c.dest dest }

theorem Queued.canonical {s t : State} (h : Queued s t) (c : Canonical s) (txqTel : ∀ f ∈ t.txqTel, validFrame f = true) :
    Canonical t := by
  rw [h.2.2]
  exact { c with txqTel }

/-- The receive path owns the window and the channel registers. -/
theorem Received.canonical {s t : State} (h : Received s t) (c : Canonical s) (stats : statsWf s.now t.stats = true)
    (channels : channelsWf s.params.axisMax t.chValid t.ch = true) : Canonical t := by
  rw [h.2]
  exact { c with stats, channels }

/-- A line is taken off the schedule, and time passes: no entry of the window is later than before (10_state.md R33). -/
theorem Canonical.taken {s : State} (c : Canonical s) (rest : List Stimulus) {ms : Nat} (h : s.now ≤ ms) :
    Canonical { s with stimulus := rest, now := ms } :=
  { c with stats := statsWf_sublist c.stats h (List.Sublist.refl _) }

/-! ### The receive path (44_router_bridge.md R251 to R257) -/

theorem dispatchPacket_stats (s : State) (ty : Byte) (p : List Byte) : (s.dispatchPacket ty p).stats = s.stats := by
  unfold State.dispatchPacket
  split
  · split
    · unfold State.acceptChannels
      split
      · rfl
      · rfl
    · rfl
  · rfl

theorem dispatchPacket_canonical {s : State} (c : Canonical s) (ty : Byte) (p : List Byte) :
    Canonical (s.dispatchPacket ty p) := by
  refine (dispatchPacket_received s ty p).canonical c (by rw [dispatchPacket_stats]; exact c.stats) ?_
  rw [← (dispatchPacket_kept s ty p).params]
  exact dispatchPacket_wf s ty p c.channels

theorem rxResult_canonical (s : State) (r : FrameResult) (c : Canonical s) : Canonical (s.rxResult r) := by
  have received := rxResult_received s r
  have same : (s.rxResult r).now = s.now ∧ (s.rxResult r).params = s.params := by
    rw [received.2]
    exact ⟨rfl, rfl⟩
  obtain ⟨stats, channels⟩ := rxResult_wf s r c.stats c.channels
  rw [same.1] at stats
  rw [same.2] at channels
  exact received.canonical c stats channels

theorem rxResults_canonical {s : State} (c : Canonical s) (l : List FrameResult) : Canonical (l.foldl State.rxResult s) :=
  foldl_keeps (fun s t => Canonical s → Canonical t) (fun _ => id) (fun _ _ _ h k => k ∘ h) _ l
    (fun s r _ => rxResult_canonical s r) s c

/-- A read enters the window, unless it is empty (10_state.md R33). -/
theorem appendRead_stats_wf {s : State} (c : Canonical s) (r : List Byte) : statsWf s.now (s.appendRead r).stats = true := by
  rw [appendRead_eq]
  simp only
  split
  next nonempty => exact statsWf_push c.stats fun h => nonempty.ne' (StatEntry.bytes.inj h)
  next => exact c.stats

/-- Whatever RXBUF holds after a read, what the scan leaves of it is an incomplete candidate or nothing. -/
theorem appendRead_scanRxbuf_canonical {s : State} (c : Canonical s) (r : List Byte) :
    Canonical (s.appendRead r).scanRxbuf := by
  refine rxResults_canonical ?trimmed _
  have stats := appendRead_stats_wf c r
  rw [drop_scan]
  rw [appendRead_eq] at stats ⊢
  exact { c with rxbuf := leftoverForm_scanLeft _, stats }

theorem receive_canonical {s : State} (c : Canonical s) (r : ReadResult) : Canonical (s.receive r) := by
  cases r with
  | closed => exact { c with }
  | bytes r =>
    have unread : Canonical (s.unread (r.drop (readSize s.params r.length))) := by
      rw [unread_eq]
      exact { c with }
    exact appendRead_scanRxbuf_canonical unread _

/-! ### The queues, the telemetry encoder and the destination set -/

theorem netDatagram_canonical {s : State} (c : Canonical s) (d : List Byte) : Canonical (s.netDatagram d) := by
  have queue := netDatagram_valid s d c.txqNet
  unfold State.netDatagram at queue ⊢
  split
  · exact (raise_emitted _ _ _).canonical c
  · split
    next frame built =>
      simp only [built] at queue
      exact { c with txqNet := queue }
    next => exact (raise_emitted _ _ _).canonical c

theorem dequeue_canonical {s : State} (c : Canonical s) (q : TxQueue) : Canonical (s.dequeue q) := by
  cases q with
  | net => exact { c with txqNet := fun f hf => c.txqNet f (List.mem_of_mem_tail hf) }
  | tel => exact { c with txqTel := fun f hf => c.txqTel f (List.mem_of_mem_tail hf) }

theorem writeHead_canonical {s : State} (c : Canonical s) : Canonical s.writeHead := by
  unfold State.writeHead
  split
  next => exact c
  next frame _ =>
    have written : Canonical ((s.dequeue s.txChoice).writeFrame frame) := { dequeue_canonical c s.txChoice with }
    simp only
    split
    · exact written
    · exact { written with }

theorem loadRecord_canonical {s : State} (c : Canonical s) (rec : TelemetryRecord) : Canonical (s.loadRecord rec) := by
  unfold State.loadRecord
  simp only
  split
  · split
    · exact { c with }
    · exact { c with }
  all_goals exact { c with }

theorem tick_canonical {s : State} (c : Canonical s) : Canonical s.tick :=
  have moved : Canonical { s with nextTick := s.nextTick + 100 } := { c with }
  (tick_queued s).canonical moved (tick_valid s c.txqTel)

theorem reportStats_canonical {s : State} (c : Canonical s) : Canonical s.reportStats :=
  { c with stats := statsWf_evict c.stats }

theorem registerDest_canonical {s : State} (c : Canonical s) (a : Addr) : Canonical (s.registerDest a) := by
  have dest := destWf_insert c.dest a
  unfold State.registerDest at dest ⊢
  split
  next room =>
    rw [if_pos room] at dest
    exact { c with dest }
  next => exact c

theorem broadcast_canonical {s : State} (c : Canonical s) (d : List Byte) : Canonical (s.broadcast d) :=
  have drawn : Canonical { s with bcPlans := s.bcPlans.tail } := { c with }
  (broadcast_sent s d).canonical drawn (broadcast_dest s d)

/-! ### Every instruction and every line -/

theorem Effect.canonical {i : Instr} {s t : State} (h : Effect i s t) (c : Canonical s) : Canonical t := by
  cases h with
  | none h => rwa [h]
  | emitted h => exact h.canonical c
  | received r _ _ h => rw [h]; exact receive_canonical c r
  | dispatched ty p _ _ h => rw [h]; exact dispatchPacket_canonical c ty p
  | datagram d _ h => rw [h]; exact netDatagram_canonical c d
  | written _ _ h => rw [h]; exact writeHead_canonical c
  | loaded rec _ h => rw [h]; exact loadRecord_canonical c rec
  | ticked _ _ h => rw [h]; exact tick_canonical c
  | reported _ h => rw [h]; exact reportStats_canonical c
  | registered a _ _ _ h => rw [h]; exact registerDest_canonical c a
  | unregistered a _ _ _ h => rw [h]; exact { c with dest := destWf_sublist c.dest (destErase_sublist a s.dest) }
  | quit _ _ h => rw [h]; exact { c with }
  | broadcast d _ _ _ h => rw [h]; exact broadcast_canonical c d
  | stopped _ h => rw [h]; exact { c with }

theorem exec_canonical {i : Instr} {s t : State} (h : exec i s = .next t) (c : Canonical s) : Canonical t :=
  (exec_effect i s t h).canonical c

theorem Line.canonical {s t : State} (h : Line s t) (c : Canonical s) : Canonical t := by
  cases h with
  | idle _ ht => rwa [ht]
  | presented p i rest _ _ ht => exact exec_canonical ht (c.taken rest le_rfl)
  | ticked rest _ _ ht => exact exec_canonical ht (c.taken rest (le_max_left ..))
  | clock ms rest _ hn ht => rw [ht]; exact c.taken rest hn
  | shut rest _ _ ht => rw [ht]; exact { c with }
  | signalled rest _ _ ht => rw [ht]; exact { c with }
  | reported rest ms _ _ hn ht => exact exec_canonical ht (c.taken rest hn)
  | unanswered rest ms _ _ hn ht => exact exec_canonical ht (c.taken rest hn)
  | heldOff line rest _ _ ht => rw [ht]; exact c.taken rest le_rfl
  | reset rest _ ht => rw [ht]; exact (canonical_iff _).mp (memory_wf_resetEvent _)

/-- Settles O56: a step is a line of the schedule, and every line keeps `Canonical`. -/
theorem canonicalFormKept : Obligations.CanonicalFormKept := by
  intro s t wf h
  rw [canonical_iff] at wf ⊢
  exact (step_line s t h).canonical wf

end Sys2Proof.Machine
end

/-! ## The Frame Codec: what SCAN finds, what it leaves, and BUILD

What stands here settles O13 to O20. A scan is known by two lists, its results and its leftover, and `consumed` is the length
without the leftover. Built frames and the byte-serial machine go through `scan_append`, the cut of the stream in two. -/

section

open Sys2Proof Sys2Proof.Machine Sys2Proof.Claims

namespace Sys2Proof.Machine

/-! ### The results, the leftover and `consumed` (41_frame_codec.md R150) -/

theorem consumed_add_left (buf : List Byte) : (scan buf).2 + (scanLeft buf).length = buf.length :=
  Nat.sub_add_cancel (scanLeft_suffix buf).length_le

theorem scan_eq_iff (buf : List Byte) (results : List FrameResult) (n : Nat) :
    scan buf = (results, n) ↔ (scan buf).1 = results ∧ n + (scanLeft buf).length = buf.length := by
  have whole := consumed_add_left buf
  rw [Prod.ext_iff]
  refine and_congr_right fun _ => ?_
  constructor
  · rintro rfl
    exact whole
  · intro h
    simp only
    omega

/-- A scan whose first pass ends it. -/
theorem scan_of_last_pass {g left : List Byte} (pass : ∀ n, scanLoop (n + 1) (g ++ left) = ([], left)) :
    scan (g ++ left) = ([], g.length) := by
  have left_eq : scanLeft (g ++ left) = left := by rw [scanLeft, pass]
  rw [scan_eq_iff, left_eq, scan, pass, List.length_append]
  exact ⟨rfl, rfl⟩

/-! ### The form of a leftover (41_frame_codec.md R160) -/

theorem leftoverForm_iff (left : List Byte) : leftoverForm left = true ↔
    left = [] ∨ left = [Config.sync] ∨ (∃ len, left = [Config.sync, len]) ∨
      ∃ len more, left = Config.sync :: len :: more ∧ 1 ≤ more.length ∧ more.length < len.toNat := by
  match left with
  | [] => simp [leftoverForm]
  | [b₀] => simp [leftoverForm]
  | [b₀, len] => simp [leftoverForm]
  | b₀ :: len :: b :: more => simp [leftoverForm]

/-- An incomplete candidate waits: it gives nothing and is kept whole. -/
theorem scan_leftover {left : List Byte} (h : leftoverForm left = true) : scan left = ([], 0) := by
  rcases (leftoverForm_iff left).mp h with rfl | rfl | ⟨len, rfl⟩ | ⟨len, more, rfl, -, hm⟩
  · rfl
  · exact scan_of_last_pass (g := []) fun n => scanLoop_short n [] [] (by simp) (by simp)
  · exact scan_of_last_pass (g := []) fun n => scanLoop_short n [] [len] (by simp) (by simp)
  · exact scan_of_last_pass (g := []) fun n => scanLoop_wait n [] len more (by simp) hm

theorem scanLeft_leftover {left : List Byte} (h : leftoverForm left = true) : scanLeft left = left := by
  rw [← drop_scan, scan_leftover h, List.drop_zero]

theorem leftover_length_le {left : List Byte} (h : leftoverForm left = true) : left.length ≤ 256 := by
  rcases (leftoverForm_iff left).mp h with rfl | rfl | ⟨len, rfl⟩ | ⟨len, more, rfl, -, hm⟩
  case inr.inr.inr =>
    have small := len.isLt
    simp only [List.length_cons]
    omega
  all_goals simp

theorem leftover_head {left : List Byte} (h : leftoverForm left = true) : left = [] ∨ left.head? = some Config.sync := by
  rcases (leftoverForm_iff left).mp h with rfl | rfl | ⟨len, rfl⟩ | ⟨len, more, rfl, -, -⟩
  · exact .inl rfl
  all_goals exact .inr rfl

/-- The scan cursor ends behind the bytes or at a sync byte. -/
theorem consumed_at_sync (buf : List Byte) : (scan buf).2 = buf.length ∨ buf[(scan buf).2]? = some Config.sync := by
  have whole := consumed_add_left buf
  rcases leftover_head (leftoverForm_scanLeft buf) with none_left | sync
  · rw [none_left] at whole
    exact .inl whole
  · rw [← drop_scan, List.head?_drop] at sync
    exact .inr sync

/-- Each result takes at least two bytes (41_frame_codec.md R159). -/
theorem two_mul_results_le (buf : List Byte) : 2 * (scan buf).1.length ≤ buf.length := by
  rcases scan_first_pass buf with ⟨g, -, -, hnone⟩ | ⟨g, len, body, after, hg, hb, hne, h⟩
  · rw [hnone]
    exact Nat.zero_le _
  · have shorter := two_mul_results_le after
    subst h
    rw [(scan_candidate len body after hg hb hne).1]
    simp only [List.length_append, List.length_cons]
    omega
termination_by buf.length
decreasing_by subst h; simp only [List.length_append, List.length_cons]; omega

/-- The framer state is a function of the fill of RXBUF (10_state.md R24). -/
theorem framerState_iff (s : State) :
    (framerState s = .awaitingSync ↔ s.rxbuf.length = 0) ∧
    (framerState s = .haveSyncNeedLength ↔ s.rxbuf.length = 1) ∧
    (framerState s = .haveLengthNeedBody ↔ 2 ≤ s.rxbuf.length) := by
  unfold framerState
  split
  next empty => simp [empty]
  next one => simp [one]
  next more => simp [more]

/-! ### The stream cut into reads (41_frame_codec.md R161, R162) -/

theorem scan_append_eq (a b : List Byte) :
    scan (a ++ b) = ((scan a).1 ++ (scan (scanLeft a ++ b)).1, (scan a).2 + (scan (scanLeft a ++ b)).2) := by
  obtain ⟨results, left⟩ := scan_append a b
  have first := consumed_add_left a
  have second := consumed_add_left (scanLeft a ++ b)
  rw [scan_eq_iff, left]
  refine ⟨results, ?_⟩
  rw [List.length_append] at second ⊢
  omega

/-- Reads that follow an incomplete candidate are one scan of it with all their bytes behind it. -/
theorem scanReads_eq {left : List Byte} (h : leftoverForm left = true) (reads : List (List Byte)) :
    scanReads left reads = ((scan (left ++ reads.flatten)).1, scanLeft (left ++ reads.flatten)) := by
  induction reads generalizing left with
  | nil => simp only [scanReads, List.flatten_nil, List.append_nil, scan_leftover h, scanLeft_leftover h]
  | cons r reads ih =>
    obtain ⟨results, kept⟩ := scan_append (left ++ r) reads.flatten
    rw [List.flatten_cons, ← List.append_assoc, results, kept]
    simp only [scanReads, drop_scan, ih (leftoverForm_scanLeft _)]

theorem scan_singleton (b : Byte) : (scan [b]).1 = [] ∧ scanLeft [b] = if b = Config.sync then [b] else [] := by
  split
  next sync =>
    have form : leftoverForm [b] = true := by simp [leftoverForm, sync]
    exact ⟨by rw [scan_leftover form], scanLeft_leftover form⟩
  next other =>
    have ends := scanLoop_none 1 [b] (by simpa using Ne.symm other)
    exact Prod.mk.inj ends

/-- One byte into the machine is SCAN of the buffer with that byte behind it. -/
theorem serialStep_eq {buf : List Byte} (h : leftoverForm buf = true) (b : Byte) :
    serialStep buf b = ((scan (buf ++ [b])).1, scanLeft (buf ++ [b])) := by
  have waits (form : leftoverForm (buf ++ [b]) = true) :
      ([], buf ++ [b]) = ((scan (buf ++ [b])).1, scanLeft (buf ++ [b])) := by
    rw [scan_leftover form, scanLeft_leftover form]
  obtain ⟨found, left⟩ := scan_singleton b
  match buf, h with
  | [], _ => exact Prod.ext found.symm left.symm
  | [b₀], h => exact waits (by simpa [leftoverForm] using h)
  | b₀ :: len :: more, h =>
    obtain ⟨rfl, room⟩ : b₀ = Config.sync ∧ (more = [] ∨ more.length < len.toNat) := by simpa [leftoverForm] using h
    simp only [serialStep]
    split
    case isTrue full =>
      have complete : (more ++ [b]).length = len.toNat := by simpa using full.2
      have candidate := scan_candidate (g := []) len (more ++ [b]) [] (by simp) complete (by simp)
      rw [List.append_nil] at candidate
      exact Prod.ext candidate.1.symm candidate.2.symm
    case isFalse notFull =>
      split
      case isTrue zero =>
        obtain rfl : more = [] := room.resolve_right (by omega)
        have candidate := scan_candidate (g := []) len [] [b] (by simp) zero.symm (by simp)
        rw [found, left] at candidate
        exact Prod.ext candidate.1.symm candidate.2.symm
      case isFalse positive =>
        refine waits ?_
        have short : (more ++ [b]).length < len.toNat := by
          have held := room.imp_left List.length_eq_zero_iff.mpr
          simp only [List.length_cons, List.length_append, List.length_nil] at notFull ⊢
          omega
        simp only [leftoverForm, List.cons_append, decide_eq_true short, Bool.or_true, decide_true, Bool.and_true]

/-- The machine is repeated SCAN of reads of one byte. -/
theorem serialRun_eq_scanReads {buf : List Byte} (h : leftoverForm buf = true) (bytes : List Byte) :
    serialRun buf bytes = scanReads buf (bytes.map fun b => [b]) := by
  induction bytes generalizing buf with
  | nil => rfl
  | cons b bytes ih =>
    rw [List.map_cons, serialRun, scanReads]
    simp only [serialStep_eq h, drop_scan, ih (leftoverForm_scanLeft _)]

/-! ### Built frames (41_frame_codec.md R163, R165, R167, R168) -/

theorem frameOf_length (t : Byte) (p : List Byte) : (frameOf t p).length = p.length + 4 := by simp [frameOf]

theorem frameOf_eq_concat (t : Byte) (p : List Byte) :
    frameOf t p = (Config.sync :: BitVec.ofNat 8 (p.length + 2) :: t :: p) ++ [crc8 (t :: p)] := rfl

theorem drop_frameOf_length_sub_one (t : Byte) (p : List Byte) :
    (frameOf t p).drop ((frameOf t p).length - 1) = [crc8 (t :: p)] := by
  rw [frameOf_length, frameOf_eq_concat]
  exact List.drop_left' rfl

theorem lengthByte_toNat {p : List Byte} (h : p.length ≤ 253) : (BitVec.ofNat 8 (p.length + 2)).toNat = p.length + 2 := by
  rw [BitVec.toNat_ofNat]
  omega

theorem build_eq_frameOf (t : Byte) {p : List Byte} (h : p.length ≤ 253) : build t p = .ok (frameOf t p) :=
  if_neg (by simp only [Config.lenMax]; omega)

theorem build_eq_error (t : Byte) {p : List Byte} (h : 255 < p.length + 2) : build t p = .error p.length := if_pos h

/-- A valid frame is what BUILD makes of its type and payload. -/
theorem validFrame_eq_frameOf {f : List Byte} (h : validFrame f = true) : ∃ t p, p.length ≤ 253 ∧ f = frameOf t p := by
  obtain ⟨len, body, rfl, h2, hb⟩ := validFrame_form f h
  obtain ⟨t, p, rfl⟩ : ∃ t p, body = t :: p := List.exists_cons_of_length_pos (by omega)
  rw [List.length_cons] at hb
  have small := len.isLt
  refine ⟨t, p, by omega, ?_⟩
  have announced : BitVec.ofNat 8 (p.length + 2) = len := by
    rw [hb, BitVec.ofNat_toNat, BitVec.setWidth_eq]
  rw [frameOf, announced]
  rfl

theorem scan_frameOf_append (t : Byte) {p : List Byte} (h : p.length ≤ 253) (after : List Byte) :
    (scan (frameOf t p ++ after)).1 = .ok (frameOf t p) :: (scan after).1 ∧
      scanLeft (frameOf t p ++ after) = scanLeft after := by
  obtain ⟨found, left⟩ := scan_frameOf t h
  have cut := scan_append (frameOf t p) after
  rwa [found, left] at cut

theorem scan_frames {fs : List (Byte × List Byte)} (h : ∀ f ∈ fs, f.2.length ≤ 253) :
    (scan (fs.map fun f => frameOf f.1 f.2).flatten).1 = (fs.map fun f => .ok (frameOf f.1 f.2)) ∧
      scanLeft (fs.map fun f => frameOf f.1 f.2).flatten = [] := by
  induction fs with
  | nil => exact ⟨rfl, rfl⟩
  | cons f fs ih =>
    obtain ⟨hf, hfs⟩ := List.forall_mem_cons.mp h
    obtain ⟨found, left⟩ := scan_frameOf_append f.1 hf (fs.map fun f => frameOf f.1 f.2).flatten
    simp only [List.map_cons, List.flatten_cons, found, left, ih hfs, and_self]

theorem scan_wrong_crc (t : Byte) {p : List Byte} {x : Byte} (h : p.length ≤ 253) (hx : x ≠ crc8 (t :: p))
    (after : List Byte) :
    (scan ((frameOf t p).dropLast ++ [x] ++ after)).1 = .crcError :: (scan after).1 ∧
      scanLeft ((frameOf t p).dropLast ++ [x] ++ after) = scanLeft after := by
  have len := lengthByte_toNat h
  have judged : judge (Config.sync :: BitVec.ofNat 8 (p.length + 2) :: (t :: p ++ [x])) = .crcError :=
    (judge_of_checked _ (t :: p) x (by simp [len]) (by omega)).trans (if_neg hx.symm)
  have damaged : (frameOf t p).dropLast ++ [x] ++ after =
      [] ++ Config.sync :: BitVec.ofNat 8 (p.length + 2) :: ((t :: p ++ [x]) ++ after) := by
    rw [frameOf_eq_concat, List.dropLast_concat]
    simp
  have found := scan_candidate (g := []) (BitVec.ofNat 8 (p.length + 2)) (t :: p ++ [x]) after (by simp) (by simp [len])
    (by simp)
  rwa [judged, ← damaged] at found

/-- A frame that has not arrived whole is an incomplete candidate. -/
theorem leftoverForm_take_frameOf (t : Byte) {p : List Byte} {n : Nat} (h : p.length ≤ 253) (hn : n < p.length + 4) :
    leftoverForm ((frameOf t p).take n) = true := by
  match n, hn with
  | 0, _ => rfl
  | 1, _ => rfl
  | n + 2, hn =>
    have len := lengthByte_toNat h
    have short : ((t :: (p ++ [crc8 (t :: p)])).take n).length < (BitVec.ofNat 8 (p.length + 2)).toNat := by
      rw [List.length_take, len]
      omega
    simp only [frameOf, List.take_succ_cons, leftoverForm, decide_eq_true short, Bool.or_true, Bool.and_true]
    rfl

/-! ### The statements -/

/-- Settles O14: each way a pass ends, then the two judgements. -/
theorem scanAlgorithm : Obligations.ScanAlgorithm := by
  refine ⟨fun buf hg => ?none, fun g tail hg ht => ?short, fun g len more hg hm => ?wait,
    fun g len body after hg hb hne => ?candidate, fun len body _ h => judge_short len body h,
    fun len checked crc => judge_of_checked len checked crc⟩
  case none =>
    have ends := scan_of_last_pass (g := buf) (left := []) fun n => by
      rw [List.append_nil]
      exact scanLoop_none n buf hg
    rwa [List.append_nil] at ends
  case short => exact scan_of_last_pass fun n => scanLoop_short n g tail hg ht
  case wait => exact scan_of_last_pass fun n => scanLoop_wait n g len more hg hm
  case candidate =>
    obtain ⟨found, left⟩ := scan_candidate len body after hg hb hne
    have behind := consumed_add_left after
    refine (scan_eq_iff _ _ _).mpr ⟨found, ?_⟩
    rw [show (0xC8#8 : Byte) = Config.sync from rfl, left]
    simp only [List.length_append, List.length_cons]
    omega

/-- Settles O15: a leftover has `leftoverForm`, and every clause about it follows from that form. -/
theorem scanLeftover : Obligations.ScanLeftover := by
  intro buf
  have form := leftoverForm_scanLeft buf
  rw [drop_scan]
  exact ⟨(Nat.le_div_iff_mul_le (by decide)).mpr (by have := two_mul_results_le buf; omega), consumed_at_sync buf,
    (leftoverForm_iff _).mp form, leftover_length_le form, scan_leftover form, fun s _ => framerState_iff s⟩

/-- Settles O16: the cut in two, and by induction any cut. -/
theorem scanCutIndependent : Obligations.ScanCutIndependent := by
  refine ⟨fun a b => ?_, fun reads => ?_⟩
  · rw [drop_scan]
    exact scan_append_eq a b
  · rw [drop_scan]
    exact scanReads_eq rfl reads

/-- Settles O17: the machine is repeated SCAN of one byte, which is one SCAN of all. -/
theorem serialMachineIsScan : Obligations.SerialMachineIsScan := by
  intro bytes
  have serial := serialRun_eq_scanReads (buf := []) rfl bytes
  refine ⟨?_, serial⟩
  rw [serial, scanReads_eq rfl, drop_scan, ← List.flatMap_def, List.flatMap_singleton', List.nil_append]

/-- Settles O18: the clauses on frames, whole, damaged and cut short; then the heartbeat hidden behind `C8 FF`. -/
theorem builtFramesScan : Obligations.BuiltFramesScan := by
  refine ⟨fun fs h => ?frames, fun t p h => ⟨build_eq_frameOf t h, ?one⟩, fun t p x u q hp hq hx => ?damaged,
    fun t p n h hn => scan_leftover (leftoverForm_take_frameOf t h hn), [0xC8#8, 0xFF#8], by simp, ?hidden⟩
  case frames =>
    obtain ⟨found, left⟩ := scan_frames h
    refine (scan_eq_iff _ _ _).mpr ⟨found, ?_⟩
    simp [left, List.length_flatten, frameOf_length, Function.comp_def]
  case one =>
    obtain ⟨found, left⟩ := scan_frameOf t h
    exact (scan_eq_iff _ _ _).mpr ⟨found, by rw [left, frameOf_length]; rfl⟩
  case damaged =>
    obtain ⟨first, behind⟩ := scan_wrong_crc t hp hx (frameOf u q)
    obtain ⟨second, left⟩ := scan_frameOf u hq
    refine (scan_eq_iff _ _ _).mpr ⟨by rw [first, second], ?_⟩
    rw [behind, left, List.length_append, List.length_append, List.length_dropLast, frameOf_length, frameOf_length]
    rfl
  case hidden => exact scan_leftover rfl

/-- Settles O20: what SCAN reports is a valid frame, and a valid frame is a built one. -/
theorem scanThenBuild : Obligations.ScanThenBuild := by
  intro buf f reported
  obtain ⟨t, p, hp, rfl⟩ := validFrame_eq_frameOf (scanLoop_ok_valid _ buf f reported)
  have built := build_eq_frameOf t hp
  refine ⟨t, p, ?_, built, fun s hs => ?_⟩
  · rw [drop_frameOf_length_sub_one]
    rfl
  · rw [exec_netIn hs]
    simp only [State.netDatagram, built, State.enqueueNet]

/-- Settles O13. -/
theorem scanRuns : Obligations.ScanRuns :=
  fun buf _ h => ⟨rfl, exec_scan h buf, Nat.sub_le _ _⟩

/-- Settles O19: BUILD answers `frameOf` up to 253 bytes of payload, and an error above. -/
theorem buildRuns : Obligations.BuildRuns := by
  refine fun t p s h => ⟨rfl, fun hp => ?_, fun hp => ?_⟩
  · exact exec_build_ok h (build_eq_frameOf t (by omega))
  · exact exec_build_error h (build_eq_error t hp)

end Sys2Proof.Machine
end

/-! ## The Channel Codec: one integer, cut into bytes or into channels

What stands here settles O21 to O26. The bytes and the channels are lanes, of 8 and of 11 bits, of one integer, and
`Lanes.shiftRight_eq` takes the lowest lane off what is left of it: the stepwise form and every line of the unrolled forms do
so one, two or three times. `bitSpace_of_pack` says that PACK keeps the integer, and `laneSpace_unpack` that UNPACK does. -/

section

open Sys2Proof Sys2Proof.Machine Sys2Proof.Claims

namespace Sys2Proof.Machine

/-! ### Lanes of an integer (20_memory.md R63) -/

/-- `V` is `lane 0`, `lane 1` and so on, each of `w` bits, the first one lowest. -/
structure Lanes (w : Nat) (lane : Nat → Nat) (V : Nat) : Prop where
  small : ∀ i, lane i < 2 ^ w
  bit : ∀ k, V.testBit k = (lane (k / w)).testBit (k % w)

/-- What stands above a mask does not get through it. -/
theorem or_shiftLeft_and_mask (x y : Nat) {m d : Nat} (h : m ≤ d) :
    (x ||| y <<< d) &&& (2 ^ m - 1) = x &&& (2 ^ m - 1) := by
  have above : y <<< d &&& (2 ^ m - 1) = 0 := by
    rw [Nat.and_two_pow_sub_one_eq_mod, Nat.shiftLeft_eq]
    exact Nat.mod_eq_zero_of_dvd ((Nat.pow_dvd_pow 2 h).trans (Nat.dvd_mul_left _ _))
  rw [Nat.and_or_distrib_right, above, Nat.or_zero]

section
variable {w V : Nat} {lane : Nat → Nat} (lanes : Lanes w lane V)
include lanes

/-- From a cursor within lane `j`: what is left of that lane, and above it the lanes from `j + 1` on. -/
theorem Lanes.shiftRight_eq {s : Nat} (hs : s ≤ w) (j : Nat) :
    V >>> (w * j + s) = lane j >>> s ||| (V >>> (w * (j + 1))) <<< (w - s) := by
  refine Nat.eq_of_testBit_eq fun t => ?_
  rw [Nat.testBit_or, Nat.testBit_shiftLeft, Nat.testBit_shiftRight, Nat.testBit_shiftRight, Nat.testBit_shiftRight]
  by_cases within : s + t < w
  · have quot : (w * j + s + t) / w = j := by
      rw [Nat.add_assoc, Nat.mul_add_div (by omega), Nat.div_eq_of_lt within, Nat.add_zero]
    have rem : (w * j + s + t) % w = s + t := by
      rw [Nat.add_assoc, Nat.mul_add_mod, Nat.mod_eq_of_lt within]
    rw [lanes.bit, quot, rem, decide_eq_false (by omega), Bool.false_and, Bool.or_false]
  · have off : (lane j).testBit (s + t) = false :=
      Nat.testBit_lt_two_pow ((lanes.small j).trans_le (Nat.pow_le_pow_right (by decide) (by omega)))
    have cursor : w * j + s + t = w * (j + 1) + (t - (w - s)) := by rw [Nat.mul_succ]; omega
    rw [off, Bool.false_or, decide_eq_true (by omega), Bool.true_and, cursor]

theorem Lanes.shiftRight_lane (j : Nat) : V >>> (w * j) = lane j ||| (V >>> (w * (j + 1))) <<< w :=
  lanes.shiftRight_eq (Nat.zero_le w) j

theorem Lanes.lane_eq (j : Nat) : V >>> (w * j) &&& (2 ^ w - 1) = lane j := by
  rw [lanes.shiftRight_lane, or_shiftLeft_and_mask _ _ le_rfl, Nat.and_two_pow_sub_one_of_lt_two_pow (lanes.small j)]

section
variable {s : Nat} (hs : s ≤ w)
include hs

theorem Lanes.window_one {m : Nat} (hm : s + m ≤ w) (j : Nat) :
    V >>> (w * j + s) &&& (2 ^ m - 1) = lane j >>> s &&& (2 ^ m - 1) := by
  rw [lanes.shiftRight_eq hs, or_shiftLeft_and_mask _ _ (by omega)]

theorem Lanes.window_two {m : Nat} (hm : s + m ≤ 2 * w) (j : Nat) :
    V >>> (w * j + s) &&& (2 ^ m - 1) = (lane j >>> s ||| lane (j + 1) <<< (w - s)) &&& (2 ^ m - 1) := by
  rw [lanes.shiftRight_eq hs, lanes.shiftRight_lane, Nat.shiftLeft_or_distrib, ← Nat.or_assoc, ← Nat.shiftLeft_add,
    or_shiftLeft_and_mask _ _ (by omega)]

theorem Lanes.window_three {m : Nat} (hm : s + m ≤ 3 * w) (j : Nat) :
    V >>> (w * j + s) &&& (2 ^ m - 1) =
      (lane j >>> s ||| lane (j + 1) <<< (w - s) ||| lane (j + 2) <<< (w + (w - s))) &&& (2 ^ m - 1) := by
  rw [lanes.shiftRight_eq hs, lanes.shiftRight_lane, lanes.shiftRight_lane, Nat.shiftLeft_or_distrib,
    Nat.shiftLeft_or_distrib, Nat.shiftLeft_or_distrib, ← Nat.or_assoc, ← Nat.or_assoc, ← Nat.shiftLeft_add,
    ← Nat.shiftLeft_add, ← Nat.shiftLeft_add, or_shiftLeft_and_mask _ _ (by omega)]

end

end

/-! ### The lanes of 22 bytes and of 16 channels -/

theorem toList_getD {α : Type} {n : Nat} (v : Vector α n) {i : Nat} (h : i < n) (d : α) : v.toList.getD i d = v[i] := by
  rw [List.getD_eq_getElem _ _ (by simpa using h), Vector.getElem_toList]

/-- Every channel is in the range of R186. -/
def InRange (chans : Vector (BitVec 16) 16) : Prop := ∀ i : Fin 16, chans[i].toNat ≤ 2047

theorem InRange.mem {chans : Vector (BitVec 16) 16} (h : InRange chans) : ∀ v ∈ chans.toList, v.toNat ≤ 2047 := by
  intro v hv
  obtain ⟨i, hi, rfl⟩ := List.getElem_of_mem hv
  exact h ⟨i, by simpa using hi⟩

theorem bytes_lanes (b : Vector Byte 22) : Lanes 8 (fun j => (b.toList.getD j 0#8).toNat) (bitSpace b.toList) where
  small j := (b.toList.getD j 0#8).isLt
  bit k := bitSpace_testBit b.toList k

theorem channels_lanes {chans : Vector (BitVec 16) 16} (h : InRange chans) :
    Lanes 11 (fun i => (chans.toList.getD i 0#16).toNat) (laneSpace chans.toList) where
  small i := by
    rcases Nat.lt_or_ge i 16 with hi | hi
    · rw [toList_getD _ hi]
      exact Nat.lt_succ_of_le (h ⟨i, hi⟩)
    · rw [List.getD_eq_default _ _ (by simpa using hi)]
      decide
  bit k := laneSpace_testBit chans.toList h.mem k

/-- The bytes are the integer's own. -/
theorem eq_of_bitSpace_eq {b b' : Vector Byte 22} (h : bitSpace b.toList = bitSpace b'.toList) : b = b' := by
  ext1 j hj
  apply BitVec.eq_of_toNat_eq
  have byte := (bytes_lanes b).lane_eq j
  rwa [h, (bytes_lanes b').lane_eq j, toList_getD b hj, toList_getD b' hj, eq_comm] at byte

theorem bitOf_eq_testBit (b : Vector Byte 22) (k : Nat) : bitOf b k = (bitSpace b.toList).testBit k :=
  (bitSpace_testBit b.toList k).symm

/-- Above bit 175 there is neither a byte nor a channel. -/
theorem bitSpace_eq_laneSpace {chans : Vector (BitVec 16) 16} {b : Vector Byte 22} (range : InRange chans)
    (bits : ∀ k, k < 176 → bitOf b k = (chans.toList.getD (k / 11) 0#16).getLsbD (k % 11)) :
    bitSpace b.toList = laneSpace chans.toList := by
  refine Nat.eq_of_testBit_eq fun k => ?_
  rw [laneSpace_testBit _ range.mem]
  rcases Nat.lt_or_ge k 176 with hk | hk
  · rw [← bitOf_eq_testBit, bits k hk]
  · rw [bitSpace_testBit, List.getD_eq_default _ _ (by simp; omega), List.getD_eq_default _ _ (by simp; omega),
      BitVec.getLsbD_zero, BitVec.getLsbD_zero]

/-! ### UNPACK (42_channel_codec.md R182 to R184) -/

theorem unpack_bitOf (b : Vector Byte 22) (i : Fin 16) (k : Nat) :
    (unpack b)[i].getLsbD k = (decide (k < 11) && bitOf b (11 * i.val + k)) := unpack_bit b i k

theorem unpack_toNat_eq_window (b : Vector Byte 22) {i : Nat} (hi : i < 16) :
    (unpack b)[i].toNat = bitSpace b.toList >>> (11 * i) &&& (2 ^ 11 - 1) := by
  rw [unpack_toNat b hi, channelOf, bitSpace_eq_littleEndian, Nat.and_two_pow_sub_one_eq_mod, Nat.shiftRight_eq_div_pow]

/-- While `v` holds the first `held` bits from the cursor and the bytes after byte `j` hold the others, gathering ends with
the 11 bits from the cursor. -/
theorem gather_and_mask (b : Vector Byte 22) {fuel j v held cursor : Nat}
    (taken : bitSpace b.toList >>> cursor = v ||| (bitSpace b.toList >>> (8 * (j + 1))) <<< held)
    (enough : 11 ≤ held + 8 * fuel) :
    gather b.toList fuel j v held &&& (2 ^ 11 - 1) = bitSpace b.toList >>> cursor &&& (2 ^ 11 - 1) := by
  induction fuel generalizing j v held with
  | zero => rw [gather, taken, or_shiftLeft_and_mask _ _ (by omega)]
  | succ fuel ih =>
    rw [gather]
    split
    · refine ih ?_ (by omega)
      rw [taken, (bytes_lanes b).shiftRight_lane, Nat.shiftLeft_or_distrib, ← Nat.or_assoc, ← Nat.shiftLeft_add,
        Nat.add_comm held]
    · rw [taken, or_shiftLeft_and_mask _ _ (by omega)]

theorem unpackStepwise_eq_unpack (b : Vector Byte 22) : unpackStepwise b = unpack b := by
  ext1 i hi
  have cursor : 8 * (11 * i / 8) + 11 * i % 8 = 11 * i := Nat.div_add_mod _ _
  have first := (bytes_lanes b).shiftRight_eq (s := 11 * i % 8) (by omega) (11 * i / 8)
  rw [cursor] at first
  have gathered := gather_and_mask b (fuel := 2) first (by omega)
  have quot : (11 * i) >>> 3 = 11 * i / 8 := Nat.shiftRight_eq_div_pow _ 3
  have rem : 11 * i &&& 7 = 11 * i % 8 := Nat.and_two_pow_sub_one_eq_mod _ 3
  simp only [unpackStepwise, unpack, Vector.getElem_ofFn, quot, rem]
  exact congrArg (BitVec.ofNat 16) gathered

/-- A line of the unrolled form for a channel that ends in its second byte. -/
theorem unpack_two_bytes (b : Vector Byte 22) (i : Nat) (hi : i < 16 := by decide) (hs : 11 * i % 8 ≤ 5 := by decide) :
    (unpack b)[i].toNat =
      ((b[11 * i / 8]).toNat >>> (11 * i % 8) ||| (b[11 * i / 8 + 1]).toNat <<< (8 - 11 * i % 8)) &&& 0x7FF := by
  have window := (bytes_lanes b).window_two (s := 11 * i % 8) (m := 11) (by omega) (by omega) (11 * i / 8)
  simp only [Nat.div_add_mod] at window
  rw [unpack_toNat_eq_window b hi, window, toList_getD, toList_getD]
  rfl

/-- A line of the unrolled form for a channel that ends in its third byte. -/
theorem unpack_three_bytes (b : Vector Byte 22) (i : Nat) (hi : i < 16 := by decide) (hs : 6 ≤ 11 * i % 8 := by decide) :
    (unpack b)[i].toNat =
      ((b[11 * i / 8]).toNat >>> (11 * i % 8) ||| (b[11 * i / 8 + 1]).toNat <<< (8 - 11 * i % 8) |||
        (b[11 * i / 8 + 2]).toNat <<< (8 + (8 - 11 * i % 8))) &&& 0x7FF := by
  have window := (bytes_lanes b).window_three (s := 11 * i % 8) (m := 11) (by omega) (by omega) (11 * i / 8)
  simp only [Nat.div_add_mod] at window
  rw [unpack_toNat_eq_window b hi, window, toList_getD, toList_getD, toList_getD]
  rfl

/-! ### PACK (42_channel_codec.md R186, R187) -/

/-- PACK writes the integer of the channels. -/
theorem bitSpace_of_pack {chans : Vector (BitVec 16) 16} {b : Vector Byte 22} (h : pack chans = .ok b) :
    bitSpace b.toList = laneSpace chans.toList := by
  have range : InRange chans := pack_ok_le chans b h
  obtain ⟨b', answer, bits⟩ := pack_bits chans range
  obtain rfl : b' = b := Except.ok.inj (answer.symm.trans h)
  exact bitSpace_eq_laneSpace range bits

theorem pack_eq_error {chans : Vector (BitVec 16) 16} {i : Fin 16} (above : 2047 < chans[i].toNat)
    (lowest : ∀ j : Fin 16, j < i → chans[j].toNat ≤ 2047) : pack chans = .error (i.val, chans[i].toNat) := by
  have found := firstOver_some 2047 (chans.toList.map (·.toNat)) i.val (by simp) (by simpa using above)
    fun j hj => by simpa using lowest ⟨j, by omega⟩ hj
  rw [pack, show Config.chMax = 2047 from rfl, found]
  simp

/-- The lanes do not overlap, so the OR of them is their sum. -/
theorem laneSpace_from (vals : List (BitVec 16)) (h : ∀ v ∈ vals, v.toNat ≤ 2047) {n acc : Nat}
    (hacc : acc < 2 ^ (11 * n)) :
    (vals.zipIdx n).foldl (fun v e => v ||| e.1.toNat <<< (11 * e.2)) acc =
      acc + ((vals.zipIdx n).map fun e => e.1.toNat * 2 ^ (11 * e.2)).sum := by
  induction vals generalizing n acc with
  | nil => rfl
  | cons c cs ih =>
    obtain ⟨hc, hcs⟩ := List.forall_mem_cons.mp h
    have placed : acc ||| c.toNat <<< (11 * n) = acc + c.toNat * 2 ^ (11 * n) := by
      rw [Nat.or_comm, ← Nat.shiftLeft_add_eq_or_of_lt hacc, Nat.shiftLeft_eq, Nat.add_comm]
    have below : acc + c.toNat * 2 ^ (11 * n) < 2 ^ (11 * (n + 1)) := by
      rw [Nat.mul_succ, Nat.pow_add]
      nlinarith
    rw [List.zipIdx_cons, List.foldl_cons, List.map_cons, List.sum_cons, placed, ih hcs below, Nat.add_assoc]

theorem laneSpace_eq_sum {chans : Vector (BitVec 16) 16} (h : InRange chans) :
    laneSpace chans.toList = ((List.finRange 16).map fun i => chans[i].toNat * 2 ^ (11 * i.val)).sum := by
  have indexed : chans.toList.zipIdx.map (fun e => e.1.toNat * 2 ^ (11 * e.2)) =
      (List.finRange 16).map fun i => chans[i].toNat * 2 ^ (11 * i.val) := List.ext_getElem (by simp) (by simp)
  rw [laneSpace, laneSpace_from _ h.mem (by decide), indexed, Nat.zero_add]

section
variable {chans : Vector (BitVec 16) 16} {b : Vector Byte 22} (h : pack chans = .ok b) (j : Nat)
include h

theorem pack_byte_eq_window (hj : j < 22) : (b[j]).toNat = laneSpace chans.toList >>> (8 * j) &&& (2 ^ 8 - 1) := by
  rw [← bitSpace_of_pack h, (bytes_lanes b).lane_eq, toList_getD]

/-- A line of the unrolled form for a byte within one channel. -/
theorem pack_one_channel (hj : j < 22 := by decide) (hs : 8 * j % 11 ≤ 3 := by decide) :
    (b[j]).toNat = (chans[8 * j / 11]).toNat >>> (8 * j % 11) &&& 0xFF := by
  have window := (channels_lanes (pack_ok_le chans b h)).window_one (s := 8 * j % 11) (m := 8) (by omega) (by omega)
    (8 * j / 11)
  simp only [Nat.div_add_mod] at window
  rw [pack_byte_eq_window h j hj, window, toList_getD]
  rfl

/-- A line of the unrolled form for a byte that goes on into the next channel. -/
theorem pack_two_channels (hj : j < 22 := by decide) (hs : 4 ≤ 8 * j % 11 := by decide) :
    (b[j]).toNat =
      ((chans[8 * j / 11]).toNat >>> (8 * j % 11) ||| (chans[8 * j / 11 + 1]).toNat <<< (11 - 8 * j % 11)) &&& 0xFF := by
  have window := (channels_lanes (pack_ok_le chans b h)).window_two (s := 8 * j % 11) (m := 8) (by omega) (by omega)
    (8 * j / 11)
  simp only [Nat.div_add_mod] at window
  rw [pack_byte_eq_window h j hj, window, toList_getD, toList_getD]
  rfl

end

/-! ### One undoes the other, and lanes are apart (42_channel_codec.md R189, R190) -/

theorem unpack_of_pack {chans : Vector (BitVec 16) 16} {b : Vector Byte 22} (h : pack chans = .ok b) : unpack b = chans := by
  ext1 i hi
  apply BitVec.eq_of_toNat_eq
  rw [unpack_toNat_eq_window b hi, bitSpace_of_pack h, (channels_lanes (pack_ok_le chans b h)).lane_eq, toList_getD]

theorem laneSpace_unpack (b : Vector Byte 22) : laneSpace (unpack b).toList = bitSpace b.toList := by
  refine (bitSpace_eq_laneSpace (unpack_le b) fun k hk => ?_).symm
  have bit := unpack_bitOf b ⟨k / 11, by omega⟩ (k % 11)
  rw [decide_eq_true (Nat.mod_lt k (by decide)), Bool.true_and, Nat.div_add_mod] at bit
  rw [toList_getD _ (by omega)]
  exact bit.symm

theorem pack_unpack (b : Vector Byte 22) : pack (unpack b) = .ok b := by
  obtain ⟨b', answer, -⟩ := pack_bits (unpack b) (unpack_le b)
  have kept : bitSpace b'.toList = bitSpace b.toList := (bitSpace_of_pack answer).trans (laneSpace_unpack b)
  exact answer.trans (congrArg Except.ok (eq_of_bitSpace_eq kept))

theorem bitOf_of_pack {chans : Vector (BitVec 16) 16} {b : Vector Byte 22} (h : pack chans = .ok b) {k : Nat}
    (hk : k < 176) : bitOf b k = (chans[k / 11]).getLsbD (k % 11) := by
  have range : InRange chans := pack_ok_le chans b h
  rw [bitOf_eq_testBit, bitSpace_of_pack h, laneSpace_testBit _ range.mem, toList_getD]

/-- The channels that byte `j` reaches: that of its lowest bit and that of its highest. -/
def reached (j : Fin 22) : List (Fin 16) := [⟨8 * j.val / 11, by omega⟩, ⟨(8 * j.val + 7) / 11, by omega⟩]

theorem mem_reached {j : Fin 22} {i : Fin 16} :
    i ∈ reached j ↔ i.val = 8 * j.val / 11 ∨ i.val = (8 * j.val + 7) / 11 := by
  simp [reached, Fin.ext_iff]

theorem mem_reached_of_unpack_ne {b₁ b₂ : Vector Byte 22} {j : Fin 22} (same : ∀ j' : Fin 22, j' ≠ j → b₁[j'] = b₂[j'])
    {i : Fin 16} (ne : (unpack b₁)[i] ≠ (unpack b₂)[i]) : i ∈ reached j := by
  rw [mem_reached]
  by_contra apart
  refine ne (BitVec.eq_of_getLsbD_eq fun k _ => ?_)
  rw [unpack_bitOf, unpack_bitOf]
  by_cases hk : k < 11
  · have elsewhere : (11 * i.val + k) / 8 ≠ j.val := by omega
    have byte : b₁[(11 * i.val + k) / 8] = b₂[(11 * i.val + k) / 8] :=
      same ⟨(11 * i.val + k) / 8, by omega⟩ fun e => elsewhere (congrArg Fin.val e)
    rw [bitOf, bitOf, toList_getD _ (by omega), toList_getD _ (by omega), byte]
  · rw [decide_eq_false hk, Bool.false_and, Bool.false_and]

/-! ### The statements -/

/-- Settles O21: the operation answers `unpack`, whose channels are `unpack_toNat` as integers and `unpack_bitOf` as bits. -/
theorem unpackRuns : Obligations.UnpackRuns :=
  fun b => ⟨fun _ h => ⟨rfl, exec_unpack h b⟩, fun i => unpack_toNat b i.isLt, unpack_bitOf b⟩

/-- Settles O22: the loop, then each channel's line by the number of bytes it reaches. -/
theorem unpackForms : Obligations.UnpackForms := by
  refine ⟨unpackStepwise_eq_unpack, fun b => ?_⟩
  have two := @unpack_two_bytes b
  have three := @unpack_three_bytes b
  exact ⟨two 0, two 1, three 2, two 3, two 4, three 5, two 6, two 7, two 8, two 9, three 10, two 11, two 12, three 13,
    two 14, two 15⟩

/-- Settles O23: the integer of the bytes is the integer of the channels, which is their sum. -/
theorem packRuns : Obligations.PackRuns := by
  refine fun chans s h => ⟨rfl, fun range => ?_, fun i above lowest => exec_pack_error h (pack_eq_error above lowest)⟩
  obtain ⟨b, answer, -⟩ := pack_bits chans range
  refine ⟨b, exec_pack_ok h answer, ?_⟩
  calc littleEndian b.toList
    _ = bitSpace b.toList := (bitSpace_eq_littleEndian _).symm
    _ = laneSpace chans.toList := bitSpace_of_pack answer
    _ = _ := laneSpace_eq_sum range

/-- Settles O24: each byte's line by the number of channels it reaches. -/
theorem packUnrolled : Obligations.PackUnrolled := by
  intro chans b _ h
  have one := @pack_one_channel chans b h
  have two := @pack_two_channels chans b h
  exact ⟨one 0, two 1, two 2, one 3, two 4, two 5, two 6, one 7, two 8, two 9, one 10, one 11, two 12, two 13, one 14,
    two 15, two 16, two 17, one 18, two 19, two 20, one 21⟩

/-- Settles O25: UNPACK and PACK keep the same integer. -/
theorem channelRoundTrip : Obligations.ChannelRoundTrip := by
  refine ⟨fun chans range => ?_, pack_unpack⟩
  obtain ⟨b, answer, -⟩ := pack_bits chans range
  exact ⟨b, answer, unpack_of_pack answer⟩

/-- Settles O26: a packed bit is a bit of its own channel, and `mem_reached_of_unpack_ne` leaves two channels to a byte. -/
theorem laneIndependence : Obligations.LaneIndependence := by
  refine ⟨fun c₁ c₂ b₁ b₂ i h₁ h₂ same k hk outside => ?lane, fun b₁ b₂ j same => ?byte⟩
  case lane =>
    have other : k / 11 ≠ i.val := by omega
    have channel : c₁[k / 11] = c₂[k / 11] := same ⟨k / 11, by omega⟩ fun e => other (congrArg Fin.val e)
    rw [bitOf_of_pack h₁ hk, bitOf_of_pack h₂ hk, channel]
  case byte =>
    refine (((List.nodup_finRange 16).filter _).subperm (l₂ := reached j) fun i hi => ?_).length_le
    exact mem_reached_of_unpack_ne same (of_decide_eq_true (List.mem_filter.mp hi).2)

end Sys2Proof.Machine
end

/-! ## The Telemetry Encoder: the ENC_* operations

What stands here settles O29 to O35. An encoder is a chain of checked fields; `answered` is what the spec makes of such a chain,
the payload or the first field that fails, and `fieldI_bind` and `fieldU_bind` put one field in front of a chain. -/

section

open Sys2Proof Sys2Proof.Machine Sys2Proof.Claims

namespace Sys2Proof.Machine

/-! ### One field (43_telemetry_encoder.md R202, R204) -/

/-- What an encoder answers: its payload where no field is bad, else the bad field. -/
def answered {α : Type} (bad : Option FieldError) (payload : α) : Except FieldError α :=
  match bad with
  | none => .ok payload
  | some e => .error e

theorem answered_bind_ok {α β : Type} (bad : Option FieldError) (payload : α) (f : α → β) :
    (answered bad payload >>= fun p => .ok (f p)) = answered bad (f payload) := by cases bad <;> rfl

theorem eq_of_answered {α : Type} {bad : Option FieldError} {payload p : α} (h : answered bad payload = .ok p) :
    p = payload := by
  cases bad with
  | none => exact (Except.ok.inj h).symm
  | some e => cases h

/-- What an ENC_* operation does on CMD, by what its encoder answers. -/
theorem exec_answered {i : Instr} {s : State} {op : OpName} {r : Except FieldError (List Byte)} {bad : Option FieldError}
    {payload : List Byte} (he : exec i s = .next (s.answerPayload op r)) (hr : r = answered bad payload) :
    exec i s = .next (encoded s op.opid bad payload) := by
  rw [he, hr]
  cases bad <;> rfl

theorem bytesOf_eq_beBytes (m : Nat) (z : Int) : bytesOf m z = beBytes m (BitVec.ofInt (8 * m) z) :=
  (beBytes_ofInt m z).symm

theorem bytesOf_length (m : Nat) (z : Int) : (bytesOf m z).length = m := by simp [bytesOf]

section
variable {n : Nat} {t : FrameType} {f : FieldName} {lo hi : Int} {k : BitVec n → Except FieldError (List Byte)}
  {rest : List (FieldName × Int × Int × Option Int)} {payload : List Byte}

theorem checkField_bind {fit : Int → Option (BitVec n)} (z : Option Int)
    (check : ∀ z, checkField n fit t f (some z) =
      if lo ≤ z ∧ z ≤ hi then .ok (BitVec.ofInt n z) else .error ⟨t, f, some z⟩)
    (h : k (BitVec.ofInt n (z.getD 0)) = answered (firstBad t rest) payload) :
    (checkField n fit t f z >>= k) = answered (firstBad t ((f, lo, hi, z) :: rest)) payload := by
  cases z with
  | none => rfl
  | some z =>
    rw [check, firstBad]
    split
    · exact h
    · rfl

/-- A signed field in front of a chain. -/
theorem fieldI_bind (P : Params) (x : RealNum) (a b : Rat)
    (h : k (BitVec.ofInt n ((rndScaled P x a b).getD 0)) = answered (firstBad t rest) payload)
    (hlo : lo = -2 ^ (n - 1) := by norm_num) (hhi : hi = 2 ^ (n - 1) - 1 := by norm_num) :
    (fieldI P n t f x a b >>= k) = answered (firstBad t ((f, lo, hi, rndScaled P x a b) :: rest)) payload := by
  subst hlo hhi
  exact checkField_bind _ (checkField_fitI n t f) h

/-- An unsigned field in front of a chain. -/
theorem fieldU_bind (P : Params) (x : RealNum) (a b : Rat)
    (h : k (BitVec.ofInt n ((rndScaled P x a b).getD 0)) = answered (firstBad t rest) payload)
    (hlo : lo = 0 := by rfl) (hhi : hi = 2 ^ n - 1 := by norm_num) :
    (fieldU P n t f x a b >>= k) = answered (firstBad t ((f, lo, hi, rndScaled P x a b) :: rest)) payload := by
  subst hlo hhi
  exact checkField_bind _ (checkField_fitU n t f) h

end

/-! ### The encoders: their fields and their payload -/

theorem encGps_eq (P : Params) (lat lon kph heading alt : RealNum) : encGps P lat lon kph heading alt =
    answered
      (firstBad .gps
        [(.lat, -2147483648, 2147483647, rndScaled P lat 10000000 0),
         (.lon, -2147483648, 2147483647, rndScaled P lon 10000000 0),
         (.speed, 0, 65535, rndScaled P kph 10 0),
         (.heading, 0, 65535, rndScaled P heading 100 0),
         (.alt, 0, 65535, rndScaled P alt 1 1000)])
      (bytesOf 4 ((rndScaled P lat 10000000 0).getD 0) ++ bytesOf 4 ((rndScaled P lon 10000000 0).getD 0) ++
        bytesOf 2 ((rndScaled P kph 10 0).getD 0) ++ bytesOf 2 ((rndScaled P heading 100 0).getD 0) ++
        bytesOf 2 ((rndScaled P alt 1 1000).getD 0) ++ [0x01#8]) := by
  refine fieldI_bind P lat _ _ <| fieldI_bind P lon _ _ <| fieldU_bind P kph _ _ <| fieldU_bind P heading _ _ <|
    fieldU_bind P alt _ _ ?_
  simp only [bytesOf_eq_beBytes]
  rfl

theorem encBattery_eq (P : Params) (volt pct : RealNum) : encBattery P volt pct =
    answered
      (firstBad .batterySensor
        [(.voltage, -32768, 32767, rndScaled P volt 10 0), (.remaining, 0, 255, rndScaled P pct 100 0)])
      (bytesOf 2 ((rndScaled P volt 10 0).getD 0) ++ [0x00#8, 0x00#8, 0x00#8, 0x00#8, 0x00#8] ++
        bytesOf 1 ((rndScaled P pct 100 0).getD 0)) := by
  have zero : rnd P.roundTies 0 = 0 := rnd_of_near _ (by norm_num) (by norm_num)
  have current : checkField 16 (fitI 16) .batterySensor .current (some (rnd P.roundTies (0 * 10))) = .ok 0#16 := by
    rw [zero_mul, zero]; rfl
  have capacity : checkField 24 (fitU 24) .batterySensor .capacity (some (rnd P.roundTies 0)) = .ok 0#24 := by
    rw [zero]; rfl
  rw [encBattery, current, capacity]
  refine fieldI_bind P volt _ _ <| fieldU_bind P pct _ _ ?_
  simp only [bytesOf_eq_beBytes]
  have last (u : Byte) : beBytes 1 u = [u] := by
    simp [beBytes]
  rw [last]
  simp only [List.append_assoc]
  rfl

theorem encVario_eq (P : Params) (vy : RealNum) : encVario P vy =
    answered (firstBad .vario [(.vspeed, -32768, 32767, rndScaled P vy 100 0)])
      (bytesOf 2 ((rndScaled P vy 100 0).getD 0)) := by
  refine fieldI_bind P vy _ _ ?_
  rw [bytesOf_eq_beBytes]
  rfl

theorem encAirspeed_eq (P : Params) (mag : RealNum) : encAirspeed P mag =
    answered (firstBad .airspeed [(.speed, 0, 65535, rndScaled P mag 36 0)])
      (bytesOf 2 ((rndScaled P mag 36 0).getD 0)) := by
  refine fieldU_bind P mag _ _ ?_
  rw [bytesOf_eq_beBytes]
  rfl

theorem encAttitude_eq (P : Params) (pitch roll yaw : RealNum) : encAttitude P pitch roll yaw =
    answered
      (firstBad .attitude
        [(.pitch, -32768, 32767, rndScaled P pitch 10000 0),
         (.roll, -32768, 32767, rndScaled P roll 10000 0),
         (.yaw, -32768, 32767, rndScaled P yaw 10000 0)])
      (bytesOf 2 ((rndScaled P pitch 10000 0).getD 0) ++ bytesOf 2 ((rndScaled P roll 10000 0).getD 0) ++
        bytesOf 2 ((rndScaled P yaw 10000 0).getD 0)) := by
  refine fieldI_bind P pitch _ _ <| fieldI_bind P roll _ _ <| fieldI_bind P yaw _ _ ?_
  simp only [bytesOf_eq_beBytes]
  rfl

/-! ### ENC_RPM: a field for each rotor (43_telemetry_encoder.md R218) -/

theorem encRotors_eq (P : Params) (rpm : List RealNum) (k : Nat) : encRotors P k rpm =
    answered (firstBad .rpm ((rpm.zipIdx k).map fun e => (.rpm e.2, 0, 16777215, rndScaled P e.1 1 0)))
      (rpm.map fun x => bytesOf 3 ((rndScaled P x 1 0).getD 0)).flatten := by
  induction rpm generalizing k with
  | nil => rfl
  | cons x xs ih =>
    refine fieldU_bind P x _ _ ?_
    rw [ih, List.map_cons, List.flatten_cons, bytesOf_eq_beBytes]
    exact answered_bind_ok _ _ _

theorem encRpm_nil (P : Params) : encRpm P [] = .ok none := rfl

theorem encRpm_of_many (P : Params) {rpm : List RealNum} (h : 19 < rpm.length) :
    encRpm P rpm = .error ⟨.rpm, .count, some rpm.length⟩ := if_pos h

theorem encRpm_of_few (P : Params) {rpm : List RealNum} (h1 : 1 ≤ rpm.length) (h19 : rpm.length ≤ 19) : encRpm P rpm =
    answered (firstBad .rpm (rpm.zipIdx.map fun e => (.rpm e.2, 0, 16777215, rndScaled P e.1 1 0)))
      (some (0x00#8 :: (rpm.map fun x => bytesOf 3 ((rndScaled P x 1 0).getD 0)).flatten)) := by
  have some_rotor : rpm.isEmpty = false := List.isEmpty_eq_false_iff.mpr (List.length_pos_iff.mp h1)
  rw [encRpm, if_neg (by simpa [Config.rpmMaxN] using h19), some_rotor, if_neg (by decide), encRotors_eq]
  exact answered_bind_ok _ _ _

/-! ### ENC_BARO_ALT: decimetres, the clamp and the escape (43_telemetry_encoder.md R214) -/

theorem ofInt_escape {m : Int} (h0 : 0 ≤ m) (h : m < 2 ^ 15) :
    0x8000#16 ||| BitVec.ofInt 16 m = BitVec.ofInt 16 (0x8000 + m) := by
  obtain ⟨m, rfl⟩ := Int.eq_ofNat_of_zero_le h0
  have hm : m < 2 ^ 15 := by exact_mod_cast h
  apply BitVec.eq_of_toNat_eq
  have sum := Nat.two_pow_add_eq_or_of_lt hm 1
  rw [show (0x8000 + (m : Int)) = ((0x8000 + m : Nat) : Int) by push_cast; rfl]
  simp only [BitVec.toNat_or, BitVec.ofInt_natCast, BitVec.toNat_ofNat]
  rw [Nat.mod_eq_of_lt (by omega), Nat.mod_eq_of_lt (by omega), Nat.mod_eq_of_lt (by omega)]
  exact sum.symm

theorem baroValue_decimetres {d : Int} (m : Int) (h : d ≤ 0x7FFF) :
    baroValue d m = .ok (BitVec.ofInt 16 (max 0 d)) := by
  have clamp : (if d < 0 then 0 else d) = max 0 d := by split <;> omega
  simp only [baroValue, clamp, if_neg (show ¬max 0 d > 0x7FFF by omega)]

theorem baroValue_metres {d m : Int} (h : 0x7FFF < d) (hm : 0 ≤ m) :
    baroValue d m = .ok (BitVec.ofInt 16 (0x8000 + min m 0x7FFF)) := by
  rw [← ofInt_escape (by omega) (by omega)]
  simp only [baroValue, if_neg (show ¬d < 0 by omega), if_pos h, if_neg (show ¬m < 0 by omega)]

theorem baroValue_negative {d m : Int} (h : 0x7FFF < d) (hm : m < 0) :
    baroValue d m = .error ⟨.baroAlt, .alt, some m⟩ := by
  simp only [baroValue, if_neg (show ¬d < 0 by omega), if_pos h, if_pos hm]

section
variable {P : Params} {alt altStart : RealNum} {z m : Int}

theorem rndBaroDiff_isSome (P : Params) (x x₀ : RealNum) :
    (rndBaroDiff P x x₀).isSome = (isFinite x && isFinite x₀) := by
  unfold rndBaroDiff
  split
  · split <;> simp_all
  · simp_all

theorem encBaroAlt_of_ok (hz : rndBaroDiff P alt altStart = some z) (hm : rndScaled P alt 1 0 = some m) {d : Int}
    (h : baroValue (z + 10000) m = .ok (BitVec.ofInt 16 d)) :
    encBaroAlt P alt altStart = .ok (bytesOf 2 d ++ List.replicate P.baroVsBytes 0x00#8) := by
  rw [encBaroAlt, hz, hm, bytesOf_eq_beBytes]
  simp only [h]
  rfl

theorem encBaroAlt_of_error (hz : rndBaroDiff P alt altStart = some z) (hm : rndScaled P alt 1 0 = some m) {e : FieldError}
    (h : baroValue (z + 10000) m = .error e) : encBaroAlt P alt altStart = .error e := by
  rw [encBaroAlt, hz, hm]
  simp only [h]
  rfl

theorem encBaroAlt_nonFinite (P : Params) (h : isFinite alt = false ∨ isFinite altStart = false) :
    encBaroAlt P alt altStart = .error ⟨.baroAlt, .alt, none⟩ := by
  have none_found : rndBaroDiff P alt altStart = none := by
    rw [← Option.not_isSome_iff_eq_none, rndBaroDiff_isSome]
    rcases h with h | h <;> simp [h]
  rw [encBaroAlt, none_found]

end

/-! ### On CMD -/

/-- Settles O29: five fields, each put in front of the ones after it. -/
theorem encGpsRuns : Obligations.EncGpsRuns :=
  fun _ _ _ _ _ _ h => ⟨rfl, exec_answered (exec_encGps h ..) (encGps_eq ..)⟩

/-- Settles O30: the current and the capacity are fields that never fail. -/
theorem encBatteryRuns : Obligations.EncBatteryRuns :=
  fun _ _ _ h => ⟨rfl, exec_answered (exec_encBattery h ..) (encBattery_eq ..)⟩

/-- Settles O31: one field. -/
theorem encVarioRuns : Obligations.EncVarioRuns :=
  fun _ _ h => ⟨rfl, exec_answered (exec_encVario h _) (encVario_eq ..)⟩

/-- Settles O32: the four cases of the altitude. -/
theorem encBaroAltRuns : Obligations.EncBaroAltRuns := by
  refine fun alt altStart s h => ⟨rfl, fun bad => ?_, fun finite finiteStart => ?_⟩
  · exact exec_answered (exec_encBaroAlt h ..) (encBaroAlt_nonFinite _ bad)
  · obtain ⟨z, hz⟩ := Option.isSome_iff_exists.mp
      ((rndBaroDiff_isSome s.params alt altStart).trans (by rw [finite, finiteStart]; rfl))
    obtain ⟨m, hm⟩ := Option.isSome_iff_exists.mp ((rndScaled_isSome s.params alt 1 0).trans finite)
    refine ⟨z, m, hz, hm, fun low => ?decimetres, fun high pos => ?metres, fun high neg => ?refused⟩
    all_goals refine exec_answered (exec_encBaroAlt h ..) ?_
    case decimetres => exact encBaroAlt_of_ok hz hm (baroValue_decimetres m low)
    case metres => exact encBaroAlt_of_ok hz hm (baroValue_metres high pos)
    case refused => exact encBaroAlt_of_error hz hm (baroValue_negative high neg)

/-- Settles O33: one field. -/
theorem encAirspeedRuns : Obligations.EncAirspeedRuns :=
  fun _ _ h => ⟨rfl, exec_answered (exec_encAirspeed h _) (encAirspeed_eq ..)⟩

/-- Settles O34: three fields. -/
theorem encAttitudeRuns : Obligations.EncAttitudeRuns :=
  fun _ _ _ _ h => ⟨rfl, exec_answered (exec_encAttitude h ..) (encAttitude_eq ..)⟩

/-- Settles O35: by the number of rotors; the fields of the rotors by induction (`encRotors_eq`). -/
theorem encRpmRuns : Obligations.EncRpmRuns := by
  refine fun rpm s h => ⟨rfl, fun many => ?many, fun none => ?none, fun h1 h19 => ?few⟩
  all_goals rw [exec_encRpm h]
  case many => rw [encRpm_of_many _ many]; rfl
  case none => rw [none, encRpm_nil]; rfl
  case few =>
    rw [encRpm_of_few _ h1 h19]
    cases firstBad .rpm _ <;> rfl

end Sys2Proof.Machine
end

/-! ## ENCODE, TEL_LOAD and TEL_TICK

What stands here settles O36 and O38 to O40. The attempts of the statements are ENCODE's items, and a tick queues their pairs in
order: `queueTelemetries_eq` says at once which of them BUILD makes into frames and which it refuses. -/

section

open Sys2Proof Sys2Proof.Machine Sys2Proof.Claims

namespace Sys2Proof.Machine

/-! ### The attempts of ENCODE (43_telemetry_encoder.md R225) -/

theorem attempts_eq (P : Params) (rec : TelemetryRecord) (altStart : RealNum) :
    attempts P rec altStart = (encodeItems P rec altStart).map fun e => (e.1.opid, e.2.1.code, e.2.2) := rfl

theorem encodePairs_eq (P : Params) (rec : TelemetryRecord) (altStart : RealNum) :
    encodePairs P rec altStart = pairsOf (attempts P rec altStart) := by
  rw [attempts_eq, pairsOf, List.filterMap_map]
  refine List.filterMap_congr fun e _ => ?_
  obtain ⟨op, t, _ | _ | p⟩ := e <;> rfl

theorem raiseFields_eq (s : State) (P : Params) (rec : TelemetryRecord) (altStart : RealNum) :
    s.raiseFields (encodeErrors P rec altStart) = emits s (eventsOf (attempts P rec altStart)) := by
  rw [attempts_eq, eventsOf, List.filterMap_map]
  refine congrArg (fun o => ({ s with out := s.out ++ o } : State)) ?_
  rw [encodeErrors, List.map_filterMap]
  refine List.filterMap_congr fun e _ => ?_
  obtain ⟨op, t, _ | p⟩ := e <;> rfl

/-- An attempt gives a pair, or an event, or neither. -/
theorem pairsOf_eventsOf_length_le (l : List (Byte × Byte × Except FieldError (Option (List Byte)))) :
    (pairsOf l).length + (eventsOf l).length ≤ l.length := by
  induction l with
  | nil => exact le_rfl
  | cons e l ih =>
    obtain ⟨op, t, _ | _ | p⟩ := e <;> simp only [pairsOf, eventsOf, List.filterMap_cons, List.length_cons] at ih ⊢ <;> omega

theorem pairsOf_map_sublist (l : List (Byte × Byte × Except FieldError (Option (List Byte)))) :
    ((pairsOf l).map (·.1)).Sublist (l.map (·.2.1)) := by
  induction l with
  | nil => exact List.Sublist.slnil
  | cons e l ih =>
    obtain ⟨op, t, _ | _ | p⟩ := e
    · exact ih.cons _
    · exact ih.cons _
    · exact ih.cons_cons _

/-- Settles O36: the attempts are ENCODE's items (`encodePairs_eq`, `raiseFields_eq`). -/
theorem encodeRuns : Obligations.EncodeRuns := by
  refine fun rec altStart s h => ⟨rfl, ?_, pairsOf_eventsOf_length_le _, pairsOf_map_sublist (attempts s.params rec altStart)⟩
  rw [exec_encode h, raiseFields_eq, encodePairs_eq]
  simp only [State.answer, State.emit, emits, List.append_assoc]
  rfl

/-! ### The length of a payload -/

theorem ok_of_map_some {α : Type} {x : Except FieldError α} {p : α} (h : x.map some = .ok (some p)) : x = .ok p := by
  cases x with
  | error e => cases h
  | ok q => cases h; rfl

theorem encGps_length {P : Params} {lat lon kph heading alt : RealNum} {p : List Byte}
    (h : encGps P lat lon kph heading alt = .ok p) : p.length = 15 := by
  rw [eq_of_answered ((encGps_eq ..).symm.trans h)]
  simp [bytesOf_length]

theorem encBattery_length {P : Params} {volt pct : RealNum} {p : List Byte} (h : encBattery P volt pct = .ok p) :
    p.length = 8 := by
  rw [eq_of_answered ((encBattery_eq ..).symm.trans h)]
  simp [bytesOf_length]

theorem encVario_length {P : Params} {vy : RealNum} {p : List Byte} (h : encVario P vy = .ok p) : p.length = 2 := by
  rw [eq_of_answered ((encVario_eq ..).symm.trans h), bytesOf_length]

theorem encAirspeed_length {P : Params} {mag : RealNum} {p : List Byte} (h : encAirspeed P mag = .ok p) : p.length = 2 := by
  rw [eq_of_answered ((encAirspeed_eq ..).symm.trans h), bytesOf_length]

theorem encAttitude_length {P : Params} {pitch roll yaw : RealNum} {p : List Byte}
    (h : encAttitude P pitch roll yaw = .ok p) : p.length = 6 := by
  rw [eq_of_answered ((encAttitude_eq ..).symm.trans h)]
  simp [bytesOf_length]

theorem encBaroAlt_length {P : Params} {alt altStart : RealNum} {p : List Byte} (h : encBaroAlt P alt altStart = .ok p) :
    p.length = 2 + P.baroVsBytes := by
  unfold encBaroAlt at h
  split at h
  case h_1 diff m _ _ =>
    cases hv : baroValue (diff + 10000) m with
    | error e => rw [hv] at h; cases h
    | ok v => rw [hv] at h; cases h; simp [beBytes_length]
  case h_2 => cases h

theorem encRpm_length {P : Params} {rpm : List RealNum} {p : List Byte} (h : encRpm P rpm = .ok (some p)) :
    p.length ≤ 58 := by
  rcases Nat.lt_or_ge 19 rpm.length with many | h19
  · rw [encRpm_of_many P many] at h; cases h
  · rcases Nat.eq_zero_or_pos rpm.length with none | h1
    · rw [List.length_eq_zero_iff.mp none, encRpm_nil] at h; cases h
    · obtain rfl := Option.some.inj (eq_of_answered ((encRpm_of_few P h1 h19).symm.trans h))
      simp [Function.comp_def, bytesOf_length]
      omega

/-- Every payload but that of BARO_ALT is short. -/
theorem length_of_pair {P : Params} {rec : TelemetryRecord} {altStart : RealNum} {t : Byte} {p : List Byte}
    (h : (t, p) ∈ pairsOf (attempts P rec altStart)) :
    (t = 0x09#8 ∧ p.length = 2 + P.baroVsBytes) ∨ (t ≠ 0x09#8 ∧ p.length ≤ 58) := by
  obtain ⟨⟨op, t', r⟩, attempt, given⟩ := List.mem_filterMap.mp h
  obtain ⟨rfl, rfl⟩ : t' = t ∧ r = .ok (some p) := by
    obtain _ | _ | q := r <;> cases given
    exact ⟨rfl, rfl⟩
  simp only [attempts, List.mem_cons, Prod.mk.injEq, List.not_mem_nil, or_false] at attempt
  rcases attempt with ⟨-, rfl, e⟩ | ⟨-, rfl, e⟩ | ⟨-, rfl, e⟩ | ⟨-, rfl, e⟩ | ⟨-, rfl, e⟩ | ⟨-, rfl, e⟩ | ⟨-, rfl, e⟩
  · exact .inr ⟨by decide, by rw [encGps_length (ok_of_map_some e.symm)]; decide⟩
  · exact .inr ⟨by decide, by rw [encBattery_length (ok_of_map_some e.symm)]; decide⟩
  · exact .inr ⟨by decide, by rw [encVario_length (ok_of_map_some e.symm)]; decide⟩
  · exact .inl ⟨rfl, encBaroAlt_length (ok_of_map_some e.symm)⟩
  · exact .inr ⟨by decide, by rw [encAirspeed_length (ok_of_map_some e.symm)]; decide⟩
  · exact .inr ⟨by decide, by rw [encAttitude_length (ok_of_map_some e.symm)]; decide⟩
  · exact .inr ⟨by decide, encRpm_length e.symm⟩

/-! ### TEL_LOAD (43_telemetry_encoder.md R228) -/

/-- Settles O38: the altitude is latched where it is finite and none is taken yet. -/
theorem telLoadRuns : Obligations.TelLoadRuns := by
  refine fun rec s h => ⟨rfl, fun y finite free => ?latched, fun kept => ?kept⟩
  all_goals rw [exec_telLoad h, State.loadRecord]
  case latched => simp only [finite, free]; rfl
  case kept =>
    split
    case h_1 y finite =>
      have taken : s.altStartValid = true := kept.resolve_right fun bad => bad y finite
      simp only [taken, if_true]
    all_goals rfl

/-! ### TEL_TICK (43_telemetry_encoder.md R230) -/

/-- The pairs that fit become frames, in order; each of the others is BUILD's event. -/
theorem queueTelemetries_eq (pairs : List (Byte × List Byte)) (s : State) :
    pairs.foldl State.queueTelemetry s =
      { s with
        txqTel := s.txqTel ++ (pairs.filter fun e => decide (e.2.length ≤ 253)).map fun e => frameOf e.1 e.2
        out := s.out ++ (pairs.filter fun e => decide (253 < e.2.length)).map fun e =>
          .errOut 3 0x03#8 (.payloadTooLarge e.2.length) } := by
  induction pairs generalizing s with
  | nil => simp
  | cons e pairs ih =>
    rw [List.foldl_cons, ih, State.queueTelemetry]
    rcases Nat.lt_or_ge 253 e.2.length with long | fits
    · rw [build_eq_error e.1 (by omega)]
      simp [long, not_le.mpr long, State.raise, State.emit, conditionCode, OpName.opid]
    · rw [build_eq_frameOf e.1 fits]
      simp [fits, not_lt.mpr fits, State.enqueueTel]

theorem tick_of_unready {s : State} (h : s.lastValid = false ∨ s.altStartValid = false) :
    s.tick = { s with nextTick := s.nextTick + 100 } := by
  have unready : (s.lastValid && s.altStartValid) = false := Bool.and_eq_false_iff.mpr h
  simp only [State.tick, unready]
  rfl

theorem tick_of_ready {s : State} (hl : s.lastValid = true) (ha : s.altStartValid = true) :
    s.tick = (pairsOf (attempts s.params s.lastRec (ofLit s.altStart))).foldl State.queueTelemetry
      (emits { s with nextTick := s.nextTick + 100 } (eventsOf (attempts s.params s.lastRec (ofLit s.altStart)))) := by
  simp only [State.tick, hl, ha, Bool.and_self, if_true, encodePairs_eq, raiseFields_eq]
  rfl

section
variable {P : Params} {rec : TelemetryRecord} {altStart : RealNum}

theorem length_le_of_pair (h : P.baroVsBytes ≤ 251) {e : Byte × List Byte} (he : e ∈ pairsOf (attempts P rec altStart)) :
    e.2.length ≤ 253 := by
  rcases length_of_pair he with ⟨-, len⟩ | ⟨-, len⟩ <;> omega

theorem lt_length_of_pair_iff (h : 251 < P.baroVsBytes) {e : Byte × List Byte}
    (he : e ∈ pairsOf (attempts P rec altStart)) : 253 < e.2.length ↔ e.1 = 0x09#8 := by
  rcases length_of_pair he with ⟨baro, len⟩ | ⟨other, len⟩
  · exact iff_of_true (by omega) baro
  · exact iff_of_false (by omega) other

/-- What BUILD accepts, by the frame type. -/
theorem filter_fitting (h : 251 < P.baroVsBytes) :
    ((pairsOf (attempts P rec altStart)).filter fun e => decide (e.2.length ≤ 253)) =
      (pairsOf (attempts P rec altStart)).filter fun e => decide (e.1 ≠ 0x09#8) :=
  List.filter_congr fun _ he => decide_eq_decide.mpr (not_lt.symm.trans (lt_length_of_pair_iff h he).not)

/-- What BUILD refuses, by the frame type. -/
theorem map_refused (h : 251 < P.baroVsBytes) :
    (((pairsOf (attempts P rec altStart)).filter fun e => decide (253 < e.2.length)).map fun e =>
        Output.errOut 3 0x03#8 (.payloadTooLarge e.2.length)) =
      ((pairsOf (attempts P rec altStart)).filter fun e => decide (e.1 = 0x09#8)).map fun _ =>
        .errOut 3 0x03#8 (.payloadTooLarge (2 + P.baroVsBytes)) := by
  rw [List.filter_congr fun e he => decide_eq_decide.mpr (lt_length_of_pair_iff h he)]
  refine List.map_congr_left fun e he => ?_
  obtain ⟨pair, baro⟩ := List.mem_filter.mp he
  rcases length_of_pair pair with ⟨-, len⟩ | ⟨other, -⟩
  · rw [len]
  · exact absurd (of_decide_eq_true baro) other

end

/-- Settles O39: of the pairs only BARO_ALT's can be too long for a frame (`length_of_pair`). -/
theorem telTickRuns : Obligations.TelTickRuns := by
  refine fun s h due => ⟨fun unready => ?unready, fun hl ha => ⟨_, _, rfl, rfl, fun short => ?short, fun long => ?long⟩⟩
  case unready => rw [exec_telTick h due, tick_of_unready unready]
  all_goals rw [exec_telTick h due, tick_of_ready hl ha, queueTelemetries_eq]
  case short =>
    rw [List.filter_eq_self.mpr fun e he => decide_eq_true (length_le_of_pair short he),
      List.filter_eq_nil_iff.mpr fun e he => by simpa using length_le_of_pair short he, List.map_nil, List.append_nil]
    rfl
  case long =>
    rw [filter_fitting long, map_refused long]
    rfl

/-! ### The schedule (43_telemetry_encoder.md R230, 60_exceptions.md R326) -/

theorem tick_schedule (s : State) :
    s.tick.nextTick = s.nextTick + 100 ∧ s.tick.now = s.now ∧ s.tick.stopped = s.stopped := by
  obtain ⟨-, -, moved⟩ := tick_queued s
  rw [moved]
  exact ⟨rfl, rfl, rfl⟩

theorem iterate_tick_schedule (s : State) (k : Nat) :
    (State.tick^[k] s).nextTick = s.nextTick + 100 * k ∧ (State.tick^[k] s).now = s.now ∧
      (State.tick^[k] s).stopped = s.stopped := by
  induction k with
  | zero => exact ⟨rfl, rfl, rfl⟩
  | succ k ih =>
    obtain ⟨next, now, stopped⟩ := ih
    obtain ⟨next', now', stopped'⟩ := tick_schedule (State.tick^[k] s)
    rw [Function.iterate_succ_apply']
    exact ⟨by omega, now'.trans now, stopped'.trans stopped⟩

/-- Settles O40: a tick is due after `k` of them just where `100 (k + 1)` ms have passed. -/
theorem tickSchedule : Obligations.TickSchedule := by
  refine fun s t h start _ => ⟨fun k hk => ?due, ?done, (iterate_tick_schedule s _).1⟩
  case due =>
    obtain ⟨next, now, stopped⟩ := iterate_tick_schedule s k
    rw [Function.iterate_succ_apply']
    exact exec_telTick (stopped.trans h) (by omega)
  case done =>
    obtain ⟨next, now, -⟩ := iterate_tick_schedule s ((s.now - t) / 100)
    exact held_off (tickDue_of_early (by omega))

end Sys2Proof.Machine
end

/-! ## Rounding, and the real numbers of a record

What stands here settles O27 and O28. A rounded real number is known by `IsRnd`, and `isRnd_iff` turns that into `rnd` where the
number is rational. Each quantity of the derivation stage is a function of the real numbers of the record: one lemma says which,
whatever kinds of numbers they are. -/

section

open Sys2Proof Sys2Proof.Machine Sys2Proof.Claims

namespace Sys2Proof.Machine

/-! ### The laws of rounding (43_telemetry_encoder.md R201) -/

theorem rnd_intCast (t : RoundTies) (z : Int) : rnd t (z : Rat) = z := rnd_of_near t (by linarith) (by linarith)

theorem abs_rnd_sub_le (t : RoundTies) (x : Rat) : |(rnd t x : Rat) - x| ≤ 1 / 2 := by
  have near := ((isRnd_iff t x _).mpr rfl).1
  have cast : |((rnd t x : Rat) : ℝ) - x| ≤ ((1 / 2 : Rat) : ℝ) := by push_cast; exact near
  exact_mod_cast cast

/-- Two roundings in the wrong order are a whole apart, and then both numbers lie on the half between them. -/
theorem rnd_mono (t : RoundTies) {x y : Rat} (h : x ≤ y) : rnd t x ≤ rnd t y := by
  by_contra wrong
  have apart : (rnd t y : Rat) + 1 ≤ rnd t x := by exact_mod_cast not_le.mp wrong
  have nearX := abs_le.mp (abs_rnd_sub_le t x)
  have nearY := abs_le.mp (abs_rnd_sub_le t y)
  obtain rfl : x = y := by linarith
  exact wrong le_rfl

theorem rnd_tie (t : RoundTies) (f : Int) : rnd t ((f : Rat) + 1 / 2) = if tieUp t f then f + 1 else f :=
  ((isRnd_iff t _ _).mpr rfl).2 f (by push_cast; rfl)

theorem even_rnd_tie (f : Int) : Even (rnd .halfToEven ((f : Rat) + 1 / 2)) := by
  rw [rnd_tie, Int.even_iff]
  simp only [tieUp, bne_iff_ne]
  split <;> omega

/-- Settles O27. -/
theorem rndLaws : Obligations.RndLaws :=
  ⟨rnd_intCast, abs_rnd_sub_le, fun t _ _ h => rnd_mono t h, even_rnd_tie, isRnd_iff⟩

/-! ### A field's integer, by its real number (43_telemetry_encoder.md R201, R202) -/

theorem isFinite_of_isValue {x : RealNum} {v : ℝ} (h : IsValue x v) : isFinite x = true := (isFinite_iff x).mpr ⟨v, h⟩

theorem isFinite_eq_false_of {x : RealNum} (h : ∀ v, ¬IsValue x v) : isFinite x = false :=
  Bool.eq_false_iff.mpr fun finite => ((isFinite_iff x).mp finite).elim h

theorem rndScaled_isRnd_one_zero (P : Params) {x : RealNum} {v : ℝ} (h : IsValue x v) :
    ∃ z, rndScaled P x 1 0 = some z ∧ IsRnd P.roundTies v z := by
  refine ⟨_, rndScaled_one_zero P x (isFinite_of_isValue h), ?_⟩
  simpa using rndExact_spec P.roundTies 1 0 h

theorem rndScaled_rat_one_zero (P : Params) (q : Rat) : rndScaled P (.rat q) 1 0 = some (rnd P.roundTies q) := by
  obtain ⟨z, hz, near⟩ := rndScaled_isRnd_one_zero P (x := .rat q) (v := q) rfl
  rw [hz, (isRnd_iff _ _ _).mp near]

section
variable {P : Params} (exact : P.numerics = .exactReals)
include exact

theorem rndScaled_isRnd {x : RealNum} {v : ℝ} (a b : Rat) (h : IsValue x v) :
    ∃ z, rndScaled P x a b = some z ∧ IsRnd P.roundTies (a * v + b) z := by
  refine ⟨_, ?_, rndExact_spec P.roundTies a b h⟩
  simp only [rndScaled, isFinite_of_isValue h, exact, if_true]

theorem rndBaroDiff_isRnd {x x₀ : RealNum} {v v₀ : ℝ} (h : IsValue x v) (h₀ : IsValue x₀ v₀) :
    ∃ z, rndBaroDiff P x x₀ = some z ∧ IsRnd P.roundTies ((v - v₀) * 10) z := by
  refine ⟨_, ?_, rndDiffExact_spec P.roundTies h h₀⟩
  simp only [rndBaroDiff, isFinite_of_isValue h, isFinite_of_isValue h₀, exact, Bool.and_self, if_true]

theorem rndBaroDiff_rat (q q₀ : Rat) : rndBaroDiff P (.rat q) (.rat q₀) = some (rnd P.roundTies ((q - q₀) * 10)) := by
  obtain ⟨z, hz, near⟩ := rndBaroDiff_isRnd exact (x := .rat q) (x₀ := .rat q₀) rfl rfl
  rw [hz, (isRnd_iff _ ((q - q₀) * 10) z).mp (by push_cast; exact near)]

/-- A field whose real number is an integer holds that integer, whatever the tie rule. -/
theorem rndScaled_of_int {x : RealNum} {v : ℝ} {a b : Rat} {n : Int} (h : IsValue x v) (e : (a : ℝ) * v + b = n) :
    rndScaled P x a b = some n := by
  obtain ⟨z, hz, near⟩ := rndScaled_isRnd exact a b h
  rw [e, ← Rat.cast_intCast, isRnd_iff, rnd_intCast] at near
  rw [hz, near]

end

/-! ### Real numbers -/

theorem isReal_existsUnique (x : RealLit) : ∃! v : ℝ, IsReal x v :=
  (isReal_exists x).elim fun v h => ⟨v, h, fun _ k => isReal_unique k h⟩

theorem isReal_zero : IsReal (.rat 0) 0 := Rat.cast_zero.symm

theorem isReal_one : IsReal (.rat 1) 1 := Rat.cast_one.symm

theorem isReal_scaleLit (r : Rat) {x : RealLit} {v : ℝ} (h : IsReal x v) : IsReal (scaleLit r x) (r * v) := by
  cases x with
  | rat q =>
    obtain rfl : v = q := h
    show (r : ℝ) * q = ((r * q : Rat) : ℝ)
    push_cast; rfl
  | root q n =>
    obtain rfl : v = q * Real.sqrt n := h
    show (r : ℝ) * (q * Real.sqrt n) = ((r * q : Rat) : ℝ) * Real.sqrt n
    push_cast; ring
  | named q k =>
    obtain ⟨u, rfl, digits⟩ := h
    exact ⟨u, by push_cast; ring, digits⟩

theorem isValue_ofLit (x : RealLit) (v : ℝ) : IsValue (ofLit x) v ↔ IsReal x v := by cases x <;> rfl

theorem isValue_asinOf {y : Cross} {s : ℝ} (hs : IsCross y s) (v : ℝ) :
    IsValue (.asinOf y) v ↔ v = Real.arcsin (max (-1) (min 1 s)) :=
  ⟨fun ⟨_, ha, h⟩ => isCross_unique ha hs ▸ h, fun h => ⟨s, hs, h⟩⟩

section
variable {y : Cross} {x : Squares} {s c : ℝ} (hs : IsCross y s) (hc : IsSquares x c)
include hs hc

/-- A direction is told by its one sine and its one cosine. -/
theorem exists_direction_iff (R : ℝ → ℝ → Prop) : (∃ a b, IsCross y a ∧ IsSquares x b ∧ R a b) ↔ R s c := by
  constructor
  · rintro ⟨a, b, ha, hb, h⟩
    rwa [isCross_unique hs ha, isSquares_unique hc hb]
  · exact fun h => ⟨s, c, hs, hc, h⟩

theorem isValue_angle (v : ℝ) : IsValue (.angle y x) v ↔ IsAngle s c v := exists_direction_iff hs hc fun a b => IsAngle a b v

theorem isValue_turn (v : ℝ) : IsValue (.turn y x) v ↔ IsHeading s c v := exists_direction_iff hs hc fun a b => IsHeading a b v

end

theorem isValue_normExact {xs : List RealLit} {u : ℝ} (h : IsSum (xs.map fun x => (1, x)) u) (v : ℝ) :
    IsValue (normExact xs) v ↔ v = Real.sqrt u := by
  unfold normExact
  split
  case isTrue told =>
    have sum : sumExact (xs.map fun x => (1, x)) = (xs.map squareLit).sum := by simp [sumExact, Function.comp_def]
    have e : u = ((xs.map squareLit).sum : Rat) := by
      rw [sumExact_value (by simpa [Function.comp_def] using told) h, sum]
    have nonneg : (0 : Rat) ≤ (xs.map squareLit).sum := by exact_mod_cast e ▸ isSum_nonneg xs u h
    rw [e]
    exact and_iff_right nonneg
  case isFalse =>
    exact ⟨fun ⟨_, hw, e⟩ => isSum_unique hw h ▸ e, fun e => ⟨u, h, e⟩⟩

/-! ### The derivation stage in exact arithmetic (43_telemetry_encoder.md R205 to R208) -/

section
variable {qx qy qz qw : RealLit} {x y z w : ℝ} (hx : IsReal qx x) (hy : IsReal qy y) (hz : IsReal qz z) (hw : IsReal qw w)
include hx hy hz hw

theorem isValue_headingExact (v : ℝ) : IsValue (headingExact qx qy qz qw) v ↔
    IsHeading (2 * (z * x + w * y)) (w * w + z * z - x * x - y * y) v := by
  unfold headingExact
  split
  case h_1 =>
    obtain rfl : x = _ := hx
    obtain rfl : y = _ := hy
    obtain rfl : z = _ := hz
    obtain rfl : w = _ := hw
    simp only [IsValue]
    push_cast
    rfl
  case h_2 =>
    have cosine : IsSquares ⟨0, [(1, qw), (1, qz), (-1, qx), (-1, qy)]⟩ (w * w + z * z - x * x - y * y) :=
      ⟨_, ⟨w, _, hw, ⟨z, _, hz, ⟨x, _, hx, ⟨y, _, hy, rfl, rfl⟩, rfl⟩, rfl⟩, rfl⟩, by push_cast; ring⟩
    exact isValue_turn ⟨z, x, w, y, hz, hx, hw, hy, rfl⟩ cosine v

/-- The default EULER_FN of the quaternion `(x, z, y, w)` that the remapping leaves. -/
theorem eulerValues_eulerDefault : eulerValues (eulerDefault qx qy qz qw) x z y (-w) := by
  have hw' : IsReal (scaleLit (-1) qw) (-w) := by simpa using isReal_scaleLit (-1) hw
  unfold eulerDefault
  generalize scaleLit (-1) qw = lw at hw'
  split
  case h_1 =>
    obtain rfl : x = _ := hx
    obtain rfl : y = _ := hy
    obtain rfl : z = _ := hz
    rw [show -w = _ from hw']
    refine ⟨fun v => ?_, fun v => ?_, fun v => ?_⟩
    · have range := clampOne_mem
      simp only [IsValue, range, true_and, clampOne_cast]
      push_cast
      rfl
    · simp only [IsValue]
      push_cast
      rfl
    · simp only [IsValue]
      push_cast
      rfl
  case h_2 =>
    have hy' : IsReal (scaleLit (-1) qy) (-y) := by simpa using isReal_scaleLit (-1) hy
    refine ⟨isValue_asinOf ⟨_, _, _, _, hw', hz, hy', hx, by ring⟩, isValue_angle ⟨_, _, _, _, hw', hx, hz, hy, rfl⟩
      ⟨_, ⟨x, _, hx, ⟨z, _, hz, rfl, rfl⟩, rfl⟩, ?_⟩, isValue_angle ⟨_, _, _, _, hw', hy, hx, hz, rfl⟩
      ⟨_, ⟨z, _, hz, ⟨y, _, hy, rfl, rfl⟩, rfl⟩, ?_⟩⟩
    all_goals push_cast; ring

end

section
variable {P : Params} (exact : P.numerics = .exactReals)
include exact

theorem headingOf_exact (qx qy qz qw : RealLit) :
    headingOf P ⟨.fin qx, .fin qy, .fin qz, .fin qw⟩ = headingExact qx qy qz qw := by simp only [headingOf, exact]

theorem eulerOf_exact (euler : P.euler = .default) (qx qy qz qw : RealLit) :
    eulerOf P ⟨.fin qx, .fin qy, .fin qz, .fin qw⟩ = eulerDefault qx qy qz qw := by simp only [eulerOf, exact, euler]

theorem isValue_kphOf {lx lz : RealLit} {x z : ℝ} (hx : IsReal lx x) (hz : IsReal lz z) (m : Sys2Proof.Num) (v : ℝ) :
    IsValue (kphOf P ⟨.fin lx, m, .fin lz⟩) v ↔ v = 3.6 * Real.sqrt (x * x + z * z) := by
  have sum : IsSum ([scaleLit (36 / 10) lx, scaleLit (36 / 10) lz].map fun x => (1, x)) (3.6 ^ 2 * (x * x + z * z)) :=
    ⟨_, _, isReal_scaleLit _ hx, ⟨_, _, isReal_scaleLit _ hz, rfl, rfl⟩, by push_cast; ring⟩
  have root : Real.sqrt (3.6 ^ 2 * (x * x + z * z)) = 3.6 * Real.sqrt (x * x + z * z) := by
    rw [Real.sqrt_mul (by norm_num), Real.sqrt_sq (by norm_num)]
  simp only [kphOf, exact]
  rw [isValue_normExact sum, root]

theorem isValue_mag3dOf {lx ly lz : RealLit} {x y z : ℝ} (hx : IsReal lx x) (hy : IsReal ly y) (hz : IsReal lz z) (v : ℝ) :
    IsValue (mag3dOf P ⟨.fin lx, .fin ly, .fin lz⟩) v ↔ v = Real.sqrt (x * x + y * y + z * z) := by
  have sum : IsSum ([lx, ly, lz].map fun x => (1, x)) (x * x + y * y + z * z) :=
    ⟨_, _, hx, ⟨_, _, hy, ⟨_, _, hz, rfl, rfl⟩, rfl⟩, by push_cast; ring⟩
  simp only [mag3dOf, exact]
  rw [isValue_normExact sum]

end

/-! ### The derivation stage in another arithmetic (log entries 8, 37) -/

section
variable {P : Params} {k : Nat} (supplied : P.numerics = .supplied k)
include supplied

theorem rndScaled_supplied {x : RealNum} {a b : Rat} (finite : isFinite x = true) (product : ¬(a = 1 ∧ b = 0)) :
    rndScaled P x a b = some (rnd P.roundTies (Config.flScaled k x a b)) := by
  simp only [rndScaled, finite, supplied, if_true, if_neg product]

theorem rndBaroDiff_supplied {x x₀ : RealNum} (finite : isFinite x = true) (finite₀ : isFinite x₀ = true) :
    rndBaroDiff P x x₀ = some (rnd P.roundTies (Config.flBaroDiff k x x₀)) := by
  simp only [rndBaroDiff, finite, finite₀, supplied, Bool.and_self, if_true]

theorem headingOf_supplied (qx qy qz qw : RealLit) : headingOf P ⟨.fin qx, .fin qy, .fin qz, .fin qw⟩ =
    if isZero qx = true ∧ isZero qy = true ∧ isZero qz = true ∧ isZero qw = true then .nonFinite
    else headingBy k (Config.flHeadingParts k qx qy qz qw).1 (Config.flHeadingParts k qx qy qz qw).2 := by
  have zero : isZeroNum (.fin (.rat 0)) = true := (isZeroNum_iff _).mpr ⟨_, rfl, isReal_zero⟩
  simp only [headingOf, supplied, headingParts, Bool.and_eq_true, and_assoc]
  split
  · rw [headingBy, zero]; rfl
  · rfl

end

/-! ### Headings (43_telemetry_encoder.md R205) -/

theorem isHeading_range {s c v : ℝ} (h : IsHeading s c v) : 0 ≤ v ∧ v < 360 := by
  obtain ⟨θ, ⟨-, rfl⟩, rfl⟩ := h
  have low : -180 < Complex.arg ⟨c, s⟩ * 180 / Real.pi := by
    rw [lt_div_iff₀ Real.pi_pos]; linarith [Complex.neg_pi_lt_arg ⟨c, s⟩]
  have high : Complex.arg ⟨c, s⟩ * 180 / Real.pi ≤ 180 := by
    rw [div_le_iff₀ Real.pi_pos]; linarith [Complex.arg_le_pi ⟨c, s⟩]
  split <;> constructor <;> linarith

theorem isHeading_zero_zero (v : ℝ) : ¬IsHeading 0 0 v := fun ⟨_, ⟨undefined, _⟩, _⟩ => undefined ⟨rfl, rfl⟩

theorem headingBy_range {k : Nat} {s c : Sys2Proof.Num} {v : ℝ} (h : IsValue (headingBy k s c) v) : 0 ≤ v ∧ v < 360 := by
  unfold headingBy at h
  split at h
  · exact h.elim
  · split at h
    case h_1 a _ =>
      obtain rfl : v = headingTurn a := h
      obtain ⟨-, low, high, -⟩ := headingTurn_spec a
      exact ⟨by exact_mod_cast low, by exact_mod_cast high⟩
    case h_2 => exact h.elim

theorem headingOf_nonFinite (P : Params) {q : Attitude} (h : ∃ x ∈ [q.qx, q.qy, q.qz, q.qw], ∀ r, x ≠ .fin r) :
    headingOf P q = .nonFinite := by
  unfold headingOf
  split
  · simp_all
  · rfl

theorem headingOf_range (P : Params) {q : Attitude} {v : ℝ} (h : IsValue (headingOf P q) v) : 0 ≤ v ∧ v < 360 := by
  unfold headingOf at h
  split at h
  case h_1 qx qy qz qw _ _ _ _ =>
    split at h
    case h_1 =>
      obtain ⟨x, hx⟩ := isReal_exists qx
      obtain ⟨y, hy⟩ := isReal_exists qy
      obtain ⟨z, hz⟩ := isReal_exists qz
      obtain ⟨w, hw⟩ := isReal_exists qw
      exact isHeading_range ((isValue_headingExact hx hy hz hw v).mp h)
    case h_2 => exact headingBy_range h
  case h_2 => exact h.elim

/-- The zero quaternion has no heading, however its zeros are told (43_telemetry_encoder.md R202). -/
theorem headingOf_zero (P : Params) {qx qy qz qw : RealLit} (hx : IsReal qx 0) (hy : IsReal qy 0) (hz : IsReal qz 0)
    (hw : IsReal qw 0) : isFinite (headingOf P ⟨.fin qx, .fin qy, .fin qz, .fin qw⟩) = false := by
  cases arithmetic : P.numerics with
  | exactReals =>
    refine isFinite_eq_false_of fun v h => isHeading_zero_zero v ?_
    rw [headingOf_exact arithmetic, isValue_headingExact hx hy hz hw] at h
    simpa using h
  | supplied k =>
    rw [headingOf_supplied arithmetic, if_pos ⟨(isZero_iff _).mpr hx, (isZero_iff _).mpr hy, (isZero_iff _).mpr hz,
      (isZero_iff _).mpr hw⟩]
    rfl

/-! ### What is not finite (43_telemetry_encoder.md R202) -/

theorem eulerOf_nonFinite {P : Params} (euler : P.euler = .default) {q : Attitude}
    (h : ∃ x ∈ [q.qx, q.qy, q.qz, q.qw], ∀ r, x ≠ .fin r) : eulerOf P q = (.nonFinite, .nonFinite, .nonFinite) := by
  simp only [eulerOf, euler]
  split
  · simp_all
  · rfl

theorem kphOf_nonFinite (P : Params) {v : Velocity} (h : ∃ x ∈ [v.vx, v.vz], ∀ r, x ≠ .fin r) : kphOf P v = .nonFinite := by
  unfold kphOf
  split
  · simp_all
  · rfl

theorem mag3dOf_nonFinite (P : Params) {v : Velocity} (h : ∃ x ∈ [v.vx, v.vy, v.vz], ∀ r, x ≠ .fin r) :
    mag3dOf P v = .nonFinite := by
  unfold mag3dOf
  split
  · simp_all
  · rfl

/-- Settles O28: each clause is one of the facts above, for the arithmetic it speaks of. -/
theorem fieldIntegers : Obligations.FieldIntegers := by
  refine fun P => ⟨rndScaled_none P, fun x a b finite => Option.isSome_iff_exists.mp ((rndScaled_isSome P x a b).trans finite),
    isFinite_iff, rndScaled_rat_one_zero P, fun x v => rndScaled_isRnd_one_zero P, ?forms, fun exact => ?exact,
    fun k supplied => ?supplied, headingTurn_spec, fun q v => headingOf_range P, fun qx qy qz qw => headingOf_zero P,
    fun k euler q => by rw [eulerOf, euler], fun lat lon geo p => by rw [geoOf, geo], fun k geo p => by rw [geoOf, geo],
    isReal_existsUnique, isZeroNum_iff, isValue_ofLit, fun x => rfl, ?attitude, ?velocity⟩
  case forms =>
    have undefined : isFinite (.atan2 0 0) = false ∧ isFinite (.heading 0 0) = false := by decide
    exact ⟨rfl, undefined.1, undefined.2, fun r neg => decide_eq_false (not_le.mpr neg), fun q => rfl⟩
  case exact =>
    refine ⟨rndScaled_rat P exact, rndBaroDiff_rat exact, fun x v a b => rndScaled_isRnd exact a b,
      fun x x₀ v v₀ => rndBaroDiff_isRnd exact, fun qx qy qz qw x y z w hx hy hz hw => ⟨fun v => ?_, fun euler => ?_⟩,
      fun lx ly lz x y z hx hy hz => ⟨isValue_kphOf exact hx hz, isValue_mag3dOf exact hx hy hz⟩⟩
    · rw [headingOf_exact exact]; exact isValue_headingExact hx hy hz hw v
    · rw [eulerOf_exact exact euler]; exact eulerValues_eulerDefault hx hy hz hw
  case supplied =>
    refine ⟨fun x a b => rndScaled_supplied supplied, fun x x₀ => rndBaroDiff_supplied supplied,
      fun vx vy vz v => ⟨by simp only [kphOf, supplied], by simp only [mag3dOf, supplied]⟩,
      fun qx qy qz qw => ⟨?_, fun euler => by simp only [eulerOf, euler, supplied]⟩⟩
    rw [headingOf_supplied supplied]
    exact if_congr Iff.rfl rfl (if_congr (Bool.and_eq_true _ _).to_iff rfl rfl)
  case attitude =>
    exact fun q bad => ⟨by rw [headingOf_nonFinite P bad]; rfl, fun euler => by
      rw [eulerOf_nonFinite euler bad]; exact ⟨rfl, rfl, rfl⟩⟩
  case velocity =>
    exact fun v => ⟨fun bad => by rw [kphOf_nonFinite P bad]; rfl, fun bad => by rw [mag3dOf_nonFinite P bad]; rfl⟩

end Sys2Proof.Machine
end

/-! ## The source's record example, and headings of quarter turns

What stands here settles O37. Every number of the example is an integer after scaling, so `rndScaled_of_int` gives its field from
its value under every tie rule. -/

section

open Sys2Proof Sys2Proof.Machine Sys2Proof.Claims

namespace Sys2Proof.Machine

/-! ### Quarter turns (43_telemetry_encoder.md R205) -/

/-- The heading of a direction given by its angle `a` in degrees. -/
theorem isHeading_polar {s c r a : ℝ} (hr : 0 < r) (low : -180 < a) (high : a ≤ 180)
    (hs : s = r * Real.sin (a * (Real.pi / 180))) (hc : c = r * Real.cos (a * (Real.pi / 180))) :
    IsHeading s c (if a < 0 then a + 360 else a) := by
  have hπ := Real.pi_pos
  have angle : Complex.arg ⟨c, s⟩ = a * (Real.pi / 180) := arg_polar hr ⟨by nlinarith, by nlinarith⟩ hc hs
  have direction : ¬(s = 0 ∧ c = 0) := by
    rintro ⟨s0, c0⟩
    have unit := Real.sin_sq_add_cos_sq (a * (Real.pi / 180))
    rw [(mul_eq_zero.mp (hs.symm.trans s0)).resolve_left hr.ne', (mul_eq_zero.mp (hc.symm.trans c0)).resolve_left hr.ne'] at unit
    norm_num at unit
  have degrees : a * (Real.pi / 180) * 180 / Real.pi = a := by field_simp
  exact ⟨_, ⟨direction, angle.symm⟩, by rw [degrees]⟩

section
variable {r : ℝ} (hr : 0 < r)
include hr

theorem isHeading_zero : IsHeading 0 r 0 := by
  simpa using isHeading_polar (a := 0) hr (by norm_num) (by norm_num) rfl rfl

theorem isHeading_right : IsHeading r 0 90 := by
  have right : (90 : ℝ) * (Real.pi / 180) = Real.pi / 2 := by ring
  have h := isHeading_polar (a := 90) hr (by norm_num) (by norm_num) rfl rfl
  rw [right, Real.sin_pi_div_two, Real.cos_pi_div_two] at h
  norm_num at h
  exact h

theorem isHeading_back : IsHeading 0 (-r) 180 := by
  have back : (180 : ℝ) * (Real.pi / 180) = Real.pi := by ring
  have h := isHeading_polar (a := 180) hr (by norm_num) (by norm_num) rfl rfl
  rw [back, Real.sin_pi, Real.cos_pi] at h
  norm_num at h
  exact h

theorem isHeading_left : IsHeading (-r) 0 270 := by
  have left : (-90 : ℝ) * (Real.pi / 180) = -(Real.pi / 2) := by ring
  have h := isHeading_polar (a := -90) hr (by norm_num) (by norm_num) rfl rfl
  rw [left, Real.sin_neg, Real.cos_neg, Real.sin_pi_div_two, Real.cos_pi_div_two] at h
  norm_num at h
  exact h

end

/-- Of `½ √2`, which is `√½` (95_test_vectors.md Q2, Q4). -/
theorem sq_half_sqrt_two : (1 / 2 * Real.sqrt 2) * (1 / 2 * Real.sqrt 2) = 1 / 2 := by
  linarith [Real.mul_self_sqrt (show (0 : ℝ) ≤ 2 by norm_num)]

section
variable {P : Params} (exact : P.numerics = .exactReals)
include exact

/-- The heading field of a turn about the vertical axis: `s = 2 w y` and `c = w² - y²`. -/
theorem rndScaled_heading_vertical {qy qw : RealLit} {y w s c v : ℝ} {n : Int} (hy : IsReal qy y) (hw : IsReal qw w)
    (h : IsHeading s c v) (hs : 2 * (w * y) = s) (hc : w * w - y * y = c) (hn : 100 * v = n) :
    rndScaled P (headingOf P ⟨.fin (.rat 0), .fin qy, .fin (.rat 0), .fin qw⟩) 100 0 = some n := by
  refine rndScaled_of_int exact (v := v) ?_ (by push_cast; linarith)
  rw [headingOf_exact exact, isValue_headingExact isReal_zero hy isReal_zero hw]
  simpa [hs, hc] using h

end

/-! ### The record of R236 -/

def exampleRecord : TelemetryRecord :=
  ⟨⟨.fin (.rat 0), .fin (.rat 100), .fin (.rat 0)⟩, ⟨.fin (.rat 0), .fin (.rat 0), .fin (.rat 0), .fin (.rat 1)⟩,
    ⟨.fin (.rat 0), .fin (.rat 0), .fin (.rat 0)⟩, ⟨.fin (.rat (1 / 2)), .fin (.rat (111 / 10))⟩, []⟩

/-- Its first attempt, the only one that depends on GEO_FN. -/
def exampleGps (P : Params) : Byte × Byte × Except FieldError (Option (List Byte)) :=
  (0x10#8, 0x02#8, (encGps P (geoOf P exampleRecord.pos).1 (geoOf P exampleRecord.pos).2 (kphOf P exampleRecord.vel)
    (headingOf P exampleRecord.att) (ofNum exampleRecord.pos.y)).map some)

section
variable {P : Params} (exact : P.numerics = .exactReals)
include exact

theorem rndScaled_of_zero {x : RealNum} (h : IsValue x 0) (a : Rat) : rndScaled P x a 0 = some 0 :=
  rndScaled_of_int exact h (by push_cast; ring)

theorem rndScaled_rat_int {q a b : Rat} {n : Int} (h : a * q + b = n) : rndScaled P (.rat q) a b = some n :=
  rndScaled_of_int exact (x := .rat q) rfl (by exact_mod_cast h)

theorem example_heading : rndScaled P (headingOf P exampleRecord.att) 100 0 = some 0 :=
  rndScaled_heading_vertical exact isReal_zero isReal_one (isHeading_zero one_pos) (by norm_num)
    (by norm_num) (by norm_num)

theorem example_kph : IsValue (kphOf P exampleRecord.vel) 0 :=
  (isValue_kphOf exact isReal_zero isReal_zero _ 0).mpr (by simp)

theorem example_mag3d : IsValue (mag3dOf P exampleRecord.vel) 0 :=
  (isValue_mag3dOf exact isReal_zero isReal_zero isReal_zero 0).mpr (by simp)

theorem example_euler (euler : P.euler = .default) : IsValue (eulerOf P exampleRecord.att).1 0 ∧
    IsValue (eulerOf P exampleRecord.att).2.1 0 ∧ IsValue (eulerOf P exampleRecord.att).2.2 0 := by
  have angles : eulerValues (eulerOf P exampleRecord.att) 0 0 0 (-1) := by
    rw [exampleRecord, eulerOf_exact exact euler]
    exact eulerValues_eulerDefault isReal_zero isReal_zero isReal_zero isReal_one
  obtain ⟨pitch, roll, yaw⟩ := angles
  have ahead : IsAngle 0 1 0 :=
    ⟨by norm_num, (arg_polar one_pos ⟨by linarith [Real.pi_pos], Real.pi_pos.le⟩ (by simp) (by simp)).symm⟩
  exact ⟨(pitch 0).mpr (by norm_num), (roll 0).mpr (by simpa using ahead), (yaw 0).mpr (by simpa using ahead)⟩

theorem exampleGps_eq {zlat zlon : Int} (hlat : rndScaled P (geoOf P exampleRecord.pos).1 10000000 0 = some zlat)
    (hlon : rndScaled P (geoOf P exampleRecord.pos).2 10000000 0 = some zlon) (lat₁ : -2147483648 ≤ zlat)
    (lat₂ : zlat ≤ 2147483647) (lon₁ : -2147483648 ≤ zlon) (lon₂ : zlon ≤ 2147483647) :
    exampleGps P = (0x10#8, 0x02#8, .ok (some (bytesOf 4 zlat ++ bytesOf 4 zlon ++
      [0x00#8, 0x00#8, 0x00#8, 0x00#8, 0x04#8, 0x4C#8, 0x01#8]))) := by
  have speed := rndScaled_of_zero exact (example_kph exact) 10
  have alt : rndScaled P (ofNum exampleRecord.pos.y) 1 1000 = some 1100 :=
    rndScaled_rat_int exact (q := 100) (n := 1100) (by norm_num)
  have good : firstBad .gps
      [(.lat, -2147483648, 2147483647, some zlat), (.lon, -2147483648, 2147483647, some zlon), (.speed, 0, 65535, some 0),
        (.heading, 0, 65535, some 0), (.alt, 0, 65535, some 1100)] = none := by
    simp [firstBad, lat₁, lat₂, lon₁, lon₂]
  rw [exampleGps, encGps_eq, hlat, hlon, speed, example_heading exact, alt, good]
  simp only [Option.getD_some, List.append_assoc]
  rfl

theorem example_encBattery : encBattery P (ofNum exampleRecord.batt.volt) (ofNum exampleRecord.batt.pct) =
    .ok [0x00#8, 0x6F#8, 0x00#8, 0x00#8, 0x00#8, 0x00#8, 0x00#8, 0x32#8] := by
  have volt : rndScaled P (ofNum exampleRecord.batt.volt) 10 0 = some 111 :=
    rndScaled_rat_int exact (q := 111 / 10) (n := 111) (by norm_num)
  have pct : rndScaled P (ofNum exampleRecord.batt.pct) 100 0 = some 50 :=
    rndScaled_rat_int exact (q := 1 / 2) (n := 50) (by norm_num)
  rw [encBattery_eq, volt, pct]
  rfl

theorem example_encVario : encVario P (ofNum exampleRecord.vel.vy) = .ok [0x00#8, 0x00#8] := by
  have still : IsValue (ofNum exampleRecord.vel.vy) 0 := isReal_zero
  rw [encVario_eq, rndScaled_of_zero exact still]
  rfl

theorem example_encBaroAlt (one : P.baroVsBytes = 1) :
    encBaroAlt P (ofNum exampleRecord.pos.y) (.rat 100) = .ok [0x27#8, 0x10#8, 0x00#8] := by
  have diff : rndBaroDiff P (ofNum exampleRecord.pos.y) (.rat 100) = some 0 := by
    have h := rndBaroDiff_rat exact 100 100
    rw [sub_self, zero_mul] at h
    exact h.trans (congrArg some (rnd_intCast P.roundTies 0))
  have alt : rndScaled P (ofNum exampleRecord.pos.y) 1 0 = some 100 :=
    rndScaled_rat_int exact (q := 100) (n := 100) (by norm_num)
  rw [encBaroAlt_of_ok diff alt (baroValue_decimetres 100 (by norm_num)), one]
  rfl

theorem example_encAirspeed : encAirspeed P (mag3dOf P exampleRecord.vel) = .ok [0x00#8, 0x00#8] := by
  rw [encAirspeed_eq, rndScaled_of_zero exact (example_mag3d exact)]
  rfl

theorem example_encAttitude (euler : P.euler = .default) :
    encAttitude P (eulerOf P exampleRecord.att).1 (eulerOf P exampleRecord.att).2.1 (eulerOf P exampleRecord.att).2.2 =
      .ok [0x00#8, 0x00#8, 0x00#8, 0x00#8, 0x00#8, 0x00#8] := by
  obtain ⟨pitch, roll, yaw⟩ := example_euler exact euler
  rw [encAttitude_eq, rndScaled_of_zero exact pitch, rndScaled_of_zero exact roll, rndScaled_of_zero exact yaw]
  rfl

/-- The other attempts succeed; ENC_RPM has no rotor and gives no frame. -/
theorem example_attempts (euler : P.euler = .default) (one : P.baroVsBytes = 1) :
    attempts P exampleRecord (.rat 100) = [exampleGps P] ++
      [(0x11#8, 0x08#8, .ok (some [0x00#8, 0x6F#8, 0x00#8, 0x00#8, 0x00#8, 0x00#8, 0x00#8, 0x32#8])),
       (0x12#8, 0x07#8, .ok (some [0x00#8, 0x00#8])), (0x13#8, 0x09#8, .ok (some [0x27#8, 0x10#8, 0x00#8])),
       (0x14#8, 0x0A#8, .ok (some [0x00#8, 0x00#8])),
       (0x15#8, 0x1E#8, .ok (some [0x00#8, 0x00#8, 0x00#8, 0x00#8, 0x00#8, 0x00#8])), (0x16#8, 0x0C#8, .ok none)] := by
  rw [attempts, example_encBattery exact, example_encVario exact, example_encBaroAlt exact one, example_encAirspeed exact,
    example_encAttitude exact euler]
  rfl

end

theorem pairsOf_append (l l' : List (Byte × Byte × Except FieldError (Option (List Byte)))) :
    pairsOf (l ++ l') = pairsOf l ++ pairsOf l' := List.filterMap_append

theorem eventsOf_append (l l' : List (Byte × Byte × Except FieldError (Option (List Byte)))) :
    eventsOf (l ++ l') = eventsOf l ++ eventsOf l' := List.filterMap_append

/-- Settles O37: the attempts of the example one by one, and each heading from its quarter turn. -/
theorem recordExample : Obligations.RecordExample := by
  intro s h exact euler one
  have minus : IsReal (.rat (-1)) (-1) := by simp [IsReal]
  have root : IsReal (.root (1 / 2) 2) (1 / 2 * Real.sqrt 2) := by simp [IsReal]
  have rootMinus : IsReal (.root (-1 / 2) 2) (-(1 / 2 * Real.sqrt 2)) := by
    simp only [IsReal]; push_cast; ring
  have square := sq_half_sqrt_two
  refine ⟨⟨pairsOf [exampleGps s.params], eventsOf [exampleGps s.params], ?encode, ?gps⟩, example_heading exact, ?right, ?back,
    ?left, ?undefined, ?rootRight, ?rootLeft⟩
  case encode =>
    refine (encodeRuns exampleRecord (.rat 100) s h).2.1.trans ?_
    rw [example_attempts exact euler one, pairsOf_append, eventsOf_append]
    exact congrArg (fun events => Host.Outcome.next (emits s (events ++ _))) (List.append_nil _)
  case gps =>
    intro zlat zlon hlat hlon lat₁ lat₂ lon₁ lon₂
    rw [exampleGps_eq exact hlat hlon lat₁ lat₂ lon₁ lon₂]
    exact ⟨rfl, rfl⟩
  case right =>
    exact rndScaled_heading_vertical exact isReal_one isReal_one (isHeading_right two_pos) (by norm_num) (by norm_num)
      (by norm_num)
  case back =>
    exact rndScaled_heading_vertical exact isReal_one isReal_zero (isHeading_back one_pos) (by norm_num) (by norm_num)
      (by norm_num)
  case left =>
    exact rndScaled_heading_vertical exact isReal_one minus (isHeading_left two_pos) (by norm_num) (by norm_num) (by norm_num)
  case undefined =>
    exact rndScaled_none _ _ _ _ (headingOf_zero _ isReal_zero isReal_zero isReal_zero isReal_zero)
  case rootRight =>
    exact rndScaled_heading_vertical exact root root (isHeading_right one_pos) (by linarith) (by linarith) (by norm_num)
  case rootLeft =>
    exact rndScaled_heading_vertical exact rootMinus root (isHeading_left one_pos) (by linarith) (by linarith) (by norm_num)

end Sys2Proof.Machine
end

/-! ## The Stream Bridge: both directions, and the statistics report

What stands here settles O42 and O47 to O50. One lemma for each operation says what it does, in the words of the statements:
`receive_eq_handled` for a read, `txWrite_head` for a write, whichever queue it takes from. -/

section

open Sys2Proof Sys2Proof.Machine Sys2Proof.Claims

namespace Sys2Proof.Machine

/-! ### RX_TICK (44_router_bridge.md R251, R253, R254) -/

theorem rxResult_eq_handled (s : State) (r : FrameResult) : s.rxResult r = handled s r := by
  cases r with
  | crcError => rfl
  | ok frame =>
    cases packet : inner frame with
    | nil =>
      have stripped : (frame.drop 2).dropLast = [] := packet
      simp only [State.rxResult, packet, forward_eq_forwarded, handled, stripped]
    | cons type payload =>
      have stripped : (frame.drop 2).dropLast = type :: payload := packet
      simp only [rxResult_ok s packet, handled, stripped]

theorem rxResults_eq_handled (s : State) (l : List FrameResult) : l.foldl State.rxResult s = l.foldl handled s :=
  congrArg (fun f => l.foldl f s) (funext fun s => funext fun r => rxResult_eq_handled s r)

/-- What one read leaves is the next line of the schedule (log entry 27). -/
theorem unread_drop_eq (s : State) {r : List Byte} {k : Nat} (h : k ≤ r.length) : s.unread (r.drop k) =
    { s with stimulus := if k = r.length then s.stimulus else .present (.event 0x20#8 (.bytes (r.drop k))) :: s.stimulus } := by
  have all_read : r.drop k = [] ↔ k = r.length := by rw [List.drop_eq_nil_iff]; omega
  rw [unread_eq]
  split_ifs with drop_nil whole whole
  · rfl
  · exact absurd (all_read.mp drop_nil) whole
  · exact absurd (all_read.mpr whole) drop_nil
  · rfl

/-- A read that returns something where anything waits enters the window just there. -/
theorem appendRead_take_eq (s : State) {r : List Byte} {k : Nat} (h : k ≤ r.length) (some_read : r ≠ [] → 0 < k) :
    s.appendRead (r.take k) = { s with
      rxbuf := s.rxbuf ++ r.take k
      stats := if r = [] then s.stats else evict s.now (s.stats ++ [(s.now, .bytes k)]) } := by
  have len : (r.take k).length = k := List.length_take_of_le h
  rw [appendRead_eq, len]
  by_cases hr : r = []
  · subst hr
    obtain rfl : k = 0 := Nat.le_zero.mp h
    rfl
  · rw [if_pos (some_read hr), if_neg hr]

theorem receive_eq_handled (s : State) (r : List Byte) {k : Nat} (hk : readSize s.params r.length = k) :
    s.receive (.bytes r) = (scan (s.rxbuf ++ r.take k)).1.foldl handled
      { s with
        rxbuf := (s.rxbuf ++ r.take k).drop (scan (s.rxbuf ++ r.take k)).2
        stats := if r = [] then s.stats else evict s.now (s.stats ++ [(s.now, .bytes k)])
        stimulus := if k = r.length then s.stimulus else .present (.event 0x20#8 (.bytes (r.drop k))) :: s.stimulus } := by
  obtain ⟨at_most, some_read, -⟩ := readSize_spec s.params r.length
  rw [hk] at at_most some_read
  calc s.receive (.bytes r)
    _ = ((s.unread (r.drop k)).appendRead (r.take k)).scanRxbuf := by rw [← hk]; rfl
    _ = _ := by
      rw [unread_drop_eq s at_most, appendRead_take_eq _ at_most fun hr => some_read (List.length_pos_iff.mpr hr)]
      exact rxResults_eq_handled _ _

/-- Settles O42: the effect is `receive_eq_handled`, the bounds of the read are those of `readSize`. -/
theorem rxTickRuns : Obligations.RxTickRuns := by
  intro s hs hc
  refine ⟨rfl, exec_rxTick hs hc .closed, fun r => ⟨rfl, readSize s.params r.length, ?_⟩⟩
  obtain ⟨at_most, some_read, max, cap, -⟩ := readSize_spec s.params r.length
  refine ⟨(exec_rxTick hs hc _).trans (congrArg _ (receive_eq_handled s r rfl)), readSize_of_fits, at_most,
    fun hr => some_read (List.length_pos_iff.mpr hr), max, fun c hcap h257 left => ?_, readSize_full s.params r.length⟩
  have room := cap c hcap h257
  rw [List.length_append, List.length_take_of_le at_most]
  omega

/-! ### DISPATCH (44_router_bridge.md R255 to R258) -/

theorem getLsbD_changeMask (first : Bool) (cur prev : Vector Chan 16) (i : Fin 16) :
    (changeMask first cur prev).getLsbD i = (first || decide (cur[i] ≠ prev[i])) := by
  unfold changeMask
  cases first with
  | true =>
    have ones : (0xFFFF#16).getLsbD i = decide (i.val < 16) := BitVec.getLsbD_allOnes (v := 16)
    simpa using ones
  | false => simp

/-- Settles O47: DISPATCH is the spec's transcription (`dispatchPacket_eq_dispatched`), and the mask is told bit by bit. -/
theorem dispatchRuns : Obligations.DispatchRuns := by
  refine ⟨fun type payload s => ⟨rfl, fun hs hc => ?_, fun hc => held_off (rxEnabled_of_closed hc)⟩, getLsbD_changeMask⟩
  rw [exec_dispatch hs hc, dispatchPacket_eq_dispatched]

/-! ### NET_IN (44_router_bridge.md R260 to R262) -/

theorem netDatagram_of_ok {s : State} {t : Byte} {p f : List Byte} (built : build t p = .ok f) :
    s.netDatagram (t :: p) = { s with txqNet := s.txqNet ++ [f] } := by simp only [State.netDatagram, built, State.enqueueNet]

theorem netDatagram_of_error {s : State} {t : Byte} {p : List Byte} {n : Nat} (refused : build t p = .error n) :
    s.netDatagram (t :: p) = s.raise .build (.payloadTooLarge n) := by simp only [State.netDatagram, refused]

/-- Settles O48: BUILD makes the frame up to 253 bytes of payload, and refuses above. -/
theorem netInRuns : Obligations.NetInRuns := by
  intro s hs
  refine ⟨exec_netIn hs [], fun t p => ⟨rfl, fun fits => ?built, fun large => ?refused⟩⟩
  case built => rw [exec_netIn hs, netDatagram_of_ok (build_eq_frameOf t fits)]
  case refused =>
    rw [exec_netIn hs, netDatagram_of_error (build_eq_error t (by omega))]
    rfl

/-! ### TX_WRITE (44_router_bridge.md R264) -/

theorem txChoice_eq_net {s : State} (waiting : s.txqNet ≠ []) (pick : s.txPicks.headD .net = .net ∨ s.txqTel = []) :
    s.txChoice = .net := by
  unfold State.txChoice
  cases picked : s.txPicks.headD .net with
  | net => exact if_neg (by simpa using waiting)
  | tel =>
    have empty : s.txqTel = [] := pick.resolve_left (by rw [picked]; decide)
    exact if_pos (by simp [empty])

theorem txChoice_eq_tel {s : State} (waiting : s.txqTel ≠ []) (pick : s.txPicks.headD .net = .tel ∨ s.txqNet = []) :
    s.txChoice = .tel := by
  unfold State.txChoice
  cases picked : s.txPicks.headD .net with
  | tel => exact if_neg (by simpa using waiting)
  | net =>
    have empty : s.txqNet = [] := pick.resolve_left (by rw [picked]; decide)
    exact if_pos (by simp [empty])

/-- A write on BS_TX of the frame taken from `queue` takes the answer that stood first before the frame was taken. -/
theorem writeFrame_dequeue (s : State) (queue : TxQueue) (f : List Byte) : (s.dequeue queue).writeFrame f =
    emits { s.dequeue queue with txAnswers := s.txAnswers.tail } [.bsTx f s.writeAnswer] := by
  cases queue with
  | net => rfl
  | tel => rfl

/-- TX_WRITE where the queue it takes from has a head, by the environment's answer (60_exceptions.md R309). -/
theorem txWrite_head {s : State} {f : List Byte} {queue : TxQueue} (hs : s.stopped = false) (hc : s.txClosed = false)
    (choice : s.txChoice = queue) (head : s.headOf queue = some f) :
    (s.txAnswers.headD .accepted = .accepted → exec .txWrite s = .next
      (emits { s.dequeue queue with txAnswers := s.txAnswers.tail } [.bsTx f .accepted])) ∧
    (s.txAnswers.headD .accepted = .closed → exec .txWrite s = .next
      (emits { s.dequeue queue with txAnswers := s.txAnswers.tail, txClosed := true }
        [.bsTx f .closed, .errOut 6 0x23#8 (.streamClosed .tx)])) := by
  have waiting : ¬(s.txqNet = [] ∧ s.txqTel = []) := by
    rintro ⟨net, tel⟩
    cases queue with
    | net => simp [State.headOf, net] at head
    | tel => simp [State.headOf, tel] at head
  rw [exec_txWrite hs hc waiting]
  unfold State.writeHead
  simp only [choice, head, writeFrame_dequeue]
  refine ⟨fun accepted => ?_, fun closed => ?_⟩
  · have answer : s.writeAnswer = .accepted := accepted
    rw [answer]
  · have answer : s.writeAnswer = .closed := closed
    rw [answer]
    simp [emits, State.raise, State.emit, conditionCode, OpName.opid]

/-- Settles O49: `txWrite_head` for either queue. -/
theorem txWriteRuns : Obligations.TxWriteRuns := by
  intro s f q hs hc
  refine ⟨fun queued pick => ?net, fun queued pick => ?tel⟩
  case net =>
    have written := txWrite_head hs hc (txChoice_eq_net (by simp [queued]) pick) (f := f) (by simp [State.headOf, queued])
    simpa only [emits, State.dequeue, queued, List.tail_cons] using written
  case tel =>
    have written := txWrite_head hs hc (txChoice_eq_tel (by simp [queued]) pick) (f := f) (by simp [State.headOf, queued])
    simpa only [emits, State.dequeue, queued, List.tail_cons] using written

/-! ### STATS_REPORT (44_router_bridge.md R281 to R283) -/

theorem errorsPerWindow_eq_countP (w : List (Nat × StatEntry)) :
    errorsPerWindow w = w.countP fun e => decide (e.2 = .err) := List.countP_eq_length_filter.symm

/-- Settles O50: in a window in order of time eviction is a filter (`evict_sorted`). -/
theorem statsReportRuns : Obligations.StatsReportRuns := by
  intro s hs sorted due
  refine ⟨rfl, _, rfl, ?_⟩
  rw [exec_statsReport hs due, State.reportStats, evict_sorted s.now s.stats sorted, errorsPerWindow_eq_countP,
    State.crcErrShown]
  cases s.params.statsReportMs with
  | none => rfl
  | some p => rfl

end Sys2Proof.Machine
end

/-! ## The channel router/broadcaster: the destination set, its control datagrams, and BCAST

What stands here settles O51 to O53. The set is told by its members (`mem_registerDest`), and `broadcast_eq` says the whole of
a BCAST: one walk, what it emits, and who is left in the set. -/

section

open Sys2Proof Sys2Proof.Machine Sys2Proof.Claims

namespace Sys2Proof.Machine

/-! ### REGISTER and UNREGISTER (44_router_bridge.md R272, R273) -/

theorem destHasRoom_iff (s : State) : s.destHasRoom = true ↔ ∀ cap, s.params.destCap = some cap → s.dest.length < cap := by
  unfold State.destHasRoom
  cases s.params.destCap with
  | none => simp
  | some cap => simp

theorem registerDest_dest (s : State) (a : Addr) : s.registerDest a = { s with dest := (s.registerDest a).dest } := by
  unfold State.registerDest
  split
  · rfl
  · rfl

theorem mem_registerDest (s : State) (a x : Addr) :
    x ∈ (s.registerDest a).dest ↔ x ∈ s.dest ∨ (x = a ∧ s.destHasRoom = true) := by
  unfold State.registerDest
  split
  case isTrue h =>
    rw [mem_destInsert]
    constructor
    · rintro (rfl | member)
      · exact h.imp_right fun room => ⟨rfl, room⟩
      · exact .inl member
    · exact fun k => k.symm.imp_left And.left
  case isFalse h =>
    have no_room : ¬s.destHasRoom = true := fun room => h (.inr room)
    simp [no_room]

theorem registerDest_of_mem {s : State} {a : Addr} (member : a ∈ s.dest) (sorted : s.dest.Pairwise (· < ·)) :
    s.registerDest a = s := by
  rw [State.registerDest, if_pos (.inl member), destInsert_mem a s.dest sorted member]

theorem unregisterDest_of_not_mem {s : State} {a : Addr} (absent : a ∉ s.dest) : s.unregisterDest a = s := by
  have same : destErase a s.dest = s.dest :=
    List.filter_eq_self.mpr fun x hx => decide_eq_true fun e : x = a => absent (e ▸ hx)
  rw [State.unregisterDest, same]

/-- Settles O51: the members after each operation, and the two senders that change nothing. -/
theorem registerUnregisterRun : Obligations.RegisterUnregisterRun := by
  intro a s hs hh
  refine ⟨⟨(s.registerDest a).dest, ?_, fun x => ?_⟩, fun member sorted => ?_,
    ⟨_, exec_unregister hs hh a, fun x => mem_destErase a x s.dest⟩, fun absent => ?_⟩
  · rw [exec_register hs hh, ← registerDest_dest]
  · rw [mem_registerDest, destHasRoom_iff]
  · rw [exec_register hs hh, registerDest_of_mem member sorted]
  · rw [exec_unregister hs hh, unregisterDest_of_not_mem absent]

/-! ### CTL_MSG (44_router_bridge.md R271, R274, R275) -/

theorem control_of_ignored (s : State) {m : List Byte} (a : Addr) (register : m ≠ [0x00#8]) (unregister : m ≠ [0x01#8])
    (quit : m ≠ [0xFF#8]) : s.control m a = s := by
  unfold State.control
  split
  case h_1 b =>
    rw [Ne, List.singleton_inj] at register unregister quit
    exact (if_neg register).trans ((if_neg unregister).trans (if_neg quit))
  case h_2 => rfl

/-- Settles O52: a set HALT holds the broadcaster off (`exec_of_halt`), the rest is the four-way choice. -/
theorem controlDatagrams : Obligations.ControlDatagrams := by
  intro a s hs hh
  refine ⟨exec_quit hs hh a, fun i => exec_of_halt rfl, ?_, ?_, ?_, fun m register unregister quit => ?_⟩
  · rw [exec_ctlMsg hs hh, exec_register hs hh]; rfl
  · rw [exec_ctlMsg hs hh, exec_unregister hs hh]; rfl
  · rw [exec_ctlMsg hs hh, exec_quit hs hh]; rfl
  · rw [exec_ctlMsg hs hh, control_of_ignored s a register unregister quit]

/-! ### BCAST (44_router_bridge.md R277, R278; 20_memory.md R77) -/

/-- A walk over the whole set leaves in DEST the members whose send does not fail. -/
theorem broadcast_dest_eq (s : State) (d : List Byte) (h : s.dest.Nodup) :
    (s.broadcast d).dest = s.dest.filter fun a => decide (a ∉ s.bcPlan.failed) := by
  rw [State.broadcast, bcSends_dest]
  refine List.filter_congr fun a ha => ?_
  have walked : a ∈ walkOrder s.bcPlan s.dest := (walkOrder_perm s.bcPlan s.dest h).mem_iff.mpr ha
  simp [walked]

theorem broadcast_out (s : State) (d : List Byte) :
    (s.broadcast d).out = s.out ++ (walkOrder s.bcPlan s.dest).flatMap (sendOutputs s.bcPlan d) := bcSends_out _ _ _ _

theorem broadcast_eq (s : State) (d : List Byte) (h : s.dest.Nodup) : s.broadcast d = { s with
    bcPlans := s.bcPlans.tail
    dest := s.dest.filter fun a => decide (a ∉ s.bcPlan.failed)
    out := s.out ++ (walkOrder s.bcPlan s.dest).flatMap (sendOutputs s.bcPlan d) } := by
  rw [(broadcast_sent s d).2, broadcast_dest_eq s d h, broadcast_out]

/-- A draw that names every member once is the walk. -/
theorem walkOrder_of_perm {walk dest : List Addr} (failed : List Addr) (perm : walk.Perm dest) (h : dest.Nodup) :
    walkOrder ⟨walk, failed⟩ dest = walk := by
  have named : walk.filter (· ∈ dest) = walk := List.filter_eq_self.mpr fun a ha => decide_eq_true (perm.mem_iff.mp ha)
  have unnamed : dest.filter (· ∉ walk) = [] :=
    List.filter_eq_nil_iff.mpr fun a ha => by simpa using perm.mem_iff.mpr ha
  rw [walkOrder, named, unnamed, List.append_nil, List.Nodup.dedup (perm.nodup_iff.mpr h)]

theorem broadcastsSent_sendOutputs (plan : BcPlan) (d : List Byte) (a : Addr) :
    broadcastsSent (sendOutputs plan d a) = [(a, d, if a ∈ plan.failed then .failed else .sent)] := by
  unfold sendOutputs
  split
  · rfl
  · rfl

theorem broadcastsSent_append (out more : List Output) :
    broadcastsSent (out ++ more) = broadcastsSent out ++ broadcastsSent more := List.filterMap_append

theorem broadcastsSent_walk (plan : BcPlan) (d : List Byte) (walk : List Addr) :
    broadcastsSent (walk.flatMap (sendOutputs plan d)) =
      walk.map fun a => (a, d, if a ∈ plan.failed then .failed else .sent) := by
  induction walk with
  | nil => rfl
  | cons a walk ih =>
    rw [List.flatMap_cons, broadcastsSent_append, broadcastsSent_sendOutputs, ih, List.map_cons, List.singleton_append]

/-- Settles O53: the walk is `walkOrder`, a permutation of DEST by `walkOrder_perm`, and any that is drawn by
`walkOrder_of_perm`. -/
theorem bcastRuns : Obligations.BcastRuns := by
  refine ⟨fun d s hs hh nodup => ⟨rfl, walkOrder s.bcPlan s.dest, walkOrder_perm _ _ nodup, ?run⟩,
    fun d s walk failed hs hh nodup perm plan => ⟨_, exec_bcast hs hh d, ?sends⟩⟩
  case run =>
    rw [exec_bcast hs hh, broadcast_eq s d nodup]
    rfl
  case sends =>
    rw [broadcast_out, plan, walkOrder_of_perm failed perm nodup, broadcastsSent_append, broadcastsSent_walk]

end Sys2Proof.Machine
end

/-! ## Events on ERR_OUT

What stands here settles O58. `Reports` says that what an operation adds to the outputs holds no event but with the code and an
opid of its row of 60_exceptions.md R300; every operation keeps it, an encoder because the first field that fails names the
encoder's own frame type, and so each line of the schedule keeps it. -/

section

open Sys2Proof Sys2Proof.Machine Sys2Proof.Claims

namespace Sys2Proof.Machine

/-! ### Events that have their row of the table (60_exceptions.md R300) -/

/-- The operation is one that detects the condition. -/
def Detects (op : OpName) (c : Condition) : Prop := op.opid ∈ (raisedBy c).2

/-- An event has the code of its condition and an opid of its row; any other output is free. -/
def Output.HasRow (o : Output) : Prop :=
  match o with
  | .errOut code opid info => code = (raisedBy info).1 ∧ opid ∈ (raisedBy info).2
  | _ => True

/-- From `s` to `t` outputs were only added, and each event among them has its row. -/
def Reports (s t : State) : Prop := ∃ added, t.out = s.out ++ added ∧ ∀ o ∈ added, o.HasRow

theorem conditionCode_eq_raisedBy (c : Condition) : conditionCode c = (raisedBy c).1 := by
  cases c with
  | destinationUnreachable dest => cases dest <;> rfl
  | streamClosed direction => cases direction <;> rfl
  | _ => rfl

theorem Reports.of_out_eq {s t : State} (h : t.out = s.out) : Reports s t := ⟨[], by simp [h], by simp⟩

theorem Reports.refl (s : State) : Reports s s := .of_out_eq rfl

theorem Reports.trans {s t u : State} (h : Reports s t) (k : Reports t u) : Reports s u := by
  obtain ⟨first, ht, hfirst⟩ := h
  obtain ⟨later, hu, hlater⟩ := k
  exact ⟨first ++ later, by rw [hu, ht, List.append_assoc], List.forall_mem_append.mpr ⟨hfirst, hlater⟩⟩

theorem Reports.mem_drop {s t : State} (h : Reports s t) {o : Output} (ho : o ∈ t.out.drop s.out.length) : o.HasRow := by
  obtain ⟨added, ht, hadded⟩ := h
  rw [ht, List.drop_left] at ho
  exact hadded o ho

theorem emit_reports (s : State) {o : Output} (h : o.HasRow) : Reports s (s.emit o) := ⟨[o], rfl, by simpa using h⟩

theorem answer_reports (s : State) (op : OpName) (r : Result) : Reports s (s.answer op r) := emit_reports s trivial

theorem raise_reports (s : State) {op : OpName} {c : Condition} (h : Detects op c) : Reports s (s.raise op c) :=
  emit_reports s ⟨conditionCode_eq_raisedBy c, h⟩

/-- Where R300 names one operation for the condition, it is the one that detects it. -/
theorem detects_of_only {op : OpName} {c : Condition} (only : (raisedBy c).2 = [op.opid]) : Detects op c := by
  rw [Detects, only]
  exact List.mem_singleton_self _

theorem raise_only_reports (s : State) {op : OpName} {c : Condition} (only : (raisedBy c).2 = [op.opid] := by rfl) :
    Reports s (s.raise op c) := raise_reports s (detects_of_only only)

theorem raiseFields_reports (s : State) {errs : List (OpName × FieldError)}
    (h : ∀ e ∈ errs, Detects e.1 (.fieldOutOfRange e.2)) : Reports s (s.raiseFields errs) := by
  refine ⟨_, rfl, List.forall_mem_map.mpr fun e he => ?_⟩
  exact ⟨conditionCode_eq_raisedBy _, h e he⟩

theorem foldl_reports {α : Type} {f : State → α → State} (hf : ∀ s a, Reports s (f s a)) (l : List α) (s : State) :
    Reports s (l.foldl f s) := foldl_keeps Reports .refl (fun _ _ _ => .trans) f l (fun s a _ => hf s a) s

/-- An operation that is held off adds nothing (60_exceptions.md R302). -/
theorem Reports.of_enabled {c : Bool} {s t u : State} (h : Reports s u)
    (he : (.next (if c = true then u else s) : Host.Outcome State Fault Refusal) = .next t) : Reports s t := by
  rcases enabled_or_same he with ⟨-, rfl⟩ | ⟨-, rfl⟩
  · exact h
  · exact .refl t

/-! ### Fields: the frame type an error names is that of the encoder (60_exceptions.md R310) -/

theorem frame_of_firstBad {t : FrameType} {fields : List (FieldName × Int × Int × Option Int)} {e : FieldError}
    (h : firstBad t fields = some e) : e.frame = t := by
  induction fields with
  | nil => cases h
  | cons field rest ih =>
    obtain ⟨name, lo, hi, _ | z⟩ := field
    · cases h; rfl
    · rw [firstBad] at h
      split at h
      · exact ih h
      · cases h; rfl

theorem frame_of_answered {α : Type} {t : FrameType} {fields : List (FieldName × Int × Int × Option Int)} {payload : α}
    {e : FieldError} (h : answered (firstBad t fields) payload = .error e) : e.frame = t := by
  refine frame_of_firstBad (fields := fields) ?_
  cases bad : firstBad t fields with
  | none => rw [bad] at h; cases h
  | some e' => rw [bad] at h; cases h; rfl

theorem baroValue_error_frame {d m : Int} {e : FieldError} (h : baroValue d m = .error e) : e.frame = .baroAlt := by
  rcases lt_or_ge 0x7FFF d with high | low
  · rcases lt_or_ge m 0 with neg | pos
    · rw [baroValue_negative high neg] at h; cases h; rfl
    · rw [baroValue_metres high pos] at h; cases h
  · rw [baroValue_decimetres m low] at h; cases h

theorem encBaroAlt_error_frame {P : Params} {alt altStart : RealNum} {e : FieldError}
    (h : encBaroAlt P alt altStart = .error e) : e.frame = .baroAlt := by
  unfold encBaroAlt at h
  split at h
  case h_1 diff m _ _ =>
    cases hv : baroValue (diff + 10000) m with
    | error e' => rw [hv] at h; cases h; exact baroValue_error_frame hv
    | ok v => rw [hv] at h; cases h
  case h_2 => cases h; rfl

theorem encRpm_error_frame {P : Params} {rpm : List RealNum} {e : FieldError} (h : encRpm P rpm = .error e) :
    e.frame = .rpm := by
  rcases Nat.lt_or_ge 19 rpm.length with many | h19
  · rw [encRpm_of_many P many] at h; cases h; rfl
  · rcases Nat.eq_zero_or_pos rpm.length with none | h1
    · rw [List.length_eq_zero_iff.mp none, encRpm_nil] at h; cases h
    · exact frame_of_answered ((encRpm_of_few P h1 h19).symm.trans h)

/-- The ENC_* operation of a frame type detects the errors that name it. -/
theorem detects_field {op : OpName} {t : FrameType} {e : FieldError} (frame : e.frame = t)
    (only : (raisedBy (.fieldOutOfRange ⟨t, e.field, e.value⟩)).2 = [op.opid] := by rfl) :
    Detects op (.fieldOutOfRange e) := by
  subst frame
  exact detects_of_only only

theorem encGps_detects {P : Params} {lat lon kph heading alt : RealNum} {e : FieldError}
    (h : encGps P lat lon kph heading alt = .error e) : Detects .encGps (.fieldOutOfRange e) :=
  detects_field (frame_of_answered ((encGps_eq ..).symm.trans h))

theorem encBattery_detects {P : Params} {volt pct : RealNum} {e : FieldError} (h : encBattery P volt pct = .error e) :
    Detects .encBattery (.fieldOutOfRange e) :=
  detects_field (frame_of_answered ((encBattery_eq ..).symm.trans h))

theorem encVario_detects {P : Params} {vy : RealNum} {e : FieldError} (h : encVario P vy = .error e) :
    Detects .encVario (.fieldOutOfRange e) :=
  detects_field (frame_of_answered ((encVario_eq ..).symm.trans h))

theorem encBaroAlt_detects {P : Params} {alt altStart : RealNum} {e : FieldError}
    (h : encBaroAlt P alt altStart = .error e) : Detects .encBaroAlt (.fieldOutOfRange e) :=
  detects_field (encBaroAlt_error_frame h)

theorem encAirspeed_detects {P : Params} {mag : RealNum} {e : FieldError} (h : encAirspeed P mag = .error e) :
    Detects .encAirspeed (.fieldOutOfRange e) :=
  detects_field (frame_of_answered ((encAirspeed_eq ..).symm.trans h))

theorem encAttitude_detects {P : Params} {pitch roll yaw : RealNum} {e : FieldError}
    (h : encAttitude P pitch roll yaw = .error e) : Detects .encAttitude (.fieldOutOfRange e) :=
  detects_field (frame_of_answered ((encAttitude_eq ..).symm.trans h))

theorem encRpm_detects {P : Params} {rpm : List RealNum} {e : FieldError} (h : encRpm P rpm = .error e) :
    Detects .encRpm (.fieldOutOfRange e) := detects_field (encRpm_error_frame h)

theorem error_of_map_some {α : Type} {x : Except FieldError α} {e : FieldError} (h : x.map some = .error e) :
    x = .error e := by
  cases x with
  | error e' => cases h; rfl
  | ok p => cases h

/-- Each attempt of ENCODE that fails is reported under the opid of its encoder (log entry 20). -/
theorem encodeErrors_detects {P : Params} {rec : TelemetryRecord} {altStart : RealNum} :
    ∀ e ∈ encodeErrors P rec altStart, Detects e.1 (.fieldOutOfRange e.2) := by
  rintro ⟨op, e⟩ failed
  obtain ⟨⟨op', t, r⟩, attempt, given⟩ := List.mem_filterMap.mp failed
  obtain ⟨rfl, rfl⟩ : op' = op ∧ r = .error e := by
    obtain _ | p := r <;> cases given
    exact ⟨rfl, rfl⟩
  simp only [encodeItems, List.mem_cons, Prod.mk.injEq, List.not_mem_nil, or_false] at attempt
  rcases attempt with ⟨rfl, -, h⟩ | ⟨rfl, -, h⟩ | ⟨rfl, -, h⟩ | ⟨rfl, -, h⟩ | ⟨rfl, -, h⟩ | ⟨rfl, -, h⟩ | ⟨rfl, -, h⟩
  · exact encGps_detects (error_of_map_some h.symm)
  · exact encBattery_detects (error_of_map_some h.symm)
  · exact encVario_detects (error_of_map_some h.symm)
  · exact encBaroAlt_detects (error_of_map_some h.symm)
  · exact encAirspeed_detects (error_of_map_some h.symm)
  · exact encAttitude_detects (error_of_map_some h.symm)
  · exact encRpm_detects h.symm

/-! ### Each operation reports with its row -/

theorem answerPayload_reports (s : State) {op : OpName} {r : Except FieldError (List Byte)}
    (h : ∀ e, r = .error e → Detects op (.fieldOutOfRange e)) : Reports s (s.answerPayload op r) := by
  cases r with
  | ok p => exact answer_reports s op _
  | error e => exact raise_reports s (h e rfl)

theorem acceptChannels_reports (s : State) (c : Vector (BitVec 16) 16) : Reports s (s.acceptChannels c) := by
  unfold State.acceptChannels
  split
  · exact raise_only_reports s
  · exact emit_reports s trivial

theorem dispatchPacket_reports (s : State) (ty : Byte) (p : List Byte) : Reports s (s.dispatchPacket ty p) := by
  unfold State.dispatchPacket
  split
  · split
    · exact acceptChannels_reports s _
    · exact raise_only_reports s
  · exact .refl s

theorem sendNet_reports (s : State) (pkt : List Byte) : Reports s (s.sendNet pkt) :=
  emit_reports { s with netAnswers := s.netAnswers.tail } trivial

theorem forward_reports (s : State) (pkt : List Byte) : Reports s (s.forward pkt) := by
  unfold State.forward
  split
  · exact sendNet_reports s pkt
  · exact (sendNet_reports s pkt).trans (raise_only_reports _)
  · exact sendNet_reports s pkt

theorem rxResult_reports (s : State) (r : FrameResult) : Reports s (s.rxResult r) := by
  cases r with
  | ok frame =>
    simp only [State.rxResult]
    split
    · exact (forward_reports s _).trans (dispatchPacket_reports _ _ _)
    · exact forward_reports s _
  | crcError => exact raise_only_reports (State.statsPush { s with crcErrCnt := s.crcErrCnt + 1 } .err)

theorem receive_reports (s : State) (r : ReadResult) : Reports s (s.receive r) := by
  cases r with
  | closed => exact raise_only_reports { s with rxClosed := true }
  | bytes r =>
    rw [receive_eq_handled s r rfl, ← rxResults_eq_handled]
    exact foldl_reports rxResult_reports _ _

theorem netDatagram_reports (s : State) (d : List Byte) : Reports s (s.netDatagram d) := by
  unfold State.netDatagram
  split
  · exact raise_only_reports s
  · split
    · exact .refl s
    · exact raise_only_reports s

theorem dequeue_out (s : State) (queue : TxQueue) : (s.dequeue queue).out = s.out := by cases queue <;> rfl

theorem writeHead_reports (s : State) : Reports s s.writeHead := by
  unfold State.writeHead
  split
  · exact .refl s
  · rename_i f _
    have written : Reports s ((s.dequeue s.txChoice).writeFrame f) :=
      (Reports.of_out_eq (dequeue_out s _)).trans
        (emit_reports { s.dequeue s.txChoice with txAnswers := (s.dequeue s.txChoice).txAnswers.tail } trivial)
    simp only
    split
    · exact written
    · exact written.trans (raise_only_reports { (s.dequeue s.txChoice).writeFrame f with txClosed := true })

theorem loadRecord_out (s : State) (rec : TelemetryRecord) : (s.loadRecord rec).out = s.out := by
  unfold State.loadRecord
  simp only
  split
  · split <;> rfl
  all_goals rfl

theorem queueTelemetry_reports (s : State) (pair : Byte × List Byte) : Reports s (s.queueTelemetry pair) := by
  unfold State.queueTelemetry
  split
  · exact .refl s
  · exact raise_only_reports s

theorem tick_reports (s : State) : Reports s s.tick := by
  unfold State.tick
  simp only
  split
  · exact (raiseFields_reports { s with nextTick := s.nextTick + Config.tickMs } encodeErrors_detects).trans
      (foldl_reports queueTelemetry_reports _ _)
  · exact .refl s

theorem bcSend_reports (plan : BcPlan) (d : List Byte) (s : State) (a : Addr) : Reports s (State.bcSend plan d s a) := by
  unfold State.bcSend
  split
  · exact (emit_reports s (o := .bcTx a d .failed) trivial).trans
      (raise_only_reports { s.emit (.bcTx a d .failed) with dest := destErase a s.dest })
  · exact emit_reports s trivial

theorem broadcast_reports (s : State) (d : List Byte) : Reports s (s.broadcast d) :=
  foldl_reports (bcSend_reports s.bcPlan d) (walkOrder s.bcPlan s.dest) { s with bcPlans := s.bcPlans.tail }

theorem reportStats_reports (s : State) : Reports s s.reportStats := ⟨_, rfl, by simp [Output.HasRow]⟩

theorem registerDest_out (s : State) (a : Addr) : (s.registerDest a).out = s.out := by rw [registerDest_dest]

theorem control_out (s : State) (m : List Byte) (a : Addr) : (s.control m a).out = s.out := by
  unfold State.control
  split
  · split_ifs
    · exact registerDest_out s a
    all_goals rfl
  · rfl

theorem exec_reports {i : Instr} {s t : State} (h : exec i s = .next t) : Reports s t := by
  cases i with
  | gps | vario | batterySensor | baroAlt | airspeed | heartbeat | rpm | temp | voltages | videoTransmitter
  | linkStatistics | rcChannelsPacked | linkStatisticsRx | linkStatisticsTx | attitude | flightMode | deviceInfo
  | configRead | configWrite | radioId | rxTick => exact (receive_reports s _).of_enabled h
  | crc8 | scan | unpack => exact (answer_reports s _ _).of_enabled h
  | build ty p =>
    refine .of_enabled ?_ h
    split
    · exact answer_reports s _ _
    · exact raise_only_reports s
  | pack c =>
    refine .of_enabled ?_ h
    split
    · exact answer_reports s _ _
    · exact raise_only_reports s
  | encGps => exact (answerPayload_reports s fun _ => encGps_detects).of_enabled h
  | encBattery => exact (answerPayload_reports s fun _ => encBattery_detects).of_enabled h
  | encVario => exact (answerPayload_reports s fun _ => encVario_detects).of_enabled h
  | encBaroAlt => exact (answerPayload_reports s fun _ => encBaroAlt_detects).of_enabled h
  | encAirspeed => exact (answerPayload_reports s fun _ => encAirspeed_detects).of_enabled h
  | encAttitude => exact (answerPayload_reports s fun _ => encAttitude_detects).of_enabled h
  | encRpm =>
    refine .of_enabled ?_ h
    split
    · exact answer_reports s _ _
    · exact answer_reports s _ _
    · rename_i failed
      exact raise_reports s (encRpm_detects failed)
  | encode =>
    exact ((raiseFields_reports s encodeErrors_detects).trans (answer_reports _ _ _)).of_enabled h
  | dispatch ty p => exact (dispatchPacket_reports s ty p).of_enabled h
  | netIn d => exact (netDatagram_reports s d).of_enabled h
  | txWrite => exact (writeHead_reports s).of_enabled h
  | telLoad rec => exact (Reports.of_out_eq (loadRecord_out s rec)).of_enabled h
  | telTick => exact (tick_reports s).of_enabled h
  | statsReport => exact (reportStats_reports s).of_enabled h
  | register a => exact (Reports.of_out_eq (registerDest_out s a)).of_enabled h
  | ctlMsg m a => exact (Reports.of_out_eq (control_out s m a)).of_enabled h
  | unregister a => exact (Reports.of_out_eq (s := s) (t := s.unregisterDest a) rfl).of_enabled h
  | quit a => exact (Reports.of_out_eq (s := s) (t := s.quitBroadcast) rfl).of_enabled h
  | stop => exact (Reports.of_out_eq (s := s) (t := s.stopBlock) rfl).of_enabled h
  | bcast d => exact (broadcast_reports s d).of_enabled h

/-- Taking a line off the schedule, resetting and the clock add no output, so the instruction that runs decides. -/
theorem Line.reports {s t : State} (h : Line s t) : Reports s t := by
  cases h with
  | presented p i rest _ _ ht => exact exec_reports (s := { s with stimulus := rest }) ht
  | ticked rest _ _ ht => exact exec_reports (s := { s with stimulus := rest, now := max s.now s.nextTick }) ht
  | reported rest ms _ _ _ ht => exact exec_reports (s := { s with stimulus := rest, now := ms }) ht
  | unanswered rest ms _ _ _ ht => exact exec_reports (s := { s with stimulus := rest, now := ms }) ht
  | idle _ ht => subst ht; exact .refl t
  | clock _ _ _ _ ht | shut _ _ _ ht | signalled _ _ _ ht | heldOff _ _ _ _ ht | reset _ _ ht => subst ht; exact .refl s

/-- Settles O58: every line of the schedule adds only events that have their row (`Line.reports`). -/
theorem errorEvents : Obligations.ErrorEvents :=
  fun s t _ _ _ h added => (step_line s t h).reports.mem_drop added

end Sys2Proof.Machine
end

/-! ## Exceptions: corrupt frames, rejected presentations, closed streams, and STOP

What stands here settles O4, O9, O41, O44 and O54. A corrupt frame is one CrcError of a scan (`scan_corrupt`); what a line of
the schedule can do but answer a next state, `LineOutcome` says once. -/

section

open Sys2Proof Sys2Proof.Machine Sys2Proof.Claims

namespace Sys2Proof.Machine

/-! ### A complete frame that is not valid (60_exceptions.md R301, 30_encoding.md R105) -/

theorem frameCode_ne_sync (t : FrameType) : t.code ≠ Config.sync := by cases t <;> decide

/-- A candidate with a length byte below 2 or a crc byte that differs is a CrcError (41_frame_codec.md R155). -/
theorem judge_corrupt (type len : Byte) {rest : List Byte} (hlen : rest.length + 1 = len.toNat)
    (bad : len.toNat < 2 ∨ crc8 (type :: rest.dropLast) ≠ rest.getLastD 0x00#8) :
    judge (Config.sync :: len :: type :: rest) = .crcError := by
  rcases Nat.lt_or_ge len.toNat 2 with short | long
  · exact judge_short len _ short
  · rcases List.eq_nil_or_concat' rest with rfl | ⟨checked, crc, rfl⟩
    · rw [List.length_nil] at hlen; omega
    · have differs : crc8 (type :: checked) ≠ crc := by simpa [Nat.not_lt.mpr long] using bad
      have counted : (type :: checked).length + 1 = len.toNat := by simpa using hlen
      exact (judge_of_checked len (type :: checked) crc counted long).trans (if_neg differs)

/-- Such a frame, scanned on its own, is one CrcError and leaves nothing. Behind a length byte of 0 the candidate ends before
the type byte, which is garbage. -/
theorem scan_corrupt (t : FrameType) (len : Byte) {rest : List Byte} (hlen : rest.length = len.toNat - 1)
    (bad : len.toNat < 2 ∨ crc8 (t.code :: rest.dropLast) ≠ rest.getLastD 0x00#8) :
    (scan (frameBytes t len rest)).1 = [.crcError] ∧ scanLeft (frameBytes t len rest) = [] := by
  rcases Nat.eq_zero_or_pos len.toNat with zero | pos
  · obtain rfl : rest = [] := List.length_eq_zero_iff.mp (by omega)
    obtain ⟨found, left⟩ := scan_candidate (g := []) len [] [t.code] (by simp) (by simp [zero]) (by simp)
    have garbage : (scan [t.code]).1 = [] ∧ scanLeft [t.code] = [] :=
      scan_garbage (g := [t.code]) [] (by simpa using (frameCode_ne_sync t).symm)
    rw [judge_short len [] (by omega), garbage.1] at found
    exact ⟨found, left.trans garbage.2⟩
  · have counted : rest.length + 1 = len.toNat := by omega
    obtain ⟨found, left⟩ := scan_candidate (g := []) len (t.code :: rest) [] (by simp) counted (by simp)
    rw [judge_corrupt t.code len counted bad, List.append_nil] at found
    rw [List.append_nil] at left
    exact ⟨found, left⟩

/-- Settles O44: one read takes the frame whole, and its scan is one CrcError (`scan_corrupt`), which RX_TICK counts. -/
theorem corruptFrameCounted : Obligations.CorruptFrameCounted := by
  intro t len rest s hs hc hb hlen hf bad
  have size : rest.length + 3 = (frameBytes t len rest).length := rfl
  rw [size] at hf ⊢
  obtain ⟨found, left⟩ := scan_corrupt t len hlen bad
  have some_bytes : frameBytes t len rest ≠ [] := List.cons_ne_nil _ _
  rw [exec_ofFrame, exec_rxTick hs hc, receive_eq_handled s _ (readSize_of_fits hf), List.take_length, hb, List.nil_append,
    drop_scan, found, left, if_pos rfl, if_neg some_bytes]
  rfl

/-! ### Presentations the decoder rejects (30_encoding.md R122, 60_exceptions.md R314) -/

theorem decodeOp_eq_illegal {onCmd : Bool} {opid : Byte} (h : ∀ op : OpName, opid = op.opid → op.invocable ≠ onCmd)
    (x : Operand) : decodeOp onCmd opid x = .error (.illegalOperation opid) := by
  unfold decodeOp
  split
  case h_1 => rfl
  case h_2 op listed => exact if_neg (h op (opOf_eq_some listed))

theorem decodeOp_eq_illTyped {op : OpName} {x : Operand} (h : instrOfOp op x = none) :
    decodeOp op.invocable op.opid x = .error (.illTyped op.opid) := by simp [decodeOp, h]

/-- The column "invocable on CMD" of R122. -/
theorem mem_invocable_iff (opid : Byte) :
    opid ∈ [0x01#8, 0x02#8, 0x03#8, 0x04#8, 0x05#8, 0x10#8, 0x11#8, 0x12#8, 0x13#8, 0x14#8, 0x15#8, 0x16#8, 0x17#8] ↔
      ∃ op : OpName, opid = op.opid ∧ op.invocable = true := by
  have column : [0x01#8, 0x02#8, 0x03#8, 0x04#8, 0x05#8, 0x10#8, 0x11#8, 0x12#8, 0x13#8, 0x14#8, 0x15#8, 0x16#8, 0x17#8] =
      (opTable.filter fun e => e.2.invocable).map Prod.fst := rfl
  rw [column, List.mem_map]
  constructor
  · rintro ⟨⟨b, op⟩, row, rfl⟩
    obtain ⟨listed, invocable⟩ := List.mem_filter.mp row
    exact ⟨op, opTable_opid (b, op) listed, invocable⟩
  · rintro ⟨op, rfl, invocable⟩
    obtain ⟨before, after, split, -⟩ := List.lookup_eq_some_iff.mp (opOf_opid op)
    exact ⟨(op.opid, op), List.mem_filter.mpr ⟨by simp [split], invocable⟩, rfl⟩

/-- The refusal of a step for a presentation the decoder rejects. -/
def refusalOf (e : Reject) : Refusal :=
  match e with
  | .illegalOperation opid => .illegalOperation opid
  | .illTyped opid => .illTyped opid

theorem runLine_rejected {p : Presented} {e : Reject} (h : decode p = .error e) (s : State) :
    runLine (.present p) s = .refused (refusalOf e) := by
  simp only [runLine, runPresented, h]
  cases e <;> rfl

/-- Settles O4: the decoder rejects on CMD what is not invocable (`mem_invocable_iff`), and what is invocable on an operand
that picks no row of `instrOfOp`. -/
theorem cmdRefusals : Obligations.CmdRefusals := by
  refine fun s opid x rest h => ⟨fun unlisted => ?illegal, fun listed undecoded => ?illTyped⟩
  all_goals rw [step_cons h]
  case illegal =>
    rw [mem_invocable_iff] at unlisted
    exact runLine_rejected (p := .cmd opid x)
      (decodeOp_eq_illegal (fun op hop invocable => unlisted ⟨op, hop, invocable⟩) x) _
  case illTyped =>
    obtain ⟨op, rfl, invocable⟩ := (mem_invocable_iff opid).mp listed
    have no_row : instrOfOp op x = none := Option.eq_none_iff_forall_ne_some.mpr fun i hi =>
      undecoded i ((decodeOp_eq_ok_iff true op.opid x i).mpr ⟨op, rfl, invocable, hi⟩)
    have rejected := decodeOp_eq_illTyped no_row
    rw [invocable] at rejected
    exact runLine_rejected (p := .cmd op.opid x) rejected _

/-! ### What stops a step (60_exceptions.md section 1, R325) -/

/-- What a line of the schedule can do: answer a next state, or stop the step in one of two ways. -/
inductive LineOutcome (line : Stimulus) (s : State) : Prop where
  | answers (t : State) (h : runLine line s = .next t)
  | clockBack (ms : Nat) (hl : line = .now ms) (back : ms < s.now)
  | rejected (p : Presented) (e : Reject) (hl : line = .present p) (hd : decode p = .error e)

theorem LineOutcome.of_next {line : Stimulus} {s : State} (h : ∃ t, runLine line s = .next t) : LineOutcome line s :=
  h.elim .answers

/-- A line that brings its trigger with it runs an instruction, or is held off. -/
theorem ite_exec_next {c : Prop} [Decidable c] (i : Instr) (s u : State) :
    ∃ t, (if c then exec i u else .next s) = .next t := by
  split
  · exact exec_next i u
  · exact ⟨s, rfl⟩

theorem runLine_outcome (line : Stimulus) (s : State) : LineOutcome line s := by
  cases line with
  | present p =>
    cases hd : decode p with
    | ok i => exact .of_next (runLine_present hd s ▸ exec_next i s)
    | error e => exact .rejected p e rfl hd
  | now ms =>
    rcases Nat.lt_or_ge ms s.now with back | forward
    · exact .clockBack ms rfl back
    · exact .answers _ (runLine_now_forward forward)
  | tick | shutdown | period | timeout => exact .of_next (ite_exec_next _ _ _)
  | signal | reset => exact .answers _ rfl

theorem runLine_eq_fault_iff (line : Stimulus) (s : State) (f : Fault) :
    runLine line s = .fault f ↔ ∃ ms, line = .now ms ∧ ms < s.now ∧ f = .clockWentBack s.now ms := by
  constructor
  · intro h
    cases runLine_outcome line s with
    | answers t ht => rw [ht] at h; cases h
    | clockBack ms hl back => subst hl; rw [runLine_now_back back] at h; cases h; exact ⟨ms, rfl, back, rfl⟩
    | rejected p e hl hd => subst hl; rw [runLine_rejected hd] at h; cases h
  · rintro ⟨ms, rfl, back, rfl⟩
    exact runLine_now_back back

theorem runLine_eq_refused_iff (line : Stimulus) (s : State) (r : Refusal) :
    runLine line s = .refused r ↔ ∃ p e, line = .present p ∧ decode p = .error e ∧ r = refusalOf e := by
  constructor
  · intro h
    cases runLine_outcome line s with
    | answers t ht => rw [ht] at h; cases h
    | clockBack ms hl back => subst hl; rw [runLine_now_back back] at h; cases h
    | rejected p e hl hd => subst hl; rw [runLine_rejected hd] at h; cases h; exact ⟨p, e, rfl, hd, rfl⟩
  · rintro ⟨p, e, rfl, hd, rfl⟩
    exact runLine_rejected hd s

/-- Settles O9: an instruction always answers (`exec_next`), so a step stops where its line does. -/
theorem whereStepsStop : Obligations.WhereStepsStop := by
  refine ⟨exec_next, fun s f => ?fault, fun s r => ?refusal⟩
  case fault =>
    cases h : s.stimulus with
    | nil => simp [step_nil h]
    | cons line rest =>
      rw [step_cons h, runLine_eq_fault_iff]
      simp
  case refusal =>
    cases h : s.stimulus with
    | nil => simp [step_nil h]
    | cons line rest =>
      rw [step_cons h, runLine_eq_refused_iff]
      constructor
      · rintro ⟨p, e, rfl, hd, rfl⟩
        cases e with
        | illegalOperation opid => exact ⟨p, rest, opid, rfl, .inl ⟨hd, rfl⟩⟩
        | illTyped opid => exact ⟨p, rest, opid, rfl, .inr ⟨hd, rfl⟩⟩
      · rintro ⟨p, rest', opid, presented, ⟨hd, rfl⟩ | ⟨hd, rfl⟩⟩
        all_goals exact ⟨p, _, (List.cons.inj presented).1, hd, rfl⟩

/-! ### STOP, and a closed stream (60_exceptions.md R309, R316) -/

theorem exec_stop_of_requested {s : State} (hs : s.stopped = false)
    (request : s.shutdown = true ∨ s.rxClosed = true ∨ s.txClosed = true) :
    exec .stop s = .next { s with stopped := true, shutdown := false } :=
  congrArg Host.Outcome.next (if_pos ((stopEnabled_iff s).mpr ⟨hs, request⟩))

/-- Settles O54: STOP has a request where it is enabled, and else is held off. -/
theorem stopRuns : Obligations.StopRuns := by
  refine fun s hs => ⟨rfl, exec_stop_of_requested hs, fun signal rx tx => held_off ?_⟩
  rw [← Bool.not_eq_true, stopEnabled_iff]
  simp [signal, rx, tx]

/-- Settles O41: the reception by its rule, the write as O49 has it (`txWriteRuns`), then what is held off, and STOP. -/
theorem streamsClosed : Obligations.StreamsClosed := by
  refine fun s => ⟨fun hs hc => exec_rxTick hs hc .closed, fun hs hc closed f q => ?write,
    fun hc => ⟨fun r => exec_rxTick_of_closed r hc, fun _ _ => held_off (rxEnabled_of_closed hc)⟩,
    fun hc => held_off (txEnabled_of_closed hc), fun hs hc => exec_stop_of_requested hs (.inr hc)⟩
  obtain ⟨net, tel⟩ := txWriteRuns s f q hs hc
  exact ⟨fun queued pick => (net queued pick).2 closed, fun queued pick => (tel queued pick).2 closed⟩

end Sys2Proof.Machine
end

/-! ## Reset, and the elements that hold no value

What stands here settles O7, O8 and O59. `State.setUnvalued` gives LAST_REC, ALT_START and CH other values where their valid
bits are 0. Every instruction commutes with it: TEL_LOAD and DISPATCH set a valid bit only together with the value, and
TEL_TICK and the change mask look at a value only where its bit is 1. A reset event forgets the other values. -/

section

open Sys2Proof Sys2Proof.Machine Sys2Proof.Claims

namespace Sys2Proof.Machine

/-! ### The reset event and the reset state (70_reset_and_hazards.md R340 to R342) -/

theorem resetEvent_resetState (s : State) : ResetState s.resetEvent := by
  simp [ResetState, State.resetEvent, State.reset, Config.tickMs]

theorem runLine_reset (s : State) : runLine .reset s = .next s.resetEvent := rfl

theorem resetEvent_reset : State.reset.resetEvent = State.reset := rfl

/-- Settles O7: the line RESET answers `State.resetEvent`. -/
theorem resetEvent : Obligations.ResetEvent := by
  intro s rest h
  exact ⟨_, (step_cons h).trans (runLine_reset _), resetEvent_resetState _, rfl, rfl, rfl, rfl, rfl, rfl, rfl, rfl, rfl, rfl⟩

/-- Settles O8: a reset event changes nothing in the reset state, so what holds after one holds there. -/
theorem resetIsResetState : Obligations.ResetIsResetState := by
  have block : ResetState State.reset := resetEvent_reset ▸ resetEvent_resetState State.reset
  exact ⟨block, memory_wf_reset, rfl, rfl, rfl, rfl, rfl, rfl, rfl, rfl, rfl, rfl, rfl, rfl⟩

/-! ### The three elements without a value (10_state.md R53) -/

/-- `s` with these values of LAST_REC, ALT_START and CH, each where its valid bit is 0. -/
def State.setUnvalued (r : TelemetryRecord) (a : RealLit) (c : Vector Chan 16) (s : State) : State :=
  { s with
    lastRec := if s.lastValid then s.lastRec else r
    altStart := if s.altStartValid then s.altStart else a
    ch := if s.chValid then s.ch else c }

theorem setUnvalued_self (s : State) : s.setUnvalued s.lastRec s.altStart s.ch = s := by simp [State.setUnvalued]

section
variable {r : TelemetryRecord} {a : RealLit} {c : Vector Chan 16}

/-! ### The receive path -/

/-- The first mask is all ones, whatever CH is; a later one finds CH valid (44_router_bridge.md R255). -/
theorem changeMask_unvalued (valid : Bool) (cur prev : Vector Chan 16) :
    changeMask (!valid) cur (if valid then prev else c) = changeMask (!valid) cur prev := by
  cases valid with
  | true => rfl
  | false => rfl

theorem acceptChannels_setUnvalued (s : State) (v : Vector (BitVec 16) 16) :
    (s.setUnvalued r a c).acceptChannels v = (s.acceptChannels v).setUnvalued r a c := by
  have bound : (s.setUnvalued r a c).params.axisMax = s.params.axisMax := rfl
  have mask (cur : Vector Chan 16) : changeMask (!(s.setUnvalued r a c).chValid) cur (s.setUnvalued r a c).ch =
      changeMask (!s.chValid) cur s.ch := changeMask_unvalued s.chValid cur s.ch
  unfold State.acceptChannels
  simp only [bound, mask]
  cases firstOver s.params.axisMax (v.toList.map (·.toNat)) with
  | some e => rfl
  | none => rfl

theorem dispatchPacket_setUnvalued (s : State) (ty : Byte) (p : List Byte) :
    (s.setUnvalued r a c).dispatchPacket ty p = (s.dispatchPacket ty p).setUnvalued r a c := by
  unfold State.dispatchPacket
  split
  · split
    · exact acceptChannels_setUnvalued s _
    · rfl
  · rfl

theorem forward_setUnvalued (s : State) (pkt : List Byte) :
    (s.setUnvalued r a c).forward pkt = (s.forward pkt).setUnvalued r a c := by
  have answer : (s.setUnvalued r a c).netAnswer = s.netAnswer := rfl
  unfold State.forward
  rw [answer]
  cases s.netAnswer with
  | sent | unreachable | notConnected => rfl

theorem rxResult_setUnvalued (s : State) (res : FrameResult) :
    (s.setUnvalued r a c).rxResult res = (s.rxResult res).setUnvalued r a c := by
  cases res with
  | crcError => rfl
  | ok f =>
    unfold State.rxResult
    simp only [forward_setUnvalued]
    cases inner f with
    | nil => rfl
    | cons ty payload => exact dispatchPacket_setUnvalued _ ty payload

theorem scanRxbuf_setUnvalued (s : State) : (s.setUnvalued r a c).scanRxbuf = s.scanRxbuf.setUnvalued r a c :=
  List.foldl_hom (State.setUnvalued r a c) (init := { s with rxbuf := s.rxbuf.drop (scan s.rxbuf).2 }) rxResult_setUnvalued

theorem appendRead_setUnvalued (s : State) (b : List Byte) :
    (s.setUnvalued r a c).appendRead b = (s.appendRead b).setUnvalued r a c := by
  rw [appendRead_eq, appendRead_eq]
  rfl

theorem unread_setUnvalued (s : State) (rest : List Byte) :
    (s.setUnvalued r a c).unread rest = (s.unread rest).setUnvalued r a c := by
  rw [unread_eq, unread_eq]
  rfl

theorem receive_setUnvalued (s : State) (read : ReadResult) :
    (s.setUnvalued r a c).receive read = (s.receive read).setUnvalued r a c := by
  cases read with
  | closed => rfl
  | bytes b =>
    change (((s.setUnvalued r a c).unread _).appendRead _).scanRxbuf = _
    rw [unread_setUnvalued, appendRead_setUnvalued, scanRxbuf_setUnvalued]
    rfl

/-! ### The return direction -/

theorem netDatagram_setUnvalued (s : State) (d : List Byte) :
    (s.setUnvalued r a c).netDatagram d = (s.netDatagram d).setUnvalued r a c := by
  cases d with
  | nil => rfl
  | cons ty payload =>
    unfold State.netDatagram
    simp only
    cases build ty payload with
    | ok f => rfl
    | error n => rfl

theorem writeHead_setUnvalued (s : State) : (s.setUnvalued r a c).writeHead = s.writeHead.setUnvalued r a c := by
  have choice : (s.setUnvalued r a c).txChoice = s.txChoice := rfl
  have head : (s.setUnvalued r a c).headOf s.txChoice = s.headOf s.txChoice := rfl
  have answer : (s.setUnvalued r a c).writeAnswer = s.writeAnswer := rfl
  have dequeued : (s.setUnvalued r a c).dequeue s.txChoice = (s.dequeue s.txChoice).setUnvalued r a c := by
    cases s.txChoice with
    | net | tel => rfl
  unfold State.writeHead
  rw [choice, head, answer, dequeued]
  cases s.headOf s.txChoice with
  | none => rfl
  | some f =>
    cases s.writeAnswer with
    | accepted | closed => rfl

/-! ### The telemetry encoder -/

theorem answerPayload_setUnvalued (s : State) (op : OpName) (x : Except FieldError (List Byte)) :
    (s.setUnvalued r a c).answerPayload op x = (s.answerPayload op x).setUnvalued r a c := by
  cases x with
  | ok payload => rfl
  | error e => rfl

/-- TEL_LOAD sets each valid bit together with its value (43_telemetry_encoder.md R228). -/
theorem loadRecord_setUnvalued (s : State) (rec : TelemetryRecord) :
    (s.setUnvalued r a c).loadRecord rec = (s.loadRecord rec).setUnvalued r a c := by
  have latched : (s.setUnvalued r a c).altStartValid = s.altStartValid := rfl
  unfold State.loadRecord
  rw [latched]
  cases rec.pos.y with
  | nan | posInf | negInf => rfl
  | fin y =>
    simp only
    split
    · rfl
    · rfl

theorem queueTelemetry_setUnvalued (s : State) (pair : Byte × List Byte) :
    (s.setUnvalued r a c).queueTelemetry pair = (s.queueTelemetry pair).setUnvalued r a c := by
  unfold State.queueTelemetry
  cases build pair.1 pair.2 with
  | ok f => rfl
  | error n => rfl

theorem queueTelemetries_setUnvalued (s : State) (pairs : List (Byte × List Byte)) :
    pairs.foldl State.queueTelemetry (s.setUnvalued r a c) = (pairs.foldl State.queueTelemetry s).setUnvalued r a c :=
  List.foldl_hom (State.setUnvalued r a c) queueTelemetry_setUnvalued

/-- TEL_TICK encodes the record only where both valid bits are 1, and then it is the same one (43_telemetry_encoder.md
R230). -/
theorem tick_setUnvalued (s : State) : (s.setUnvalued r a c).tick = s.tick.setUnvalued r a c := by
  have bits : ((s.setUnvalued r a c).lastValid && (s.setUnvalued r a c).altStartValid) =
      (s.lastValid && s.altStartValid) := rfl
  unfold State.tick
  simp only [bits]
  split
  · rename_i valid
    obtain ⟨loaded, latched⟩ := (Bool.and_eq_true _ _).mp valid
    have record : (s.setUnvalued r a c).lastRec = s.lastRec := if_pos loaded
    have start : (s.setUnvalued r a c).altStart = s.altStart := if_pos latched
    have pairs : encodePairs (s.setUnvalued r a c).params (s.setUnvalued r a c).lastRec
        (ofLit (s.setUnvalued r a c).altStart) = encodePairs s.params s.lastRec (ofLit s.altStart) := by
      rw [record, start]
      rfl
    have errors : encodeErrors (s.setUnvalued r a c).params (s.setUnvalued r a c).lastRec
        (ofLit (s.setUnvalued r a c).altStart) = encodeErrors s.params s.lastRec (ofLit s.altStart) := by
      rw [record, start]
      rfl
    rw [pairs, errors]
    exact queueTelemetries_setUnvalued (State.raiseFields { s with nextTick := s.nextTick + Config.tickMs } _) _
  · rfl

/-! ### The broadcaster -/

theorem bcSend_setUnvalued (plan : BcPlan) (d : List Byte) (s : State) (addr : Addr) :
    State.bcSend plan d (s.setUnvalued r a c) addr = (State.bcSend plan d s addr).setUnvalued r a c := by
  unfold State.bcSend
  split
  · rfl
  · rfl

theorem BroadcasterOp.setUnvalued {op : State → State} (h : BroadcasterOp op) (s : State) :
    op (s.setUnvalued r a c) = (op s).setUnvalued r a c := by
  cases h with
  | ignore | unregister | quit => rfl
  | register addr =>
    have room : (s.setUnvalued r a c).destHasRoom = s.destHasRoom := rfl
    have dest : (s.setUnvalued r a c).dest = s.dest := rfl
    simp only [State.registerDest, room, dest]
    split
    · rfl
    · rfl
  | broadcast d =>
    exact List.foldl_hom (State.setUnvalued r a c) (init := { s with bcPlans := s.bcPlans.tail }) (bcSend_setUnvalued _ d)

/-! ### Every instruction, every line -/

/-- No precondition is about the three elements, so an operation commutes where its effect does. -/
theorem next_setUnvalued {e : Bool} {s t u u' : State} (hu : u' = u.setUnvalued r a c)
    (ht : (.next (if e = true then u else s) : Host.Outcome State Fault Refusal) = .next t) :
    (.next (if e = true then u' else s.setUnvalued r a c) : Host.Outcome State Fault Refusal) =
      .next (t.setUnvalued r a c) := by
  subst hu
  rcases enabled_or_same ht with ⟨rfl, rfl⟩ | ⟨rfl, rfl⟩
  · rfl
  · rfl

theorem exec_broadcaster_setUnvalued {i : Instr} {s t : State} (hi : isBroadcaster i = true)
    (ht : exec i s = .next t) : exec i (s.setUnvalued r a c) = .next (t.setUnvalued r a c) := by
  obtain ⟨op, hop, run⟩ := exec_broadcaster hi
  rw [run] at ht ⊢
  exact next_setUnvalued (hop.setUnvalued s) ht

theorem exec_setUnvalued {i : Instr} {s t : State} (ht : exec i s = .next t) :
    exec i (s.setUnvalued r a c) = .next (t.setUnvalued r a c) := by
  cases i with
  | gps | vario | batterySensor | baroAlt | airspeed | heartbeat | rpm | temp | voltages | videoTransmitter
  | linkStatistics | rcChannelsPacked | linkStatisticsRx | linkStatisticsTx | attitude | flightMode | deviceInfo
  | configRead | configWrite | radioId | rxTick => exact next_setUnvalued (receive_setUnvalued s _) ht
  | register | unregister | quit | ctlMsg | bcast => exact exec_broadcaster_setUnvalued rfl ht
  | crc8 | scan | unpack | encode | statsReport | stop => exact next_setUnvalued rfl ht
  | build ty payload =>
    refine next_setUnvalued ?_ ht
    cases build ty payload with
    | ok f => rfl
    | error n => rfl
  | pack v =>
    refine next_setUnvalued ?_ ht
    cases pack v with
    | ok b => rfl
    | error e => rfl
  | encGps | encBattery | encVario | encBaroAlt | encAirspeed | encAttitude =>
    exact next_setUnvalued (answerPayload_setUnvalued s _ _) ht
  | encRpm rotors =>
    have encoded : encRpm (s.setUnvalued r a c).params rotors = encRpm s.params rotors := rfl
    refine next_setUnvalued ?_ ht
    rw [encoded]
    cases encRpm s.params rotors with
    | error e => rfl
    | ok answered =>
      cases answered with
      | some payload => rfl
      | none => rfl
  | dispatch ty p => exact next_setUnvalued (dispatchPacket_setUnvalued s ty p) ht
  | netIn d => exact next_setUnvalued (netDatagram_setUnvalued s d) ht
  | txWrite => exact next_setUnvalued (writeHead_setUnvalued s) ht
  | telLoad rec => exact next_setUnvalued (loadRecord_setUnvalued s rec) ht
  | telTick => exact next_setUnvalued (tick_setUnvalued s) ht

/-- A line that brings its trigger with it runs an instruction on `u`, or is held off. -/
theorem ite_exec_setUnvalued {e : Prop} [Decidable e] {i : Instr} {s t u : State}
    (ht : (if e then exec i u else .next s) = .next t) :
    (if e then exec i (u.setUnvalued r a c) else .next (s.setUnvalued r a c)) = .next (t.setUnvalued r a c) := by
  by_cases on : e
  · rw [if_pos on] at ht ⊢
    exact exec_setUnvalued ht
  · rw [if_neg on] at ht ⊢
    rw [Host.Outcome.next.inj ht]

theorem runLine_setUnvalued {line : Stimulus} {s t : State} (hl : line ≠ .reset) (ht : runLine line s = .next t) :
    runLine line (s.setUnvalued r a c) = .next (t.setUnvalued r a c) := by
  cases line with
  | reset => exact absurd rfl hl
  | present p =>
    cases hd : decode p with
    | ok i =>
      rw [runLine_present hd] at ht ⊢
      exact exec_setUnvalued ht
    | error e =>
      rw [runLine_rejected hd] at ht
      cases ht
  | now ms =>
    rcases Nat.lt_or_ge ms s.now with back | forward
    · rw [runLine_now_back back] at ht
      cases ht
    · rw [runLine_now_forward forward] at ht
      rw [runLine_now_forward (s := s.setUnvalued r a c) forward, ← Host.Outcome.next.inj ht]
      rfl
  | tick | shutdown | period | timeout => exact ite_exec_setUnvalued ht
  | signal => exact next_setUnvalued rfl ht

/-- A reset event gives the three elements their reset values, whatever they were. -/
theorem resetEvent_setUnvalued (s : State) : (s.setUnvalued r a c).resetEvent = s.resetEvent := rfl

end

theorem step_setUnvalued {s t : State} (r : TelemetryRecord) (a : RealLit) (c : Vector Chan 16) (ht : step s = .next t) :
    ∃ r' a' c', step (s.setUnvalued r a c) = .next (t.setUnvalued r' a' c') := by
  cases hs : s.stimulus with
  | nil =>
    rw [step_nil hs] at ht
    rw [← Host.Outcome.next.inj ht]
    exact ⟨r, a, c, step_nil hs⟩
  | cons line rest =>
    have run : step (s.setUnvalued r a c) = runLine line (State.setUnvalued r a c { s with stimulus := rest }) :=
      step_cons hs
    rw [step_cons hs] at ht
    rw [run]
    by_cases hl : line = .reset
    · subst hl
      refine ⟨t.lastRec, t.altStart, t.ch, ?_⟩
      rw [setUnvalued_self, ← ht, runLine_reset, runLine_reset, resetEvent_setUnvalued]
    · exact ⟨r, a, c, runLine_setUnvalued hl ht⟩

/-- Settles O59: the replacement is `State.setUnvalued`, with which every step but a reset event commutes. -/
theorem unvaluedNeverRead : Obligations.UnvaluedNeverRead :=
  fun _ _ r a c h => step_setUnvalued r a c h

end Sys2Proof.Machine
end
